-- ==== Sys2Proof/Word.lean ====
section
/-!
DEFINITION. The word types of the machine and nothing else: the widths the spec gives its values
(00_scope.md R5, R6; 02_encoding.md R26).
-/

namespace Sys2Proof

/-- One byte of memory or scratchpad. -/
abbrev Byte := BitVec 8

/-- A 32-bit register value or instruction word (R26, R135). -/
abbrev W32 := BitVec 32

/-- A 64-bit value: an address pair, a pair of registers, a page-table entry (R6, R236). -/
abbrev W64 := BitVec 64

/-- A 52-bit virtual address, the width of a PC (R26, R233). -/
abbrev Addr := BitVec 52

/-- A store of words by key: strictly rising keys, no entry equal to 0, which is what an
unlisted key reads as. Memory is one of these over bytes. -/
abbrev Sparse (w : Nat) := List (Nat × BitVec w)

end Sys2Proof
end

