-- ==== Sys2Proof/Config.lean ====
section
/-!
DEFINITION. What the manual leaves open and no run may decide: the free values, each an opaque
constant applied to the counter State.fresh (or to its operands), and the named standards the
manual cites without defining them. Nothing can evaluate one of these or prove a value of it.
-/

namespace Sys2Proof.Config

/-- An unspecified 32-bit value (R8), applied to the counter State.fresh. -/
opaque freeWord : Nat → W32

/-- An unspecified byte (R8): device-private bytes of a save record, memory after a faulted copy. -/
opaque freeByte : Nat → Byte

/-- An unspecified choice between two outcomes the manual both allows. -/
opaque freeBool : Nat → Bool

/-- The bytes that stand for a barrier and for a ring in a save record (Table 16.6), whose layout the manual does not give: a
function of what the barrier or ring holds, and of the place in its 8 or 64 bytes. -/
opaque barrierByte : List Nat → Nat → Byte
opaque ringByte : List Nat → Nat → Byte

/-- What the bytes of a barrier or of a ring stand for in a record that is not as it was written (R384): number `i` of what it holds. -/
opaque barrierField : List Byte → Nat → Nat
opaque ringField : List Byte → Nat → Nat

/-- The peers and ports that Maelner's routes name (R402). -/
opaque routes : Nat → List (Nat × Nat)

/-- SHA-384 of a byte string, which R404 and R406 name and do not define. -/
opaque sha384 : List Byte → BitVec 384

/-- ECDSA P-384 verification over SHA-384: public key, signature, message (R404). -/
opaque ecdsaVerify : List Byte → List Byte → List Byte → Bool

/-- The signature the identity key gives a message (R406): the key is a fused secret. -/
opaque identitySign : List Byte → Nat → List Byte

/-- The identity key's certificate in DER encoding (R407). -/
opaque identityCert : List Byte

/-- Maelner's configuration, as the byte string that R406 measures. -/
opaque maelnerConfig : List Byte

/-- The fuse settings as the byte string that R406 measures, from the fused key hash and the fused minimum level. -/
opaque fuseSettings : BitVec 384 → W32 → List Byte

/-- CRC-32 over the 252 bytes of a flit (R400), which the manual names and does not define. -/
opaque crc32 : List Byte → W32

end Sys2Proof.Config
end

