-- ==== Sys2Proof/Syntax.lean ====
section
/-!
DEFINITION. The instructions: ONE inductive with one constructor per row of spec/opcode_table.json, and
the small types of its fields. A lane-set instruction that accepts a PREFIX (Table 2.7) carries it as
`p`; a word with no PREFIX carries the all-zero one (R40). The last constructors are the table's rows
without a word of their own: the steps of the engines, the launch engines, memory, the host and the part.
-/

namespace Sys2Proof

/-- The round field of a PREFIX (Table 2.6): a rounding mode of Table 4.3, or the mode held in FPMODE. -/
inductive Round where
  | rne -- 0: nearest, ties to even
  | rtz -- 1: toward zero
  | rup -- 2: toward +infinity
  | rdn -- 3: toward -infinity
  | rna -- 4: nearest, ties away
  | dyn -- 5: the mode held in FPMODE
deriving DecidableEq, Repr

/-- The scope field of a PREFIX or FENCE (Table 2.6, R257, R260). -/
inductive Scope where
  | dflt -- 0: device for global accesses, team for ATOMS
  | crew -- 1: the crew
  | core -- 2: the core
  | twin -- 3: the twin
  | die -- 4: the physical die
  | dev -- 5: the context
  | sys -- 6: the context, the host and every peer
deriving DecidableEq, Repr

/-- The order field of a PREFIX (Table 2.6). -/
inductive Order where
  | plain -- 0: no ordering
  | acq -- 1: acquire
  | rel -- 2: release
  | acqRel -- 3: acquire-release
deriving DecidableEq, Repr

/-- The kind of a VOTE (R133). -/
inductive VoteKind where
  | any -- 0: 1 when some member votes
  | all -- 1: 1 when every member votes
  | ballot -- 2: the ballot
  | count -- 3: the number of votes
deriving DecidableEq, Repr

/-- ICMP conditions (Table 7.5). -/
inductive IntCond where
  | eq -- 0: =
  | ne -- 1: not =
  | lt -- 2: < signed
  | le -- 3: <= signed
  | gt -- 4: > signed
  | ge -- 5: >= signed
  | ltu -- 6: < unsigned
  | leu -- 7: <= unsigned
  | gtu -- 8: > unsigned
  | geu -- 9: >= unsigned
deriving DecidableEq, Repr

/-- FCMP conditions (Table 7.7). -/
inductive FpCond where
  | eq -- 0: neither NaN and =
  | ne -- 1: either NaN or not =
  | lt -- 2: <
  | le -- 3: <=
  | gt -- 4: >
  | ge -- 5: >=
  | ord -- 6: neither is NaN
  | unord -- 7: either is NaN
deriving DecidableEq, Repr

/-- KBRA conditions (Table 2.10). -/
inductive BraCond where
  | always -- 0: always
  | zero -- 1: k(a8) = 0
  | nonzero -- 2: k(a8) not 0
  | neg -- 3: k(a8) < 0 as signed
deriving DecidableEq, Repr

/-- MLOG operations (Table 6.8). -/
inductive MlogOp where
  | and -- 0: a AND b
  | or -- 1: a OR b
  | xor -- 2: a XOR b
  | andn -- 3: a AND NOT b
  | not -- 4: NOT a
  | mov -- 5: a
deriving DecidableEq, Repr

/-- Float formats of the conversions (Tables 4.2, 7.8). -/
inductive FloatFmt where
  | f32 -- 0: binary32
  | bf16 -- 1: bfloat16
  | f16 -- 2: binary16
  | e4m3 -- 3: E4M3
  | e5m2 -- 4: E5M2
deriving DecidableEq, Repr

/-- Integer types of the conversions (Table 7.8). -/
inductive IntFmt where
  | i32 -- 0: signed 32
  | n32 -- 1: unsigned 32
  | i16 -- 2: signed 16
  | n16 -- 3: unsigned 16
  | i8 -- 4: signed 8
  | n8 -- 5: unsigned 8
deriving DecidableEq, Repr

/-- The w2 field of the LM format (R37). -/
inductive Width where
  | b8 -- 0: 1 byte
  | b16 -- 1: 2 bytes
  | b32 -- 2: 4 bytes
  | b64 -- 3: 8 bytes
deriving DecidableEq, Repr

/-- The mode of a LUT (R187). -/
inductive LutMode where
  | raw -- 0: the entry as stored
  | linear -- 1: linear interpolation
deriving DecidableEq, Repr

/-- A lane-set source field (Table 2.1): v0 to v127 of the lane, or k0 to k127 of the crew. -/
inductive Src where
  | v (r : BitVec 7)
  | k (r : BitVec 7)
deriving DecidableEq, Repr

/-- The PREFIX word's fields (Table 2.6). -/
structure Prefix where
  c : BitVec 8
  mask : BitVec 3
  inv : Bool
  zeroing : Bool
  round : Round
  sat : Bool
  scope : Scope
  order : Order
  remote : Bool
  cValid : Bool
deriving DecidableEq, Repr

/-- The all-zero PREFIX, which a word without one behaves as if it had (R40). -/
def Prefix.zero : Prefix := ⟨0#8, 0#3, false, false, .rne, false, .dflt, .plain, false, false⟩

/-- A remote command a peer sends this device (R401). -/
inductive RemoteOp where
  | load (pa size : Nat)
  | store (pa : Nat) (data : List Byte)
  | atomic (code : BitVec 8) (pa size : Nat) (operand : W64)
  | cas (pa size : Nat) (compare new : W64)
deriving DecidableEq, Repr

/-- The instructions and steps of spec/opcode_table.json. -/
inductive Instr where
  /-- NOP (R50): No operation; a NOP with a nonzero imm16 is a budget word and also executes as NOP. -/
  | nop (imm : BitVec 16)
  /-- BRA (R35): Per-lane branch, taken by each lane whose bit of m3 XOR inv is 1. -/
  | bra (m : BitVec 3) (inv : Bool) (off : BitVec 20)
  /-- BRX (R133): Each lane jumps to the 64-bit address in its register pair. -/
  | brx (a : Src)
  /-- CALL (R133): Direct call that writes the link into v0 and v1. -/
  | call (off : BitVec 20)
  /-- CALLX (R51): Per-lane indirect call: checks the target's budget word, then writes the link pair. -/
  | callx (d : BitVec 7) (a : Src)
  /-- RET (R133): Return; same effect as BRX, marked as a return for the fetch unit. -/
  | ret (a : Src)
  /-- JOIN (R124): Reconvergence point: lanes hold until no live lane of the crew is behind; the SPLIT bit opens a split region. -/
  | join (split : Bool)
  /-- EXIT (R113): The lanes of the run stop being live, and the crew's holds are re-evaluated. -/
  | exit
  /-- VOTE (R127): Convergent crew vote (any, all, ballot or count) over the member set. -/
  | vote (p : Prefix) (d : BitVec 7) (a : Src) (kind : VoteKind)
  /-- SHFL_IDX (R133): Convergent shuffle that fetches the value from an indexed lane. -/
  | shflIdx (p : Prefix) (d : BitVec 7) (a b : Src)
  /-- SHFL_UP (R133): Convergent shuffle that fetches the value from lane l minus b. -/
  | shflUp (p : Prefix) (d : BitVec 7) (a b : Src)
  /-- SHFL_DN (R133): Convergent shuffle that fetches the value from lane l plus b. -/
  | shflDn (p : Prefix) (d : BitVec 7) (a b : Src)
  /-- SHFL_XOR (R133): Convergent shuffle that fetches the value from lane l XOR b. -/
  | shflXor (p : Prefix) (d : BitVec 7) (a b : Src)
  /-- MATCH (R133): Convergent: writes the mask of the member lanes holding an equal value. -/
  | matchEq (p : Prefix) (d : BitVec 7) (a : Src)
  /-- COMPACT (R133): Convergent: writes the exclusive or inclusive count of earlier members whose predicate is nonzero. -/
  | compact (p : Prefix) (incl : Bool) (d : BitVec 7) (a : Src)
  /-- REGROUP (R133): Converges the crew, waits for the crews named in its mask, then repacks their threads by key. -/
  | regroup (d : BitVec 7) (a : Src)
  /-- ELECT (R133): Writes 1 to the lowest active lane of the run and 0 to every other active lane. -/
  | elect (p : Prefix) (d : BitVec 7)
  /-- SREG (R132): Reads a special register into each lane. -/
  | sreg (p : Prefix) (d : BitVec 7) (n : BitVec 4)
  /-- IADD (R166): Integer add, optionally saturating. -/
  | iadd (p : Prefix) (u : Bool) (d : BitVec 7) (a b : Src)
  /-- ISUB (R166): Integer subtract, optionally saturating. -/
  | isub (p : Prefix) (u : Bool) (d : BitVec 7) (a b : Src)
  /-- IMUL (R166): Integer multiply, low 32 bits or saturated. -/
  | imul (p : Prefix) (u : Bool) (d : BitVec 7) (a b : Src)
  /-- IMULH (R166): High 32 bits of the integer product. -/
  | imulh (p : Prefix) (u : Bool) (d : BitVec 7) (a b : Src)
  /-- IMAD (R166): Integer multiply-add with the fourth operand c. -/
  | imad (p : Prefix) (u : Bool) (d : BitVec 7) (a b : Src)
  /-- IMIN (R166): Integer minimum, signed or unsigned. -/
  | imin (p : Prefix) (u : Bool) (d : BitVec 7) (a b : Src)
  /-- IMAX (R166): Integer maximum, signed or unsigned. -/
  | imax (p : Prefix) (u : Bool) (d : BitVec 7) (a b : Src)
  /-- INEG (R166): Signed integer negation. -/
  | ineg (p : Prefix) (d : BitVec 7) (a : Src)
  /-- IABS (R166): Signed integer absolute value. -/
  | iabs (p : Prefix) (d : BitVec 7) (a : Src)
  /-- AND (R166): Bitwise AND. -/
  | vand (p : Prefix) (d : BitVec 7) (a b : Src)
  /-- OR (R166): Bitwise OR. -/
  | vor (p : Prefix) (d : BitVec 7) (a b : Src)
  /-- XOR (R166): Bitwise exclusive OR. -/
  | vxor (p : Prefix) (d : BitVec 7) (a b : Src)
  /-- ANDN (R166): Bitwise a AND NOT b. -/
  | andn (p : Prefix) (d : BitVec 7) (a b : Src)
  /-- SHL (R166): Shift left by b modulo 32. -/
  | shl (p : Prefix) (d : BitVec 7) (a b : Src)
  /-- SHR (R166): Logical shift right. -/
  | shr (p : Prefix) (d : BitVec 7) (a b : Src)
  /-- SAR (R166): Arithmetic shift right. -/
  | sar (p : Prefix) (d : BitVec 7) (a b : Src)
  /-- ROTL (R166): Rotate left. -/
  | rotl (p : Prefix) (d : BitVec 7) (a b : Src)
  /-- BFE (R168): Bit-field extract under the control word in b. -/
  | bfe (p : Prefix) (d : BitVec 7) (a b : Src)
  /-- BFI (R168): Inserts the low len bits of a into c at pos. -/
  | bfi (p : Prefix) (d : BitVec 7) (a b : Src)
  /-- POPC (R166): Population count. -/
  | popc (p : Prefix) (d : BitVec 7) (a : Src)
  /-- CLZ (R166): Count of leading zero bits. -/
  | clz (p : Prefix) (d : BitVec 7) (a : Src)
  /-- BREV (R166): Bit reversal. -/
  | brev (p : Prefix) (d : BitVec 7) (a : Src)
  /-- ICMP (R169): Integer compare that writes mask register md3. -/
  | icmp (p : Prefix) (andOld : Bool) (cc : IntCond) (md : BitVec 3) (a b : Src)
  /-- SEL (R171): Per-lane select between a and b, using the PREFIX mask as selector. -/
  | sel (p : Prefix) (d : BitVec 7) (a b : Src)
  /-- IDOT4 (R166): Four-byte integer dot product plus c. -/
  | idot4 (p : Prefix) (u : Bool) (d : BitVec 7) (a b : Src)
  /-- IADDI (R166): Integer add of a signed 8-bit immediate. -/
  | iaddi (p : Prefix) (u : Bool) (d : BitVec 7) (a : Src) (imm : BitVec 8)
  /-- MOVI (R172): Moves an immediate: sign-extended, or into the high half with V = 1. -/
  | movi (p : Prefix) (hi : Bool) (d : BitVec 7) (imm : BitVec 16)
  /-- MOV (R172): Register move. -/
  | mov (p : Prefix) (d : BitVec 7) (a : Src)
  /-- LIT (R172): Writes the following 32-bit literal word to each lane. -/
  | lit (p : Prefix) (d : BitVec 7) (word : W32)
  /-- FADD (R173): Floating-point add, FP32 or paired BF16. -/
  | fadd (p : Prefix) (bf : Bool) (d : BitVec 7) (a b : Src)
  /-- FSUB (R173): Floating-point subtract. -/
  | fsub (p : Prefix) (bf : Bool) (d : BitVec 7) (a b : Src)
  /-- FMUL (R173): Floating-point multiply. -/
  | fmul (p : Prefix) (bf : Bool) (d : BitVec 7) (a b : Src)
  /-- FFMA (R173): Fused multiply-add with one rounding. -/
  | ffma (p : Prefix) (bf : Bool) (d : BitVec 7) (a b : Src)
  /-- FMIN (R173): minimumNumber of a and b. -/
  | fmin (p : Prefix) (bf : Bool) (d : BitVec 7) (a b : Src)
  /-- FMAX (R173): maximumNumber of a and b. -/
  | fmax (p : Prefix) (bf : Bool) (d : BitVec 7) (a b : Src)
  /-- FNEG (R174): Exact FP32 negation. -/
  | fneg (p : Prefix) (d : BitVec 7) (a : Src)
  /-- FABS (R174): Exact FP32 absolute value. -/
  | fabs (p : Prefix) (d : BitVec 7) (a : Src)
  /-- FCMP (R175): FP32 compare that writes mask register md3. -/
  | fcmp (p : Prefix) (andOld : Bool) (cc : FpCond) (md : BitVec 3) (a b : Src)
  /-- FCLASS (R176): Writes the class bit of an FP32 value. -/
  | fclass (p : Prefix) (d : BitVec 7) (a : Src)
  /-- FRND (R174): Rounds to an integral FP32 value. -/
  | frnd (p : Prefix) (d : BitVec 7) (a : Src)
  /-- FSCALE (R174): Multiplies a by 2 to the power b. -/
  | fscale (p : Prefix) (d : BitVec 7) (a b : Src)
  /-- FRCP (R177): Reciprocal, rounded once under RNE. -/
  | frcp (p : Prefix) (d : BitVec 7) (a : Src)
  /-- FRSQ (R177): Reciprocal square root. -/
  | frsq (p : Prefix) (d : BitVec 7) (a : Src)
  /-- FSQRT (R177): Square root. -/
  | fsqrt (p : Prefix) (d : BitVec 7) (a : Src)
  /-- FEXP2 (R177): Base-two exponential. -/
  | fexp2 (p : Prefix) (d : BitVec 7) (a : Src)
  /-- FLOG2 (R177): Base-two logarithm. -/
  | flog2 (p : Prefix) (d : BitVec 7) (a : Src)
  /-- FSIN (R177): sin(pi x). -/
  | fsin (p : Prefix) (d : BitVec 7) (a : Src)
  /-- FCOS (R177): cos(pi x). -/
  | fcos (p : Prefix) (d : BitVec 7) (a : Src)
  /-- FTANH (R177): Hyperbolic tangent. -/
  | ftanh (p : Prefix) (d : BitVec 7) (a : Src)
  /-- FDOT2 (R173): Two-element BF16 or FP16 dot product plus an FP32 addend. -/
  | fdot2 (p : Prefix) (half : Bool) (d : BitVec 7) (a b : Src)
  /-- CVT_FF (R179): Converts between floating-point formats. -/
  | cvtFF (p : Prefix) (d : BitVec 7) (a : Src) (dst src : FloatFmt) (e : BitVec 2)
  /-- CVT_FI (R179): Converts floating point to integer. -/
  | cvtFI (p : Prefix) (d : BitVec 7) (a : Src) (src : FloatFmt) (e : BitVec 2) (dst : IntFmt)
  /-- CVT_IF (R179): Converts integer to floating point. -/
  | cvtIF (p : Prefix) (d : BitVec 7) (a : Src) (dst : FloatFmt) (e : BitVec 2) (src : IntFmt)
  /-- BFPQ_M (R181): BFP quantization, mantissa form: writes block mantissas into byte r. -/
  | bfpqM (p : Prefix) (d : BitVec 7) (a : Src) (r : BitVec 2) (m : BitVec 4)
  /-- BFPQ_E (R181): BFP quantization, exponent form: writes block exponents into the scale-register lanes. -/
  | bfpqE (p : Prefix) (d : BitVec 7) (a : Src) (pick : Bool) (r : BitVec 2) (j : BitVec 3)
  /-- BFPX (R182): Expands one BFP element per lane to FP32. -/
  | bfpx (p : Prefix) (d : BitVec 7) (a : Src) (q r : BitVec 2) (m : BitVec 4)
  /-- PERMB (R183): Byte permute of a and b, selected by the old d. -/
  | permb (p : Prefix) (d : BitVec 7) (a b : Src)
  /-- NIBX (R184): Unpacks 4-bit or 2-bit fields into bytes. -/
  | nibx (p : Prefix) (d : BitVec 7) (a : Src) (sx two : Bool) (g : BitVec 2)
  /-- XPOSE (R185): Transposes words within each slice, or bytes within each lane. -/
  | xpose (d : BitVec 7) (a : Src) (bytes : Bool)
  /-- LUT (R187): Reads a special-function table in raw or linear mode. -/
  | lut (p : Prefix) (d : BitVec 7) (a : Src) (mode : LutMode) (t : BitVec 2)
  /-- PACK2 (R180): Packs two FP32 values into BF16 or FP16 halves. -/
  | pack2 (p : Prefix) (half : Bool) (d : BitVec 7) (a b : Src)
  /-- LDS (R208): Scratchpad load at a wrapped offset. -/
  | lds (p : Prefix) (sx : Bool) (d : BitVec 7) (a : Src) (sz : Width) (off : BitVec 6)
  /-- STS (R208): Scratchpad store at a wrapped offset. -/
  | sts (p : Prefix) (d : BitVec 7) (a : Src) (sz : Width) (off : BitVec 6)
  /-- LDS_Q (R208): 16-byte scratchpad load into four registers. -/
  | ldsQ (p : Prefix) (d : BitVec 7) (a : Src) (off : BitVec 6)
  /-- STS_Q (R208): 16-byte scratchpad store from four registers. -/
  | stsQ (p : Prefix) (d : BitVec 7) (a : Src) (off : BitVec 6)
  /-- ATOMS (R208): Scratchpad atomic under the operation code held in c. -/
  | atoms (p : Prefix) (d : BitVec 7) (a : Src) (sz : Width) (off : BitVec 6)
  /-- ATOMS_CAS (R208): Scratchpad compare-and-swap. -/
  | atomsCas (p : Prefix) (d : BitVec 7) (a : Src) (sz : Width) (off : BitVec 6)
  /-- ACC_RD (R231): Direct accumulator read, optionally clearing the entry. -/
  | accRd (p : Prefix) (clr : Bool) (d : BitVec 7) (a : Src)
  /-- ACC_WR (R231): Direct accumulator write. -/
  | accWr (p : Prefix) (d : BitVec 7) (a : Src)
  /-- ACC_ADD (R231): Direct accumulator add, rounded once. -/
  | accAdd (p : Prefix) (d : BitVec 7) (a : Src)
  /-- LD (R253): Global load. -/
  | ld (p : Prefix) (sx : Bool) (d : BitVec 7) (a : Src) (sz : Width) (off : BitVec 6)
  /-- ST (R253): Global store. -/
  | st (p : Prefix) (d : BitVec 7) (a : Src) (sz : Width) (off : BitVec 6)
  /-- LD_Q (R253): 16-byte global load. -/
  | ldQ (p : Prefix) (d : BitVec 7) (a : Src) (off : BitVec 6)
  /-- ST_Q (R253): 16-byte global store. -/
  | stQ (p : Prefix) (d : BitVec 7) (a : Src) (off : BitVec 6)
  /-- ATOM (R253): Global atomic performed at the place of Table 10.6. -/
  | atom (p : Prefix) (d : BitVec 7) (a : Src) (sz : Width) (off : BitVec 6)
  /-- ATOM_CAS (R253): Global compare-and-swap. -/
  | atomCas (p : Prefix) (d : BitVec 7) (a : Src) (sz : Width) (off : BitVec 6)
  /-- RED (R253): Global reduction with no returned value. -/
  | red (p : Prefix) (d : BitVec 7) (a : Src) (sz : Width) (off : BitVec 6)
  /-- PREF (R254): Prefetch hint into L1 and L2, or into L2 only. -/
  | pref (p : Prefix) (l2 : Bool) (a : Src) (off : BitVec 6)
  /-- LDA_SUM (R301): Range sum over a SUM.F32 or SUM.I32 region. -/
  | ldaSum (p : Prefix) (arg : Bool) (d : BitVec 7) (a : Src) (rg : BitVec 8)
  /-- LDA_MAX (R301): Range maximum, or argmax with V = 1. -/
  | ldaMax (p : Prefix) (arg : Bool) (d : BitVec 7) (a : Src) (rg : BitVec 8)
  /-- LDA_MIN (R301): Range minimum. -/
  | ldaMin (p : Prefix) (d : BitVec 7) (a : Src) (rg : BitVec 8)
  /-- LDA_FIND (R301): Prefix search for the first index whose running sum exceeds a threshold. -/
  | ldaFind (p : Prefix) (arg : Bool) (d : BitVec 7) (a : Src) (rg : BitVec 8)
  /-- LDA_PICK (R301): Weighted pick from a fraction u of the range total. -/
  | ldaPick (p : Prefix) (arg : Bool) (d : BitVec 7) (a : Src) (rg : BitVec 8)
  /-- CLU_NODE (R326): Reads words of a cluster node record, or the region's information words. -/
  | cluNode (p : Prefix) (q : Bool) (d : BitVec 7) (a : Src) (rg : BitVec 8)
  /-- KNOP (R149): Uniform no operation. -/
  | knop
  /-- KADD (R150): Uniform add. -/
  | kadd (d a b : BitVec 8)
  /-- KSUB (R150): Uniform subtract. -/
  | ksub (d a b : BitVec 8)
  /-- KMUL (R150): Uniform multiply, low 32 bits. -/
  | kmul (d a b : BitVec 8)
  /-- KMULH (R150): Uniform signed high product. -/
  | kmulh (d a b : BitVec 8)
  /-- KMAD (R150): Uniform multiply-add with the old d as addend. -/
  | kmad (d a b : BitVec 8)
  /-- KMIN (R150): Uniform signed minimum. -/
  | kmin (d a b : BitVec 8)
  /-- KMAX (R150): Uniform signed maximum. -/
  | kmax (d a b : BitVec 8)
  /-- KAND (R150): Uniform AND. -/
  | kand (d a b : BitVec 8)
  /-- KOR (R150): Uniform OR. -/
  | kor (d a b : BitVec 8)
  /-- KXOR (R150): Uniform XOR. -/
  | kxor (d a b : BitVec 8)
  /-- KSHL (R150): Uniform shift left. -/
  | kshl (d a b : BitVec 8)
  /-- KSHR (R150): Uniform logical shift right. -/
  | kshr (d a b : BitVec 8)
  /-- KSAR (R150): Uniform arithmetic shift right. -/
  | ksar (d a b : BitVec 8)
  /-- KBFE (R151): Uniform bit-field extract. -/
  | kbfe (d a b : BitVec 8)
  /-- KPOPC (R149): Uniform population count. -/
  | kpopc (d a : BitVec 8)
  /-- KCLZ (R149): Uniform count of leading zeros. -/
  | kclz (d a : BitVec 8)
  /-- KCMP (R152): Uniform three-way signed compare. -/
  | kcmp (d a b : BitVec 8)
  /-- KSEL (R152): Uniform select on the old d. -/
  | ksel (d a b : BitVec 8)
  /-- KMOV (R153): Uniform move. -/
  | kmov (d a : BitVec 8)
  /-- KMOVI (R153): Uniform move of a signed 16-bit immediate. -/
  | kmovi (d : BitVec 8) (imm : BitVec 16)
  /-- KLIT (R153): Uniform move of the following literal word. -/
  | klit (d : BitVec 8) (word : W32)
  /-- KHI_RD (R154): Reads high-bank register k(256+q). -/
  | khiRd (d q : BitVec 8)
  /-- KHI_WR (R154): Writes high-bank register k(256+q). -/
  | khiWr (src q : BitVec 8)
  /-- KADDI (R153): Uniform add of a signed immediate into d. -/
  | kaddi (d : BitVec 8) (imm : BitVec 16)
  /-- VTOK (R155): Copies one lane's vector register into a uniform register. -/
  | vtok (d : BitVec 8) (r : BitVec 7) (first : Bool) (l : BitVec 5)
  /-- MTOK (R156): Copies a mask register into a uniform register. -/
  | mtok (d : BitVec 8) (m : BitVec 3)
  /-- KTOM (R156): Copies a uniform register into a mask register. -/
  | ktom (m : BitVec 3) (a : BitVec 8)
  /-- MLOG (R157): Mask logic operation. -/
  | mlog (f : MlogOp) (md ma mb : BitVec 3)
  /-- KLD (R256): Uniform 32-bit global load at device scope. -/
  | kld (d a b : BitVec 8)
  /-- KBRA (R45): Uniform conditional branch on a uniform register. -/
  | kbra (cc : BraCond) (a : BitVec 8) (off : BitVec 14)
  /-- BAR_ARR (R130): Adds an arrival to a team barrier. -/
  | barArr (bar : BitVec 4) (b : BitVec 8)
  /-- BAR_WAIT (R130): Waits for a barrier phase to complete. -/
  | barWait (bar : BitVec 4)
  /-- BAR_SYNC (R130): Arrives at a barrier, then waits on it. -/
  | barSync (bar : BitVec 4) (b : BitVec 8)
  /-- YIELD (R116): Ends the run's streak and may swap the crew out. -/
  | yieldRun
  /-- RGX_SET (R129): Sets the crew's regroup mask. -/
  | rgxSet (a : BitVec 8)
  /-- KSREG (R132): Reads a special register into a uniform register. -/
  | ksreg (d : BitVec 8) (n : BitVec 4)
  /-- SLEEP (R133): The run waits for imm16 core clocks. -/
  | sleep (imm : BitVec 16)
  /-- PLATE_MAP (R204): Maps a plate descriptor from a control word and writes a status. -/
  | plateMap (d : BitVec 8) (pl : BitVec 3) (b : BitVec 8)
  /-- PLATE_UNMAP (R210): Waits for the plate's operations, then unmaps it. -/
  | plateUnmap (pl : BitVec 3)
  /-- PLATE_INFO (R210): Returns a plate's control word. -/
  | plateInfo (d : BitVec 8) (pl : BitVec 3)
  /-- PLATE_LOAD (R211): Streamer command that loads a plate image from global memory. -/
  | plateLoad (t q : BitVec 8)
  /-- MXR (R226): Matrix operation with the activation taken from registers. -/
  | mxr (t q : BitVec 8) (z : Bool) (ma pl : BitVec 3)
  /-- MXG (R226): Matrix operation with the activation gathered from scratchpad. -/
  | mxg (t q : BitVec 8) (z : Bool) (ma pl : BitVec 3)
  /-- MXFENCE (R225): Sets token and barrier conditions on the next matrix operation. -/
  | mxfence (a : BitVec 8) (on : Bool) (bar : BitVec 4)
  /-- ACC_WIN (R228): Crew 0 sets a crew's accumulator window. -/
  | accWin (d a b : BitVec 8)
  /-- ACC_CLR (R229): Clears accumulator rows. -/
  | accClr (a b : BitVec 8)
  /-- ACC_ST (R230): Stores accumulator rows to global memory, optionally clearing them. -/
  | accSt (t q : BitVec 8) (clr : Bool)
  /-- FENCE (R257): Memory fence of acquire and/or release at a scope. -/
  | fence (scope : Scope) (remote : Bool) (order : Order)
  /-- CWB (R258): Writes back dirty S bytes of L1 over a range. -/
  | cwb (a b : BitVec 8)
  /-- CINV (R258): Writes back, then invalidates, L1 lines over a range. -/
  | cinv (a b : BitVec 8)
  /-- AGG_OPEN (R288): Opens an aggregate region and builds its tree. -/
  | aggOpen (t q : BitVec 8) (pin : Bool)
  /-- AGG_CLOSE (R290): Closes an aggregate region and writes its shadow. -/
  | aggClose (rg : BitVec 8)
  /-- AGG_INFO (R299): Reads an information value of an aggregate region. -/
  | aggInfo (d rg : BitVec 8) (pick : BitVec 3)
  /-- AGG_REFRESH (R292): Recomputes every entry of a region's tree. -/
  | aggRefresh (rg : BitVec 8)
  /-- AGG_FENCE (R295): Waits until the crew's leaf updates are tree-performed. -/
  | aggFence (rg : BitVec 8) (all : Bool)
  /-- CLU_OPEN (R322): Opens a cluster region and builds its records. -/
  | cluOpen (t q : BitVec 8) (pin : Bool)
  /-- CLU_CLOSE (R323): Closes a cluster region and writes its records. -/
  | cluClose (rg : BitVec 8)
  /-- CLU_GROW (R311): Appends g rows to a cluster region and returns the new count. -/
  | cluGrow (d rg b : BitVec 8)
  /-- WALK_SET (R324): Sets the crew's walk parameters and writes a status. -/
  | walkSet (t q : BitVec 8)
  /-- WALK (R325): Issues a walk of one query down a cluster region into a ring. -/
  | walk (t q : BitVec 8)
  /-- CLU_FENCE (R312): Waits until the crew's row updates and grows are tree-performed. -/
  | cluFence (rg : BitVec 8) (all : Bool)
  /-- COPY (R336): Affine streamer copy over six counters. -/
  | copy (t q : BitVec 8) (dep chain : Bool)
  /-- COPY_G (R337): Streamer gather of rows by an index list. -/
  | copyG (t q : BitVec 8) (dep chain : Bool)
  /-- COPY_S (R337): Streamer scatter of rows by an index list. -/
  | copyS (t q : BitVec 8) (dep chain : Bool)
  /-- COPY_FILL (R338): Streamer fill of a range with a 32-bit pattern. -/
  | copyFill (t q : BitVec 8) (dep chain : Bool)
  /-- RING_INIT (R343): Waits for the ring's walks and commits, then initializes the ring. -/
  | ringInit (r : BitVec 4) (a b : BitVec 8)
  /-- RING_ACQ (R343): Acquires the next free ring stage. -/
  | ringAcq (d : BitVec 8) (r : BitVec 4)
  /-- RING_COMMIT (R343): Commits the oldest acquired stage, at once or when a token is written. -/
  | ringCommit (r : BitVec 4) (b : BitVec 8)
  /-- RING_WAIT (R343): Waits until stage n is committed, then returns its offset and status. -/
  | ringWait (d : BitVec 8) (r : BitVec 4) (b : BitVec 8)
  /-- RING_REL (R343): Adds one release to stage n. -/
  | ringRel (r : BitVec 4) (b : BitVec 8)
  /-- TWAIT (R346): Waits until one or two tokens are not busy. -/
  | twait (a b : BitVec 8)
  /-- TOKTEST (R346): Writes 1 when a token is busy and 0 otherwise. -/
  | toktest (d a : BitVec 8)
  /-- LAUNCH (R365): Queues a launch record at a die's launch engine. -/
  | launch (t q : BitVec 8)
  /-- DEPSET (R366): Sets the team's completion bit early, after a release fence. -/
  | depset (sys : Bool)
  /-- EXPO_RD (R367): Reads an exposure-budget value for the crew's class. -/
  | expoRd (d : BitVec 8) (act : BitVec 3) (pick : BitVec 2)
  /-- TRAP (R378): Parks every lane of the run with SWTRAP. -/
  | trap (imm : BitVec 16)
  /-- ERET (R377): Ends a handler episode and resumes the parked lanes. -/
  | eret
  /-- CSRR (R379): Reads a control and status register. -/
  | csrr (d : BitVec 8) (n : BitVec 12)
  /-- CSRW (R379): Writes a control and status register that has no row of its own. -/
  | csrw (src : BitVec 8) (n : BitVec 12)
  /-- PARK_PC (R380): Changes the saved PC of chosen parked lanes, relative or absolute. -/
  | parkPc (abs : Bool) (a b : BitVec 8)
  /-- PARK_MASK (R376): Removes parked lanes from PARKMASK; they exit at ERET. -/
  | parkMask (a : BitVec 8)
  /-- BKPT (R378): Parks every lane of the run with BKPT. -/
  | bkpt (imm : BitVec 16)
  /-- HALT (R381): Privileged: ends every team of the launch with status 0x06. -/
  | halt
  /-- BRKT (R393): Bracket checkpoint that compares a register between the two copies. -/
  | brkt (d a : BitVec 8)
  /-- TBL_LOAD (R188): Asynchronous reload of a special-function table from memory. -/
  | tblLoad (t q : BitVec 8)
  /-- TIME (R381): Reads the 64-bit device time into a register pair. -/
  | time (d : BitVec 8)
  /-- FPFLAGS_WRITE (R163): CSRW of FPFLAGS clears the flags written as 1, once earlier units have completed. -/
  | fpflagsWrite (src : BitVec 8)
  /-- FPFLAGS_READ (R164): CSRR of FPFLAGS waits for earlier units, then returns the flags. -/
  | fpflagsRead (d : BitVec 8)
  /-- XINV_PAGE (R372): XINVCMD 1 drops every translation of the page that holds ADDR, then releases the writer. -/
  | xinvPage
  /-- XINV_ALL (R372): XINVCMD 2 drops every translation of the context. -/
  | xinvAll
  /-- TBLDATA_READ (R387): Waits for TBL.LOADs, then reads the selected table entry and may advance ENTRY. -/
  | tbldataRead (d : BitVec 8)
  /-- TBLDATA_WRITE (R387): Waits for TBL.LOADs, then writes the entry into the current and staging versions. -/
  | tbldataWrite (src : BitVec 8)
  /-- SAVE_AREA_WRITE (R388): A write of SAVEAREA, SAVEAREAH, SAVESLOTS or SAVESTRIDE retries every waiting save. -/
  | saveAreaWrite (n : BitVec 2) (src : BitVec 8)
  /-- CS_RECORD (R396): CSCTL.MODE 1 arms recording of the next REPLAY launch into the contact sheet. -/
  | csRecord
  /-- CS_REPLAY (R396): CSCTL.MODE 2 arms replay of the sheet against the next REPLAY launch. -/
  | csReplay
  /-- CONTEXT_CREATE (R24): System software creates a context; IDENT, SLICES and the first period are captured. -/
  | contextCreate (privileged : Bool) (ptRoot : Nat)
  /-- CONTEXT_SWITCH_IN (R386): Home slices read the shadows back and the trees stand as before. -/
  | contextSwitchIn (which : Nat)
  /-- DOORBELL_TAIL_WRITE (R360): The host writes TAIL of the doorbell queue. -/
  | doorbellTailWrite (value : W32)
  /-- LAUNCH_RECORD_ACCEPT (R352): A launch engine reads and checks a record, accepting it or rejecting it with a status. -/
  | launchRecordAccept (die : Nat)
  /-- TEAM_DISPATCH (R354): The engine places the next team once its dependences are met and room is free. -/
  | teamDispatch (die : Nat)
  /-- TEAM_PREEMPT (R382): Stops a team, drains its engines and writes its save record. -/
  | teamPreempt (team : Nat)
  /-- TEAM_RESTORE (R385): Reloads a saved team onto its core or twin and resumes it. -/
  | teamRestore (team : Nat)
  /-- CREW_RETIRE (R113): A crew with no live lane retires once its asynchronous commands have completed. -/
  | crewRetire (team crew : Nat)
  /-- CREW_FORCED_SWAP (R122): A pending crew ready for 2,048 core clocks is swapped in. -/
  | crewForcedSwap (team crew : Nat)
  /-- SLEEP_EXPIRE (R133): A SLEEP count expires and the run becomes runnable. -/
  | sleepExpire (team crew : Nat)
  /-- HANDLER_EPISODE_OPEN (R373): A parked run is delivered: the handler starts, or the team ends when HANDLER is 0. -/
  | handlerEpisodeOpen (team crew : Nat)
  /-- XLATE_SERVICE (R371): Maelner maps a faulting page and resumes the lanes, or delivers the cause to the team. -/
  | xlateService (page : Nat) (entry : Option (Nat × W64))
  /-- PAGE_WALK (R237): A translation walk completes, raising XLATE or PROT or giving a translation. -/
  | pageWalk (va : W64)
  /-- LOAD_DATA_RETURN (R249): A load's data returns and writes its destination, or parks the lane with ECC. -/
  | loadDataReturn (req : Nat)
  /-- REQUEST_PERFORMED (R264): A store, atomic or reduction is performed at its place and acknowledged. -/
  | requestPerformed (req : Nat)
  /-- S_LINE_WRITEBACK (R265): The dirty S bytes of a line that leaves L1 are written back to home. -/
  | sLineWriteback (core line : Nat)
  /-- HOST_MEM_ACCESS (R399): The host reads or writes device memory over CXL.mem at the home slice; an address from 2^52 on
  is a place in the control window, which has no row of its own for its plain accesses (log 53). -/
  | hostMemAccess (pa : Nat) (store : Option (List Byte))
  /-- LEAF_UPDATE (R291): The summary unit applies a leaf update to a region's tree, as a delta or a path recompute. -/
  | leafUpdate (req : Nat)
  /-- RANGE_LOAD_PERFORM (R301): The summary unit performs one lane's range load at a position of the serial order. -/
  | rangeLoadPerform (req : Nat)
  /-- ROW_UPDATE (R310): The summary unit recomputes the path above an updated cluster row. -/
  | rowUpdate (req : Nat)
  /-- AGG_OPEN_COMPLETE (R288): The tree is built and the status is written; the region is open. -/
  | aggOpenComplete (cmd : Nat)
  /-- CLU_OPEN_COMPLETE (R322): The cluster records are built and the status is written. -/
  | cluOpenComplete (cmd : Nat)
  /-- MX_START (R221): An issued matrix operation starts once its start conditions all hold. -/
  | mxStart (cmd : Nat)
  /-- MX_DONE (R223): A matrix operation writes its last entry and its token. -/
  | mxDone (cmd : Nat)
  /-- STREAM_COMMAND_START (R339): A streamer command starts once its dependences are settled, or is poisoned. -/
  | streamCommandStart (cmd : Nat)
  /-- STREAM_COMMAND_DONE (R332): A streamer command writes its status token. -/
  | streamCommandDone (cmd : Nat)
  /-- PLATE_LOAD_DONE (R211): A plate load completes and writes its status. -/
  | plateLoadDone (cmd : Nat)
  /-- TBL_LOAD_DONE (R189): A table load completes and its new version becomes current with the token. -/
  | tblLoadDone (cmd : Nat)
  /-- ACC_ST_DONE (R230): An ACC.ST finishes its stores and writes its token, clearing rows on Done with CLR. -/
  | accStDone (cmd : Nat)
  /-- RING_COMMIT_EFFECT (R344): A conditional commit takes effect in acquisition order after its token is written. -/
  | ringCommitEffect (team ring : Nat)
  /-- WALKER_NODE_TEST (R319): The walker tests a node record that has arrived and emits, opens or skips it. -/
  | walkerNodeTest (cmd : Nat)
  /-- WALKER_STAGE_ACQUIRE (R317): The walker acquires a free ring stage after waiting for one. -/
  | walkerStageAcquire (cmd : Nat)
  /-- FLIT_RECEIVE (R401): A Yiljo flit arrives and is checked by CRC and sequence, with a NAK on error. -/
  | flitReceive (port : Nat) (flit : List Byte)
  /-- REMOTE_COMMAND (R401): A target performs a remote command once, or answers a repeat with its kept response. -/
  | remoteCommand (source : Nat) (number : W32) (op : RemoteOp)
  /-- PORT_DOWN (R402): A port delivers no flit for 100 ms; peers with no route become unreachable. -/
  | portDown (port : Nat)
  /-- DIE_LINK_FAILURE (R403): A die-to-die link fails, as a contained fatal error or a fencing. -/
  | dieLinkFailure (link : Nat) (critical : Bool)
  /-- CORRECTED_SOFT_ERROR (R394): A corrected soft error is counted against its unit's sliding window. -/
  | correctedSoftError (cls index : BitVec 8)
  /-- UNCORRECTABLE_ERROR (R394): An uncorrectable error adds THRESH to its unit's count. -/
  | uncorrectableError (cls index : BitVec 8) (line : Option Nat)
  /-- MAILBOX_COMPLETE (R407): Maelner finishes a mailbox request and sets STATUS and LENGTH. -/
  | mailboxComplete (ok : Bool)
  /-- REGION_CONTROL_PERFORM (R294): The home slice's summary unit performs an AGG.REFRESH, AGG.INFO, AGG.CLOSE, CLU.GROW, CLU.NODE or CLU.CLOSE request at its position in the region's serial order. -/
  | regionControlPerform (req : Nat)
  /-- LAUNCH_ENDED_BY_SYSTEM (R352): System software ends a launch: its teams drain, nothing is saved, and the status word 0x06 is written. -/
  | launchEndedBySystem (which : Nat)
  /-- ERRCNT_CLEAR (R360): The host writes 1s to the W1C register ERRCNT of the doorbell queue and clears those bits. -/
  | errcntClear (value : W32)
  /-- CONTEXT_SWITCH_OUT (R386): Region trees are written to their shadows and the summary store is released. -/
  | contextSwitchOut
  /-- DOORBELL_SLOT_TAKE (R360): The device takes a slot at HEAD, routes its record or skips it, and advances HEAD. -/
  | doorbellSlotTake
  /-- SHUTTER_BOUNDARY (R362): A shutter period ends and every exposure count is reset to its allowance. -/
  | shutterBoundary
  /-- POWER_THROTTLE (R408): Power above PWRCAP or a junction temperature of 105 C starts issue throttling. -/
  | powerThrottle
  /-- THERMAL_STOP (R408): At 115 C the device stops as for a contained fatal error. -/
  | thermalStop
  /-- DEVICE_RESET (R404): The ROM checks the flash image and starts Maelner, or enters recovery mode. -/
  | deviceReset
  /-- RECOVERY_DOORBELL (R405): The host rings the recovery doorbell and the ROM checks the buffered image. -/
  | recoveryDoorbell
  /-- ATTEST_REPORT (R407): Mailbox CMD 1 requests a signed attestation report. -/
  | attestReport
  /-- ATTEST_CERTIFICATE (R407): Mailbox CMD 2 requests the identity key's certificate. -/
  | attestCertificate
  /-- POWER_THROTTLE_END (R408): Power falls back under PWRCAP and the junction falls below 105 C, so issue throttling stops and RELSTAT.THROTTLE later returns to 0. -/
  | powerThrottleEnd
  /-- IMAGE_FLASH_WRITE (R405): On a host request, Maelner writes the image it booted from the recovery buffer into flash. -/
  | imageFlashWrite
deriving DecidableEq, Repr

end Sys2Proof
end

