-- ==== Sys2Proof/Machine/State.lean ====
section
/-!
DEFINITION. The state of the machine, as plain data, and the state after reset. Every piece of state
the spec names has a field here; INVENTORY.md lists them with their rules. Fields marked MODEL are the
model's own: the schedule, the counter of free values, the queue of outside events and the cursor of the
unit being issued (log 1, log 6).
-/

namespace Sys2Proof.Machine

/-- The two parts (R1). -/
inductive Part where
  | lx960
  | lx940
deriving DecidableEq, Repr

/-- The causes of Table 16.1. -/
inductive Cause where
  | illegal | priv | absent | budget | align | prot | xlate | accwin | streamRight | region | remote | ecc
  | bracket | convdead | swtrap | bkpt
deriving DecidableEq, Repr

/-- The treatments of Table 10.4. -/
inductive Treat where
  | d | s | u
deriving DecidableEq, Repr

/-- What a waiting lane waits for (R114, R121). When the wait is over the lane issues its unit again,
except that `barrier`, `barWait`, `sleep`, `fence`, `closed` and `xinv` complete the unit and move the lane past it. -/
inductive Wait where
  /-- none of the registers k is a busy token (R142, R331, R346) -/
  | tokens (regs : List Nat)
  /-- a phase of a barrier completes, in a BAR.SYNC (R130) -/
  | barrier (bar phase : Nat)
  /-- a phase of a barrier completes, in a BAR.WAIT, which used an arrival or not: it starts again after a restore (R382) -/
  | barWait (bar phase : Nat) (used : Bool)
  /-- the clock reaches a count (SLEEP) -/
  | sleep (till : Nat)
  /-- a FENCE: these requests are performed at the scope (R257); requests numbered `upto` and above follow it;
  `rel`, `acq`, `remote` say what it then does -/
  | fence (reqs : List Nat) (upto : Nat) (scope : Scope) (rel acq remote : Bool)
  /-- these requests are performed (CWB, CINV, DEPSET, REGROUP) -/
  | reqs (ids : List Nat)
  /-- these requests are performed, or are updates that count once sent (arrivals and commits: R131, Table 11.2) -/
  | sent (ids : List Nat)
  /-- the other lanes of the unit are back: the lane has a cause, and they may have one too (R370) -/
  | unit
  /-- the release FENCE of a DEPSET (R366): as `fence` -/
  | depset (reqs : List Nat) (upto : Nat) (scope : Scope)
  /-- these requests are performed, which completes the unit (closes of regions, AGG.FENCE, CLU.FENCE) -/
  | closed (ids : List Nat)
  /-- the core has free request entries (R249), or an engine has room: 0 streamer, 1 matrix, 2 walker (R221, R319, R330) -/
  | room (needed : Nat)
  | engineRoom (engine : Nat)
  /-- the class of the team has exposure left for an activity of Table 15.6 (R362) -/
  | expo (act : Nat)
  /-- a ring stage is free, committed, or the ring is quiet (R343) -/
  | ringAcq (ring : Nat)
  | ringWait (ring n : Nat)
  | ringInit (ring : Nat)
  /-- the descriptor's operations have written their tokens (R210) -/
  | plate (pl : Nat)
  /-- no TBL.LOAD of the core is in flight (R387) -/
  | tables
  /-- the translation invalidation is done (R372) -/
  | xinv
  /-- the crew's earlier units have written their flags (R164) -/
  | flags
  /-- no held unit that does not itself wait for the run will still write one of these v registers of these lanes (R155) -/
  | written (regs : List Nat) (lanes run : W32)
  /-- the other lanes of the episode reach an ERET (R377) -/
  | eret
deriving DecidableEq, Repr

/-- The lane states of Table 5.1. -/
inductive LaneSt where
  | runnable
  | held
  | waiting (w : Wait)
  | parked
  | exited
deriving DecidableEq, Repr

/-- One lane of a crew. -/
structure Lane where
  st : LaneSt := .runnable
  pc : Addr := 0#52
  /-- saved PC, cause and trap address of a parked lane, also while it runs the handler (R370, R374) -/
  saved : Addr := 0#52
  cause : Cause := .illegal
  trapAddr : W64 := 0#64
  /-- the lane runs the handler of the open episode (R373), and PARK.MASK has removed it (R376) -/
  inHandler : Bool := false
  removed : Bool := false
  /-- inside a split region (R126) -/
  split : Bool := false
  /-- the thread in the lane (R110, Table 5.4) -/
  tid : Nat := 0
  /-- MODEL: units of the crew since this lane last issued, for the bound of R117 -/
  age : Nat := 0
deriving DecidableEq, Repr

/-- A stopping point that holds lanes (R124, R127, R129): its PC, its kind, and the data of the kind. -/
inductive HoldKind where
  /-- a JOIN: its SPLIT bit and the lanes seen above it since it opened (R124) -/
  | join (split : Bool) (exempt : W32)
  /-- a convergent unit and its member set (R127) -/
  | conv (unit : Instr) (words : Nat) (members : W32)
  /-- a REGROUP: destination and key register; `arrived` once the whole crew holds there (R129) -/
  | regroup (d : BitVec 7) (key : Src) (arrived : Bool)
deriving DecidableEq, Repr

/-- An open hold. -/
structure Hold where
  pc : Addr
  kind : HoldKind
deriving DecidableEq, Repr

/-- A parked run that waits for delivery (R370, R373): its lanes, the words of its unit and its kind. -/
structure ParkedRun where
  lanes : W32
  ulen : Nat
  uniform : Bool
  /-- its place in the order in which the crew's runs parked (R373) -/
  stamp : Nat := 0
deriving DecidableEq, Repr

/-- The open episode of a crew: its lanes and the captured trap CSRs (Table 16.3). -/
structure Episode where
  lanes : W32
  trapPc : W32
  trapInfo : W32
  causes : List (BitVec 4)
  trapAddr : W64
deriving DecidableEq, Repr

/-- What the unit of a crew's chosen run stalls on: its address and run, the v registers of its lanes and the k registers that
loads will still write (R118), or room in the core for what it issues (R221, R249, R319, R330, R362). -/
structure Stall where
  pc : Addr
  run : W32
  lanes : W32 := 0#32
  v : List Nat := []
  k : List Nat := []
  room : Option Wait := none
deriving DecidableEq, Repr

/-- What orders a change of a plate descriptor or a window before a crew's later units: the phase of a barrier, or a
release at a place of the scratchpad by a crew of a core, which a wide one orders toward both cores of a twin (R199, R205,
R215). -/
inductive Mark where
  | phase (bar n : Nat)
  | place (off core : Nat) (wide : Bool)
deriving DecidableEq, Repr

/-- A plate descriptor or an accumulator window as it stood before a change. -/
inductive Former where
  | plate (pl : Nat) (word : W32)
  | window (base limit : Nat)
deriving DecidableEq, Repr

/-- A change that a crew need not see yet (R205, R215): its number, what stood before it, and what it is ordered by. -/
structure Unseen where
  change : Nat
  was : Former
  marks : List Mark := []
deriving DecidableEq, Repr

/-- One crew. -/
structure Crew where
  idx : Nat
  /-- logical core, partition, slot, and whether the slot is in the active set (R110, R111) -/
  core : Nat
  partn : Nat
  slot : Nat
  active : Bool
  /-- clock since a pending crew is ready (R121), and since the crew is in the active set or pending (R121, R122) -/
  readySince : Option Nat := none
  activeSince : Nat := 0
  lanes : List Lane
  /-- v registers, register r of lane l at key 32 r + l; k and m registers (R135) -/
  v : Sparse 32 := []
  k : Sparse 32 := []
  m : Sparse 32 := []
  fpmode : W32 := 0#32
  fpflags : W32 := 0#32
  /-- the walk-parameter set (R313) -/
  theta : W32 := 0#32
  walkMode : Bool := false
  mincount : W32 := 0#32
  /-- the regroup mask (R129) -/
  rgx : BitVec 8 := 0#8
  /-- the accumulator window (R214) -/
  winBase : Nat := 0
  winLimit : Nat := 0
  /-- changes of plates and of the window that the crew need not see yet, oldest first (R205, R215) -/
  unseen : List Unseen := []
  tblidx : W32 := 0#32
  /-- run choice (R116): rotation mode, streak, where the run that issued last stood, and its lanes while it is a run -/
  rot : Bool := false
  streak : Nat := 0
  pos : Addr := 0#52
  last : W32 := 0#32
  /-- what the unit tried last waits for; it counts while the chosen run stands there (R118) -/
  stall : Option Stall := none
  holds : List Hold := []
  episode : Option Episode := none
  /-- parked runs to deliver, in the order they parked, and parked lanes at Maelner with XLATE (R371, R373) -/
  queue : List ParkedRun := []
  atMaelner : List ParkedRun := []
  /-- runs of the crew that have parked -/
  parkNo : Nat := 0
  /-- busy tokens and the command that will write each (R142) -/
  busy : List (Nat × Nat) := []
  /-- conditions MXFENCE has set for the next operation (R225): a command, a tested value, or a phase -/
  mxCmds : List Nat := []
  mxFailed : Bool := false
  mxPhases : List (Nat × Nat) := []
  /-- the crew's latest streamer command with CHAIN = 1 (R340): the command, or its status -/
  chain : Option (Nat ⊕ W32) := none
  /-- latest arrival not yet used by a wait, per barrier (R130) -/
  arrivals : List (Nat × Nat) := []
  retired : Bool := false
  /-- units issued (Table 17.3) -/
  units : Nat := 0
deriving DecidableEq, Repr

/-- A barrier (R130); `target` is none before a phase's first arrival, some 0 for the crews not retired. -/
structure Barrier where
  phase : Nat := 0
  count : Nat := 0
  target : Option Nat := none
deriving DecidableEq, Repr

/-- A commit of a ring stage (R343 to R345): the command whose token it waits for, if any, the status it gives the
stage, and the accesses that its release puts before it, updates among them once they are sent (Table 11.2). -/
structure Commit where
  cmd : Option Nat := none
  status : W32 := 0#32
  reqs : List Nat := []
deriving DecidableEq, Repr

/-- A ring (Table 14.4). `commits` holds the commits given to stages c, c + 1, … that have not taken effect. -/
structure Ring where
  init : Bool := false
  base : W32 := 0#32
  ssize : Nat := 0
  scount : Nat := 0
  ncons : Nat := 0
  a : Nat := 0
  c : Nat := 0
  f : Nat := 0
  /-- status and release count of stages f, f + 1, …, c - 1 -/
  stages : List (W32 × Nat) := []
  commits : List Commit := []
  /-- stages whose contents are unspecified until they are freed (R317) -/
  spoilt : List Nat := []
deriving DecidableEq, Repr

/-- A release of core scope in a twin team that is performed before accesses of its crew (R199): an acquire by a crew of
its core at its place follows those accesses. -/
structure Owed where
  core : Nat
  off : Nat
  size : Nat
  reqs : List Nat
deriving DecidableEq, Repr

/-- What a global request does (R253, R301, R326, R299, R323). -/
inductive ReqKind where
  | load (sx : Bool)
  | store
  | atom (code : BitVec 8)
  | cas
  | red (code : BitVec 8)
  | range (which : Nat) (arg : Bool) (start stop : W32) (operand : W64)
  | node (quad : Bool) (num word : W32)
  | aggInfo (pick : BitVec 3)
  | aggRefresh
  | aggClose
  | cluGrow (rows : W32)
  | cluClose
  | bitmapOr
  /-- accesses to the team's scratchpad (R197, R208): `pa` is the allocation offset -/
  | spadLoad (sx : Bool)
  | spadStore
  | spadAtom (code : BitVec 8)
  | spadCas
  /-- direct accesses to accumulator rows (R222, R231): `pa` is the key of the entry; the clear takes `size` entries -/
  | accRd (clr : Bool)
  | accWr
  | accAdd
  | accClr
deriving DecidableEq, Repr

/-- An access of one lane (or of a uniform unit) that has issued and not been performed: a global request (R249), or an
access to the scratchpad or the accumulators (R197, R198, R222). -/
structure Req where
  id : Nat
  /-- the issue of the unit that made it: requests of one unit to one line share an entry (R249) -/
  unit : Nat
  team : Nat
  crew : Nat
  core : Nat
  /-- lane, or 32 for a uniform unit, and the thread (R262); a uniform unit's thread is none -/
  lane : Nat
  thread : Option Nat
  /-- the threads of a uniform unit's crew at its issue (R256, R262), and whether a unit of the handler run made it (R374) -/
  tids : List Nat := []
  handler : Bool := false
  kind : ReqKind
  pa : Nat := 0
  va : W64 := 0#64
  size : Nat := 0
  treat : Treat := .u
  scope : Scope := .dev
  acq : Bool := false
  rel : Bool := false
  remote : Bool := false
  region : Nat := 0
  data : List Byte := []
  compare : List Byte := []
  /-- destination: first v register (or the k register of a uniform unit) and how many registers -/
  dest : Nat := 0
  regs : Nat := 0
  /-- rows of a direct access that a command owned at its issue (R222) -/
  owned : List Nat := []
  /-- the access was sent to a leaf or a row of a region that was open at its issue (R290) -/
  leaf : Bool := false
  /-- an update that a release of narrow scope, a barrier or a FENCE has counted as performed once sent (Table 11.2) -/
  passed : Bool := false
  /-- the request has left its core for a region's home slice (Table 11.2, R276) -/
  onWay : Bool := false
  /-- an acquire of core scope that later accesses of its crew have passed (R199) -/
  jumped : Bool := false
  /-- the bytes that one half of a 16-byte load has bound, while the other half is out (R234, R255); and, for a request that
  has failed, that it has been performed at its peer (R401) -/
  bound : Option (List Byte) := none
  /-- the access has failed with a cause; its lane parks with the others of its unit once they are all back (R370) -/
  failed : Option Cause := none
  /-- the access has failed with XLATE, and Maelner has answered that it will not map the page (R371) -/
  denied : Bool := false
  /-- the unit's address and words, and its run: for a cause raised at performance (R255) -/
  pc : Addr := 0#52
  words : Nat := 1
  run : W32 := 0#32
  /-- units the crew had issued (Table 17.3) -/
  units : Nat := 0
  /-- the command number of a request to a peer (R401) -/
  number : Option W32 := none
deriving DecidableEq, Repr

/-- The asynchronous commands (R143). -/
inductive CmdKind where
  | copy | copyG | copyS | fill | plateLoad | mxr | mxg | accSt | tblLoad | walk | launch | aggOpen | cluOpen
deriving DecidableEq, Repr

/-- A dependence of a command (R225, R339, R340): a command still to write its status, or a barrier phase. -/
inductive Dep where
  | cmd (id : Nat)
  | failed
  | phase (bar n : Nat)
deriving DecidableEq, Repr

/-- The state of a walk (R315, R317). -/
structure Walk where
  stack : List (Nat × Nat) := []
  /-- entries written, byte position in the acquired stage, and the stage's number -/
  written : Nat := 0
  stage : Option Nat := none
  fill : Nat := 0
  query : List W32 := []
  norm : Option W32 := none
  /-- entries formed and not yet placed in a stage, and the status once END is formed -/
  out : List W64 := []
  ended : Option W32 := none
  tests : Nat := 0
  /-- the opening of the region that the walk reads (R318), and the stage it committed last (R321) -/
  opening : Nat := 0
  last : Option Nat := none
  /-- another agent has used the ring meanwhile: the contents of its stages are unspecified (R317) -/
  spoilt : Bool := false
deriving DecidableEq, Repr

/-- A byte that a command has written (R335): in scratchpad or not, its address, the element that wrote it and the bit place
of that element, and what the byte then held; no element for what it held before the command wrote it. -/
structure Wrote where
  spad : Bool
  addr : Nat
  elem : Option Nat
  bit : Nat
  value : Byte
deriving DecidableEq, Repr

/-- An asynchronous command that has issued and not written its token. -/
structure Cmd where
  id : Nat
  kind : CmdKind
  team : Nat
  crew : Nat
  core : Nat
  token : Nat
  imm : BitVec 8 := 0#8
  /-- captured descriptor registers, and captured vector register values -/
  desc : List W32
  regs : List W32 := []
  deps : List Dep := []
  started : Bool := false
  /-- a reported page of the command waits for Maelner (R239), and Maelner will not service it -/
  stuck : Option Nat := none
  unserviced : Bool := false
  /-- owned rows, rows a direct access has spoiled, Nm at issue, and a weight write in flight (R206, R222, R224) -/
  ownBase : Nat := 0
  ownCount : Nat := 0
  spoiled : List Nat := []
  spoiledAtIssue : List Nat := []
  nm : Nat := 0
  tainted : Bool := false
  /-- the plate's control word as the operation read it at its start (R224) -/
  plateW : W32 := 0#32
  /-- elements a streamer command has performed, and bytes it has written (R341, R362) -/
  pos : Nat := 0
  bytes : Nat := 0
  /-- what single moves of the engine have done ahead of the rest (R274, R335): bytes written, bytes of elements read
  (element, place, value), indices read (row, index), and parts of elements written (element, place) -/
  log : List Wrote := []
  got : List (Nat × Nat × Byte) := []
  rows : List (Nat × W32) := []
  put : List (Nat × Nat) := []
  /-- the activity of Table 15.6 whose spent count has stopped a request of the command -/
  waits : Option Nat := none
  /-- units the crew had issued (Table 17.3) -/
  units : Nat := 0
  walk : Walk := {}
  theta : W32 := 0#32
  walkMode : Bool := false
  mincount : W32 := 0#32
deriving DecidableEq, Repr

/-- How a team stands: running, stopping for a pre-emption (by an engine, or by a context switch),
stopped with a blocked save (R388), or ending with a status word (R373, R381). -/
inductive TeamPhase where
  | running
  | stopping (bySystem : Bool)
  | blocked
  | ending
deriving DecidableEq, Repr

/-- The follower's copy of a bracketed team (R390): what each core of the pair holds of its own, with the copy's accesses to
it that are not performed and its commands as they read it. -/
structure Copy where
  crews : List Crew
  spad : Sparse 8
  side : Sparse 8
  acc : Sparse 32
  plates : List W32
  rings : List Ring
  bars : List Barrier
  handler : W32
  near : List Req
  cmds : List Cmd
deriving DecidableEq, Repr

/-- One placed team. -/
structure Team where
  id : Nat
  launch : Nat
  idx : Nat
  /-- the leader's logical core, and the follower's for a twin or bracketed team -/
  core : Nat
  follower : Option Nat
  bracket : Bool
  ncrews : Nat
  vBudget : Nat
  kBudget : Nat
  spadBytes : Nat
  accRows : Nat
  producer : Option Nat
  entry : Addr
  cls : Nat
  prio : Nat
  replay : Bool
  levels : List (Nat × Scope)
  phase : TeamPhase := .running
  handler : W32 := 0#32
  /-- scratchpad bytes; exponent side arrays, byte o of allocation macro j at key 16384 j + o -/
  spad : Sparse 8 := []
  side : Sparse 8 := []
  /-- accumulator rows of the leader and of the follower, entry (row, col) at key 512 row + col -/
  acc0 : Sparse 32 := []
  acc1 : Sparse 32 := []
  /-- bytes and entries whose value is unspecified: no two reads of one need agree (R8) -/
  openSpad : List Nat := []
  openSide : List Nat := []
  openAcc0 : List Nat := []
  openAcc1 : List Nat := []
  owed : List Owed := []
  /-- plate control words with MAPPED, 0 when unmapped (R203) -/
  plates : List W32
  rings : List Ring
  bars : List Barrier
  crews : List Crew
  /-- the granules of each core that the launch engine has granted: core, first granule of 4 KiB, granules (R191) -/
  grants : List (Nat × Nat × Nat) := []
  /-- a bracketed team's copy on the follower, where it differs from the leader's (R390) -/
  copy : Option Copy := none
deriving DecidableEq, Repr

/-- A line an L1 holds of an S page (R242): its 64 bytes, the bytes it holds, and its dirty mask. -/
structure Line where
  line : Nat
  data : List Byte
  valid : BitVec 64
  dirty : BitVec 64
  /-- team, crew and unit count of the store that last made bytes of the line dirty (R293, Table 17.3) -/
  writer : Option (Nat × Nat × Nat) := none
  /-- who has written or read the bytes of a line of host memory that stand at a core or at the home slice: byte, team and
  thread (R262, R264) -/
  seen : List (Nat × Nat × Nat) := []
deriving DecidableEq, Repr

/-- MODEL: updates of a region's leaves or rows that a write-back of S bytes has made (R293), with the core, the home slice
and the line's last writer: they are charged and entered in the contact sheet before the next step (R297, R397). -/
structure WriteBack where
  core : Nat
  slice : Nat
  count : Nat
  launch : Nat
  cls : Nat
  team : Nat
  crew : Nat
  units : Nat
deriving DecidableEq, Repr

/-- Per-core state that belongs to no team. -/
structure CoreSt where
  core : Nat
  l1 : List Line := []
  /-- the signature: 64-byte blocks, kept exactly (R243) -/
  sig : List Nat := []
  /-- special-function tables, entry e of table t at key 512 t + e (R186) -/
  tables : Sparse 32 := []
  /-- the launch whose team the core last held (R355) -/
  lastLaunch : Option Nat := none
  /-- old values of code words written since the core's instruction cache was dropped: word address, whether S pages held it,
  value, and when (R60, R355) -/
  oldCode : List (Nat × Bool × W32 × Nat) := []
deriving DecidableEq, Repr

/-- A kept translation (R240): the page number of 64 KiB, and the leaf entry with its level. -/
structure Kept where
  page : Nat
  entry : W64
  level : Nat
deriving DecidableEq, Repr

/-- An array of an open region: `count` bytes at a virtual address, by pages of 64 KiB translated at open. -/
structure Span where
  va : Nat
  bytes : Nat
  /-- physical address of each 64 KiB page from the one that holds `va` -/
  pages : List Nat
deriving DecidableEq, Repr

/-- The kinds of an open region (Table 12.1, R305). -/
inductive RegionKind where
  | agg (kind : Nat) (n : Nat)
  | clu (d dv cap m : Nat)
deriving DecidableEq, Repr

/-- An open region. Node entries of an aggregate stand at their shadow entry index (R283) in `nodes`;
the record words of a cluster node stand in `recs`, word w of node N at key N SR / 4 + w (R307). -/
structure Region where
  num : Nat
  /-- MODEL: which opening this is: a number opened again is another region (R318, R321) -/
  opening : Nat := 0
  kind : RegionKind
  pinned : Bool
  leaf : Span
  value : Span
  shadow : Span
  nodes : Sparse 64 := []
  recs : Sparse 32 := []
  /-- the page-table entries that its translations rest on, and whether one has changed since the open (R289) -/
  slots : List Nat := []
  remapped : Bool := false
deriving DecidableEq, Repr

/-- The dependence descriptor of a launch (Table 15.3). -/
structure LaunchDep where
  bitmap : W64
  nprod : Nat
  mul : Nat
  div : Nat
  off : Int
  stride : Int
  cnt : Nat
deriving DecidableEq, Repr

/-- An accepted launch (Table 15.1). -/
structure Launch where
  id : Nat
  record : W64
  die : Nat
  entry : Addr
  arg : W64
  place : List Nat
  dep : Option LaunchDep
  bitmap : W64
  done : W64
  teams : Nat
  threads : Nat
  vBudget : Nat
  kBudget : Nat
  spadBytes : Nat
  accRows : Nat
  producer : Option Nat
  twin : Bool
  replay : Bool
  bracket : Bool
  prio : Nat
  cls : Nat
  levels : List (Nat × Scope)
  /-- next team to dispatch, and the status word once a team has ended the launch (R352) -/
  next : Nat := 0
  word : Option W32 := none
  /-- when it was accepted, or last served: launches of a priority are served round-robin (R358) -/
  turn : Nat := 0
  recording : Bool := false
  replaying : Bool := false
deriving DecidableEq, Repr

/-- A record that waits for acceptance: its address, its die, the LAUNCH that queued it (none: doorbell), a page that
Maelner is asked about or will not service, the priority that the record found full, and its doorbell slot (R352,
R358, R360). -/
structure Incoming where
  record : W64
  die : Nat
  cmd : Option Nat
  stuck : Option Nat := none
  unserviced : Bool := false
  held : Option Nat := none
  slot : BitVec 8 := 0#8
  /-- which one it is, and what its engine has read for it, once each: 0 the record, 1 the descriptor, 2 the map -/
  no : Nat := 0
  read : List (Nat × List Byte) := []
deriving DecidableEq, Repr

/-- A saved team with its pending commands, and the slot that holds its record (R383, R385). -/
structure SavedTeam where
  team : Team
  cmds : List Cmd
  slot : Nat
  bySystem : Bool
  /-- pages of its parked lanes that Maelner has answered for meanwhile, mapped or not (R371) -/
  answers : List (Nat × Bool) := []
deriving DecidableEq, Repr

/-- A remaining exposure count (R362). -/
structure Expo where
  core : Nat
  cls : Nat
  act : Nat
  left : Int
deriving DecidableEq, Repr

/-- One context (R24, R235): everything that belongs to it. -/
structure Context where
  live : Bool := false
  /-- a fencing has ended the context (R395) -/
  ended : Bool := false
  id : Nat := 0
  privileged : Bool := false
  ptRoot : Nat := 0
  /-- captured at creation: physical core of each logical core, logical twins, IDENT, VARIANT, slices (R17, R24) -/
  cores : List Nat := []
  /-- physical cores among them that do not run the context now: another context's, or none's (R386) -/
  away : List Nat := []
  twins : Nat := 0
  ident : W32 := 0#32
  variant : W32 := 0#32
  slices : List Nat := []
  /-- core clocks since creation -/
  clock : Nat := 0
  teams : List Team := []
  saved : List SavedTeam := []
  cmds : List Cmd := []
  reqs : List Req := []
  coreSts : List CoreSt := []
  /-- bytes of S host lines that stand at the home slices and not yet at the host (R244, Table 11.2) -/
  l2host : List Line := []
  /-- those of them whose value is unspecified (R8) -/
  openL2 : List Nat := []
  backs : List WriteBack := []
  tlb : List Kept := []
  /-- pages reported to system software and not serviced (R239) -/
  reported : List Nat := []
  regions : List Region := []
  launches : List Launch := []
  incoming : List Incoming := []
  xinvLo : W32 := 0#32
  xinvHi : W32 := 0#32
  /-- an invalidation in progress: 1 a page, 2 all (R372) -/
  xinvCmd : Nat := 0
  /-- the address the invalidation in progress names -/
  xinvAt : Nat := 0
  saveArea : W32 := 0#32
  saveAreaH : W32 := 0#32
  saveSlots : W32 := 0#32
  saveStride : W32 := 0#32
  /-- SHUTTER as written, the period in force, its next boundary, EXPOSEL, and the allowances as written and in force,
  class c and activity a at key 8 c + a, held complemented so that an unlisted one is unlimited -/
  shutter : W32 := 1200000#32
  period : Nat := 1200000
  boundary : Nat := 1200000
  exposel : W32 := 0#32
  allowW : Sparse 32 := []
  allow : Sparse 32 := []
  periodNo : Nat := 0
  expo : List Expo := []
deriving DecidableEq, Repr

/-- The phases of the part: the ROM at reset, recovery mode, running, stopped by a contained fatal error. -/
inductive Boot where
  | rom | recovery | running | stopped
deriving DecidableEq, Repr

/-- A Yiljo port (R400 to R402). -/
structure Port where
  index : Nat
  up : Bool := true
  /-- next SEQ expected, last ACK received, next SEQ to send, and flits sent and not acknowledged -/
  expect : BitVec 24 := 0#24
  acked : BitVec 24 := 0#24
  nextSeq : BitVec 24 := 0#24
  unacked : List (List Byte) := []
  /-- a NAK waits to be sent; every flit not acknowledged is to be sent again (R401) -/
  nak : Bool := false
  resend : Bool := false
  /-- flits put on the lanes, oldest first -/
  out : List (List Byte) := []
deriving DecidableEq, Repr

/-- What a physical core holds while no context is on it: its special-function tables and the launch whose team it last held
(R189, R355, R386). -/
structure CoreLeft where
  core : Nat
  tables : Sparse 32
  lastLaunch : Option Nat
deriving DecidableEq, Repr

/-- A kept response (R401). -/
structure KeptResponse where
  source : Nat
  number : W32
  data : List Byte
deriving DecidableEq, Repr

/-- The device outside its contexts. -/
structure Device where
  boot : Boot := .rom
  /-- core clocks since reset: device time is 5/6 ns a clock (R18, R375) -/
  clocks : Nat := 0
  flash : List Byte := []
  recovery : List Byte := []
  fuseHash : BitVec 384 := 0#384
  fuseRollback : W32 := 0#32
  /-- the image the part booted (R404) -/
  image : List Byte := []
  fences : List (BitVec 8 × BitVec 8) := []
  /-- a fence is recorded in flash and applied at the next boot too (R395) -/
  flashFences : List (BitVec 8 × BitVec 8) := []
  /-- soft errors: class, index, and the core clock of each (R394) -/
  errors : List (BitVec 8 × BitVec 8 × Nat) := []
  /-- lines with an uncorrectable error (R255, R394) -/
  badLines : List Nat := []
  sercfg : W32 := 0x0418#32
  sersel : W32 := 0#32
  pwrcap : W32 := 0#32
  throttling : Bool := false
  throttleEnd : Option Nat := none
  cslo : W32 := 0#32
  cshi : W32 := 0#32
  cssize : W32 := 0#32
  csmode : BitVec 2 := 0#2
  csTrunc : Bool := false
  csDiverge : Bool := false
  csused : W32 := 0#32
  /-- the launch the sheet belongs to -/
  csLaunch : Option Nat := none
  /-- indices of replay entries consumed -/
  csTaken : List Nat := []
  dbTail : BitVec 8 := 0#8
  dbHead : BitVec 8 := 0#8
  dbErr : W32 := 0#32
  /-- the record at HEAD, as it was read, when it has found its priority full, with its context (R352, R358) -/
  dbHeld : Option (Nat × Incoming) := none
  /-- the DONE words that Maelner has reported lost (R352) -/
  lostWords : List W64 := []
  /-- doorbell slots: word w of slot s at key 4 s + w (Table 15.4) -/
  dbSlots : Sparse 32 := []
  nonce : List Byte := []
  mbStatus : W32 := 0#32
  mbLength : W32 := 0#32
  mbData : List Byte := []
  mbCmd : Nat := 0
  /-- the nonce of the request being served -/
  mbNonce : List Byte := []
  ports : List Port := []
  kept : List KeptResponse := []
  /-- the routes Maelner has programmed: a peer and a port it is reached through (R402) -/
  routes : List (Nat × Nat) := []
  /-- peers whose loss, and die-to-die links whose failure, Maelner has reported to system software (R402, R403) -/
  lostPeers : List Nat := []
  lostLinks : List Nat := []
  /-- the number of the next command to a peer (R401) -/
  nextNumber : W32 := 0#32
  /-- bytes of the control window, fixed at reset (R399) -/
  window : Nat := 0x4000000
  /-- what the physical cores hold while no context is on them (R386) -/
  left : List CoreLeft := []
deriving DecidableEq, Repr

/-- MODEL: the unit being issued: its team and crew, its run, its address and its words. -/
structure Cursor where
  team : Nat := 0
  crew : Nat := 0
  run : W32 := 0#32
  pc : Addr := 0#52
  words : Nat := 1
  /-- the crew's rotation mode and streak as the choice of this run leaves them (R116), and the lanes and the place of the
  stalled run that this one issues ahead of, if it does (R126) -/
  rot : Bool := false
  streak : Nat := 0
  ahead : Option (W32 × Addr) := none
deriving DecidableEq, Repr

/-- The machine. -/
structure State where
  part : Part
  dev : Device
  /-- every byte of the physical address map (Table 10.1) -/
  mem : Sparse 8
  /-- bytes of memory whose value is unspecified (R8) -/
  openMem : List Nat
  ctx : Context
  /-- contexts switched out, and those that run on other cores and do not move in this step (R386) -/
  swapped : List Context
  /-- MODEL: the schedule: which enabled step moves next, and the core clocks that pass with it -/
  choices : List (Nat × Nat)
  /-- MODEL: counter of the free values of Config -/
  fresh : Nat
  /-- MODEL: events from outside, oldest first -/
  inputs : List Instr
  cur : Cursor
  /-- MODEL: next identity of a team, launch, command or request -/
  nextId : Nat
deriving DecidableEq, Repr

/-- Reasons a step stops the machine. -/
inductive Fault where
  /-- The host accessed a device-memory address the part does not have (Table 10.1, R399): raised by
  HOST_MEM_ACCESS. Safe: the spec gives such an address nothing. -/
  | noDeviceMemory
deriving DecidableEq, Repr

/-- Reasons the model has no meaning for a step. -/
inductive Refusal where
  /-- The instruction has no meaning in the model yet: raised by Dispatch only. Safe: the run ends. -/
  | notModelled (mnemonic : String)
deriving DecidableEq, Repr

/-- The machine right after device reset: the ROM is about to check the image (R404). No context, team or
cache line exists. Values the spec does not state are those of log 2, log 3, log 4 and log 6. -/
def State.reset : State where
  part := .lx960
  dev := {}
  mem := []
  openMem := []
  ctx := {}
  swapped := []
  choices := []
  fresh := 0
  inputs := []
  cur := {}
  nextId := 1

end Sys2Proof.Machine
end

