-- ==== Sys2Proof/Machine/Store.lean ====
section
/-!
DEFINITION. Reading and writing a store of words by key, in its one canonical form, and the byte order
of wider values (R6: little-endian everywhere). Memory, scratchpad, register files, tables and tree nodes
are such stores.
-/

namespace Sys2Proof.Machine

/-- The word at a key; an unlisted key reads 0 (log 3 for memory; R140, R192, R213 for the others). -/
def readKey {w : Nat} : Sparse w → Nat → BitVec w
  | [], _ => 0#w
  | (b, x) :: rest, a => if a = b then x else readKey rest a

/-- The store without the entries of a key. -/
def eraseKey {w : Nat} (m : Sparse w) (a : Nat) : Sparse w := m.filter fun e => e.1 != a

/-- The store with a word written: the canonical form is kept, so writing 0 removes the entry. -/
def writeKey {w : Nat} : Sparse w → Nat → BitVec w → Sparse w
  | [], a, x => if x = 0#w then [] else [(a, x)]
  | (b, y) :: rest, a, x =>
    if b < a then (b, y) :: writeKey rest a x
    else if x = 0#w then eraseKey ((b, y) :: rest) a
    else (a, x) :: eraseKey ((b, y) :: rest) a

/-- The canonical form: keys strictly rising, no entry 0. -/
def storeWf {w : Nat} : Sparse w → Bool
  | [] => true
  | [(_, x)] => x != 0#w
  | (a, x) :: (b, y) :: rest => x != 0#w && a < b && storeWf ((b, y) :: rest)

/-- The canonical form of memory. -/
def Memory.wf (m : Sparse 8) : Bool := storeWf m

/-- The store without the keys from `a` to `b - 1`. -/
def clearKeys {w : Nat} (m : Sparse w) (a b : Nat) : Sparse w := m.filter fun e => e.1 < a || b ≤ e.1

/-- `n` bytes from an address up. -/
def readBytes (m : Sparse 8) (a : Nat) : Nat → List Byte
  | 0 => []
  | n + 1 => readKey m a :: readBytes m (a + 1) n

/-- Bytes written from an address up. -/
def writeBytes (m : Sparse 8) (a : Nat) : List Byte → Sparse 8
  | [] => m
  | x :: xs => writeBytes (writeKey m a x) (a + 1) xs

/-- The value of bytes, the first the least significant (R6). -/
def bytesNat : List Byte → Nat
  | [] => 0
  | x :: xs => x.toNat + 256 * bytesNat xs

/-- The low `n` bytes of a value, the first the least significant (R6). -/
def natBytes (x : Nat) : Nat → List Byte
  | 0 => []
  | n + 1 => BitVec.ofNat 8 x :: natBytes (x / 256) n

/-- Four bytes as a word. -/
def bytesW32 (b : List Byte) : W32 := BitVec.ofNat 32 (bytesNat b)

/-- Eight bytes as a 64-bit value. -/
def bytesW64 (b : List Byte) : W64 := BitVec.ofNat 64 (bytesNat b)

/-- A word as four bytes. -/
def w32Bytes (x : W32) : List Byte := natBytes x.toNat 4

/-- A 64-bit value as eight bytes. -/
def w64Bytes (x : W64) : List Byte := natBytes x.toNat 8

/-- A list with each element replaced by a function of its place, from `i` up. -/
def mapFrom {α β : Type} (f : Nat → α → β) (i : Nat) : List α → List β
  | [] => []
  | x :: xs => f i x :: mapFrom f (i + 1) xs

/-- A list with the element at a place replaced by a function of it. -/
def updateAt {α : Type} (f : α → α) : Nat → List α → List α
  | _, [] => []
  | 0, x :: xs => f x :: xs
  | n + 1, x :: xs => x :: updateAt f n xs

/-- The first element a test accepts, replaced. -/
def updateFirst {α : Type} (p : α → Bool) (f : α → α) : List α → List α
  | [] => []
  | x :: xs => if p x then f x :: xs else x :: updateFirst p f xs

end Sys2Proof.Machine
end

