-- ==== Sys2Proof/Machine/Bits.lean ====
section
/-!
DEFINITION. Bit-field, mask and sign-extension helpers (00_scope.md R5, R11: Bits and SignExtend).
-/

namespace Sys2Proof.Machine

/-- The word with bit l equal to `p l`, for the lanes `n - 1` down to 0. -/
def maskBelow (p : Nat → Bool) : Nat → Nat
  | 0 => 0
  | n + 1 => maskBelow p n + (if p n then 2 ^ n else 0)

/-- The 32-bit lane mask of a predicate on lanes. -/
def maskOf (p : Nat → Bool) : W32 := BitVec.ofNat 32 (maskBelow p 32)

/-- The number of 1 bits among the `n` low bits. -/
def onesBelow (x : Nat) : Nat → Nat
  | 0 => 0
  | n + 1 => onesBelow x n + (if x.testBit n then 1 else 0)

/-- The number of 1 bits of a word. -/
def popcount (x : W32) : Nat := onesBelow x.toNat 32

/-- The lowest 1 bit at or above `i`, looking at `n` bits; `i + n` when there is none. -/
def lowestFrom (x : Nat) (i : Nat) : Nat → Nat
  | 0 => i
  | n + 1 => if x.testBit i then i else lowestFrom x (i + 1) n

/-- The lowest lane of a mask; 32 for the empty mask. -/
def lowestLane (m : W32) : Nat := lowestFrom m.toNat 0 32

/-- Zero bits above the highest 1 bit of a word; 32 for 0. -/
def leadingZeros (x : W32) : Nat := if x = 0#32 then 32 else 31 - x.toNat.log2

/-- The lanes of a mask, ascending. -/
def lanesOf (m : W32) : List Nat := (List.range 32).filter fun l => m.getLsbD l

/-- The value of the low `n` bits of `x` as a signed number (R11). -/
def signedOf (n : Nat) (x : Nat) : Int :=
  let y := x % 2 ^ n
  if n ≠ 0 ∧ 2 ^ (n - 1) ≤ y then (y : Int) - (2 ^ n : Nat) else y

/-- SignExtend(x, n) as a 32-bit word (R11). -/
def sext32 (n : Nat) (x : Nat) : W32 := BitVec.ofInt 32 (signedOf n x)

/-- Bits(x, hi, lo) of a natural number (R5). -/
def bitsOf (x hi lo : Nat) : Nat := x / 2 ^ lo % 2 ^ (hi + 1 - lo)

/-- A word written as a Nat field with other bits 0. -/
def word (x : Nat) : W32 := BitVec.ofNat 32 x

/-- The bits of a word in reverse order. -/
def reverseBits (x : W32) : W32 := maskOf fun i => x.getLsbD (31 - i)

/-- ceil(a ÷ b). -/
def ceilDiv (a b : Nat) : Nat := (a + b - 1) / b

/-- The largest `k` with k * k ≤ x, found bit by bit from 2^(n-1) down. -/
def isqrtBits (x : Nat) : Nat → Nat → Nat
  | 0, acc => acc
  | n + 1, acc => if (acc + 2 ^ n) * (acc + 2 ^ n) ≤ x then isqrtBits x n (acc + 2 ^ n) else isqrtBits x n acc

/-- The integer square root. -/
def isqrt (x : Nat) : Nat := isqrtBits x (x.log2 / 2 + 1) 0

/-- The smallest power of two at or above `x`, for x ≥ 1. -/
def pow2AtLeast (x : Nat) : Nat := if x ≤ 1 then 1 else 2 ^ ((x - 1).log2 + 1)

end Sys2Proof.Machine
end

