-- ==== Sys2Proof/Machine/Ops.lean ====
section
/-!
DEFINITION. The named operations over teams, crews, lanes and registers: reading and writing registers
(R135, R136), the active set (R41), moving and parking lanes (R115, R370), the release of joins and
CONVDEAD (R124 to R128), the choice of a run (R116, R117), the end of every unit, taking an exception
(R373, R374: opening a handler episode) and returning from one (R377).
-/

namespace Sys2Proof.Machine

/-! ## Lanes -/

/-- What a missing lane reads as. -/
def Lane.dead : Lane := { st := .exited }

/-- A lane counts as live (R113). -/
def Lane.live (x : Lane) : Bool := x.st != .exited

/-- A lane counts as live for release conditions and member sets: PARK.MASK has not removed it (R376). -/
def Lane.counts (x : Lane) : Bool := x.live && !x.removed

/-- Where a lane stands for release conditions: its saved PC while parked or in the handler (R124, R374). -/
def Lane.place (x : Lane) : Addr := if x.st = .parked ∨ x.inHandler then x.saved else x.pc

/-- A lane counts as parked for CONVDEAD: parked, or in the handler (R128, R374). -/
def Lane.away (x : Lane) : Bool := x.st = .parked || x.inHandler

/-! ## Crews and registers -/

/-- What a missing crew reads as. -/
def Crew.missing : Crew := { idx := 0, core := 0, partn := 0, slot := 0, active := false, lanes := [], retired := true }

def Crew.lane (c : Crew) (l : Nat) : Lane := c.lanes.getD l Lane.dead

/-- The lanes of a crew that a test accepts. -/
def Crew.lanesWhere (c : Crew) (p : Lane → Bool) : W32 := maskOf fun l => p (c.lane l)

/-- The live lanes, which m0 reads (R136). -/
def Crew.live (c : Crew) : W32 := c.lanesWhere Lane.live

/-- The lanes of a mask changed by a function of lane number and lane. -/
def Crew.updLanes (c : Crew) (m : W32) (f : Nat → Lane → Lane) : Crew :=
  { c with lanes := mapFrom (fun l x => if m.getLsbD l then f l x else x) 0 c.lanes }

/-- A uniform register; k0 reads 0 (R136). -/
def Crew.kreg (c : Crew) (r : Nat) : W32 := if r = 0 then 0#32 else readKey c.k r

/-- A uniform register written; writes of k0 are discarded (R136). -/
def Crew.setK (c : Crew) (r : Nat) (x : W32) : Crew := if r = 0 then c else { c with k := writeKey c.k r x }

/-- Vector register r of lane l. -/
def Crew.vreg (c : Crew) (r l : Nat) : W32 := readKey c.v (32 * r + l)

def Crew.setV (c : Crew) (r l : Nat) (x : W32) : Crew := { c with v := writeKey c.v (32 * r + l) x }

/-- Mask register n; m0 reads the live lanes (R136). -/
def Crew.mreg (c : Crew) (n : Nat) : W32 := if n = 0 then c.live else readKey c.m n

/-- Mask register n written; m0 cannot be written (R136). -/
def Crew.setM (c : Crew) (n : Nat) (x : W32) : Crew := if n = 0 then c else { c with m := writeKey c.m n x }

/-- One register of several lanes written, lane l with `f l`. -/
def Crew.setVLanes (c : Crew) (r : Nat) (f : Nat → W32) : List Nat → Crew
  | [] => c
  | l :: ls => (c.setV r l (f l)).setVLanes r f ls

/-- A 64-bit uniform pair (R6). -/
def Crew.kpair (c : Crew) (r : Nat) : W64 := c.kreg (r + 1) ++ c.kreg r

/-- k(r) is a busy token (R142). -/
def Crew.isBusy (c : Crew) (r : Nat) : Bool := c.busy.any fun e => e.1 == r

/-- The v register that a convergent unit writes (R127). -/
def convDest : Instr → Option Nat
  | .vote _ d _ _ => some d.toNat
  | .shflIdx _ d _ _ => some d.toNat
  | .shflUp _ d _ _ => some d.toNat
  | .shflDn _ d _ _ => some d.toNat
  | .shflXor _ d _ _ => some d.toNat
  | .matchEq _ d _ => some d.toNat
  | .compact _ _ d _ => some d.toNat
  | _ => none

/-! ## Teams, crews and lanes in the state -/

/-- What a missing team reads as. -/
def Team.missing : Team :=
  { id := 0, launch := 0, idx := 0, core := 0, follower := none, bracket := false, ncrews := 0, vBudget := 0,
    kBudget := 0, spadBytes := 4096, accRows := 0, producer := none, entry := 0#52, cls := 0, prio := 0,
    replay := false, levels := [], plates := [], rings := [], bars := [], crews := [] }

/-- A team on the two cores of a twin; a bracketed team runs one team on each core of it. -/
def Team.twin (t : Team) : Bool := t.follower.isSome && !t.bracket

def State.team? (s : State) (id : Nat) : Option Team := s.ctx.teams.find? fun t => t.id == id

/-- The team of the unit being issued. -/
def State.team (s : State) : Team := (s.team? s.cur.team).getD Team.missing

/-- The crew of the unit being issued. -/
def State.crew (s : State) : Crew := s.team.crews.getD s.cur.crew Crew.missing

def State.withTeams (s : State) (ts : List Team) : State := { s with ctx := { s.ctx with teams := ts } }

def State.updTeamId (s : State) (id : Nat) (f : Team → Team) : State :=
  s.withTeams (updateFirst (fun t => t.id == id) f s.ctx.teams)

def Team.updCrew (t : Team) (i : Nat) (f : Crew → Crew) : Team := { t with crews := updateAt f i t.crews }

/-- Crew `i` of a team changed. -/
def State.updCrewOf (s : State) (id i : Nat) (f : Crew → Crew) : State :=
  s.updTeamId id fun t => t.updCrew i f

/-- The team of the unit being issued changed. -/
def State.updTeam (s : State) (f : Team → Team) : State := s.updTeamId s.cur.team f

/-- The crew of the unit being issued changed. -/
def State.updCrew (s : State) (f : Crew → Crew) : State := s.updCrewOf s.cur.team s.cur.crew f

/-- The next free value counter. -/
def State.bump (s : State) (n : Nat) : State := { s with fresh := s.fresh + n }

/-! ## Moving and parking lanes -/

/-- Address of the unit after one of `words` words. -/
def pcAfter (pc : Addr) (words : Nat) : Addr := pc + BitVec.ofNat 52 (4 * words)

/-- The lanes of a mask that are still runnable at the unit move past it. -/
def Crew.advance (c : Crew) (m : W32) (pc : Addr) (words : Nat) : Crew :=
  c.updLanes m fun _ x => if x.st = .runnable then { x with pc := pcAfter pc words } else x

/-- The lanes of a mask park with a cause at a PC, lane l with trap address `addr l` (R370). A lane of the
handler run keeps the saved PC of its episode. -/
def Crew.park (c : Crew) (m : W32) (cause : Cause) (pc : Addr) (addr : Nat → W64) : Crew :=
  c.updLanes m fun l x =>
    { x with st := .parked, pc := pc, cause := cause, trapAddr := addr l,
             saved := if x.inHandler then x.saved else pc }

/-- The lanes of a mask wait at a PC. -/
def Crew.wait (c : Crew) (m : W32) (w : Wait) : Crew := c.updLanes m fun _ x => { x with st := .waiting w }

/-- The code of a cause (Table 16.1). -/
def Cause.code : Cause → Nat
  | .illegal => 1 | .priv => 2 | .absent => 3 | .budget => 4 | .align => 5 | .prot => 6 | .xlate => 7
  | .accwin => 8 | .streamRight => 9 | .region => 10 | .remote => 11 | .ecc => 12 | .bracket => 13
  | .convdead => 14 | .swtrap => 15 | .bkpt => 16

/-- The cause of a code. -/
def Cause.ofCode (n : Nat) : Cause :=
  ([.illegal, .priv, .absent, .budget, .align, .prot, .xlate, .accwin, .streamRight, .region, .remote, .ecc, .bracket, .convdead,
    .swtrap, .bkpt] : List Cause).getD (n - 1) .illegal

/-- Lanes of a mask that have parked with a cause a test accepts. -/
def Crew.parkedIn (c : Crew) (m : W32) (p : Lane → Bool) : W32 :=
  m &&& c.lanesWhere fun x => x.st = .parked && p x

/-- A parked run put into a queue in the order of parking, when it has a lane (R373). -/
def addRun (q : List ParkedRun) (r : ParkedRun) : List ParkedRun :=
  if r.lanes = 0#32 then q
  else (q.filter fun x => decide (x.stamp ≤ r.stamp)) ++ [r] ++ q.filter fun x => decide (r.stamp < x.stamp)

/-- Lanes of the parked runs that wait for Maelner or for the handler. -/
def Crew.queuedLanes (c : Crew) : W32 := (c.atMaelner ++ c.queue).foldl (fun m r => m ||| r.lanes) 0#32

/-- The lanes of a mask that one unit has just parked join the queues: XLATE lanes go to Maelner first, the
others wait for the handler (R370, R371). -/
def Crew.queueParked (c : Crew) (m0 : W32) (ulen : Nat) (uniform : Bool) : Crew :=
  let m := m0 &&& ~~~c.queuedLanes
  { c with
    parkNo := c.parkNo + 1
    atMaelner := addRun c.atMaelner ⟨c.parkedIn m fun x => x.cause = .xlate, ulen, uniform, c.parkNo⟩
    queue := addRun c.queue ⟨c.parkedIn m fun x => x.cause != .xlate && !x.inHandler, ulen, uniform, c.parkNo⟩ }

/-! ## Reconvergence -/

/-- A lane is behind a JOIN at `j` (R124): it counts, it is not exempt, and it stands below. -/
def behindJoin (c : Crew) (j : Addr) (exempt : W32) (l : Nat) : Bool :=
  let x := c.lane l
  x.counts && !(exempt.getLsbD l) && decide (x.place < j)

/-- The lanes held at a point. -/
def Crew.heldAt (c : Crew) (pc : Addr) : W32 := c.lanesWhere fun x => x.st = .held && x.pc = pc

/-- A hold after one evaluation: a JOIN adds the lanes that stand above it to its exempt set (R124). -/
def Hold.observe (c : Crew) (h : Hold) : Hold :=
  match h.kind with
  | .join split exempt =>
    { h with kind := .join split (exempt ||| c.lanesWhere fun x => x.counts && decide (h.pc < x.place)) }
  | _ => h

/-- A JOIN whose release condition is met: some lane is held there and none is behind (R124). -/
def Hold.releases (c : Crew) (h : Hold) : Bool :=
  match h.kind with
  | .join _ exempt => c.heldAt h.pc != 0#32 && (List.range 32).all fun l => !(behindJoin c h.pc exempt l)
  | _ => false

/-- The held lanes of a JOIN released as one run past it, marked by its SPLIT bit (R124, R126). -/
def Crew.releaseJoin (c : Crew) (h : Hold) : Crew :=
  match h.kind with
  | .join split _ =>
    { c.updLanes (c.heldAt h.pc) (fun _ x => { x with st := .runnable, pc := pcAfter h.pc 1, split := split }) with
      holds := c.holds.filter fun g => g.pc != h.pc }
  | _ => c

/-- A hold that stays open: lanes are held there, or, at a convergent unit, a member is left (R127). -/
def Hold.stays (c : Crew) (h : Hold) : Bool :=
  match h.kind with
  | .conv _ _ members => members &&& c.lanesWhere Lane.counts != 0#32
  | _ => c.heldAt h.pc != 0#32

/-- The evaluation of R125: the exempt sets grow, then every JOIN whose condition is met releases. -/
def Crew.evalJoins : Nat → Crew → Crew
  | 0, c => c
  | n + 1, c =>
    let c := { c with holds := (c.holds.map (Hold.observe c)).filter (Hold.stays c) }
    match c.holds.find? (Hold.releases c) with
    | some h => Crew.evalJoins n (c.releaseJoin h)
    | none => c

/-- Every member of a convergent unit's set is held there (R127); lanes of the handler count as parked (R374). -/
def Hold.complete (c : Crew) (h : Hold) : Bool :=
  match h.kind with
  | .conv _ _ members =>
    let m := members &&& c.lanesWhere Lane.counts
    m != 0#32 && m &&& c.heldAt h.pc &&& c.lanesWhere (fun x => !x.inHandler) == m
  | _ => false

/-- A REGROUP holds the whole crew, which waits for other crews (R129): no CONVDEAD then (R128). -/
def Crew.inRegroup (c : Crew) : Bool :=
  c.holds.any fun h => match h.kind with | .regroup _ _ arrived => arrived | _ => false

/-- CONVDEAD's condition (R128): every live lane is held, none is parked or in the handler, and no release condition is
met; a convergent unit whose members are all there only waits for a source (R118, R142). -/
def Crew.dead (c : Crew) : Bool :=
  c.lanes.any Lane.counts && c.lanes.all (fun x => !x.counts || (x.st = .held && !x.away)) && !c.inRegroup &&
    !(c.holds.any (Hold.complete c))

/-- Words of the unit that a hold stands at. -/
def Hold.words (h : Hold) : Nat := match h.kind with | .conv _ w _ => w | _ => 1

/-- The hold is a convergent unit's: its parked members keep it open (R127). -/
def Hold.isConv (h : Hold) : Bool := match h.kind with | .conv .. => true | _ => false

/-- Every held lane parks with CONVDEAD at its hold (R128). -/
def Crew.convdead (c : Crew) : Crew :=
  let c' := c.updLanes (c.lanesWhere fun x => x.st = .held) fun _ x =>
    { x with st := .parked, cause := .convdead, trapAddr := 0#64, saved := x.pc }
  { c' with holds := c.holds.filter Hold.isConv, parkNo := c.parkNo + 1,
            queue := c.holds.foldl (fun q h => addRun q ⟨c.heldAt h.pc, h.words, false, c.parkNo⟩) c'.queue }

/-- The releases of R125 followed by CONVDEAD where it applies. -/
def Crew.settle (c : Crew) : Crew :=
  let c := c.evalJoins (c.holds.length + 1)
  if c.dead then c.convdead else c

/-! ## Choice of a run -/

/-- The runnable lanes at a PC: the run there (R115). -/
def Crew.runAt (c : Crew) (pc : Addr) : W32 := c.lanesWhere fun x => x.st = .runnable && x.pc = pc

/-- The lowest PC among PCs, if any. -/
def lowestPc : List Addr → Option Addr
  | [] => none
  | a :: rest =>
    match lowestPc rest with
    | none => some a
    | some b => if a < b then some a else some b

/-- The PCs of the runnable lanes. -/
def Crew.runPcs (c : Crew) : List Addr := (c.lanes.filter fun x => x.st = .runnable).map Lane.pc

/-- A lane has been passed over so long that it must issue (R117). -/
def overdue (x : Lane) : Bool := x.st = .runnable && decide (4064 ≤ x.age)

/-- The run a crew chooses, with the rotation mode and the streak that the choice leaves it with. -/
structure Choice where
  pc : Addr
  rot : Bool
  streak : Nat
deriving DecidableEq, Repr

/-- The lanes of the run that issued last which are runnable: a merged run holds them too (R116). -/
def Crew.lastRun (c : Crew) : W32 := c.last &&& c.lanesWhere fun x => x.st = .runnable

/-- Where the run that issued last stands: where its runnable lanes do, or else where it stood (R116). -/
def Crew.stands (c : Crew) : Addr :=
  (lowestPc ((lanesOf c.lastRun).map fun l => (c.lane l).pc)).getD c.pos

/-- The run a crew issues from (R116, R117); none with no runnable lane. It rests on the states of the lanes and on the
units issued alone (R123): the crew takes it up when a unit of the run issues, and chooses again while none does. -/
def Crew.choose (c : Crew) : Option Choice :=
  let pcs := c.runPcs
  match lowestPc pcs with
  | none => none
  | some low =>
    let at0 := c.stands
    let next := lowestPc (pcs.filter fun a => decide (at0 < a))
    let kept (a : Addr) : Nat := if c.lastRun ≠ 0#32 ∧ at0 = a then c.streak else 0
    match c.lanes.find? overdue with
    | some x => some ⟨x.pc, c.rot, kept x.pc⟩
    | none =>
      if c.rot then
        if c.lastRun ≠ 0#32 ∧ c.streak < 64 then some ⟨at0, true, c.streak⟩
        else match next with
          | some a => some ⟨a, true, 0⟩
          | none => some ⟨low, false, 0⟩
      else if c.lastRun ≠ 0#32 ∧ 64 ≤ c.streak ∧ pcs.any (fun a => a != at0) then
        match next with
        | some a => some ⟨a, true, 0⟩
        | none => some ⟨low, false, 0⟩
      else some ⟨low, false, kept low⟩

/-- The clocks of R117 and the count of units after one of `run`. -/
def Crew.count (c : Crew) (run : W32) : Crew :=
  { c with units := c.units + 1
           lanes := mapFrom (fun l (x : Lane) =>
             { x with age := if run.getLsbD l || x.st != LaneSt.runnable then 0 else x.age + 1 }) 0 c.lanes }

/-- The choice state after a unit issued ahead of a stalled run: that run has been chosen, and stays the one to issue next;
units ahead of it count in no streak (R116, R118, R126, log 99). -/
def Crew.trackAhead (c : Crew) (u : Cursor) (run : W32) (at0 : Addr) : Crew :=
  { c with rot := u.rot, streak := if u.rot then u.streak else 0, pos := at0, last := run }

/-- The choice state after a unit of the cursor's run (R116): the run goes on where its lanes stand together, and a run
that has split, also by slices (R126), or has stopped starts a new streak. Lanes that a convergent unit holds have stopped,
and do not split the lanes that go on (log 99). -/
def Crew.track (c : Crew) (u : Cursor) : Crew :=
  let here := (lanesOf u.run).filterMap fun l => let x := c.lane l; if x.st = .runnable then some x.pc else none
  let left := c.runAt u.pc &&& ~~~u.run
  let c := c.count u.run
  match u.ahead with
  | some (run, at0) => c.trackAhead u run at0
  | none =>
    let c := { c with rot := u.rot, stall := none }
    match here with
    | [] => { c with pos := u.pc, last := 0#32, streak := 0 }
    | a :: rest =>
      if left = 0#32 ∧ rest.all fun b => b == a then { c with pos := a, last := u.run, streak := u.streak + 1 }
      else { c with pos := u.pc, last := 0#32, streak := 0 }

/-- The choice state after a unit that waits and completes when its wait ends: its lanes still are the run that issued last. -/
def Crew.trackWait (c : Crew) (u : Cursor) : Crew :=
  let c := c.count u.run
  match u.ahead with
  | some (run, at0) => c.trackAhead u run at0
  | none => { c with rot := u.rot, stall := none, pos := u.pc, last := u.run, streak := u.streak + 1 }

/-! ## Ending teams and launches -/

def State.updLaunch (s : State) (id : Nat) (f : Launch → Launch) : State :=
  { s with ctx := { s.ctx with launches := updateFirst (fun x => x.id == id) f s.ctx.launches } }

/-- The status word of a team ended by a trap (Table 15.2, code 0x05). -/
def trapWord (cause : Cause) (team : Nat) : W32 := word (5 + 256 * cause.code + 65536 * (team % 65536))

/-- The launch dispatches no further team; the first word stands (R352, R373). -/
def State.endLaunch (s : State) (id : Nat) (w : W32) : State :=
  s.updLaunch id fun x => { x with word := match x.word with | some v => some v | none => some w }

/-- A team ends: its crews issue no more, its engines drain, and no state is saved (R373, R381). -/
def State.endTeam (s : State) (id : Nat) (w : W32) : State :=
  match s.team? id with
  | none => s
  | some t => (s.updTeamId id fun t => { t with phase := .ending }).endLaunch t.launch w

/-- Saved teams of a launch are given up. -/
def State.dropSaved (s : State) (launch : Nat) : State :=
  { s with ctx := { s.ctx with saved := s.ctx.saved.filter fun x => x.team.launch != launch } }

/-- Every team of a launch ends, also those that a pre-emption has saved, and the launch with them (R381, R392). -/
def State.endAllTeams (s : State) (launch : Nat) (w : W32) : State :=
  ((s.withTeams (s.ctx.teams.map fun t => if t.launch = launch then { t with phase := .ending } else t)).dropSaved
    launch).endLaunch launch w

/-- A cause other than XLATE that the unit's handler lanes raised; it ends the team (R374). -/
def Crew.handlerTrap (c : Crew) (run : W32) : Option Cause :=
  ((lanesOf run).map c.lane).foldl (fun acc x =>
    if x.st = .parked ∧ x.inHandler ∧ x.cause ≠ .xlate then
      match acc with
      | some d => if x.cause.code < d.code then some x.cause else some d
      | none => some x.cause
    else acc) none

/-! ## Requests -/

/-- The request goes to the team's scratchpad, or to its accumulators: it takes no request entry (R249). -/
def ReqKind.spad : ReqKind → Bool
  | .spadLoad _ | .spadStore | .spadAtom _ | .spadCas => true
  | _ => false
def ReqKind.accum : ReqKind → Bool
  | .accRd _ | .accWr | .accAdd | .accClr => true
  | _ => false
def ReqKind.near (k : ReqKind) : Bool := k.spad || k.accum

/-! ## Scopes -/

/-- Twin scope or wider (R243). -/
def scopeWide : Scope → Bool
  | .twin => true | .die => true | .dev => true | .sys => true | _ => false

/-- A leaf update counts as performed at this scope once it is sent from the core (Table 11.2). -/
def scopeNarrow : Scope → Bool
  | .crew => true | .core => true | .twin => true | _ => false

/-- The physical die of a logical core (R12, R17). -/
def State.dieOf (s : State) (core : Nat) : Nat := s.ctx.cores.getD core 0 / 48

/-- The logical core beside one in its twin, if it has one (R17). -/
def State.partner (s : State) (core : Nat) : Option Nat :=
  if core < 2 * s.ctx.twins then some (if core % 2 = 0 then core + 1 else core - 1) else none

/-- The logical cores of a scope instance (Table 11.1). -/
def State.instanceCores (s : State) (core : Nat) : Scope → List Nat
  | .twin => core :: (s.partner core).toList
  | .die => (List.range s.ctx.cores.length).filter fun c => s.dieOf c == s.dieOf core
  | .dev => List.range s.ctx.cores.length
  | .sys => List.range s.ctx.cores.length
  | _ => [core]

/-- An update that counts as performed at crew, core and twin scope, since it has left its core (Table 11.2). -/
def Req.passable (r : Req) : Bool := r.onWay && match r.kind with | .store | .red _ | .aggRefresh => true | _ => false

/-- A release of die scope or wider follows the updates of its twin's cores that an earlier narrow release has counted as
performed once sent: a chain of scopes carries every earlier write (R271). -/
def State.chained (s : State) (core : Nat) (scope : Scope) (r : Req) : Bool :=
  r.passed && !(scopeNarrow scope) && (r.core == core || s.partner core == some r.core)

/-- A remote acquire of die scope or wider follows the updates that the releases it promotes have passed (R267, R272). -/
def State.promotes (s : State) (core : Nat) (scope : Scope) (r : Req) : Bool :=
  r.passed && !(scopeNarrow scope) && (s.instanceCores core scope).contains r.core

/-- Requests of a list are performed, or count as performed because they are updates that have been sent. -/
def State.settledReqs (s : State) (narrow : Bool) (ids : List Nat) : Bool :=
  !(s.ctx.reqs.any fun r => ids.contains r.id && !(narrow && r.passable))

/-- A FENCE may end: what it waits for is performed at its scope, with the updates of its twin that an earlier narrow release
has passed, and with remote those that the releases it promotes have (R257, R266, R271, R272). -/
def State.fenceOver (s : State) (core : Nat) (ids : List Nat) (scope : Scope) (rel acq remote : Bool) : Bool :=
  s.settledReqs (rel && scopeNarrow scope) ids &&
    !(s.ctx.reqs.any fun r => (rel && s.chained core scope r) || (acq && remote && s.promotes core scope r))

/-! ## What a crew sees of plates and windows -/

/-- The plate control word of a team's descriptor; bit 31 is MAPPED. -/
def Team.plate (t : Team) (pl : Nat) : W32 := t.plates.getD pl 0#32

/-- A descriptor as a crew sees it: as it stood before the oldest change that the crew has not seen (R205). -/
def Team.plateFor (t : Team) (crew pl : Nat) : W32 :=
  let seen := (t.crews.getD crew Crew.missing).unseen.findSome? fun u =>
    match u.was with | .plate q w => if q == pl then some w else none | .window _ _ => none
  seen.getD (t.plate pl)

/-- The accumulator window as a crew sees it (R215). -/
def Crew.window (c : Crew) : Nat × Nat :=
  (c.unseen.findSome? fun u => match u.was with | .window b l => some (b, l) | .plate _ _ => none).getD (c.winBase, c.winLimit)

/-- Two changes are of one descriptor, or of the window. -/
def sameSubject (a b : Former) : Bool :=
  match a, b with
  | .plate p _, .plate q _ => p == q
  | .window _ _, .window _ _ => true
  | _, _ => false

/-- A change that some crews of a team need not see until it is ordered before their units; the crew that makes it sees it
and every change before it. -/
def State.change (s : State) (team maker : Nat) (who : Crew → Bool) (was : Former) : State :=
  let f (c : Crew) : Crew :=
    if c.idx = maker then { c with unseen := c.unseen.filter fun u => !(sameSubject u.was was) }
    else if who c then { c with unseen := c.unseen ++ [⟨s.nextId, was, []⟩] }
    else c
  { s.updTeamId team (fun t => { t with crews := t.crews.map f }) with nextId := s.nextId + 1 }

/-- A crew that has seen changes orders them, for the crews that have not, by a barrier phase or a release (R205, R215). -/
def Team.markChanges (t : Team) (crew : Nat) (m : Mark) : Team :=
  let hidden := (t.crews.getD crew Crew.missing).unseen.map Unseen.change
  let f (u : Unseen) : Unseen := if hidden.contains u.change then u else { u with marks := u.marks ++ [m] }
  { t with crews := t.crews.map fun c => { c with unseen := c.unseen.map f } }

/-- A crew sees the changes that a barrier phase or a release has ordered before its units, and the older ones of the same
descriptor, or of its window. -/
def Crew.seeMarked (c : Crew) (p : Mark → Bool) : Crew :=
  let last (f : Former) : Option Nat :=
    ((c.unseen.filter fun u => sameSubject u.was f && u.marks.any p).getLast?).map Unseen.change
  { c with unseen := c.unseen.filter fun u => match last u.was with | some n => decide (n < u.change) | none => true }

/-- The first of some changes that is of one subject taken out. -/
def dropSubject (f : Former) : List Unseen → List Unseen
  | [] => []
  | u :: us => if sameSubject u.was f then us else u :: dropSubject f us

/-- A crew sees the oldest unseen change of a descriptor, or of its window, at any time: the one that entry n is of. -/
def Crew.seeOne (c : Crew) (n : Nat) : Crew :=
  match c.unseen[n % c.unseen.length]? with
  | some u => { c with unseen := dropSubject u.was c.unseen }
  | none => c

/-! ## The active set -/

/-- The crew's slot takes part in the exchanges of R121: same core, same partition. -/
def samePartition (a b : Crew) : Bool := a.core == b.core && a.partn == b.partn

/-- A request of a crew will still write one of these v registers of one of these lanes (R118). -/
def State.pendsV (s : State) (team crew : Nat) (regs : List Nat) (lanes : W32) : Bool :=
  s.ctx.reqs.any fun r => r.team == team && r.crew == crew && decide (r.lane < 32) &&
    lanes.getLsbD r.lane && regs.any fun x => decide (r.dest ≤ x) && decide (x < r.dest + r.regs)

/-- A request of a crew will still write one of these k registers (R256). -/
def State.pendsK (s : State) (team crew : Nat) (regs : List Nat) : Bool :=
  s.ctx.reqs.any fun r => r.team == team && r.crew == crew && r.lane == 32 &&
    regs.any fun x => decide (r.dest ≤ x) && decide (x < r.dest + r.regs)

/-- Teams whose crews may issue. -/
def Team.issues (t : Team) : Bool := t.phase = .running

/-- Every crew of the context with its team's identity. -/
def State.allCrews (s : State) : List (Team × Crew) := s.ctx.teams.flatMap fun t => t.crews.map fun c => (t, c)

/-- The pending crew of a partition that is swapped in next: ready the longest, ties to the lower slot (R121). The clock
since which a crew is ready is noted before each step. -/
def State.nextReady (s : State) (like : Crew) : Option (Team × Crew) :=
  (s.allCrews.filter fun e => samePartition like e.2 && !e.2.active && !e.2.retired && e.2.readySince.isSome && e.1.issues).foldl
    (fun acc e =>
      match acc with
      | none => some e
      | some b =>
        let x := e.2.readySince.getD s.ctx.clock
        let y := b.2.readySince.getD s.ctx.clock
        if x < y ∨ (x = y ∧ e.2.slot < b.2.slot) then some e else some b) none

/-- A crew leaves the active set for another of its partition: they take each other's slots (R111, R121). -/
def State.exchange (s : State) (outTeam outCrew inTeam inCrew outSlot inSlot : Nat) : State :=
  (s.updCrewOf outTeam outCrew fun c => { c with active := false, slot := inSlot, activeSince := s.ctx.clock, readySince := none }).updCrewOf inTeam
    inCrew fun c => { c with active := true, slot := outSlot, activeSince := s.ctx.clock, readySince := none }

/-- A crew waits long: it is exchanged with a ready pending crew, if there is one (R121). -/
def State.swapOutOf (s : State) (team crew : Nat) : State :=
  match s.team? team with
  | none => s
  | some t =>
    let c := t.crews.getD crew Crew.missing
    match s.nextReady c with
    | some e => if c.active then s.exchange team crew e.1.id e.2.idx c.slot e.2.slot else s
    | none => s

/-- A long-latency wait of the issuing crew begins (R121). -/
def State.swapOut (s : State) : State := s.swapOutOf s.cur.team s.cur.crew

/-- With no runnable lane left the crew of the unit leaves the active set (R121). -/
def State.leaveIdle (s : State) : State := if s.crew.lanes.any fun x => x.st = .runnable then s else s.swapOut

/-- The end of a unit, issued now or earlier: parked lanes are queued, and the crew's holds are evaluated (R125); a cause
raised in the handler ends the team (R374). `after` is what the unit does to the crew's choice state. -/
def State.settleUnit (s : State) (uniform : Bool) (after : Crew → Crew) : State :=
  let u := s.cur
  let bad := s.crew.handlerTrap u.run
  let s := (s.updCrew fun c => after ((c.queueParked u.run u.words uniform).settle)).leaveIdle
  match bad with
  | some cause => s.endTeam u.team (trapWord cause s.team.idx)
  | none => s

/-- The end of every unit that has issued; the crew's choice state moves on with it. A JOIN that releases at once has
moved its run before the streak is looked at (log 83). `uniform` is whether the unit is a uniform-set unit. -/
def State.finish (s : State) (uniform : Bool) : State := s.settleUnit uniform fun c => c.track s.cur

/-- The run moves past the unit, and the unit ends. -/
def State.done (s : State) (uniform : Bool) : State :=
  (s.updCrew fun c => c.advance s.cur.run s.cur.pc s.cur.words).finish uniform

/-- Every lane of the run parks with one cause at the unit, which has no other effect (R54). -/
def State.parkRun (s : State) (cause : Cause) (addr : W64) (uniform : Bool) : State :=
  (s.updCrew fun c => c.park s.cur.run cause s.cur.pc fun _ => addr).finish uniform

/-- The lanes of a mask park, and the other lanes of the run move past the unit (R53). -/
def State.parkLanes (s : State) (m : W32) (cause : Cause) (addr : W64) : State :=
  (s.updCrew fun c => c.park m cause s.cur.pc fun _ => addr).done false

/-! ## Waits -/

/-- The waits that complete their unit when they end; a lane in another wait issues its unit again. -/
def Wait.completes : Wait → Bool
  | .barrier .. | .barWait .. | .sleep _ | .fence .. | .depset .. | .closed _ | .xinv => true
  | _ => false

/-- The run waits at its unit. A unit that its wait completes has issued; any other issues when the wait is over. -/
def State.holdRun (s : State) (w : Wait) : State :=
  s.updCrew fun c => let c := c.wait s.cur.run w; if w.completes then c.trackWait s.cur else c

/-- The run waits at its unit, and the wait is long-latency (R121). -/
def State.waitRun (s : State) (w : Wait) : State := (s.holdRun w).swapOut

/-- The run waits at its unit, and the crew stays in the active set unless every lane now waits (R121, log 92). -/
def State.stallRun (s : State) (w : Wait) : State := (s.holdRun w).leaveIdle

/-- The run stalls at its unit until there is room for what it issues: the crew issues nothing meanwhile, takes no other
run, and stays in the active set (R118, R123, R221, R249, R319, R330). -/
def State.stallRoom (s : State) (w : Wait) : State :=
  (s.bump 1).updCrew fun c => { c with stall := some { pc := s.cur.pc, run := s.cur.run, room := some w } }

/-- Commands of a core that hold one of an engine's places (R221, R319, R330). -/
def Cmd.engine : CmdKind → Nat
  | .copy | .copyG | .copyS | .fill | .plateLoad => 0
  | .mxr | .mxg | .accSt => 1
  | .walk => 2
  | _ => 3

/-- How many commands an engine of a core may hold. -/
def engineLimit : Nat → Nat
  | 0 => 32 | 1 => 16 | 2 => 8 | _ => 1000000

def State.engineFull (s : State) (core engine : Nat) : Bool :=
  decide (engineLimit engine ≤ (s.ctx.cmds.filter fun c => c.core == core && Cmd.engine c.kind == engine).length)

/-- Request entries a core holds: one for each line of each unit (R249). -/
def State.entriesHeld (s : State) (core : Nat) : Nat :=
  ((s.ctx.reqs.filter fun r => r.core == core && !r.kind.near && r.failed.isNone).map fun r =>
    (r.unit, if r.size = 0 then 2 ^ 52 + r.id else r.pa / 64)).eraseDups.length

/-! ## Exposure budgets -/

/-- The allowance in force of a class and an activity (Table 15.5). -/
def State.allowance (s : State) (cls act : Nat) : W32 := ~~~(readKey s.ctx.allow (8 * cls + act))

/-- The remaining count of a core, class and activity in this period (R362). -/
def State.expoLeft (s : State) (core cls act : Nat) : Int :=
  match s.ctx.expo.find? fun e => e.core == core && e.cls == cls && e.act == act with
  | some e => e.left
  | none => (s.allowance cls act).toNat

/-- A limited count is spent (Table 15.6). -/
def State.expoSpent (s : State) (core cls act : Nat) : Bool :=
  s.allowance cls act != 0xFFFFFFFF#32 && decide (s.expoLeft core cls act ≤ 0)

/-- Units spent from a limited count (Table 15.6). -/
def State.spend (s : State) (core cls act n : Nat) : State :=
  if s.allowance cls act = 0xFFFFFFFF#32 then s
  else
    let e : Expo := { core := core, cls := cls, act := act, left := s.expoLeft core cls act - n }
    let others := s.ctx.expo.filter fun x => !(x.core == core && x.cls == cls && x.act == act)
    { s with ctx := { s.ctx with expo := e :: others } }

/-- A request with one of these identities is outstanding. -/
def State.anyReq (s : State) (ids : List Nat) : Bool := s.ctx.reqs.any fun r => ids.contains r.id

/-- A held unit of the crew will still write one of these v registers of one of these lanes: a convergent unit writes its
destination, a REGROUP moves every register of the thread (R127, R133, R155). A unit that itself waits for a lane of `run`
is performed after the run's unit (log 84). -/
def Crew.heldWrites (c : Crew) (regs : List Nat) (lanes run : W32) : Bool :=
  c.holds.any fun h => c.heldAt h.pc &&& lanes != 0#32 &&
    match h.kind with
    | .conv unit _ members => members &&& run == 0#32 && match convDest unit with | some d => regs.contains d | none => false
    | .regroup .. => c.lanesWhere Lane.counts &&& run == 0#32
    | .join .. => false

/-- The cores whose tables a TBL.LOAD fills: the core of its crew, and both of a bracketed pair (R186, R390). -/
def State.tableCores (s : State) (x : Cmd) : List Nat :=
  x.core :: match s.team? x.team with | some t => (if t.bracket then t.follower.toList else []) | none => []

/-- A command is a TBL.LOAD that fills a core's tables. -/
def State.fillsTables (s : State) (x : Cmd) (core : Nat) : Bool := x.kind == .tblLoad && (s.tableCores x).contains core

/-- A wait is over. -/
def State.waitDone (s : State) (t : Team) (c : Crew) : Wait → Bool
  | .tokens regs => regs.all fun r => !(c.isBusy r)
  | .barrier b n | .barWait b n _ => decide (n < (t.bars.getD b {}).phase)
  | .sleep till => decide (till ≤ s.ctx.clock)
  | .fence ids _ scope rel acq remote => s.fenceOver c.core ids scope rel acq remote
  | .depset ids _ scope => s.fenceOver c.core ids scope true false false
  | .reqs ids => !(s.anyReq ids)
  | .sent ids => s.settledReqs true ids
  | .unit => false
  | .closed ids => !(s.anyReq ids)
  | .room n => decide (s.entriesHeld c.core + n ≤ 1024)
  | .expo act => !(s.expoSpent c.core t.cls act)
  | .engineRoom e => !(s.engineFull c.core e)
  | .ringAcq r => let g := t.rings.getD r {}; !g.init || decide (g.a ≠ g.f + g.scount)
  | .ringWait r n => let g := t.rings.getD r {}; !g.init || decide (n < g.c)
  | .ringInit r =>
    !(s.ctx.cmds.any fun x => x.team == t.id && x.kind == .walk && decide (((x.desc.getD 1 0#32).extractLsb' 8 4).toNat = r))
    && !((t.rings.getD r {}).commits.any fun x => x.cmd.isSome)
  | .plate pl => !(s.ctx.cmds.any fun x => x.team == t.id &&
      (match x.kind with
        | .mxr | .mxg => decide ((x.imm.extractLsb' 0 3).toNat = pl)
        | .plateLoad => decide (((x.desc.getD 2 0#32).extractLsb' 0 3).toNat = pl)
        | _ => false))
  | .tables => !(s.ctx.cmds.any fun x => s.fillsTables x c.core)
  | .xinv => s.ctx.xinvCmd == 0
  | .flags => !(s.ctx.reqs.any fun r => r.team == t.id && r.crew == c.idx)
  | .written regs lanes run => !(c.heldWrites regs lanes run)
  | .eret => false

/-- The unit of the chosen run stalls on a register that a load will still write (R118). -/
def State.stalledLoad (s : State) (team : Nat) (c : Crew) : Bool :=
  match c.choose, c.stall with
  | some x, some y =>
    x.pc == y.pc && y.run &&& c.runAt y.pc != 0#32 &&
      (s.pendsV team c.idx y.v (y.lanes &&& c.runAt y.pc) || s.pendsK team c.idx y.k)
  | _, _ => false

/-- The unit of the chosen run stalls: on a register, or for room (R118, R249). -/
def State.stalled (s : State) (t : Team) (c : Crew) : Bool :=
  s.stalledLoad t.id c ||
    match c.choose, c.stall with
    | some x, some ⟨pc, run, _, _, _, some w⟩ => x.pc == pc && run &&& c.runAt pc != 0#32 && !(s.waitDone t c w)
    | _, _ => false

/-! ## Taking an exception and returning from one -/

/-- The primary cause of some lanes: the lowest code (R375). -/
def Crew.primary (c : Crew) (m : W32) : Cause :=
  ((lanesOf m).map fun l => (c.lane l).cause).foldl (fun a x => if x.code < a.code then x else a) .bkpt

/-- TRAPINFO of an episode (Table 16.3). -/
def Crew.trapInfoOf (c : Crew) (r : ParkedRun) : W32 :=
  let p := c.primary r.lanes
  let low := lowestLane (r.lanes &&& c.lanesWhere fun x => x.cause = p)
  word (r.ulen * 2 ^ 30 + (if r.uniform then 2 ^ 29 else 0) + popcount r.lanes * 2 ^ 16 + low * 2 ^ 8 + p.code)

/-- TAKING AN EXCEPTION (R373, R374): a crew's parked run becomes its open episode. The trap CSRs are captured,
and the lanes become one run at the handler's address, their saved PCs kept. -/
def Crew.openEpisode (c : Crew) (entry : Addr) (handler : W32) (r : ParkedRun) : Crew :=
  let p := c.primary r.lanes
  let low := lowestLane (r.lanes &&& c.lanesWhere fun x => x.cause = p)
  let e : Episode :=
    { lanes := r.lanes
      trapPc := ((c.lane low).saved - entry).setWidth 32
      trapInfo := c.trapInfoOf r
      causes := (List.range 32).map fun l => BitVec.ofNat 4 ((c.lane l).cause.code - 1)
      trapAddr := (c.lane low).trapAddr }
  { c.updLanes r.lanes (fun _ x =>
      { x with st := .runnable, pc := entry + handler.signExtend 52, inHandler := true, removed := false }) with
    episode := some e }

/-- PARKMASK (Table 16.3): the episode's lanes that PARK.MASK has not removed. -/
def Crew.parkMask (c : Crew) : W32 :=
  match c.episode with
  | none => 0#32
  | some e => e.lanes &&& c.lanesWhere fun x => !x.removed

/-- Every lane of the episode that PARK.MASK has not removed stands at an ERET, given the run that issues one
(R377); a removed lane that has not reached it is not waited for. -/
def Crew.allAtEret (c : Crew) (run : W32) : Bool :=
  (lanesOf c.parkMask).all fun l => run.getLsbD l || decide ((c.lane l).st = .waiting .eret)

/-- Some lane stands at an ERET. -/
def Crew.anyAtEret (c : Crew) : Bool := c.lanes.any fun x => decide (x.st = .waiting .eret)

/-- The lanes of a mask wait for Maelner no longer. -/
def Crew.leaveMaelner (c : Crew) (m : W32) : Crew :=
  { c with atMaelner := (c.atMaelner.map fun r => { r with lanes := r.lanes &&& ~~~m }).filter fun r => r.lanes != 0#32 }

/-- RETURN FROM AN EXCEPTION (R377): lanes in PARKMASK become runnable at their saved PCs, removed lanes exit,
and the episode closes. -/
def Crew.closeEpisode (c : Crew) : Crew :=
  match c.episode with
  | none => c
  | some e =>
    { (c.leaveMaelner e.lanes).updLanes e.lanes (fun _ x =>
        if x.removed then { x with st := .exited, inHandler := false, removed := false }
        else { x with st := .runnable, pc := x.saved, inHandler := false, saved := 0#52, cause := .illegal, trapAddr := 0#64 })
      with episode := none }

/-- The episode closes once every lane that counts stands at an ERET, and one does (R377). -/
def Crew.eretDue (c : Crew) : Crew := if c.episode.isSome && c.anyAtEret && c.allAtEret 0#32 then c.closeEpisode else c

/-- The cause with which a lane of the open episode parked (R370). -/
def Crew.episodeCause (c : Crew) (l : Nat) : Cause :=
  match c.episode with
  | some e => Cause.ofCode ((e.causes.getD l 0#4).toNat + 1)
  | none => .illegal

/-- A parked lane that Maelner's service returns to its unit (R371); one that runs the handler keeps what its episode has of it
(R370). -/
def Lane.resume (x : Lane) (cause : Cause) : Lane :=
  { x with st := .runnable, trapAddr := 0#64, cause := if x.inHandler then cause else .illegal
           saved := if x.inHandler then x.saved else 0#52 }

/-- The page of a lane's trap address. -/
def Lane.faultPage (x : Lane) : Nat := x.trapAddr.toNat % 2 ^ 52 / 65536

/-- Lanes of a run parked on a page. -/
def Crew.onPage (c : Crew) (r : ParkedRun) (page : Nat) : W32 := r.lanes &&& c.lanesWhere fun x => x.faultPage == page

/-- Lanes whose cause Maelner delivers join the handler's queue, in the order of parking (R371, R373); lanes of the handler run
end the team instead (R374). -/
def Crew.delivered (c : Crew) (lanes : W32) : Crew :=
  let got := c.atMaelner.map fun r => { r with lanes := r.lanes &&& lanes }
  let m := got.foldl (fun m r => m ||| r.lanes) 0#32
  let outside := c.lanesWhere fun x => !x.inHandler
  { c.leaveMaelner m with queue := got.foldl (fun q r => addRun q { r with lanes := r.lanes &&& outside }) c.queue }

end Sys2Proof.Machine
end

