-- ==== Sys2Proof/WellFormed.lean ====
section
/-!
DEFINITION. Which terms of Instr are instructions the part decodes: the PREFIX fields each accepts
(Table 2.7), the register limits (Table 2.3) and the field values each entry allows (R52). A unit
whose term fails this raises ILLEGAL.
-/

namespace Sys2Proof

/-- A register number that is even (Table 2.3). -/
def evenReg (d : BitVec 7) : Bool := !(d.getLsbD 0)

/-- A register number that is a multiple of 4 (Table 2.3). -/
def quadReg (d : BitVec 7) : Bool := !(d.getLsbD 0) && !(d.getLsbD 1)

/-- An even uniform register number (R256, R258, R381). -/
def evenK (a : BitVec 8) : Bool := !(a.getLsbD 0)

/-- The source names an even register (Table 2.3). -/
def Src.even : Src → Bool
  | .v r => evenReg r
  | .k r => evenReg r

/-- The source names a multiple of 4. -/
def Src.quad : Src → Bool
  | .v r => quadReg r
  | .k r => quadReg r

/-- The source is a vector register. -/
def Src.isV : Src → Bool
  | .v _ => true
  | .k _ => false

/-- The source is neither 0x7F nor 0xFF, so a8 + 1 exists (Table 2.3). -/
def Src.hasNext : Src → Bool
  | .v r => r != 127#7
  | .k r => r != 127#7

/-- 64-bit data needs an even d (Table 2.3). -/
def dataOk (w : Width) (d : BitVec 7) : Bool := w != .b64 || evenReg d

/-- V = 1 of a load is allowed for 8 and 16 bits only (R208, R252). -/
def signOk (sx : Bool) (w : Width) : Bool := !sx || w == .b8 || w == .b16

/-- Atomics take 32- or 64-bit data (Tables 8.5, 10.7). -/
def atomWidth (w : Width) : Bool := w == .b32 || w == .b64

/-- Compare and new value in d: even for 32 bits, a multiple of 4 for 64 bits (Table 2.3). -/
def casOk (w : Width) (d : BitVec 7) : Bool := if w == .b64 then quadReg d else evenReg d

/-- The operation codes of Table 10.8 and the widths each allows (R253). -/
def atomCodeOk (c : BitVec 8) (w : Width) : Bool :=
  c.toNat ≤ 8 || (c.toNat ≤ 11 && w == .b32)

/-- A block floating-point width, 2 to 8 (R98). -/
def bfpWidth (m : BitVec 4) : Bool := 2 ≤ m.toNat && m.toNat ≤ 8

/-- Elements of a float format in one register (R178). -/
def FloatFmt.elems : FloatFmt → Nat
  | .f32 => 1 | .bf16 => 2 | .f16 => 2 | .e4m3 => 4 | .e5m2 => 4

/-- Elements of an integer type in one register (R178). -/
def IntFmt.elems : IntFmt → Nat
  | .i32 => 1 | .n32 => 1 | .i16 => 2 | .n16 => 2 | .i8 => 4 | .n8 => 4

/-- `.not` and `.mov` take no second operand (R157). -/
def MlogOp.binary : MlogOp → Bool
  | .not => false | .mov => false | _ => true

/-- CSR numbers CSRR takes: 0x000 to 0x0FF (R379), less the two whose reads are steps of their own. -/
def csrReadable (n : BitVec 12) : Bool := n.toNat < 0x100 && n != 0x041#12 && n != 0x084#12

/-- CSR numbers that can be written (R379), less those whose writes are steps of their own. -/
def csrWritable (n : BitVec 12) : Bool :=
  [0x020, 0x040, 0x050, 0x051, 0x052, 0x080, 0x081, 0x082, 0x083, 0x090, 0x091, 0x093, 0x094, 0x095,
    0x096, 0x097].contains n.toNat

/-- What c may hold for an instruction (Table 2.7). -/
inductive COperand where
  | none
  | source
  | code
deriving DecidableEq, Repr

/-- The orders an instruction accepts (Table 2.7). -/
inductive Orders where
  | plain
  | acquire
  | release
  | any
deriving DecidableEq, Repr

/-- One row of Table 2.7: mask and inv are accepted by every row a PREFIX may stand before. -/
structure Accepts where
  c : COperand := .none
  zeroing : Bool := true
  round : Bool := false
  sat : Bool := false
  maxScope : Nat := 0
  orders : Orders := .plain
  remote : Bool := false
deriving DecidableEq, Repr

/-- The code of a Round in its field. -/
def Round.toBits : Round → BitVec 3
  | .rne => 0#3
  | .rtz => 1#3
  | .rup => 2#3
  | .rdn => 3#3
  | .rna => 4#3
  | .dyn => 5#3

/-- The Round of a code; a code the table does not define has none. -/
def Round.ofBits? (x : BitVec 3) : Option Round :=
  match x.toNat with
  | 0 => some .rne
  | 1 => some .rtz
  | 2 => some .rup
  | 3 => some .rdn
  | 4 => some .rna
  | 5 => some .dyn
  | _ => none

/-- The code of a Scope in its field. -/
def Scope.toBits : Scope → BitVec 3
  | .dflt => 0#3
  | .crew => 1#3
  | .core => 2#3
  | .twin => 3#3
  | .die => 4#3
  | .dev => 5#3
  | .sys => 6#3

/-- The Scope of a code; a code the table does not define has none. -/
def Scope.ofBits? (x : BitVec 3) : Option Scope :=
  match x.toNat with
  | 0 => some .dflt
  | 1 => some .crew
  | 2 => some .core
  | 3 => some .twin
  | 4 => some .die
  | 5 => some .dev
  | 6 => some .sys
  | _ => none

/-- The code of a Order in its field. -/
def Order.toBits : Order → BitVec 2
  | .plain => 0#2
  | .acq => 1#2
  | .rel => 2#2
  | .acqRel => 3#2

/-- The Order of a code; a code the table does not define has none. -/
def Order.ofBits? (x : BitVec 2) : Option Order :=
  match x.toNat with
  | 0 => some .plain
  | 1 => some .acq
  | 2 => some .rel
  | 3 => some .acqRel
  | _ => none

/-- The code of a VoteKind in its field. -/
def VoteKind.toBits : VoteKind → BitVec 8
  | .any => 0#8
  | .all => 1#8
  | .ballot => 2#8
  | .count => 3#8

/-- The VoteKind of a code; a code the table does not define has none. -/
def VoteKind.ofBits? (x : BitVec 8) : Option VoteKind :=
  match x.toNat with
  | 0 => some .any
  | 1 => some .all
  | 2 => some .ballot
  | 3 => some .count
  | _ => none

/-- The code of a IntCond in its field. -/
def IntCond.toBits : IntCond → BitVec 4
  | .eq => 0#4
  | .ne => 1#4
  | .lt => 2#4
  | .le => 3#4
  | .gt => 4#4
  | .ge => 5#4
  | .ltu => 6#4
  | .leu => 7#4
  | .gtu => 8#4
  | .geu => 9#4

/-- The IntCond of a code; a code the table does not define has none. -/
def IntCond.ofBits? (x : BitVec 4) : Option IntCond :=
  match x.toNat with
  | 0 => some .eq
  | 1 => some .ne
  | 2 => some .lt
  | 3 => some .le
  | 4 => some .gt
  | 5 => some .ge
  | 6 => some .ltu
  | 7 => some .leu
  | 8 => some .gtu
  | 9 => some .geu
  | _ => none

/-- The code of a FpCond in its field. -/
def FpCond.toBits : FpCond → BitVec 4
  | .eq => 0#4
  | .ne => 1#4
  | .lt => 2#4
  | .le => 3#4
  | .gt => 4#4
  | .ge => 5#4
  | .ord => 6#4
  | .unord => 7#4

/-- The FpCond of a code; a code the table does not define has none. -/
def FpCond.ofBits? (x : BitVec 4) : Option FpCond :=
  match x.toNat with
  | 0 => some .eq
  | 1 => some .ne
  | 2 => some .lt
  | 3 => some .le
  | 4 => some .gt
  | 5 => some .ge
  | 6 => some .ord
  | 7 => some .unord
  | _ => none

/-- The code of a BraCond in its field. -/
def BraCond.toBits : BraCond → BitVec 2
  | .always => 0#2
  | .zero => 1#2
  | .nonzero => 2#2
  | .neg => 3#2

/-- The BraCond of a code; a code the table does not define has none. -/
def BraCond.ofBits? (x : BitVec 2) : Option BraCond :=
  match x.toNat with
  | 0 => some .always
  | 1 => some .zero
  | 2 => some .nonzero
  | 3 => some .neg
  | _ => none

/-- The code of a MlogOp in its field. -/
def MlogOp.toBits : MlogOp → BitVec 3
  | .and => 0#3
  | .or => 1#3
  | .xor => 2#3
  | .andn => 3#3
  | .not => 4#3
  | .mov => 5#3

/-- The MlogOp of a code; a code the table does not define has none. -/
def MlogOp.ofBits? (x : BitVec 3) : Option MlogOp :=
  match x.toNat with
  | 0 => some .and
  | 1 => some .or
  | 2 => some .xor
  | 3 => some .andn
  | 4 => some .not
  | 5 => some .mov
  | _ => none

/-- The code of a FloatFmt in its field. -/
def FloatFmt.toBits : FloatFmt → BitVec 3
  | .f32 => 0#3
  | .bf16 => 1#3
  | .f16 => 2#3
  | .e4m3 => 3#3
  | .e5m2 => 4#3

/-- The FloatFmt of a code; a code the table does not define has none. -/
def FloatFmt.ofBits? (x : BitVec 3) : Option FloatFmt :=
  match x.toNat with
  | 0 => some .f32
  | 1 => some .bf16
  | 2 => some .f16
  | 3 => some .e4m3
  | 4 => some .e5m2
  | _ => none

/-- The code of a IntFmt in its field. -/
def IntFmt.toBits : IntFmt → BitVec 3
  | .i32 => 0#3
  | .n32 => 1#3
  | .i16 => 2#3
  | .n16 => 3#3
  | .i8 => 4#3
  | .n8 => 5#3

/-- The IntFmt of a code; a code the table does not define has none. -/
def IntFmt.ofBits? (x : BitVec 3) : Option IntFmt :=
  match x.toNat with
  | 0 => some .i32
  | 1 => some .n32
  | 2 => some .i16
  | 3 => some .n16
  | 4 => some .i8
  | 5 => some .n8
  | _ => none

/-- The code of a Width in its field. -/
def Width.toBits : Width → BitVec 2
  | .b8 => 0#2
  | .b16 => 1#2
  | .b32 => 2#2
  | .b64 => 3#2

/-- The Width of a code; a code the table does not define has none. -/
def Width.ofBits? (x : BitVec 2) : Option Width :=
  match x.toNat with
  | 0 => some .b8
  | 1 => some .b16
  | 2 => some .b32
  | 3 => some .b64
  | _ => none

/-- The code of a LutMode in its field. -/
def LutMode.toBits : LutMode → BitVec 2
  | .raw => 0#2
  | .linear => 1#2

/-- The LutMode of a code; a code the table does not define has none. -/
def LutMode.ofBits? (x : BitVec 2) : Option LutMode :=
  match x.toNat with
  | 0 => some .raw
  | 1 => some .linear
  | _ => none

/-- The PREFIX holds only fields the instruction accepts (R41, R42). -/
def Prefix.ok (p : Prefix) (x : Accepts) : Bool :=
  (match x.c with
    | .none => p.c == 0#8 && !p.cValid
    | .source => p.cValid || p.c == 0#8
    | .code => !p.cValid)
  && (x.zeroing || !p.zeroing)
  && (x.round || p.round == .rne)
  && (x.sat || !p.sat)
  && (p.scope.toBits.toNat ≤ x.maxScope)
  && (match x.orders with
    | .plain => p.order == .plain
    | .acquire => p.order == .plain || p.order == .acq
    | .release => p.order == .plain || p.order == .rel
    | .any => true)
  && (!p.remote || (x.remote && (p.order == .acq || p.order == .acqRel)))

namespace Accepts

/-- The row of Table 2.7 for VOTE, SHFL_IDX, SHFL_UP, SHFL_DN, SHFL_XOR, MATCH, COMPACT, ELECT, SREG, IMULH, IMIN, IMAX, AND, OR, XOR, ANDN, SHL, SHR, SAR, ROTL, BFE, POPC, CLZ, BREV, ICMP, MOVI, MOV, LIT, FMIN, FMAX, FNEG, FABS, FCMP, FCLASS, FRCP, FRSQ, FSQRT, FEXP2, FLOG2, FSIN, FCOS, FTANH, BFPX, PERMB, NIBX, LUT, LDS, LDS_Q, ACC_RD. -/
def plainForm : Accepts := ⟨.none, true, false, false, 0, .plain, false⟩
/-- The row of Table 2.7 for IADD, ISUB, IMUL, INEG, IABS, IADDI. -/
def satForm : Accepts := ⟨.none, true, false, true, 0, .plain, false⟩
/-- The row of Table 2.7 for IMAD, IDOT4. -/
def cSatForm : Accepts := ⟨.source, true, false, true, 0, .plain, false⟩
/-- The row of Table 2.7 for BFI. -/
def cForm : Accepts := ⟨.source, true, false, false, 0, .plain, false⟩
/-- The row of Table 2.7 for SEL. -/
def selForm : Accepts := ⟨.none, false, false, false, 0, .plain, false⟩
/-- The row of Table 2.7 for STS, STS_Q, ACC_WR, ACC_ADD, PREF. -/
def storeForm : Accepts := ⟨.none, false, false, false, 0, .plain, false⟩
/-- The row of Table 2.7 for FADD, FSUB, FMUL, FRND, FSCALE, CVT_FF, CVT_IF, BFPQ_M, BFPQ_E. -/
def roundForm : Accepts := ⟨.none, true, true, false, 0, .plain, false⟩
/-- The row of Table 2.7 for FFMA, FDOT2. -/
def cRoundForm : Accepts := ⟨.source, true, true, false, 0, .plain, false⟩
/-- The row of Table 2.7 for CVT_FI, PACK2. -/
def roundSatForm : Accepts := ⟨.none, true, true, true, 0, .plain, false⟩
/-- The row of Table 2.7 for ATOMS. -/
def atomsForm : Accepts := ⟨.code, true, false, false, 2, .any, false⟩
/-- The row of Table 2.7 for ATOMS_CAS. -/
def atomsCasForm : Accepts := ⟨.none, true, false, false, 2, .any, false⟩
/-- The row of Table 2.7 for LD, LD_Q, LDA_SUM, LDA_MAX, LDA_MIN, LDA_FIND, LDA_PICK, CLU_NODE. -/
def loadForm : Accepts := ⟨.none, true, false, false, 6, .acquire, true⟩
/-- The row of Table 2.7 for ST, ST_Q. -/
def gstoreForm : Accepts := ⟨.none, false, false, false, 6, .release, false⟩
/-- The row of Table 2.7 for ATOM. -/
def atomForm : Accepts := ⟨.code, true, false, false, 6, .any, true⟩
/-- The row of Table 2.7 for ATOM_CAS. -/
def atomCasForm : Accepts := ⟨.none, true, false, false, 6, .any, true⟩
/-- The row of Table 2.7 for RED. -/
def redForm : Accepts := ⟨.code, false, false, false, 6, .release, false⟩

end Accepts

/-- The term is an instruction the part decodes (R52). The steps without words of their own are not
decoded, so nothing limits them. -/
def Instr.wellFormed : Instr → Bool
  | .nop imm => imm == 0#16 || (imm.getLsbD 15 && imm.extractLsb' 0 6 == 0#6)
  | .bra _ _ _ => true
  | .brx a => a.even
  | .call _ => true
  | .callx d a => a.even && evenReg d
  | .ret a => a.even
  | .join _ => true
  | .exit => true
  | .vote p _ _ _ => p.ok Accepts.plainForm
  | .shflIdx p _ _ _ => p.ok Accepts.plainForm
  | .shflUp p _ _ _ => p.ok Accepts.plainForm
  | .shflDn p _ _ _ => p.ok Accepts.plainForm
  | .shflXor p _ _ _ => p.ok Accepts.plainForm
  | .matchEq p _ _ => p.ok Accepts.plainForm
  | .compact p _ _ _ => p.ok Accepts.plainForm
  | .regroup _ _ => true
  | .elect p _ => p.ok Accepts.plainForm
  | .sreg p _ _ => p.ok Accepts.plainForm
  | .iadd p _ _ _ _ => p.ok Accepts.satForm
  | .isub p _ _ _ _ => p.ok Accepts.satForm
  | .imul p _ _ _ _ => p.ok Accepts.satForm
  | .imulh p _ _ _ _ => p.ok Accepts.plainForm
  | .imad p _ _ _ _ => p.ok Accepts.cSatForm
  | .imin p _ _ _ _ => p.ok Accepts.plainForm
  | .imax p _ _ _ _ => p.ok Accepts.plainForm
  | .ineg p _ _ => p.ok Accepts.satForm
  | .iabs p _ _ => p.ok Accepts.satForm
  | .vand p _ _ _ => p.ok Accepts.plainForm
  | .vor p _ _ _ => p.ok Accepts.plainForm
  | .vxor p _ _ _ => p.ok Accepts.plainForm
  | .andn p _ _ _ => p.ok Accepts.plainForm
  | .shl p _ _ _ => p.ok Accepts.plainForm
  | .shr p _ _ _ => p.ok Accepts.plainForm
  | .sar p _ _ _ => p.ok Accepts.plainForm
  | .rotl p _ _ _ => p.ok Accepts.plainForm
  | .bfe p _ _ _ => p.ok Accepts.plainForm
  | .bfi p _ _ _ => p.ok Accepts.cForm
  | .popc p _ _ => p.ok Accepts.plainForm
  | .clz p _ _ => p.ok Accepts.plainForm
  | .brev p _ _ => p.ok Accepts.plainForm
  | .icmp p _ _ md _ _ => p.ok Accepts.plainForm && md != 0#3
  | .sel p _ _ _ => p.ok Accepts.selForm
  | .idot4 p _ _ _ _ => p.ok Accepts.cSatForm
  | .iaddi p _ _ _ _ => p.ok Accepts.satForm
  | .movi p _ _ _ => p.ok Accepts.plainForm
  | .mov p _ _ => p.ok Accepts.plainForm
  | .lit p _ _ => p.ok Accepts.plainForm
  | .fadd p _ _ _ _ => p.ok Accepts.roundForm
  | .fsub p _ _ _ _ => p.ok Accepts.roundForm
  | .fmul p _ _ _ _ => p.ok Accepts.roundForm
  | .ffma p _ _ _ _ => p.ok Accepts.cRoundForm
  | .fmin p _ _ _ _ => p.ok Accepts.plainForm
  | .fmax p _ _ _ _ => p.ok Accepts.plainForm
  | .fneg p _ _ => p.ok Accepts.plainForm
  | .fabs p _ _ => p.ok Accepts.plainForm
  | .fcmp p _ _ md _ _ => p.ok Accepts.plainForm && md != 0#3
  | .fclass p _ _ => p.ok Accepts.plainForm
  | .frnd p _ _ => p.ok Accepts.roundForm
  | .fscale p _ _ _ => p.ok Accepts.roundForm
  | .frcp p _ _ => p.ok Accepts.plainForm
  | .frsq p _ _ => p.ok Accepts.plainForm
  | .fsqrt p _ _ => p.ok Accepts.plainForm
  | .fexp2 p _ _ => p.ok Accepts.plainForm
  | .flog2 p _ _ => p.ok Accepts.plainForm
  | .fsin p _ _ => p.ok Accepts.plainForm
  | .fcos p _ _ => p.ok Accepts.plainForm
  | .ftanh p _ _ => p.ok Accepts.plainForm
  | .fdot2 p _ _ _ _ => p.ok Accepts.cRoundForm
  | .cvtFF p _ _ _ src e => p.ok Accepts.roundForm && src.elems > e.toNat
  | .cvtFI p _ _ src e _ => p.ok Accepts.roundSatForm && src.elems > e.toNat
  | .cvtIF p _ _ _ e src => p.ok Accepts.roundForm && src.elems > e.toNat
  | .bfpqM p _ _ _ m => p.ok Accepts.roundForm && bfpWidth m
  | .bfpqE p _ _ _ _ _ => p.ok Accepts.roundForm && !p.zeroing
  | .bfpx p _ _ _ _ m => p.ok Accepts.plainForm && bfpWidth m
  | .permb p _ _ _ => p.ok Accepts.plainForm
  | .nibx p _ _ _ two g => p.ok Accepts.plainForm && (two || !(g.getLsbD 1))
  | .xpose d a _ => quadReg d && a.isV && a.quad
  | .lut p _ _ _ _ => p.ok Accepts.plainForm
  | .pack2 p _ _ _ _ => p.ok Accepts.roundSatForm
  | .lds p sx d _ sz _ => p.ok Accepts.plainForm && signOk sx sz && dataOk sz d
  | .sts p d _ sz _ => p.ok Accepts.storeForm && dataOk sz d
  | .ldsQ p d _ _ => p.ok Accepts.plainForm && quadReg d
  | .stsQ p d _ _ => p.ok Accepts.storeForm && quadReg d
  | .atoms p d _ sz _ => p.ok Accepts.atomsForm && atomWidth sz && dataOk sz d && atomCodeOk p.c sz
  | .atomsCas p d _ sz _ => p.ok Accepts.atomsCasForm && atomWidth sz && casOk sz d
  | .accRd p _ _ _ => p.ok Accepts.plainForm
  | .accWr p _ _ => p.ok Accepts.storeForm
  | .accAdd p _ _ => p.ok Accepts.storeForm
  | .ld p sx d a sz _ => p.ok Accepts.loadForm && a.even && signOk sx sz && dataOk sz d
  | .st p d a sz _ => p.ok Accepts.gstoreForm && a.even && dataOk sz d
  | .ldQ p d a _ => p.ok Accepts.loadForm && a.even && quadReg d
  | .stQ p d a _ => p.ok Accepts.gstoreForm && a.even && quadReg d
  | .atom p d a sz _ => p.ok Accepts.atomForm && a.even && atomWidth sz && dataOk sz d && atomCodeOk p.c sz
  | .atomCas p d a sz _ => p.ok Accepts.atomCasForm && a.even && atomWidth sz && casOk sz d
  | .red p d a sz _ => p.ok Accepts.redForm && a.even && atomWidth sz && dataOk sz d && atomCodeOk p.c sz
  | .pref p _ a _ => p.ok Accepts.storeForm && a.even
  | .ldaSum p arg d a _ => p.ok Accepts.loadForm && a.hasNext && (!arg || evenReg d)
  | .ldaMax p arg d a _ => p.ok Accepts.loadForm && a.hasNext && (!arg || evenReg d)
  | .ldaMin p _ a _ => p.ok Accepts.loadForm && a.hasNext
  | .ldaFind p _ d a _ => p.ok Accepts.loadForm && a.hasNext && evenReg d
  | .ldaPick p _ d a _ => p.ok Accepts.loadForm && a.hasNext && evenReg d
  | .cluNode p q d a _ => p.ok Accepts.loadForm && a.hasNext && (!q || quadReg d)
  | .knop => true
  | .kadd _ _ _ => true
  | .ksub _ _ _ => true
  | .kmul _ _ _ => true
  | .kmulh _ _ _ => true
  | .kmad _ _ _ => true
  | .kmin _ _ _ => true
  | .kmax _ _ _ => true
  | .kand _ _ _ => true
  | .kor _ _ _ => true
  | .kxor _ _ _ => true
  | .kshl _ _ _ => true
  | .kshr _ _ _ => true
  | .ksar _ _ _ => true
  | .kbfe _ _ _ => true
  | .kpopc _ _ => true
  | .kclz _ _ => true
  | .kcmp _ _ _ => true
  | .ksel _ _ _ => true
  | .kmov _ _ => true
  | .kmovi _ _ => true
  | .klit _ _ => true
  | .khiRd _ _ => true
  | .khiWr _ _ => true
  | .kaddi _ _ => true
  | .vtok _ _ first l => !first || l == 0#5
  | .mtok _ _ => true
  | .ktom m _ => m != 0#3
  | .mlog f md _ mb => md != 0#3 && (f.binary || mb == 0#3)
  | .kld _ a _ => evenK a
  | .kbra cc a _ => cc != .always || a == 0#8
  | .barArr _ _ => true
  | .barWait _ => true
  | .barSync _ _ => true
  | .yieldRun => true
  | .rgxSet _ => true
  | .ksreg _ n => n != 0#4 && n != 1#4
  | .sleep _ => true
  | .plateMap _ _ _ => true
  | .plateUnmap _ => true
  | .plateInfo _ _ => true
  | .plateLoad t q => t != 0#8 && q.toNat + 3 ≤ 256
  | .mxr t q _ ma _ => t != 0#8 && q.toNat + 2 ≤ 256 && ma != 0#3
  | .mxg t q _ ma _ => t != 0#8 && q.toNat + 5 ≤ 256 && ma != 0#3
  | .mxfence _ on bar => on || bar == 0#4
  | .accWin _ _ _ => true
  | .accClr _ _ => true
  | .accSt t q _ => t != 0#8 && q.toNat + 4 ≤ 256
  | .fence scope remote order => scope != .dflt && order != .plain && (!remote || order != .rel)
  | .cwb a b => evenK a && (b != 0#8 || a == 0#8)
  | .cinv a b => evenK a && (b != 0#8 || a == 0#8)
  | .aggOpen t q _ => t != 0#8 && q.toNat + 6 ≤ 256
  | .aggClose _ => true
  | .aggInfo _ _ pick => pick != 7#3
  | .aggRefresh _ => true
  | .aggFence rg all => !all || rg == 0#8
  | .cluOpen t q _ => t != 0#8 && q.toNat + 9 ≤ 256
  | .cluClose _ => true
  | .cluGrow _ _ _ => true
  | .walkSet t q => t != 0#8 && q.toNat + 3 ≤ 256
  | .walk t q => t != 0#8 && q.toNat + 3 ≤ 256
  | .cluFence rg all => !all || rg == 0#8
  | .copy t q _ _ => t != 0#8 && q.toNat + 20 ≤ 256
  | .copyG t q _ _ => t != 0#8 && q.toNat + 10 ≤ 256
  | .copyS t q _ _ => t != 0#8 && q.toNat + 10 ≤ 256
  | .copyFill t q _ _ => t != 0#8 && q.toNat + 5 ≤ 256
  | .ringInit _ _ _ => true
  | .ringAcq _ _ => true
  | .ringCommit _ _ => true
  | .ringWait d _ _ => d != 0#8 && d != 255#8
  | .ringRel _ _ => true
  | .twait _ _ => true
  | .toktest _ _ => true
  | .launch t q => t != 0#8 && q.toNat + 3 ≤ 256
  | .depset _ => true
  | .expoRd _ act pick => act.toNat ≤ 4 && pick != 3#2
  | .trap _ => true
  | .eret => true
  | .csrr _ n => csrReadable n
  | .csrw _ n => csrWritable n
  | .parkPc _ _ _ => true
  | .parkMask _ => true
  | .bkpt _ => true
  | .halt => true
  | .brkt _ _ => true
  | .tblLoad t q => t != 0#8 && q.toNat + 3 ≤ 256
  | .time d => evenK d && d != 0#8
  | .fpflagsWrite _ => true
  | .fpflagsRead _ => true
  | .xinvPage => true
  | .xinvAll => true
  | .tbldataRead _ => true
  | .tbldataWrite _ => true
  | .saveAreaWrite _ _ => true
  | .csRecord => true
  | .csReplay => true
  | .contextCreate _ _ => true
  | .contextSwitchOut => true
  | .contextSwitchIn _ => true
  | .doorbellTailWrite _ => true
  | .doorbellSlotTake => true
  | .launchRecordAccept _ => true
  | .teamDispatch _ => true
  | .teamPreempt _ => true
  | .teamRestore _ => true
  | .crewRetire _ _ => true
  | .crewForcedSwap _ _ => true
  | .sleepExpire _ _ => true
  | .shutterBoundary => true
  | .handlerEpisodeOpen _ _ => true
  | .xlateService _ _ => true
  | .pageWalk _ => true
  | .loadDataReturn _ => true
  | .requestPerformed _ => true
  | .sLineWriteback _ _ => true
  | .hostMemAccess _ _ => true
  | .leafUpdate _ => true
  | .rangeLoadPerform _ => true
  | .rowUpdate _ => true
  | .aggOpenComplete _ => true
  | .cluOpenComplete _ => true
  | .mxStart _ => true
  | .mxDone _ => true
  | .streamCommandStart _ => true
  | .streamCommandDone _ => true
  | .plateLoadDone _ => true
  | .tblLoadDone _ => true
  | .accStDone _ => true
  | .ringCommitEffect _ _ => true
  | .walkerNodeTest _ => true
  | .walkerStageAcquire _ => true
  | .flitReceive _ _ => true
  | .remoteCommand _ _ _ => true
  | .portDown _ => true
  | .dieLinkFailure _ _ => true
  | .correctedSoftError _ _ => true
  | .uncorrectableError _ _ _ => true
  | .powerThrottle => true
  | .thermalStop => true
  | .deviceReset => true
  | .recoveryDoorbell => true
  | .attestReport => true
  | .attestCertificate => true
  | .mailboxComplete _ => true
  | .regionControlPerform _ => true
  | .launchEndedBySystem _ => true
  | .powerThrottleEnd => true
  | .errcntClear _ => true
  | .imageFlashWrite => true

end Sys2Proof
end

