-- ==== Sys2Proof/Machine/Operands.lean ====
section
/-!
DEFINITION. Operand forms and the shared course of a unit: the registers a unit names and the budget
check (R33, R56), busy tokens (R142), the scoreboard (R118), the active set and zeroing (R41), the fates of
a lane-set unit with no active lane (R53, R55), and the effective offsets of the LM format (R37).
-/

namespace Sys2Proof.Machine

/-- The outcome of a step of this machine. -/
abbrev Out := Host.Outcome State Fault Refusal

/-! ## Sources -/

/-- A source of a lane (R29): the lane's v register or the crew's k register. -/
def Crew.src (c : Crew) (x : Src) (l : Nat) : W32 :=
  match x with
  | .v r => c.vreg r.toNat l
  | .k r => c.kreg r.toNat

/-- The register `i` after the one a source names (R252, R300). -/
def Crew.srcNext (c : Crew) (x : Src) (i l : Nat) : W32 :=
  match x with
  | .v r => c.vreg (r.toNat + i) l
  | .k r => c.kreg (r.toNat + i)

/-- Pair(a, l): the 64-bit value of a source pair (R133). -/
def Crew.srcPair (c : Crew) (x : Src) (l : Nat) : W64 := c.srcNext x 1 l ++ c.src x l

/-- The v registers of a lane as a 64-bit pair. -/
def Crew.vpair (c : Crew) (r l : Nat) : W64 := c.vreg (r + 1) l ++ c.vreg r l

/-- A 64-bit value written to a v pair. -/
def Crew.setVPair (c : Crew) (r l : Nat) (x : W64) : Crew :=
  (c.setV r l (x.setWidth 32)).setV (r + 1) l (x.extractLsb' 32 32)

/-- The fourth operand c of a PREFIX: the register it names, or the default of the entry (R41, R165). -/
def cSource (p : Prefix) : Option Src :=
  if p.cValid then some (if p.c.getLsbD 7 then .k (p.c.extractLsb' 0 7) else .v (p.c.extractLsb' 0 7)) else none

/-! ## Registers a unit names -/

/-- The v and k registers a unit names (R33). `quiet` are k registers it names without waiting for a busy
token there (TOKTEST, MXFENCE, RING.COMMIT). -/
structure Names where
  v : List Nat := []
  k : List Nat := []
  quiet : List Nat := []

/-- `n` registers from the one a source names. -/
def srcNames (x : Src) (n : Nat) : Names :=
  match x with
  | .v r => { v := (List.range n).map fun i => r.toNat + i }
  | .k r => { k := (List.range n).map fun i => r.toNat + i }

def Names.add (a b : Names) : Names := ⟨a.v ++ b.v, a.k ++ b.k, a.quiet ++ b.quiet⟩

/-- `n` v registers from d. -/
def destNames (d : BitVec 7) (n : Nat) : Names := { v := (List.range n).map fun i => d.toNat + i }

/-- The registers of an optional fourth operand. -/
def cNames (p : Prefix) : Names :=
  match cSource p with
  | some x => srcNames x 1
  | none => {}

/-- Every register named lies inside the team's budgets (R33, R135). -/
def Team.budgetOk (t : Team) (n : Names) : Bool :=
  n.v.all (fun r => decide (r < t.vBudget)) && (n.k ++ n.quiet).all (fun r => decide (r < t.kBudget))

/-- A load of the crew will still write one of these v registers of one of these lanes (R118). -/
def State.pendingV (s : State) (regs : List Nat) (lanes : W32) : Bool := s.pendsV s.cur.team s.cur.crew regs lanes

/-- A load of the crew will still write one of these k registers (R256). -/
def State.pendingK (s : State) (regs : List Nat) : Bool := s.pendsK s.cur.team s.cur.crew regs

/-- The crew issues nothing until the registers that its unit names are written (R118): v registers of some lanes, and k
registers. A global or range load is a long-latency wait (R121); an access to the scratchpad or the accumulators is not. -/
def State.stallCrew (s : State) (v : List Nat) (lanes : W32) (k : List Nat) : State :=
  let far := s.ctx.reqs.any fun r => r.team == s.cur.team && r.crew == s.cur.crew && !r.kind.near &&
    (if r.lane < 32 then lanes.getLsbD r.lane && v.any fun x => decide (r.dest ≤ x) && decide (x < r.dest + r.regs)
     else k.any fun x => decide (r.dest ≤ x) && decide (x < r.dest + r.regs))
  let s' := s.updCrew fun c => { c with stall := some { pc := s.cur.pc, run := s.cur.run, lanes := lanes, v := v, k := k } }
  if far then s'.swapOut else s'

/-- Busy tokens among the k registers named (R142). -/
def State.busyAmong (s : State) (regs : List Nat) : List Nat := regs.filter s.crew.isBusy

/-! ## Units -/

/-- The active lanes of a unit under its PREFIX (R41). -/
def State.activeLanes (s : State) (p : Prefix) : W32 :=
  s.cur.run &&& (s.crew.mreg p.mask.toNat ^^^ (if p.inv then 0xFFFFFFFF#32 else 0#32))

/-- The course of a lane-set unit with the active lanes `act` (R53, R55, R56 steps 6 and 7): `zero c l` clears
the destinations of an inactive lane, `idle` is what the unit does with no active lane, and `body` is the effect on the
active lanes. -/
def State.laneCourse (s : State) (act : W32) (zeroing : Bool) (n : Names) (zero : Crew → Nat → Crew)
    (idle : State → State) (body : State → W32 → Out) : Out :=
  let cleared : State → State := fun s =>
    if zeroing then s.updCrew fun c => (lanesOf (s.cur.run &&& ~~~act)).foldl zero c else s
  if !(s.team.budgetOk n) then
    .next (if act = 0#32 then (idle s).done false else s.parkLanes act .budget 0#64)
  else if s.pendingV n.v (if zeroing then s.cur.run else act) || (act != 0#32 && s.pendingK n.k) then
    .next (s.stallCrew n.v (if zeroing then s.cur.run else act) (if act = 0#32 then [] else n.k))
  else if act = 0#32 then .next ((idle (cleared s)).done false)
  else if s.busyAmong n.k ≠ [] then .next (s.waitRun (.tokens (s.busyAmong n.k)))
  else body (cleared s) act

/-- The course of a lane-set unit that does nothing with no active lane. -/
def State.laneIssue (s : State) (act : W32) (zeroing : Bool) (n : Names) (zero : Crew → Nat → Crew)
    (body : State → W32 → Out) : Out := s.laneCourse act zeroing n zero id body

/-- A lane-set unit under a PREFIX. -/
def State.laneUnit (s : State) (p : Prefix) (n : Names) (zero : Crew → Nat → Crew) (body : State → W32 → Out) : Out :=
  s.laneIssue (s.activeLanes p) p.zeroing n zero body

/-- Clears `n` v registers of a lane. -/
def zeroV (d : BitVec 7) (n : Nat) (c : Crew) (l : Nat) : Crew :=
  (List.range n).foldl (fun c i => c.setV (d.toNat + i) l 0#32) c

/-- A lane-set unit that changes only registers of its crew: `f c act` is the crew after it. -/
def State.laneCrew (s : State) (p : Prefix) (n : Names) (zero : Crew → Nat → Crew) (f : Crew → W32 → Crew) : Out :=
  s.laneUnit p n zero fun s act => .next ((s.updCrew fun c => f c act).done false)

/-- A lane-set unit that writes v(d) of each active lane with a value of that lane. -/
def State.laneValue (s : State) (p : Prefix) (d : BitVec 7) (n : Names) (f : Crew → Nat → W32) : Out :=
  s.laneCrew p (n.add (destNames d 1)) (zeroV d 1) fun c act => c.setVLanes d.toNat (f c) (lanesOf act)

/-- A lane-set unit that writes v(d) and adds to FPFLAGS: `f c l` gives a value and flags (R163). -/
def State.laneFloat (s : State) (p : Prefix) (d : BitVec 7) (n : Names) (f : Crew → Nat → W32 × W32) : Out :=
  s.laneCrew p (n.add (destNames d 1)) (zeroV d 1) fun c act =>
    let flags := (lanesOf act).foldl (fun acc l => acc ||| (f c l).2) 0#32
    { c.setVLanes d.toNat (fun l => (f c l).1) (lanesOf act) with fpflags := c.fpflags ||| flags }

/-- A lane-set unit without a PREFIX: every lane of the run is active (R40). -/
def State.bareUnit (s : State) (n : Names) (body : State → W32 → Out) : Out :=
  s.laneIssue s.cur.run false n (fun c _ => c) body

/-- The course of a uniform-set unit (R54, R56): the cause of steps 4 and 5 if there is one, then the budget,
then busy tokens and loads it must wait for, then its effect. -/
def State.uniformUnit (s : State) (early : Option Cause) (n : Names) (body : State → Out) : Out :=
  match early with
  | some cause => .next (s.parkRun cause 0#64 true)
  | none =>
    if !(s.team.budgetOk n) then .next (s.parkRun .budget 0#64 true)
    else if s.busyAmong n.k ≠ [] then .next (s.waitRun (.tokens (s.busyAmong n.k)))
    else if s.pendingK (n.k ++ n.quiet) then .next (s.stallCrew [] 0#32 (n.k ++ n.quiet))
    else body s

/-- A unit that reads v registers of lanes of any run waits until earlier units have written them (R118, R141,
R155): loads, and units that are held (log 84). -/
def State.afterWrites (s : State) (v : List Nat) (lanes : W32) (body : State → Out) : Out :=
  if s.pendingV v lanes then .next (s.stallCrew v lanes [])
  else if s.crew.heldWrites v lanes s.cur.run then .next (s.waitRun (.written v lanes s.cur.run))
  else body s

/-- The same for several registers, each of lanes of its own. -/
def State.afterEach (s : State) : List (Nat × W32) → (State → Out) → Out
  | [], body => body s
  | (r, lanes) :: rest, body => s.afterWrites [r] lanes fun s => s.afterEach rest body

/-- A uniform-set unit that changes only its crew. -/
def State.uniformCrew (s : State) (n : Names) (f : Crew → Crew) : Out :=
  s.uniformUnit none n fun s => .next ((s.updCrew f).done true)

/-- A uniform-set unit that writes k(d) with a value of the crew. -/
def State.uniformValue (s : State) (d : BitVec 8) (ks : List Nat) (f : Crew → W32) : Out :=
  s.uniformCrew { k := d.toNat :: ks } fun c => c.setK d.toNat (f c)

/-- The unit needs a privileged context (R375, R379). -/
def State.privCheck (s : State) : Option Cause := if s.ctx.privileged then none else some .priv

/-- The unit needs the walker (R3, R304). -/
def State.walkCheck (s : State) : Option Cause := if s.part = .lx940 then some .absent else none

/-! ## Offsets of the LM format -/

/-- Bytes of a width field (R37). -/
def widthBytes : Width → Nat
  | .b8 => 1 | .b16 => 2 | .b32 => 4 | .b64 => 8

/-- Registers that data of a width takes. -/
def widthRegs : Width → Nat
  | .b64 => 2 | _ => 1

/-- The byte offset of a scratchpad access: a 32-bit register plus off6 elements, modulo 2^32 (R37, R194). -/
def Crew.spadOffset (c : Crew) (a : Src) (l : Nat) (off : BitVec 6) (elem : Nat) : Nat :=
  ((c.src a l).toNat + off.toNat * elem) % 2 ^ 32

/-- The address of a global access: a pair plus off6 elements, modulo 2^64 (R37, R253). -/
def Crew.globalAddr (c : Crew) (a : Src) (l : Nat) (off : BitVec 6) (elem : Nat) : W64 :=
  c.srcPair a l + BitVec.ofNat 64 (off.toNat * elem)

/-! ## Engine commands -/

/-- Descriptor register i of a UE word: k(256 + q + i) (R32, R143). -/
def Crew.desc (c : Crew) (q : BitVec 8) (n : Nat) : List W32 := (List.range n).map fun i => c.kreg (256 + q.toNat + i)

/-- A pair of descriptor words as a 64-bit address. -/
def Cmd.addr (x : Cmd) (n : Nat) : W64 := x.desc.getD (n + 1) 0#32 ++ x.desc.getD n 0#32

/-- The registers a UE word names: its token and its last descriptor register (R33, R46). -/
def ueNames (t q : BitVec 8) (n : Nat) : Names := { k := [t.toNat], quiet := [256 + q.toNat + (n - 1)] }

/-- A command enters: its token becomes busy (R331). -/
def State.addCmd (s : State) (x : Cmd) : State :=
  let s := s.updCrew fun c => { c with busy := c.busy ++ [(x.token, s.nextId)] }
  { s with nextId := s.nextId + 1, ctx := { s.ctx with cmds := s.ctx.cmds ++ [{ x with id := s.nextId }] } }

/-- A command of the issuing crew, before its own fields are set. -/
def State.newCmd (s : State) (kind : CmdKind) (t q imm : BitVec 8) (n : Nat) : Cmd :=
  { id := 0, kind := kind, team := s.cur.team, crew := s.cur.crew, core := s.crew.core, token := t.toNat,
    imm := imm, desc := s.crew.desc q n, units := s.crew.units }

end Sys2Proof.Machine
end

