-- ==== Sys2Proof/Machine/Float.lean ====
section
/-!
DEFINITION. Binary floating point (04_numbers.md R86 to R97): decoding the five formats to exact values,
one rounding from an exact value to a format with its flags, and the operations built on them. A result is
computed exactly as an integer times a power of two and rounded once.
-/

namespace Sys2Proof.Machine

/-- A format of Table 4.2: exponent bits, fraction bits, and whether it is E4M3, which has no infinity. -/
structure Fmt where
  eb : Nat
  fb : Nat
  noInf : Bool
deriving DecidableEq, Repr

def f32 : Fmt := ⟨8, 23, false⟩
def bf16 : Fmt := ⟨8, 7, false⟩
def f16 : Fmt := ⟨5, 10, false⟩
def e4m3 : Fmt := ⟨4, 3, true⟩
def e5m2 : Fmt := ⟨5, 2, false⟩

/-- The format of a conversion code (Table 7.8). -/
def fmtOf : FloatFmt → Fmt
  | .f32 => f32 | .bf16 => bf16 | .f16 => f16 | .e4m3 => e4m3 | .e5m2 => e5m2

def Fmt.bias (f : Fmt) : Nat := 2 ^ (f.eb - 1) - 1
def Fmt.width (f : Fmt) : Nat := f.eb + f.fb + 1
/-- All-ones exponent field. -/
def Fmt.ones (f : Fmt) : Nat := 2 ^ f.eb - 1
/-- Exponent of the unit in the last place of subnormals. -/
def Fmt.qmin (f : Fmt) : Int := 1 - (f.bias : Int) - f.fb
/-- The maximum finite value is maxM × 2^maxQ. -/
def Fmt.maxM (f : Fmt) : Nat := if f.noInf then 2 ^ (f.fb + 1) - 2 else 2 ^ (f.fb + 1) - 1
def Fmt.maxQ (f : Fmt) : Int := (f.ones : Int) - (if f.noInf then 0 else 1) - f.bias - f.fb
def Fmt.signBit (f : Fmt) (neg : Bool) : Nat := if neg then 2 ^ (f.width - 1) else 0
def Fmt.infBits (f : Fmt) (neg : Bool) : Nat := f.signBit neg + f.ones * 2 ^ f.fb
def Fmt.maxBits (f : Fmt) (neg : Bool) : Nat :=
  f.signBit neg + (if f.noInf then f.ones * 2 ^ f.fb + 2 ^ f.fb - 2 else f.ones * 2 ^ f.fb - 1)
/-- The canonical NaN (Table 4.2). -/
def Fmt.nanBits (f : Fmt) : Nat :=
  if f.noInf then f.ones * 2 ^ f.fb + 2 ^ f.fb - 1 else f.ones * 2 ^ f.fb + 2 ^ (f.fb - 1)

/-- The exact value of an encoding: a NaN, an infinity, or (-1)^neg × m × 2^e. -/
inductive Val where
  | nan (signalling : Bool)
  | inf (neg : Bool)
  | fin (neg : Bool) (m : Nat) (e : Int)
deriving DecidableEq, Repr

/-- The value of an encoding (R87, R88); under DAZ a subnormal reads as zero of its sign (R93). -/
def Fmt.decode (f : Fmt) (daz : Bool) (bits : Nat) : Val :=
  let neg := bits.testBit (f.width - 1)
  let e := bits / 2 ^ f.fb % 2 ^ f.eb
  let m := bits % 2 ^ f.fb
  if e = 0 then .fin neg (if daz then 0 else m) f.qmin
  else if e = f.ones ∧ ¬ f.noInf then (if m = 0 then .inf neg else .nan (!(m.testBit (f.fb - 1))))
  else if e = f.ones ∧ m = 2 ^ f.fb - 1 then .nan false
  else .fin neg (2 ^ f.fb + m) ((e : Int) - f.bias - f.fb)

/-- FPFLAGS bits (Table 7.3). -/
def flagNV : W32 := 16#32
def flagDZ : W32 := 8#32
def flagOF : W32 := 4#32
def flagUF : W32 := 2#32
def flagNX : W32 := 1#32

/-- Rounding up in magnitude: the odd bit of the kept value, the comparison of the discarded part with one half
(0 less, 1 equal, 2 more) and whether it is not zero, under a mode of Table 4.3. -/
def roundsUp (mode : Round) (neg odd inexact : Bool) (half : Nat) : Bool :=
  match mode with
  | .rtz => false
  | .rup => inexact && !neg
  | .rdn => inexact && neg
  | .rna => decide (1 ≤ half)
  | _ => half == 2 || (half == 1 && odd)

/-- The integer part of m / 2^s and its discarded part: compared with one half, and not zero. `sticky` says that
the exact value lies strictly between m and m + 1. -/
def splitAt2 (m s : Nat) (sticky : Bool) : Nat × Nat × Bool :=
  if s = 0 then (m, 0, sticky)
  else if m.log2 + 2 < s then (0, 0, sticky || m != 0)
  else
    let r := m % 2 ^ s
    let h := 2 ^ (s - 1)
    (m / 2 ^ s, if r < h then 0 else if r = h then (if sticky then 2 else 1) else 2, sticky || r != 0)

/-- Overflow results (Table 4.4). -/
def Fmt.overflow (f : Fmt) (mode : Round) (neg : Bool) : Nat :=
  if f.noInf then f.maxBits neg
  else match mode with
    | .rtz => f.maxBits neg
    | .rup => if neg then f.maxBits neg else f.infBits neg
    | .rdn => if neg then f.infBits neg else f.maxBits neg
    | _ => f.infBits neg

/-- One rounding of (-1)^neg × m × 2^e, more by less than one unit of m when `sticky`, to a format (R90 to R93):
the encoding and the flags. A `sticky` value must come with m finer than the format's last place. -/
def Fmt.round (f : Fmt) (mode : Round) (ftz : Bool) (neg : Bool) (m : Nat) (e : Int) (sticky : Bool) : Nat × W32 :=
  if m = 0 ∧ ¬ sticky then (f.signBit neg, 0#32)
  else
    let top : Int := e + m.log2
    let q : Int := if top - f.fb < f.qmin then f.qmin else top - f.fb
    let tiny := decide (top - f.fb < f.qmin)
    if f.maxQ < q then (f.overflow mode neg, flagOF ||| flagNX)
    else
      let (k, half, inexact) := if q ≤ e then (m * 2 ^ (e - q).toNat, 0, sticky) else splitAt2 m (q - e).toNat sticky
      let k := if roundsUp mode neg (k % 2 == 1) inexact half then k + 1 else k
      if q = f.maxQ ∧ f.maxM < k then (f.overflow mode neg, flagOF ||| flagNX)
      else
        let flags := (if inexact then flagNX else 0#32) ||| (if tiny && inexact then flagUF else 0#32)
        if k = 0 then (f.signBit neg, flags)
        else if k < 2 ^ f.fb then
          if ftz then (f.signBit neg, flagUF ||| flagNX) else (f.signBit neg + k, flags)
        else
          -- the exponent field of quantum q with the leading bit added by k itself
          (f.signBit neg + ((q - f.qmin).toNat * 2 ^ f.fb + k), flags)

/-- The encoding of a value that needs no rounding in the format, or of a special value. -/
def Fmt.encodeVal (f : Fmt) (mode : Round) (ftz : Bool) : Val → Nat × W32
  | .nan s => (f.nanBits, if s then flagNV else 0#32)
  | .inf neg => if f.noInf then (f.nanBits, flagNV) else (f.infBits neg, 0#32)
  | .fin neg m e => f.round mode ftz neg m e false

/-- A NaN that the operation raises. -/
def invalidNan (f : Fmt) : Nat × W32 := (f.nanBits, flagNV)

/-- The invalid flag of signalling operands (R88). -/
def sigFlag (xs : List Val) : W32 := if xs.any fun x => x == .nan true then flagNV else 0#32

def Val.isNan : Val → Bool
  | .nan _ => true
  | _ => false

def Val.isInf : Val → Bool
  | .inf _ => true
  | _ => false

def Val.isZero : Val → Bool
  | .fin _ 0 _ => true
  | _ => false

def Val.neg : Val → Bool
  | .nan _ => false
  | .inf n => n
  | .fin n _ _ => n

/-- The value with its sign changed. -/
def Val.negate : Val → Val
  | .nan s => .nan s
  | .inf n => .inf (!n)
  | .fin n m e => .fin (!n) m e

/-- The value without its sign. -/
def Val.abs : Val → Val
  | .nan s => .nan s
  | .inf _ => .inf false
  | .fin _ m e => .fin false m e

/-- An exact product; none for 0 × ∞. -/
def Val.mul? (a b : Val) : Option Val :=
  match a, b with
  | .nan s, .nan t => some (.nan (s || t))
  | .nan s, _ => some (.nan s)
  | _, .nan s => some (.nan s)
  | .inf n, .inf k => some (.inf (n != k))
  | .inf n, .fin k m _ => if m = 0 then none else some (.inf (n != k))
  | .fin k m _, .inf n => if m = 0 then none else some (.inf (n != k))
  | .fin n m e, .fin k p g => some (.fin (n != k) (m * p) (e + g))

/-- The lowest exponent among finite values. -/
def lowExp : List Val → Int
  | [] => 0
  | [.fin _ _ e] => e
  | .fin _ _ e :: rest => let r := lowExp rest; if e < r then e else r
  | _ :: rest => lowExp rest

/-- A finite value as a signed multiple of 2^e. -/
def Val.scaled (e : Int) : Val → Int
  | .fin n m g => let x : Int := (m * 2 ^ (g - e).toNat : Nat); if n then -x else x
  | _ => 0

/-- The sum of values, rounded once (R173, R174). The sum of zeros of one sign is that zero; any other exact zero is
+0, or -0 under RDN. Infinities of both signs beside a quiet NaN give the NaN with no invalid (log 100). -/
def Fmt.sum (f : Fmt) (mode : Round) (ftz : Bool) (xs : List Val) : Nat × W32 :=
  if xs.any Val.isNan then (f.nanBits, sigFlag xs)
  else if xs.any (fun x => x == .inf false) && xs.any (fun x => x == .inf true) then invalidNan f
  else match xs.find? Val.isInf with
    | some x => (f.infBits x.neg, 0#32)
    | none =>
      let nz := xs.filter fun x => !x.isZero
      if nz.isEmpty then
        let neg := if xs.all Val.neg then true else if xs.all (fun x => !x.neg) then false else mode == .rdn
        (f.signBit neg, 0#32)
      else
        let e := lowExp nz
        let t := (nz.map (Val.scaled e)).foldl (· + ·) 0
        if t = 0 then (f.signBit (mode == .rdn), 0#32) else f.round mode ftz (decide (t < 0)) t.natAbs e false

/-- a × b, rounded once. -/
def Fmt.mul (f : Fmt) (mode : Round) (ftz : Bool) (a b : Val) : Nat × W32 :=
  match a.mul? b with
  | none => invalidNan f
  | some (.fin n m e) => f.round mode ftz n m e false
  | some x => f.encodeVal mode ftz x

/-- A sum of products and addends, rounded once: FFMA and FDOT2 (R174). 0 × ∞ gives NaN and invalid whatever the
addend is. -/
def Fmt.fma (f : Fmt) (mode : Round) (ftz : Bool) (products : List (Val × Val)) (addends : List Val) : Nat × W32 :=
  let ps := products.map fun p => p.1.mul? p.2
  let sig := sigFlag (products.flatMap (fun p => [p.1, p.2]) ++ addends)
  if ps.any fun p => p.isNone then invalidNan f
  else
    let r := f.sum mode ftz (ps.filterMap id ++ addends)
    (r.1, r.2 ||| sig)

/-- a < b of values neither of which is NaN; -0 equals +0. -/
def Val.lt (a b : Val) : Bool :=
  match a, b with
  | .inf n, .inf k => n && !k
  | .inf n, _ => n
  | _, .inf k => !k
  | .fin .., .fin .. => let e := lowExp [a, b]; decide (a.scaled e < b.scaled e)
  | _, _ => false

/-- a = b of values neither of which is NaN; -0 equals +0. -/
def Val.eqv (a b : Val) : Bool := !(a.lt b) && !(b.lt a)

/-- The order of minimumNumber and maximumNumber, in which -0 is less than +0 (R174). -/
def Val.ltZero (a b : Val) : Bool := a.lt b || (a.isZero && b.isZero && a.neg && !b.neg)

/-- minimumNumber or maximumNumber of two encodings (R88, R174): the operand that a NaN does not spoil; a subnormal
result passes unchanged unless DAZ has flushed the operand. -/
def Fmt.minMax (f : Fmt) (daz wantMax : Bool) (a b : Nat) : Nat × W32 :=
  let x := f.decode daz a
  let y := f.decode daz b
  let flags := sigFlag [x, y]
  let pick (v : Val) (bits : Nat) : Nat := if v.isZero then f.signBit v.neg else bits
  if x.isNan && y.isNan then (f.nanBits, flags)
  else if x.isNan then (pick y b, flags)
  else if y.isNan then (pick x a, flags)
  else if wantMax then (if x.ltZero y then pick y b else pick x a, flags)
  else (if y.ltZero x then pick y b else pick x a, flags)

/-- RoundInt (R90): the integer of (-1)^neg × m × 2^e under a mode, and whether it differs from it. -/
def roundInt (mode : Round) (neg : Bool) (m : Nat) (e : Int) : Int × Bool :=
  if 0 ≤ e then
    let x : Int := (m * 2 ^ e.toNat : Nat)
    (if neg then -x else x, false)
  else
    let (k, half, inexact) := splitAt2 m (-e).toNat false
    let k := if roundsUp mode neg (k % 2 == 1) inexact half then k + 1 else k
    (if neg then -(k : Int) else k, inexact)

/-- A signed integer multiple of 2^e, rounded once; zero is +0. -/
def Fmt.ofInt (f : Fmt) (mode : Round) (ftz : Bool) (x : Int) (e : Int) : Nat × W32 :=
  f.round mode ftz (decide (x < 0)) x.natAbs e false

/-- The quotient of two naturals times 2^e, rounded once, for a divisor not 0. -/
def Fmt.ratio (f : Fmt) (mode : Round) (ftz neg : Bool) (p q : Nat) (e : Int) : Nat × W32 :=
  let k := q.log2 + 64
  f.round mode ftz neg (p * 2 ^ k / q) (e - k) (p * 2 ^ k % q != 0)

/-- The square root of m × 2^e, rounded once. -/
def Fmt.sqrtOf (f : Fmt) (mode : Round) (ftz : Bool) (m : Nat) (e : Int) : Nat × W32 :=
  -- an even exponent and at least 128 bits under the root
  let e' : Int := (e - 130) / 2 * 2
  let n := m * 2 ^ (e - e').toNat
  let r := isqrt n
  f.round mode ftz false r (e' / 2) (r * r != n)

/-- The lowest set of FP32 operations the engines use: no flags, subnormals kept (R94). -/
def addF32 (a b : W32) : W32 :=
  word (f32.sum .rne false [f32.decode false a.toNat, f32.decode false b.toNat]).1

/-- A canonical NaN in place of any NaN (R88, R105). -/
def canonF32 (a : W32) : W32 := if (f32.decode false a.toNat).isNan then word f32.nanBits else a

/-- maximumNumber and minimumNumber of FP32 words without flags. -/
def maxF32 (a b : W32) : W32 := word (f32.minMax false true a.toNat b.toNat).1
def minF32 (a b : W32) : W32 := word (f32.minMax false false a.toNat b.toNat).1

end Sys2Proof.Machine
end

