-- ==== Sys2Proof/Machine/Transcend.lean ====
section
/-!
DEFINITION. The special functions (R97, Table 4.5): the exact function value rounded once to FP32 under RNE.
A value is computed in fixed point with an error bound, with more bits until both ends of its interval round alike;
the arguments whose results are exact are taken apart first, so every other value is irrational.
-/

namespace Sys2Proof.Machine

/-- Σ over k of x^(2k+1) / (2k+1) with signs by `alt`, in units of 2^-P, from term `t` = x^(2k+1). -/
def atanSeries (alt : Bool) (num den : Nat) : Nat → Nat → Nat → Int → Int
  | 0, _, _, acc => acc
  | n + 1, t, k, acc =>
    let term : Int := (t / (2 * k + 1) : Nat)
    atanSeries alt num den n (t * num / den) (k + 1) (if alt && k % 2 == 1 then acc - term else acc + term)

/-- ln 2 = 2 atanh(1/3), in units of 2^-P. -/
def ln2Fix (P : Nat) : Nat := 2 * (atanSeries false 1 9 (P / 3 + 4) (2 ^ P / 3) 0 0).toNat

/-- π = 16 atan(1/5) - 4 atan(1/239), in units of 2^-P. -/
def piFix (P : Nat) : Nat :=
  (16 * atanSeries true 1 25 (P / 4 + 4) (2 ^ P / 5) 0 0 - 4 * atanSeries true 1 57121 (P / 15 + 4) (2 ^ P / 239) 0 0).toNat

/-- The exponential of x / 2^P for 0 ≤ x / 2^P < 1, in units of 2^-P: the power series. -/
def expSeries (P x : Nat) : Nat → Nat → Nat → Nat → Nat
  | 0, _, _, acc => acc
  | n + 1, t, k, acc => expSeries P x n (t * x / 2 ^ P / (k + 1)) (k + 1) (acc + t)

def expFix (P x : Nat) : Nat := expSeries P x (P / 2 + 8) (2 ^ P) 0 0

/-- sin of t / 2^P for 0 ≤ t / 2^P < 2, in units of 2^-P. -/
def sinSeries (P t : Nat) : Nat → Nat → Nat → Int → Int
  | 0, _, _, acc => acc
  | n + 1, x, k, acc =>
    sinSeries P t n (x * t / 2 ^ P * t / 2 ^ P / ((2 * k + 2) * (2 * k + 3))) (k + 1)
      (if k % 2 == 1 then acc - x else acc + x)

def sinFix (P t : Nat) : Nat := (sinSeries P t (P / 3 + 8) t 0 0).toNat

/-- Squares n times in units of 2^-P. -/
def squareFix (P : Nat) : Nat → Nat → Nat
  | 0, x => x
  | n + 1, x => squareFix P n (x * x / 2 ^ P)

/-- The rounding of (-1)^neg × n × 2^e where n is off by less than `err`: none while the two ends round apart. -/
def roundBetween (ftz neg : Bool) (n err : Nat) (e : Int) : Option (Nat × W32) :=
  if n ≤ err then none
  else
    let a := f32.round .rne ftz neg (n - err) e true
    let b := f32.round .rne ftz neg (n + err) e true
    if a = b then some a else none

/-- The first precision of a list at which the function rounds. -/
def firstRounded (g : Nat → Option (Nat × W32)) : List Nat → Nat × W32
  | [] => (f32.nanBits, 0#32)
  | P :: rest =>
    match g P with
    | some r => r
    | none => firstRounded g rest

/-- Precisions tried, in bits after the leading one. -/
def precisions : List Nat := [96, 160, 320, 640]

/-- The error bound, in units of the last place, that every computation below stays under. -/
def fixErr : Nat := 2 ^ 30

/-- How many bits a small argument m × 2^e < 1 lies below 1. -/
def belowOne (m : Nat) (e : Int) : Nat := (-(e + m.log2)).toNat

/-- m × 2^e in units of 2^-P, truncated. -/
def toFix (P m : Nat) (e : Int) : Nat :=
  let s : Int := e + P
  if 0 ≤ s then m * 2 ^ s.toNat else m / 2 ^ (-s).toNat

/-- 2^x for x = (-1)^neg m 2^e. -/
def exp2F (ftz neg : Bool) (m : Nat) (e : Int) : Nat × W32 :=
  if m = 0 then f32.round .rne ftz false 1 0 false
  -- beyond these the result overflows or is below half the least subnormal
  else if 10 < e + m.log2 then (if neg then f32.round .rne ftz false 1 (-100000) false else f32.round .rne ftz false 1 100000 false)
  else if 0 ≤ e then
    let x : Int := (m * 2 ^ e.toNat : Nat)
    f32.round .rne ftz false 1 (if neg then -x else x) false
  else
    let d := 2 ^ (-e).toNat
    if m % d = 0 then f32.round .rne ftz false 1 (if neg then -((m / d : Nat) : Int) else (m / d : Nat)) false
    else
      -- x = k + f with 0 < f < 1
      let k : Int := if neg then -((m / d : Nat) : Int) - 1 else (m / d : Nat)
      let fn := if neg then d - m % d else m % d
      firstRounded (fun p =>
        let P := p + 160
        roundBetween ftz false (expFix P (toFix P fn e * ln2Fix P / 2 ^ P)) fixErr (k - P)) precisions

/-- log2 of m × 2^e, m not 0. -/
def log2F (ftz : Bool) (m : Nat) (e : Int) : Nat × W32 :=
  let k := m.log2
  if m = 2 ^ k then
    let x : Int := e + k
    f32.ofInt .rne ftz x 0
  else
    -- m / 2^k lies strictly between 1 and 2
    firstRounded (fun p =>
      let P := p + 64
      let z := (m - 2 ^ k) * 2 ^ P / (m + 2 ^ k)
      let z2 := z * z / 2 ^ P
      let ln : Nat := 2 * (atanSeries false z2 (2 ^ P) (P / 3 + 4) z 0 0).toNat
      let frac : Int := (ln * 2 ^ P / ln2Fix P : Nat)
      let x : Int := (e + k) * (2 ^ P : Nat) + frac
      roundBetween ftz (decide (x < 0)) x.natAbs fixErr (-(P : Int))) precisions

/-- sin(π m / 2^s) for 0 < m / 2^s < 1/2, or the sine of the half turn itself when it is 1/2. -/
def sinPiF (ftz neg : Bool) (m s : Nat) : Nat × W32 :=
  if 2 * m = 2 ^ s then f32.round .rne ftz neg 1 0 false
  else
    firstRounded (fun p =>
      let P := p + 64 + belowOne m (-(s : Int))
      roundBetween ftz neg (sinFix P (toFix P m (-(s : Int)) * piFix P / 2 ^ P)) fixErr (-(P : Int))) precisions

/-- sin(π x) for x = (-1)^neg m 2^e. -/
def sinF (ftz neg : Bool) (m : Nat) (e : Int) : Nat × W32 :=
  if 0 ≤ e then (f32.signBit neg, 0#32)
  else
    let s := (-e).toNat
    let d := 2 ^ s
    let r := m % (2 * d)
    let neg' := if d ≤ r then !neg else neg
    let r := r % d
    if r = 0 then (f32.signBit neg, 0#32)
    else sinPiF ftz neg' (if d < 2 * r then d - r else r) s

/-- cos(π x) for x = m 2^e. -/
def cosF (ftz : Bool) (m : Nat) (e : Int) : Nat × W32 :=
  if 0 < e then f32.round .rne ftz false 1 0 false
  else
    -- one more bit, so that 1/2 - r is a multiple of the unit
    let s := (-e).toNat + 1
    let d := 2 ^ s
    let r := 2 * m % (2 * d)
    let r := if d < r then 2 * d - r else r
    if 2 * r = d then (0, 0#32)
    else if 2 * r < d then sinPiF ftz false (d / 2 - r) s
    else sinPiF ftz true (r - d / 2) s

/-- tanh of (-1)^neg m 2^e, m not 0. -/
def tanhF (ftz neg : Bool) (m : Nat) (e : Int) : Nat × W32 :=
  -- at 16 and above the value lies above 1 - 2^-40
  if 4 ≤ e + m.log2 then f32.round .rne ftz neg (2 ^ 60 - 1) (-60) true
  else
    firstRounded (fun p =>
      let P := p + 64 + belowOne m e
      -- E = exp(-2|x|) by 32 equal factors: exp(-y) = 1 / exp(y)
      let y := toFix P m (e + 1 - 5)
      let E := squareFix P 5 (2 ^ P * 2 ^ P / expFix P y)
      roundBetween ftz neg ((2 ^ P - E) * 2 ^ P / (2 ^ P + E)) fixErr (-(P : Int))) precisions

/-- The special functions. -/
inductive Special where
  | rcp | rsq | sqrt | exp2 | log2 | sin | cos | tanh
deriving DecidableEq, Repr

/-- A special function of an FP32 value (R97, Table 4.5). -/
def Special.apply (fn : Special) (ftz : Bool) (x : Val) : Nat × W32 :=
  match fn, x with
  | _, .nan s => (f32.nanBits, if s then flagNV else 0#32)
  | .rcp, .inf n => (f32.signBit n, 0#32)
  | .rcp, .fin n m e => if m = 0 then (f32.infBits n, flagDZ) else f32.ratio .rne ftz n 1 m (-e)
  | .sqrt, .inf n => if n then invalidNan f32 else (f32.infBits false, 0#32)
  | .sqrt, .fin n m e =>
    if m = 0 then (f32.signBit n, 0#32) else if n then invalidNan f32 else f32.sqrtOf .rne ftz m e
  | .rsq, .inf n => if n then invalidNan f32 else (0, 0#32)
  | .rsq, .fin n m e =>
    if m = 0 then (f32.infBits n, flagDZ)
    else if n then invalidNan f32
    else
      -- an even exponent, then floor of 2^100 / sqrt(m)
      let (m, e) := if e % 2 = 0 then (m, e) else (2 * m, e - 1)
      let q := isqrt (2 ^ 200 / m)
      f32.round .rne ftz false q (-100 - e / 2) (q * q * m != 2 ^ 200)
  | .exp2, .inf n => (if n then 0 else f32.infBits false, 0#32)
  | .exp2, .fin n m e => exp2F ftz n m e
  | .log2, .inf n => if n then invalidNan f32 else (f32.infBits false, 0#32)
  | .log2, .fin n m e =>
    if m = 0 then (f32.infBits true, flagDZ) else if n then invalidNan f32 else log2F ftz m e
  | .sin, .inf _ => invalidNan f32
  | .sin, .fin n m e => sinF ftz n m e
  | .cos, .inf _ => invalidNan f32
  | .cos, .fin _ m e => cosF ftz m e
  | .tanh, .inf n => f32.round .rne ftz n 1 0 false
  | .tanh, .fin n m e => if m = 0 then (f32.signBit n, 0#32) else tanhF ftz n m e

end Sys2Proof.Machine
end

