-- ==== Sys2Proof/Machine/Flags.lean ====
section
/-!
DEFINITION. FPMODE and FPFLAGS (R162 to R164): the controls a floating-point unit reads, the flags it sets,
and the writes of the two registers.
-/

namespace Sys2Proof.Machine

/-- DAZ (Table 7.2). -/
def Crew.daz (c : Crew) : Bool := c.fpmode.getLsbD 3

/-- FTZ (Table 7.2). -/
def Crew.ftz (c : Crew) : Bool := c.fpmode.getLsbD 4

/-- The rounding mode of a round field: value 5 takes it from FPMODE (R90). -/
def Crew.mode (c : Crew) (r : Round) : Round :=
  match r with
  | .dyn =>
    match (c.fpmode.extractLsb' 0 3).toNat with
    | 1 => .rtz | 2 => .rup | 3 => .rdn | 4 => .rna | _ => .rne
  | r => r

/-- A value FPMODE accepts: RM 0 to 4 and no reserved bit (R162). -/
def fpmodeOk (x : W32) : Bool := decide (x.toNat < 32) && decide ((x.extractLsb' 0 3).toNat ≤ 4)

/-- A write of FPFLAGS clears each flag written as 1 (R163). -/
def clearFlags (flags x : W32) : W32 := flags &&& ~~~x

/-- An FP32 operand of a lane, after DAZ. -/
def Crew.fval (c : Crew) (x : W32) : Val := f32.decode c.daz x.toNat

/-- An operand that SEL, MOV or a raw LUT takes: under DAZ a subnormal FP32 word reads as the zero of its sign (R93, log 89). -/
def Crew.flushed (c : Crew) (x : W32) : W32 := if c.daz && x.extractLsb' 23 8 == 0#8 then x &&& 0x80000000#32 else x

/-- A half of a register as a 16-bit encoding (R161). -/
def half (x : W32) (hi : Bool) : Nat := if hi then x.toNat / 65536 else x.toNat % 65536

/-- A BF16 half of an operand, after DAZ. -/
def Crew.hval (c : Crew) (f : Fmt) (x : W32) (hi : Bool) : Val := f.decode c.daz (half x hi)

/-- The result of an operation on FP32 operands, or on both BF16 halves with the OR of their flags (R161, R173). -/
def Crew.perHalf (c : Crew) (paired : Bool) (op : Fmt → (W32 → Val) → (Nat × W32)) : W32 × W32 :=
  if paired then
    let lo := op bf16 (fun x => c.hval bf16 x false)
    let hi := op bf16 (fun x => c.hval bf16 x true)
    (word (hi.1 * 65536 + lo.1), lo.2 ||| hi.2)
  else
    let r := op f32 c.fval
    (word r.1, r.2)

end Sys2Proof.Machine
end

