-- ==== Sys2Proof/Machine/IntVec.lean ====
section
/-!
DEFINITION. Integer, logic, shift, bit-field, compare, select and move instructions of the lane set
(R166 to R172).
-/

namespace Sys2Proof.Machine

/-- An operand read as signed (V = 0) or unsigned (V = 1) (R166). -/
def intOf (u : Bool) (x : W32) : Int := if u then x.toNat else x.toInt

/-- The exact result as written: wrapped, or clamped when sat is 1 (R167). -/
def writeInt (sat u : Bool) (x : Int) : W32 :=
  if sat then
    if u then BitVec.ofInt 32 (max 0 (min x (2 ^ 32 - 1)))
    else BitVec.ofInt 32 (max (-(2 ^ 31)) (min x (2 ^ 31 - 1)))
  else BitVec.ofInt 32 x

/-- A two-source unit whose result is a function of its two operands. -/
def State.binop (s : State) (p : Prefix) (d : BitVec 7) (a b : Src) (f : W32 → W32 → W32) : Out :=
  s.laneValue p d ((srcNames a 1).add (srcNames b 1)) fun c l => f (c.src a l) (c.src b l)

/-- A one-source unit. -/
def State.unop (s : State) (p : Prefix) (d : BitVec 7) (a : Src) (f : W32 → W32) : Out :=
  s.laneValue p d (srcNames a 1) fun c l => f (c.src a l)

/-- The fourth operand of a lane: the register c names, or the old d (R165). -/
def Crew.fourth (c : Crew) (p : Prefix) (d : BitVec 7) (l : Nat) : W32 :=
  match cSource p with
  | some x => c.src x l
  | none => c.vreg d.toNat l

/-- A unit with the fourth operand. -/
def State.triop (s : State) (p : Prefix) (d : BitVec 7) (a b : Src) (f : W32 → W32 → W32 → W32) : Out :=
  s.laneValue p d (((srcNames a 1).add (srcNames b 1)).add (cNames p)) fun c l =>
    f (c.src a l) (c.src b l) (c.fourth p d l)

/-- IADD (R166, R167). -/
def execIadd (p : Prefix) (u : Bool) (d : BitVec 7) (a b : Src) (s : State) : Out :=
  s.binop p d a b fun x y => writeInt p.sat u (intOf u x + intOf u y)

/-- ISUB (R166, R167). -/
def execIsub (p : Prefix) (u : Bool) (d : BitVec 7) (a b : Src) (s : State) : Out :=
  s.binop p d a b fun x y => writeInt p.sat u (intOf u x - intOf u y)

/-- IMUL (R166, R167). -/
def execImul (p : Prefix) (u : Bool) (d : BitVec 7) (a b : Src) (s : State) : Out :=
  s.binop p d a b fun x y => writeInt p.sat u (intOf u x * intOf u y)

/-- IMULH: bits 63:32 of the product (R166). -/
def execImulh (p : Prefix) (u : Bool) (d : BitVec 7) (a b : Src) (s : State) : Out :=
  s.binop p d a b fun x y => BitVec.ofInt 32 (intOf u x * intOf u y / 2 ^ 32)

/-- IMAD (R165 to R167). -/
def execImad (p : Prefix) (u : Bool) (d : BitVec 7) (a b : Src) (s : State) : Out :=
  s.triop p d a b fun x y z => writeInt p.sat u (intOf u x * intOf u y + intOf u z)

/-- IMIN (R166). -/
def execImin (p : Prefix) (u : Bool) (d : BitVec 7) (a b : Src) (s : State) : Out :=
  s.binop p d a b fun x y => if intOf u x ≤ intOf u y then x else y

/-- IMAX (R166). -/
def execImax (p : Prefix) (u : Bool) (d : BitVec 7) (a b : Src) (s : State) : Out :=
  s.binop p d a b fun x y => if intOf u y ≤ intOf u x then x else y

/-- INEG (R166, R167). -/
def execIneg (p : Prefix) (d : BitVec 7) (a : Src) (s : State) : Out :=
  s.unop p d a fun x => writeInt p.sat false (-x.toInt)

/-- IABS (R166, R167). -/
def execIabs (p : Prefix) (d : BitVec 7) (a : Src) (s : State) : Out :=
  s.unop p d a fun x => writeInt p.sat false x.toInt.natAbs

/-- AND (R166). -/
def execVand (p : Prefix) (d : BitVec 7) (a b : Src) (s : State) : Out := s.binop p d a b fun x y => x &&& y

/-- OR (R166). -/
def execVor (p : Prefix) (d : BitVec 7) (a b : Src) (s : State) : Out := s.binop p d a b fun x y => x ||| y

/-- XOR (R166). -/
def execVxor (p : Prefix) (d : BitVec 7) (a b : Src) (s : State) : Out := s.binop p d a b fun x y => x ^^^ y

/-- ANDN (R166). -/
def execAndn (p : Prefix) (d : BitVec 7) (a b : Src) (s : State) : Out := s.binop p d a b fun x y => x &&& ~~~y

/-- A shift amount, modulo 32 (R85, R166). -/
def shiftOf (b : W32) : Nat := b.toNat % 32

/-- SHL (R166). -/
def execShl (p : Prefix) (d : BitVec 7) (a b : Src) (s : State) : Out := s.binop p d a b fun x y => x <<< shiftOf y

/-- SHR (R166). -/
def execShr (p : Prefix) (d : BitVec 7) (a b : Src) (s : State) : Out := s.binop p d a b fun x y => x >>> shiftOf y

/-- SAR (R166). -/
def execSar (p : Prefix) (d : BitVec 7) (a b : Src) (s : State) : Out := s.binop p d a b fun x y => x.sshiftRight (shiftOf y)

/-- ROTL (R166). -/
def execRotl (p : Prefix) (d : BitVec 7) (a b : Src) (s : State) : Out :=
  s.binop p d a b fun x y => (x <<< shiftOf y) ||| (x >>> (32 - shiftOf y))

/-- The length of a bit-field control (R168). -/
def fieldLen (b : W32) : Nat := min (b.extractLsb' 8 6).toNat 32

/-- BFE and KBFE: the field at pos of length len, zero- or sign-extended; bits past 31 read as 0 (R151, R168). -/
def bitFieldExtract (a b : W32) : W32 :=
  let len := fieldLen b
  let field := a.toNat / 2 ^ shiftOf b % 2 ^ len
  if len = 0 then 0#32 else if b.getLsbD 16 then sext32 len field else word field

/-- BFI: the low len bits of a inserted into c at pos (R168). -/
def bitFieldInsert (a b c : W32) : W32 :=
  let mask := word ((2 ^ fieldLen b - 1) * 2 ^ shiftOf b)
  (c &&& ~~~mask) ||| ((a <<< shiftOf b) &&& mask)

/-- BFE (R168). -/
def execBfe (p : Prefix) (d : BitVec 7) (a b : Src) (s : State) : Out := s.binop p d a b bitFieldExtract

/-- BFI (R168). -/
def execBfi (p : Prefix) (d : BitVec 7) (a b : Src) (s : State) : Out := s.triop p d a b bitFieldInsert

/-- POPC (R166). -/
def execPopc (p : Prefix) (d : BitVec 7) (a : Src) (s : State) : Out := s.unop p d a fun x => word (popcount x)

/-- CLZ (R166). -/
def execClz (p : Prefix) (d : BitVec 7) (a : Src) (s : State) : Out := s.unop p d a fun x => word (leadingZeros x)

/-- BREV (R166). -/
def execBrev (p : Prefix) (d : BitVec 7) (a : Src) (s : State) : Out := s.unop p d a reverseBits

/-- Byte i of a word as signed or unsigned (R166). -/
def byteInt (u : Bool) (x : W32) (i : Nat) : Int :=
  if u then (x.extractLsb' (8 * i) 8).toNat else (x.extractLsb' (8 * i) 8).toInt

/-- IDOT4 (R166, R167). -/
def execIdot4 (p : Prefix) (u : Bool) (d : BitVec 7) (a b : Src) (s : State) : Out :=
  s.triop p d a b fun x y z =>
    writeInt p.sat u (intOf u z + byteInt u x 0 * byteInt u y 0 + byteInt u x 1 * byteInt u y 1
      + byteInt u x 2 * byteInt u y 2 + byteInt u x 3 * byteInt u y 3)

/-- IADDI (R166, R167). -/
def execIaddi (p : Prefix) (u : Bool) (d : BitVec 7) (a : Src) (imm : BitVec 8) (s : State) : Out :=
  s.unop p d a fun x => writeInt p.sat u (intOf u x + imm.toInt)

/-- The conditions of Table 7.5. -/
def intCond (cc : IntCond) (a b : W32) : Bool :=
  match cc with
  | .eq => a == b
  | .ne => a != b
  | .lt => decide (a.toInt < b.toInt)
  | .le => decide (a.toInt ≤ b.toInt)
  | .gt => decide (b.toInt < a.toInt)
  | .ge => decide (b.toInt ≤ a.toInt)
  | .ltu => decide (a.toNat < b.toNat)
  | .leu => decide (a.toNat ≤ b.toNat)
  | .gtu => decide (b.toNat < a.toNat)
  | .geu => decide (b.toNat ≤ a.toNat)

/-- A compare writes only mask md in the lanes of the run (R170): `test c l` gives a truth value and flags. -/
def State.compare (s : State) (p : Prefix) (andOld : Bool) (md : BitVec 3) (n : Names)
    (test : Crew → Nat → Bool × W32) : Out :=
  s.laneCrew p n (fun c l => c.setM md.toNat (c.mreg md.toNat &&& ~~~(1#32 <<< l))) fun c act =>
    let old := c.mreg md.toNat
    let hit := maskOf fun l => act.getLsbD l && (test c l).1 && (!andOld || old.getLsbD l)
    let flags := (lanesOf act).foldl (fun acc l => acc ||| (test c l).2) 0#32
    { c.setM md.toNat ((old &&& ~~~act) ||| hit) with fpflags := c.fpflags ||| flags }

/-- ICMP (R169, R170). -/
def execIcmp (p : Prefix) (andOld : Bool) (cc : IntCond) (md : BitVec 3) (a b : Src) (s : State) : Out :=
  s.compare p andOld md ((srcNames a 1).add (srcNames b 1)) fun c l => (intCond cc (c.src a l) (c.src b l), 0#32)

/-- SEL: every lane of the run is active, and mask and inv select (R171). Its operands take DAZ (R93, log 89). -/
def execSel (p : Prefix) (d : BitVec 7) (a b : Src) (s : State) : Out :=
  s.bareUnit (((srcNames a 1).add (srcNames b 1)).add (destNames d 1)) fun s act =>
    .next ((s.updCrew fun c =>
      let pick := c.mreg p.mask.toNat ^^^ (if p.inv then 0xFFFFFFFF#32 else 0#32)
      c.setVLanes d.toNat (fun l => c.flushed (if pick.getLsbD l then c.src a l else c.src b l)) (lanesOf act)).done false)

/-- MOVI (R172). -/
def execMovi (p : Prefix) (hi : Bool) (d : BitVec 7) (imm : BitVec 16) (s : State) : Out :=
  s.laneValue p d {} fun _ _ => if hi then imm ++ 0#16 else imm.signExtend 32

/-- MOV (R172): its operand takes DAZ (R93, log 89). -/
def execMov (p : Prefix) (d : BitVec 7) (a : Src) (s : State) : Out :=
  s.laneValue p d (srcNames a 1) fun c l => c.flushed (c.src a l)

/-- LIT (R172, R38). -/
def execLit (p : Prefix) (d : BitVec 7) (x : W32) (s : State) : Out := s.laneValue p d {} fun _ _ => x

end Sys2Proof.Machine
end

