-- ==== Sys2Proof/Machine/FloatVec.lean ====
section
/-!
DEFINITION. Floating-point arithmetic, comparison, classification and special functions of the lane set
(R173 to R177).
-/

namespace Sys2Proof.Machine

/-- A two-source floating-point unit, FP32 or paired BF16 (R161, R173). -/
def State.floatBin (s : State) (p : Prefix) (bf : Bool) (d : BitVec 7) (a b : Src)
    (op : Fmt → Round → Bool → Val → Val → Nat × W32) : Out :=
  s.laneFloat p d ((srcNames a 1).add (srcNames b 1)) fun c l =>
    c.perHalf bf fun f rd =>
      let x := rd (c.src a l)
      let y := rd (c.src b l)
      let r := op f (c.mode p.round) c.ftz x y
      (r.1, r.2 ||| sigFlag [x, y])

/-- A one-source FP32 unit. -/
def State.floatUn (s : State) (p : Prefix) (d : BitVec 7) (a : Src) (op : Crew → Val → Nat × W32) : Out :=
  s.laneFloat p d (srcNames a 1) fun c l =>
    let x := c.fval (c.src a l)
    let r := op c x
    (word r.1, r.2 ||| sigFlag [x])

/-- FADD (R173). -/
def execFadd (p : Prefix) (bf : Bool) (d : BitVec 7) (a b : Src) (s : State) : Out :=
  s.floatBin p bf d a b fun f mode ftz x y => f.sum mode ftz [x, y]

/-- FSUB (R173). -/
def execFsub (p : Prefix) (bf : Bool) (d : BitVec 7) (a b : Src) (s : State) : Out :=
  s.floatBin p bf d a b fun f mode ftz x y => f.sum mode ftz [x, y.negate]

/-- FMUL (R173). -/
def execFmul (p : Prefix) (bf : Bool) (d : BitVec 7) (a b : Src) (s : State) : Out :=
  s.floatBin p bf d a b fun f mode ftz x y => f.mul mode ftz x y

/-- FFMA (R173, R174). -/
def execFfma (p : Prefix) (bf : Bool) (d : BitVec 7) (a b : Src) (s : State) : Out :=
  s.laneFloat p d (((srcNames a 1).add (srcNames b 1)).add (cNames p)) fun c l =>
    c.perHalf bf fun f rd =>
      f.fma (c.mode p.round) c.ftz [(rd (c.src a l), rd (c.src b l))] [rd (c.fourth p d l)]

/-- FMIN and FMAX of a lane, FP32 or paired BF16 (R174). -/
def Crew.minMaxLane (c : Crew) (bf wantMax : Bool) (x y : W32) : W32 × W32 :=
  if bf then
    let lo := bf16.minMax c.daz wantMax (half x false) (half y false)
    let hi := bf16.minMax c.daz wantMax (half x true) (half y true)
    (word (hi.1 * 65536 + lo.1), lo.2 ||| hi.2)
  else
    let r := f32.minMax c.daz wantMax x.toNat y.toNat
    (word r.1, r.2)

/-- FMIN (R173, R174). -/
def execFmin (p : Prefix) (bf : Bool) (d : BitVec 7) (a b : Src) (s : State) : Out :=
  s.laneFloat p d ((srcNames a 1).add (srcNames b 1)) fun c l => c.minMaxLane bf false (c.src a l) (c.src b l)

/-- FMAX (R173, R174). -/
def execFmax (p : Prefix) (bf : Bool) (d : BitVec 7) (a b : Src) (s : State) : Out :=
  s.laneFloat p d ((srcNames a 1).add (srcNames b 1)) fun c l => c.minMaxLane bf true (c.src a l) (c.src b l)

/-- FNEG and FABS: the sign changed, a NaN made canonical, a subnormal kept unless DAZ flushes it (R174). -/
def signOp (f : Val → Val) (_ : Crew) (x : Val) : Nat × W32 := f32.encodeVal .rne false (f x)

/-- FNEG (R174). -/
def execFneg (p : Prefix) (d : BitVec 7) (a : Src) (s : State) : Out := s.floatUn p d a (signOp Val.negate)

/-- FABS (R174). -/
def execFabs (p : Prefix) (d : BitVec 7) (a : Src) (s : State) : Out := s.floatUn p d a (signOp Val.abs)

/-- The conditions of Table 7.7. -/
def fpCond (cc : FpCond) (x y : Val) : Bool :=
  let un := x.isNan || y.isNan
  match cc with
  | .eq => !un && x.eqv y
  | .ne => un || !(x.eqv y)
  | .lt => !un && x.lt y
  | .le => !un && !(y.lt x)
  | .gt => !un && y.lt x
  | .ge => !un && !(x.lt y)
  | .ord => !un
  | .unord => un

/-- FCMP (R170, R175). -/
def execFcmp (p : Prefix) (andOld : Bool) (cc : FpCond) (md : BitVec 3) (a b : Src) (s : State) : Out :=
  s.compare p andOld md ((srcNames a 1).add (srcNames b 1)) fun c l =>
    let x := c.fval (c.src a l)
    let y := c.fval (c.src b l)
    (fpCond cc x y, sigFlag [x, y])

/-- The class bit of a value (R176). -/
def classBit : Val → Nat
  | .nan _ => 8
  | .inf true => 0
  | .inf false => 7
  | .fin n m _ =>
    if m = 0 then (if n then 3 else 4)
    else if m < 2 ^ 23 then (if n then 2 else 5)
    else (if n then 1 else 6)

/-- FCLASS (R176). -/
def execFclass (p : Prefix) (d : BitVec 7) (a : Src) (s : State) : Out :=
  s.floatUn p d a fun _ x => (2 ^ classBit x, 0#32)

/-- FRND (R173, R174): a zero result keeps the sign of a. -/
def roundIntegral (mode : Round) : Val → Nat × W32
  | .fin n m e =>
    let (x, inexact) := roundInt mode n m e
    ((f32.round .rne false n x.natAbs 0 false).1, if inexact then flagNX else 0#32)
  | x => f32.encodeVal .rne false x

def execFrnd (p : Prefix) (d : BitVec 7) (a : Src) (s : State) : Out :=
  s.floatUn p d a fun c x => roundIntegral (c.mode p.round) x

/-- FSCALE (R173, R174): b is a signed integer. -/
def execFscale (p : Prefix) (d : BitVec 7) (a b : Src) (s : State) : Out :=
  s.laneFloat p d ((srcNames a 1).add (srcNames b 1)) fun c l =>
    let r := match c.fval (c.src a l) with
      | .fin n m e => f32.round (c.mode p.round) c.ftz n m (e + (c.src b l).toInt) false
      | x => f32.encodeVal .rne false x
    (word r.1, r.2)

/-- The special functions (R177). -/
def State.special (s : State) (p : Prefix) (d : BitVec 7) (a : Src) (fn : Special) : Out :=
  s.floatUn p d a fun c x => fn.apply c.ftz x

def execFrcp (p : Prefix) (d : BitVec 7) (a : Src) (s : State) : Out := s.special p d a .rcp
def execFrsq (p : Prefix) (d : BitVec 7) (a : Src) (s : State) : Out := s.special p d a .rsq
def execFsqrt (p : Prefix) (d : BitVec 7) (a : Src) (s : State) : Out := s.special p d a .sqrt
def execFexp2 (p : Prefix) (d : BitVec 7) (a : Src) (s : State) : Out := s.special p d a .exp2
def execFlog2 (p : Prefix) (d : BitVec 7) (a : Src) (s : State) : Out := s.special p d a .log2
def execFsin (p : Prefix) (d : BitVec 7) (a : Src) (s : State) : Out := s.special p d a .sin
def execFcos (p : Prefix) (d : BitVec 7) (a : Src) (s : State) : Out := s.special p d a .cos
def execFtanh (p : Prefix) (d : BitVec 7) (a : Src) (s : State) : Out := s.special p d a .tanh

/-- FDOT2: pairs of BF16, or of FP16 with V = 1, summed with the FP32 addend in one rounding (R173, R174). -/
def execFdot2 (p : Prefix) (fp16 : Bool) (d : BitVec 7) (a b : Src) (s : State) : Out :=
  s.laneFloat p d (((srcNames a 1).add (srcNames b 1)).add (cNames p)) fun c l =>
    let f := if fp16 then f16 else bf16
    let x := c.src a l
    let y := c.src b l
    let r := f32.fma (c.mode p.round) c.ftz
      [(c.hval f x false, c.hval f y false), (c.hval f x true, c.hval f y true)] [c.fval (c.fourth p d l)]
    (word r.1, r.2)

end Sys2Proof.Machine
end

