-- ==== Sys2Proof/Machine/Convert.lean ====
section
/-!
DEFINITION. Conversions (R178 to R180) and block floating point (R98, R100, R101, R181, R182).
-/

namespace Sys2Proof.Machine

/-- Element e of a register, of width w (R178). -/
def element (x : W32) (w : Nat) (e : BitVec 2) : Nat := x.toNat / 2 ^ (w * e.toNat) % 2 ^ w

/-- An integer type is signed, and its width (Table 7.8). -/
def intType : IntFmt → Bool × Nat
  | .i32 => (true, 32) | .n32 => (false, 32) | .i16 => (true, 16) | .n16 => (false, 16) | .i8 => (true, 8) | .n8 => (false, 8)

/-- Least and greatest values of an integer type (Table 4.1). -/
def intMin (t : IntFmt) : Int := if (intType t).1 then -(2 ^ ((intType t).2 - 1)) else 0
def intMax (t : IntFmt) : Int := if (intType t).1 then 2 ^ ((intType t).2 - 1) - 1 else 2 ^ (intType t).2 - 1

/-- Float to float (R95, R179). FTZ acts on a widening conversion too, as R93 names the conversions (log 90). -/
def convertFF (dst : Fmt) (mode : Round) (ftz : Bool) (x : Val) : Nat × W32 := dst.encodeVal mode ftz x

/-- Float to integer (R96, R179). -/
def convertFI (t : IntFmt) (mode : Round) (sat : Bool) (x : Val) : Int × W32 :=
  match x with
  | .nan _ => (if sat then 0 else intMin t, flagNV)
  | .inf n => (if sat then (if n then intMin t else intMax t) else intMin t, flagNV)
  | .fin n m e =>
    -- beyond 2^64 in magnitude no type holds the value
    if 64 < e + m.log2 ∧ m ≠ 0 then (if sat then (if n then intMin t else intMax t) else intMin t, flagNV)
    else
      let (k, inexact) := roundInt mode n m e
      if k < intMin t ∨ intMax t < k then
        (if sat then (if k < intMin t then intMin t else intMax t) else intMin t, flagNV)
      else (k, if inexact then flagNX else 0#32)

/-- CVT.FF (R178, R179). -/
def execCvtFF (p : Prefix) (d : BitVec 7) (a : Src) (dst src : FloatFmt) (e : BitVec 2) (s : State) : Out :=
  s.laneFloat p d (srcNames a 1) fun c l =>
    let x := (fmtOf src).decode c.daz (element (c.src a l) (fmtOf src).width e)
    let r := convertFF (fmtOf dst) (c.mode p.round) c.ftz x
    (word r.1, r.2 ||| sigFlag [x])

/-- CVT.FI (R178, R179): a narrow result is extended by its type. -/
def execCvtFI (p : Prefix) (d : BitVec 7) (a : Src) (src : FloatFmt) (e : BitVec 2) (dst : IntFmt) (s : State) : Out :=
  s.laneFloat p d (srcNames a 1) fun c l =>
    let x := (fmtOf src).decode c.daz (element (c.src a l) (fmtOf src).width e)
    let r := convertFI dst (c.mode p.round) p.sat x
    (BitVec.ofInt 32 r.1, r.2)

/-- CVT.IF (R178, R179). -/
def execCvtIF (p : Prefix) (d : BitVec 7) (a : Src) (dst : FloatFmt) (e : BitVec 2) (src : IntFmt) (s : State) : Out :=
  s.laneFloat p d (srcNames a 1) fun c l =>
    let w := (intType src).2
    let x := element (c.src a l) w e
    let r := (fmtOf dst).ofInt (c.mode p.round) c.ftz (if (intType src).1 then signedOf w x else x) 0
    (word r.1, r.2)

/-- A FP32 value rounded to 16 bits; with sat, a finite operand that overflows gives the format's ±max (R180). -/
def round16 (f : Fmt) (mode : Round) (ftz sat : Bool) (x : Val) : Nat × W32 :=
  let r := f.encodeVal mode ftz x
  if sat && !x.isInf && r.2.getLsbD 2 then (f.maxBits x.neg, r.2) else r

/-- PACK2 (R180). -/
def execPack2 (p : Prefix) (fp16 : Bool) (d : BitVec 7) (a b : Src) (s : State) : Out :=
  s.laneFloat p d ((srcNames a 1).add (srcNames b 1)) fun c l =>
    let f := if fp16 then f16 else bf16
    let x := c.fval (c.src a l)
    let y := c.fval (c.src b l)
    let lo := round16 f (c.mode p.round) c.ftz p.sat x
    let hi := round16 f (c.mode p.round) c.ftz p.sat y
    (word (hi.1 * 65536 + lo.1), lo.2 ||| hi.2 ||| sigFlag [x, y])

/-- The exponent of the leading bit of a nonzero finite value. -/
def leadExp : Val → Option Int
  | .fin _ m e => if m = 0 then none else some (e + m.log2)
  | _ => none

/-- Quantization of a block to BFPm (R100): the exponent byte, the mantissas and the flags. Under FTZ an element whose quantized
value is nonzero and below the least normal of FP32 becomes 0, with UF and NX (R93, log 88). -/
def quantize (m : Nat) (mode : Round) (ftz : Bool) (xs : List Val) : Nat × List Int × W32 :=
  if xs.any (fun x => x.isNan || x.isInf) then (255, xs.map fun _ => 0, flagNV)
  else
    match xs.filterMap leadExp with
    | [] => (0, xs.map fun _ => 0, 0#32)
    | x :: rest =>
      let eMax := rest.foldl max x
      let E := (min (max (eMax + 128) 1) 254).toNat
      let scale : Int := (E : Int) - 127 - ((m : Int) - 1)
      let q : Val → Int := fun v =>
        match v with
        | .fin n k e => max (-(2 ^ (m - 1))) (min (roundInt mode n k (e - scale)).1 (2 ^ (m - 1) - 1))
        | _ => 0
      let same : Val → Bool := fun v => v.eqv (.fin (decide (q v < 0)) (q v).natAbs scale)
      let tiny : Val → Bool := fun v => ftz && q v != 0 && decide ((q v).natAbs < 2 ^ (-126 - scale).toNat)
      (E, xs.map fun v => if tiny v then 0 else q v,
        (if xs.all same then 0#32 else flagNX) ||| (if xs.any tiny then flagUF ||| flagNX else 0#32))

/-- The values a block of 16 lanes gives BFPQ: an inactive lane reads as zero (R181). -/
def Crew.blockVals (c : Crew) (a : Src) (act : W32) (h : Nat) : List Val :=
  (List.range 16).map fun i =>
    if act.getLsbD (16 * h + i) then c.fval (c.src a (16 * h + i)) else .fin false 0 0

/-- A word with byte r replaced. -/
def setByte (x : W32) (r : Nat) (b : Byte) : W32 :=
  (x &&& ~~~(0xFF#32 <<< (8 * r))) ||| (b.setWidth 32 <<< (8 * r))

/-- Block h holds an active lane. -/
def blockActive (act : W32) (h : Nat) : Bool := act.extractLsb' (16 * h) 16 != 0#16

/-- BFPQ, mantissa form (R181). -/
def execBfpqM (p : Prefix) (d : BitVec 7) (a : Src) (r : BitVec 2) (m : BitVec 4) (s : State) : Out :=
  s.laneCrew p ((srcNames a 1).add (destNames d 1)) (zeroV d 1) fun c act =>
    let q := fun h => quantize m.toNat (c.mode p.round) c.ftz (c.blockVals a act h)
    let q0 := q 0
    let q1 := q 1
    let flags := (if blockActive act 0 then q0.2.2 else 0#32) ||| (if blockActive act 1 then q1.2.2 else 0#32)
    { c.setVLanes d.toNat (fun l =>
        let ms := if l < 16 then q0.2.1 else q1.2.1
        setByte (c.vreg d.toNat l) r.toNat (BitVec.ofInt 8 (ms.getD (l % 16) 0))) (lanesOf act) with
      fpflags := c.fpflags ||| flags }

/-- BFPQ, exponent form: it writes the lane of the scale register, whatever the run, and sets no flag (R181). -/
def execBfpqE (p : Prefix) (d : BitVec 7) (a : Src) (pick : Bool) (r : BitVec 2) (j : BitVec 3) (s : State) : Out :=
  s.laneUnit p ((srcNames a 1).add (destNames d 1)) (fun c _ => c) fun s act =>
    let into (h : Nat) : Nat := 2 * j.toNat + h + (if pick then 16 else 0)
    let lanes := maskOf fun l => (blockActive act 0 && l == into 0) || (blockActive act 1 && l == into 1)
    s.afterWrites [d.toNat] lanes fun s => .next ((s.updCrew fun c =>
      let put (c : Crew) (h : Nat) : Crew :=
        if blockActive act h then
          let l := 2 * j.toNat + h + (if pick then 16 else 0)
          c.setV d.toNat l (setByte (c.vreg d.toNat l) r.toNat (BitVec.ofNat 8 (quantize 8 .rne false (s.crew.blockVals a act h)).1))
        else c
      put (put c 0) 1).done false)

/-- One BFP element as FP32, exact (R101). -/
def bfpValue (m E : Nat) (M : Int) : W32 :=
  if E = 255 then word f32.nanBits
  else word (f32.ofInt .rne false M ((E : Int) - 127 - ((m : Int) - 1))).1

/-- BFPX (R182). -/
def execBfpx (p : Prefix) (d : BitVec 7) (a : Src) (q r : BitVec 2) (m : BitVec 4) (s : State) : Out :=
  s.laneValue p d (srcNames a 1) fun c l =>
    let E := ((c.vreg d.toNat l).extractLsb' (8 * q.toNat) 8).toNat
    let M := signedOf m.toNat ((c.src a l).extractLsb' (8 * r.toNat) 8).toNat
    bfpValue m.toNat E M

end Sys2Proof.Machine
end

