-- ==== Sys2Proof/Machine/Permute.lean ====
section
/-!
DEFINITION. Byte permutation, transposition and the special-function tables (R183 to R189).
-/

namespace Sys2Proof.Machine

/-! ## Per-core state -/

/-- What a core without an entry holds. -/
def coreDefault (core : Nat) : CoreSt := { core := core }

/-- The state of a core that belongs to no team. -/
def State.coreSt (s : State) (core : Nat) : CoreSt :=
  (s.ctx.coreSts.find? fun x => x.core == core).getD (coreDefault core)

/-- That state changed. -/
def State.updCore (s : State) (core : Nat) (f : CoreSt → CoreSt) : State :=
  let cs := s.ctx.coreSts
  let cs := if cs.any (fun x => x.core == core) then updateFirst (fun x => x.core == core) f cs
    else cs ++ [f (coreDefault core)]
  { s with ctx := { s.ctx with coreSts := cs } }

/-- Entry e of table t (R186). -/
def CoreSt.entry (x : CoreSt) (t e : Nat) : W32 := readKey x.tables (512 * t + e)

/-! ## Instructions -/

/-- PERMB: the selector is the old d (R183). -/
def permuteBytes (a b sel : W32) : W32 :=
  let ab : W64 := b ++ a
  let byte (i : Nat) : Byte :=
    let n := sel.extractLsb' (4 * i) 4
    if n.getLsbD 3 then 0#8 else ab.extractLsb' (8 * n.toNat) 8
  byte 3 ++ byte 2 ++ byte 1 ++ byte 0

def execPermb (p : Prefix) (d : BitVec 7) (a b : Src) (s : State) : Out :=
  s.laneValue p d ((srcNames a 1).add (srcNames b 1)) fun c l =>
    permuteBytes (c.src a l) (c.src b l) (c.vreg d.toNat l)

/-- NIBX: four narrow fields of group g as bytes (R184). -/
def unpackFields (sx two : Bool) (g : Nat) (a : W32) : W32 :=
  let f := if two then 2 else 4
  let byte (i : Nat) : Byte :=
    let x := a.toNat / 2 ^ ((4 * g + i) * f) % 2 ^ f
    if sx then BitVec.ofInt 8 (signedOf f x) else BitVec.ofNat 8 x
  byte 3 ++ byte 2 ++ byte 1 ++ byte 0

def execNibx (p : Prefix) (d : BitVec 7) (a : Src) (sx two : Bool) (g : BitVec 2) (s : State) : Out :=
  s.laneValue p d (srcNames a 1) fun c l => unpackFields sx two g.toNat (c.src a l)

/-- The lanes of other runs that XPOSE reads, by register: lane l takes word l mod 4 of each lane of its slice (R185). -/
def xposeReads (src : Nat) (act : W32) : List (Nat × W32) :=
  (List.range 4).map fun j => (src + j, maskOf fun i => (List.range 4).any fun k => k == j && act.getLsbD (4 * (i / 4) + k))

/-- XPOSE: a 4 × 4 transposition of words within each slice, or of bytes within each lane (R185). -/
def execXpose (d : BitVec 7) (a : Src) (bytes : Bool) (s : State) : Out :=
  let src := match a with | .v r => r.toNat | .k r => r.toNat
  s.bareUnit ((srcNames a 4).add (destNames d 4)) fun s act =>
    s.afterEach (if bytes then [] else xposeReads src act) fun s => .next ((s.updCrew fun c =>
      let value (i l : Nat) : W32 :=
        if bytes then
          let byte (j : Nat) : Byte := (c.vreg (src + j) l).extractLsb' (8 * i) 8
          byte 3 ++ byte 2 ++ byte 1 ++ byte 0
        else c.vreg (src + l % 4) (4 * (l / 4) + i)
      (List.range 4).foldl (fun c' i => c'.setVLanes (d.toNat + i) (value i) (lanesOf act)) c).done false)

/-- The linear mode of LUT on a value after DAZ (R187): e[i] + f × (e[i + 1] - e[i]) rounded once; a zero has the sign of the sum of
those two terms, at an entry too (R89, log 20). -/
def lutLinear (ftz : Bool) (e : Nat → W32) (x : Val) : Nat × W32 :=
  match x with
  | .nan s => (f32.nanBits, if s then flagNV else 0#32)
  | x =>
    let x := if x.lt (.fin false 0 0) || x.isZero then .fin false 0 0 else x
    let x := if (Val.fin false 511 0).lt x then .fin false 511 0 else x
    match x with
    | .fin _ m g =>
      let i := (roundInt .rtz false m g).1.toNat
      let j := min (i + 1) 511
      -- the fraction as a multiple of 2^g
      let frac := if g < 0 then m % 2 ^ (-g).toNat else 0
      let a := f32.decode false (e i).toNat
      let b := f32.decode false (e j).toNat
      if !a.isNan && !a.isInf && !b.isNan && !b.isInf then
        let q := lowExp [a, b]
        let diff := b.scaled q - a.scaled q
        f32.sum .rne ftz [a, .fin (decide (diff < 0)) (diff.natAbs * frac) (q + g)]
      else if frac = 0 then ((f32.encodeVal .rne false a).1, 0#32)
      else invalidNan f32
    | _ => invalidNan f32

/-- LUT: every lane reads the current version of its core's table (R187, R189). The raw mode takes its index from
the operand as DAZ leaves it (R93, log 89). -/
def execLut (p : Prefix) (d : BitVec 7) (a : Src) (mode : LutMode) (t : BitVec 2) (s : State) : Out :=
  s.laneFloat p d (srcNames a 1) fun c l =>
    let e := (s.coreSt c.core).entry t.toNat
    match mode with
    | .raw => (e ((c.flushed (c.src a l)).extractLsb' 0 9).toNat, 0#32)
    | .linear =>
      let r := lutLinear c.ftz e (c.fval (c.src a l))
      (word r.1, r.2)

end Sys2Proof.Machine
end

