-- ==== Sys2Proof/Machine/Trees.lean ====
section
/-!
DEFINITION. The arithmetic of aggregate and cluster trees (R103 to R108, R280 to R283, R301, R305 to R308):
node entries, covers and searches, node records, and the walker's opening test. Everything here is a function of
a region and of memory at the region's home slice.
-/

namespace Sys2Proof.Machine

/-! ## Arrays of a region -/

/-- Physical address of byte `off` of an array (R288: its pages are translated at open). -/
def Span.pa (x : Span) (off : Nat) : Nat :=
  x.pages.getD ((x.va % 65536 + off) / 65536) 0 + (x.va + off) % 65536

/-- The page of an array that holds a physical address, counted from `i`. -/
def pageIndex (page : Nat) : Nat → List Nat → Option Nat
  | _, [] => none
  | i, p :: ps => if p = page then some i else pageIndex page (i + 1) ps

/-- The byte offset in an array of a physical address, when the address lies in it. -/
def Span.offset? (x : Span) (pa : Nat) : Option Nat :=
  match pageIndex (pa / 65536 * 65536) 0 x.pages with
  | none => none
  | some i =>
    let o : Int := (i : Int) * 65536 + (pa % 65536 : Nat) - (x.va % 65536 : Nat)
    if 0 ≤ o ∧ o < x.bytes then some o.toNat else none

/-- A word of an array in memory. -/
def Span.w32 (x : Span) (mem : Sparse 8) (off : Nat) : W32 := bytesW32 (readBytes mem (x.pa off) 4)

/-! ## Aggregate trees -/

/-- Fanout of an aggregate kind (Table 12.1). -/
def fanout (kind : Nat) : Nat := if kind = 3 ∨ kind = 4 then 8 else 16

/-- n_1, n_2, …, n_H (R282). -/
def aggCounts (f : Nat) : Nat → Nat → List Nat
  | 0, _ => []
  | fuel + 1, n => let x := ceilDiv n f; if x ≤ 1 then [1] else x :: aggCounts f fuel x

/-- Levels are at most 11. -/
def aggLevels (kind n : Nat) : List Nat := aggCounts (fanout kind) 12 n

/-- Entries before level ℓ in the shadow, in node entries: whole lines of f (R283). -/
def aggBase (f : Nat) (counts : List Nat) (level : Nat) : Nat :=
  ((counts.take (level - 1)).map fun n => f * ceilDiv n f).foldl (· + ·) 0

/-- Shadow bytes of an aggregate region (R283). -/
def aggShadow (kind n : Nat) : Nat :=
  ((aggLevels kind n).map fun x => 64 * ceilDiv x (fanout kind)).foldl (· + ·) 0

/-- The value of an FP32 entry with a NaN made canonical (R105). -/
def canonEntry (kind : Nat) (x : W64) : W64 :=
  if kind = 3 then x else x.extractLsb' 32 32 ++ canonF32 (x.setWidth 32)

/-- Pair (Table 4.8). -/
def aggPair (kind : Nat) (a b : W64) : W64 :=
  let x : W32 := a.setWidth 32
  let y : W32 := b.setWidth 32
  match kind with
  | 0 => 0#32 ++ addF32 x y
  | 1 => 0#32 ++ maxF32 x y
  | 2 => 0#32 ++ minF32 x y
  | 3 => a + b
  | _ =>
    let u := f32.decode false x.toNat
    let v := f32.decode false y.toNat
    if u.isNan && v.isNan then canonEntry 4 a
    else if u.isNan then b
    else if v.isNan then a
    else if u.ltZero v then b else a

/-- One round of R103: neighbours paired. -/
def pairRound (pair : W64 → W64 → W64) : List W64 → List W64
  | a :: b :: rest => pair a b :: pairRound pair rest
  | rest => rest

/-- The pairwise order of R103. -/
def combine (pair : W64 → W64 → W64) : Nat → List W64 → W64
  | 0, xs => xs.headD 0#64
  | fuel + 1, xs =>
    match xs with
    | [] => 0#64
    | [x] => x
    | xs => combine pair fuel (pairRound pair xs)

/-- The kind and leaf count of an aggregate region. -/
def Region.agg (r : Region) : Nat × Nat := match r.kind with | .agg k n => (k, n) | _ => (0, 0)

/-- Leaf i as an entry (R280, Table 4.8). -/
def Region.leafEntry (r : Region) (mem : Sparse 8) (i : Nat) : W64 :=
  let x := r.leaf.w32 mem (4 * i)
  match r.agg.1 with
  | 3 => x.signExtend 64
  | 4 => BitVec.ofNat 32 i ++ x
  | _ => 0#32 ++ x

/-- Key of Node(region, ℓ, j) in `nodes`, ℓ ≥ 1 (R283). -/
def Region.nodeKey (r : Region) (level j : Nat) : Nat :=
  aggBase (fanout r.agg.1) (aggLevels r.agg.1 r.agg.2) level + j

/-- Node(region, ℓ, j) (R281, R283). -/
def Region.node (r : Region) (mem : Sparse 8) (level j : Nat) : W64 :=
  if level = 0 then r.leafEntry mem j else readKey r.nodes (r.nodeKey level j)

/-- Entries of a level (R282). -/
def Region.levelCount (r : Region) (level : Nat) : Nat :=
  if level = 0 then r.agg.2 else (aggLevels r.agg.1 r.agg.2).getD (level - 1) 0

/-- Indices of the present children of entry (ℓ, j), ℓ ≥ 1, ascending (R282). -/
def Region.children (r : Region) (level j : Nat) : List Nat :=
  let f := fanout r.agg.1
  (List.range (min f (r.levelCount (level - 1) - j * f))).map fun i => j * f + i

/-- Entry (ℓ, j) recomputed from its children (R103). -/
def Region.recompute (r : Region) (mem : Sparse 8) (level j : Nat) : Region :=
  let xs := (r.children level j).map fun c => r.node mem (level - 1) c
  { r with nodes := writeKey r.nodes (r.nodeKey level j) (canonEntry r.agg.1 (combine (aggPair r.agg.1) 5 xs)) }

/-- The height H. -/
def Region.height (r : Region) : Nat := (aggLevels r.agg.1 r.agg.2).length

/-- Path recompute of leaf i (R291, R292). -/
def Region.recomputePath (r : Region) (mem : Sparse 8) (i : Nat) : Region :=
  ((List.range r.height).foldl (fun (a : Region × Nat) l =>
    let j := a.2 / fanout r.agg.1
    (a.1.recompute mem (l + 1) j, j)) (r, i)).1

/-- Delta of operand v into the ancestors of leaf i (R104, R291). -/
def Region.delta (r : Region) (i : Nat) (v : W32) : Region :=
  let u : W64 := if r.agg.1 = 3 then v.signExtend 64 else 0#32 ++ v
  ((List.range r.height).foldl (fun (a : Region × Nat) l =>
    let j := a.2 / fanout r.agg.1
    let key := a.1.nodeKey (l + 1) j
    ({ a.1 with nodes := writeKey a.1.nodes key (aggPair r.agg.1 (readKey a.1.nodes key) u) }, j)) (r, i)).1

/-- Every entry recomputed, from level 1 upward: the build and AGG.REFRESH (R288, R292). -/
def Region.rebuild (r : Region) (mem : Sparse 8) : Region :=
  (List.range r.height).foldl (fun r l =>
    (List.range (r.levelCount (l + 1))).foldl (fun r j => r.recompute mem (l + 1) j) r) r

/-- The cover of [s, e) (R105), as (level, index), with at most `fuel` levels. -/
def coverOf (f : Nat) : Nat → Nat → Nat → Nat → List (Nat × Nat)
  | 0, _, _, _ => []
  | fuel + 1, level, s, e =>
    if e ≤ s then []
    else
      let s' := min e (ceilDiv s f * f)
      let e' := max s' (e / f * f)
      ((List.range (s' - s)).map fun i => (level, s + i))
        ++ coverOf f fuel (level + 1) (s' / f) (if s' < e' then e' / f else s' / f)
        ++ ((List.range (e - e')).map fun i => (level, e' + i))

/-- The left fold of a cover (R105); canonical NaN. -/
def Region.fold (r : Region) (mem : Sparse 8) (cover : List (Nat × Nat)) : Option W64 :=
  match cover.map fun e => r.node mem e.1 e.2 with
  | [] => none
  | x :: xs => some (canonEntry r.agg.1 (xs.foldl (aggPair r.agg.1) x))

/-- A search of R301 on its way: the running sum, the leaf found, and the entries (level, index) read. -/
structure Descent where
  acc : Option W64 := none
  hit : Option Nat := none
  seen : List (Nat × Nat) := []
deriving DecidableEq, Repr

/-- Visit of R301. -/
def Region.visit (r : Region) (mem : Sparse 8) (past : W64 → Bool) : Nat → Nat → Descent → Descent
  | level, j, st =>
    let x := r.node mem level j
    let cand := match st.acc with | none => x | some a => aggPair r.agg.1 a x
    let st := { st with seen := st.seen ++ [(level, j)] }
    if !(past cand) then { st with acc := some cand }
    else match level with
      | 0 => { st with hit := some j }
      | l + 1 =>
        (r.children (l + 1) j).foldl (fun st c => if st.hit.isSome then st else Region.visit r mem past l c st) st

/-- Search of R301 over a cover. -/
def Region.descend (r : Region) (mem : Sparse 8) (past : W64 → Bool) (cover : List (Nat × Nat)) : Descent :=
  cover.foldl (fun st e => if st.hit.isSome then st else r.visit mem past e.1 e.2 st) {}

/-- The position a search finds; n when there is none. -/
def Region.search (r : Region) (mem : Sparse 8) (past : W64 → Bool) (cover : List (Nat × Nat)) : Nat :=
  (r.descend mem past cover).hit.getD r.agg.2

/-- The comparison of a search: FP32, where a NaN fails, or signed INT64 (R301). -/
def pastThreshold (int : Bool) (t x : W64) : Bool :=
  if int then decide (t.toInt < x.toInt)
  else
    let a := f32.decode false (x.toNat % 2 ^ 32)
    let b := f32.decode false (t.toNat % 2 ^ 32)
    !a.isNan && !b.isNan && b.lt a

/-- The threshold of a pick (R301). -/
def pickThreshold (int : Bool) (total : W64) (u : W32) : W64 :=
  if int then BitVec.ofInt 64 (total.toInt * u.toNat / 2 ^ 32)
  else 0#32 ++ word (f32.mul .rne false (f32.decode false (total.toNat % 2 ^ 32)) (.fin false u.toNat (-32))).1

/-- A range load's result (R301, Table 12.9): `which` is 0 SUM, 1 MAX, 2 MIN, 3 FIND, 4 PICK, and `arg` is V. -/
def Region.rangeResult (r : Region) (mem : Sparse 8) (which : Nat) (arg : Bool) (start stop : W32) (operand : W64) : W64 :=
  let n := r.agg.2
  let e := min (if stop = 0#32 then 2 ^ 32 else stop.toNat) n
  let s := min start.toNat e
  let cover := coverOf (fanout r.agg.1) 13 0 s e
  match which with
  | 0 => (r.fold mem cover).getD 0#64
  | 1 => (r.fold mem cover).getD (if arg then 0xFFFFFFFFFF800000#64 else 0xFF800000#64)
  | 2 => (r.fold mem cover).getD 0x7F800000#64
  | 3 => BitVec.ofNat 64 (r.search mem (pastThreshold arg operand) cover)
  | _ =>
    match r.fold mem cover with
    | none => BitVec.ofNat 64 n
    | some total =>
      BitVec.ofNat 64 (r.search mem (pastThreshold arg (pickThreshold arg total (operand.setWidth 32))) cover)

/-- The entries of the tree that a range load reads (R301, R302): its cover, and what its search descends through. -/
def Region.rangeReads (r : Region) (mem : Sparse 8) (which : Nat) (arg : Bool) (start stop : W32) (operand : W64) :
    List (Nat × Nat) :=
  let e := min (if stop = 0#32 then 2 ^ 32 else stop.toNat) r.agg.2
  let cover := coverOf (fanout r.agg.1) 13 0 (min start.toNat e) e
  match which with
  | 3 => (r.descend mem (pastThreshold arg operand) cover).seen
  | 4 =>
    match r.fold mem cover with
    | none => []
    | some total => cover ++ (r.descend mem (pastThreshold arg (pickThreshold arg total (operand.setWidth 32))) cover).seen
  | _ => cover

/-- The kind a range load needs (Table 12.9). -/
def rangeKind (which : Nat) (arg : Bool) : Nat :=
  match which with
  | 0 => if arg then 3 else 0
  | 1 => if arg then 4 else 1
  | 2 => 2
  | _ => if arg then 3 else 0

/-- Registers a range load writes (Table 12.9). -/
def rangeRegs (which : Nat) (arg : Bool) : Nat :=
  match which with
  | 0 => if arg then 2 else 1
  | 1 => if arg then 2 else 1
  | 2 => 1
  | _ => 2

/-- The shadow lines of an aggregate region as bytes (R283, R284): entries of 4 or 8 bytes, the rest 0. -/
def Region.aggShadowBytes (r : Region) : List Byte :=
  let f := fanout r.agg.1
  (List.range (aggShadow r.agg.1 r.agg.2 / (64 / f))).flatMap fun key => natBytes (readKey r.nodes key).toNat (64 / f)

/-! ## Cluster trees -/

/-- d, dv, cap and m of a cluster region. -/
def Region.clu (r : Region) : Nat × Nat × Nat × Nat :=
  match r.kind with | .clu d dv cap m => (d, dv, cap, m) | _ => (16, 0, 1, 0)

/-- C_1, C_2, …, C_H above C_0 (R306). -/
def cluUpper : Nat → Nat → List Nat
  | 0, _ => []
  | fuel + 1, c => let x := ceilDiv c 8; if x ≤ 1 then [1] else x :: cluUpper fuel x

/-- C_0 to C_H (R306). -/
def cluLevels (cap : Nat) : List Nat := ceilDiv cap 16 :: cluUpper 11 (ceilDiv cap 16)

/-- Nodes below level ℓ in node numbers (R306). -/
def cluBase (cap level : Nat) : Nat := ((cluLevels cap).take level).foldl (· + ·) 0

/-- All nodes. -/
def cluNodes (cap : Nat) : Nat := (cluLevels cap).foldl (· + ·) 0

/-- Words of a record's stride (R307). -/
def cluStride (d dv : Nat) : Nat := 16 * ceilDiv (16 + 4 * d + 4 * dv) 64

/-- Word w of the record of node N (Table 13.1). -/
def Region.recWord (r : Region) (node w : Nat) : W32 :=
  readKey r.recs (node * cluStride r.clu.1 r.clu.2.1 + w)

/-- A quotient by an exact count, rounded once under RNE (R106). -/
def divCount (x : W32) (n : Nat) : W32 :=
  match f32.decode false x.toNat with
  | .fin neg m e => word (f32.ratio .rne false neg m n e).1
  | v => word (f32.encodeVal .rne false v).1

/-- One step s + count × x, rounded once (R106). -/
def addScaled (s : W32) (count : Nat) (x : W32) : W32 :=
  word (f32.fma .rne false [(.fin false count 0, f32.decode false x.toNat)] [f32.decode false s.toNat]).1

/-- The square root of an FP32 word that is not negative. -/
def sqrtWord (mode : Round) (x : W32) : W32 :=
  match f32.decode false x.toNat with
  | .fin n m e => if m = 0 then word (f32.signBit n) else if n then word f32.nanBits else word (f32.sqrtOf mode false m e).1
  | .inf n => if n then word f32.nanBits else x
  | .nan _ => word f32.nanBits

/-- |a - b| rounded toward +∞ (R107). -/
def absDiffUp (a b : W32) : W32 :=
  let x := f32.decode false a.toNat
  let y := f32.decode false b.toNat
  word (if x.lt y then (f32.sum .rup false [y, x.negate]).1 else (f32.sum .rup false [x, y.negate]).1)

/-- sq + x × x rounded under a mode. -/
def addSquare (mode : Round) (sq x : W32) : W32 :=
  let v := f32.decode false x.toNat
  word (f32.fma mode false [(v, v)] [f32.decode false sq.toNat]).1

/-- Dist of R107. -/
def distUp (a b : List W32) : W32 :=
  sqrtWord .rup ((a.zip b).foldl (fun sq e => addSquare .rup sq (absDiffUp e.1 e.2)) 0#32)

/-- A maximum that propagates a NaN (R107). -/
def maxNan (a b : W32) : W32 :=
  let x := f32.decode false a.toNat
  let y := f32.decode false b.toNat
  if x.isNan || y.isNan then word f32.nanBits else if x.lt y then b else a

/-- A word holds a NaN or an infinity. -/
def notFinite (x : W32) : Bool := let v := f32.decode false x.toNat; v.isNan || v.isInf

/-- Words written from a key up. -/
def writeWords (m : Sparse 32) (key : Nat) : List W32 → Sparse 32
  | [] => m
  | x :: xs => writeWords (writeKey m key x) (key + 1) xs

/-- A record stored (Table 13.1); a node with no present row has a record of zeros. -/
def Region.setRecord (r : Region) (level j count : Nat) (spread : W32) (centroid vmean : List W32) : Region :=
  let (d, dv, cap, _) := r.clu
  let key := (cluBase cap level + j) * cluStride d dv
  let nonfin := notFinite spread || centroid.any notFinite || vmean.any notFinite
  let words := if count = 0 then List.replicate (cluStride d dv) 0#32
    else [word count, spread, word ((if nonfin then 32 else 0) + level), word (j * 8 ^ level)] ++ centroid ++ vmean
  { r with recs := writeWords r.recs key words }

/-- Key row i and value row i as they stand at home. -/
def Region.keyRow (r : Region) (mem : Sparse 8) (i : Nat) : List W32 :=
  (List.range r.clu.1).map fun j => r.leaf.w32 mem (4 * r.clu.1 * i + 4 * j)
def Region.valueRow (r : Region) (mem : Sparse 8) (i : Nat) : List W32 :=
  (List.range r.clu.2.1).map fun j => r.value.w32 mem (4 * r.clu.2.1 * i + 4 * j)

/-- Means of rows, column by column (R106). -/
def rowMeans (width : Nat) (rows : List (List W32)) : List W32 :=
  (List.range width).map fun j => divCount (rows.foldl (fun s row => addF32 s (row.getD j 0#32)) 0#32) rows.length

/-- Block b's record recomputed from its present rows (R106, R107, R310). -/
def Region.recomputeBlock (r : Region) (mem : Sparse 8) (b : Nat) : Region :=
  let (d, dv, _, m) := r.clu
  let count := min 16 (m - 16 * b)
  let rows := (List.range count).map fun i => r.keyRow mem (16 * b + i)
  let centroid := rowMeans d rows
  let spread := (rows.map fun row => distUp row centroid).foldl maxNan 0#32
  r.setRecord 0 b count spread centroid (rowMeans dv ((List.range count).map fun i => r.valueRow mem (16 * b + i)))

/-- Words of a record from word `w`. -/
def Region.recWords (r : Region) (node w n : Nat) : List W32 := (List.range n).map fun i => r.recWord node (w + i)

/-- Means of child nodes weighted by their counts, one rounding a step (R106). -/
def nodeMeans (width count : Nat) (kids : List (Nat × List W32)) : List W32 :=
  (List.range width).map fun j =>
    divCount (kids.foldl (fun s k => addScaled s k.1 (k.2.getD j 0#32)) 0#32) count

/-- A higher node's record recomputed from its present children (R106, R107, R310). -/
def Region.recomputeNode (r : Region) (level j : Nat) : Region :=
  let (d, dv, cap, _) := r.clu
  let below := (cluLevels cap).getD (level - 1) 0
  let ids := (List.range (min 8 (below - 8 * j))).map fun i => cluBase cap (level - 1) + 8 * j + i
  let kids := ids.filter fun k => r.recWord k 0 != 0#32
  let count := (kids.map fun k => (r.recWord k 0).toNat).foldl (· + ·) 0
  let centroid := nodeMeans d count (kids.map fun k => ((r.recWord k 0).toNat, r.recWords k 4 d))
  let vmean := nodeMeans dv count (kids.map fun k => ((r.recWord k 0).toNat, r.recWords k (4 + d) dv))
  let spread := (kids.map fun k =>
    word (f32.sum .rup false [f32.decode false (distUp (r.recWords k 4 d) centroid).toNat,
      f32.decode false (r.recWord k 1).toNat]).1).foldl maxNan 0#32
  r.setRecord level j count spread centroid vmean

/-- The ancestors of blocks, each recomputed once, from level 1 up. -/
def Region.recomputeAbove (r : Region) (blocks : List Nat) : Region :=
  ((List.range ((cluLevels r.clu.2.2.1).length - 1)).foldl (fun (a : Region × List Nat) l =>
    let js := (a.2.map fun b => b / 8).eraseDups
    (js.foldl (fun r j => r.recomputeNode (l + 1) j) a.1, js)) (r, blocks)).1

/-- Blocks recomputed once each, and then their ancestors (R310, R311). -/
def Region.recomputeBlocks (r : Region) (mem : Sparse 8) (blocks : List Nat) : Region :=
  (blocks.foldl (fun r b => r.recomputeBlock mem b) r).recomputeAbove blocks

/-- CLU.GROW by g rows at its position (R311). -/
def Region.grow (r : Region) (mem : Sparse 8) (g : Nat) : Region :=
  let (d, dv, cap, m) := r.clu
  let m' := min (m + g) cap
  let r := { r with kind := .clu d dv cap m' }
  if m' = m then r
  else r.recomputeBlocks mem ((List.range ((m' - 1) / 16 - m / 16 + 1)).map fun i => m / 16 + i)

/-- The build of CLU.OPEN for the rows present (R322). -/
def Region.buildClu (r : Region) (mem : Sparse 8) : Region :=
  let m := r.clu.2.2.2
  r.recomputeBlocks mem (List.range (ceilDiv m 16))

/-- Shadow bytes of a cluster region (R308). -/
def cluShadow (d dv cap : Nat) : Nat := 4 * cluStride d dv * cluNodes cap

/-- Every record as bytes (R308). -/
def Region.cluShadowBytes (r : Region) : List Byte :=
  (List.range (cluShadow r.clu.1 r.clu.2.1 r.clu.2.2.1 / 4)).flatMap fun w => w32Bytes (readKey r.recs w)

/-- The norm of a query under RNE (R108). -/
def normOf (q : List W32) : W32 := sqrtWord .rne (q.foldl (addSquare .rne) 0#32)

/-- The opening test of a record and the count threshold (R108, R314). -/
def Region.passes (r : Region) (node : Nat) (theta : W32) (distance : Bool) (mincount : W32) (q : List W32)
    (norm : W32) : Bool :=
  let spread := f32.decode false (r.recWord node 1).toNat
  let th := f32.decode false theta.toNat
  let le (a b : Val) : Bool := !a.isNan && !b.isNan && !(b.lt a)
  let test :=
    if distance then
      let diffs := (q.zip (r.recWords node 4 r.clu.1)).map fun e =>
        word (f32.sum .rne false [f32.decode false e.1.toNat, (f32.decode false e.2.toNat).negate]).1
      let dist := f32.decode false (normOf diffs).toNat
      le spread (f32.decode false (f32.mul .rne false th dist).1)
    else
      let lhs := f32.decode false (f32.mul .rne false (f32.decode false norm.toNat) spread).1
      le lhs th
  !((r.recWord node 2).getLsbD 5) && test && decide (mincount.toNat ≤ (r.recWord node 0).toNat)

end Sys2Proof.Machine
end

