-- ==== Sys2Proof/Machine/Mem.lean ====
section
/-!
DEFINITION. Global memory: the address map and the page walk (R233 to R240), homes, L1 and the S treatment
(R241 to R246), the place of performance of an access (R250, R264, R265), release, acquire and promotion
(R267, R268, R272), the writes that reach a region's tree (R245, R291, R310), and instruction fetch (R57, R60).
-/

namespace Sys2Proof.Machine

/-! ## The physical address map -/

/-- What a physical address holds (Table 10.1). -/
inductive Rng where
  | device
  | host
  | peer (p : Nat)
deriving DecidableEq, Repr

/-- Bytes of device memory (Table 10.1). -/
def deviceBytes : Part → Nat
  | .lx960 => 0x6000000000
  | .lx940 => 0x3000000000

/-- The range of a physical address, when it lies in one (Table 10.1). -/
def rangeOf (part : Part) (pa : Nat) : Option Rng :=
  if pa < deviceBytes part then some .device
  else if 0x4000000000000 ≤ pa ∧ pa < 0x8000000000000 then some .host
  else if 0x8000000000000 ≤ pa ∧ pa < 0x10000000000000 then some (.peer ((pa - 0x8000000000000) / 2 ^ 45))
  else none

/-- A peer has no route through a port that is up (R402). -/
def Device.cut (d : Device) (p : Nat) : Bool :=
  !(d.routes.any fun e => e.1 == p && d.ports.any fun x => x.index == e.2 && x.up)

/-- The treatments a range allows (Table 10.1). -/
def treatAllowed (r : Rng) (t : Treat) : Bool :=
  match r, t with
  | .device, _ => true
  | .host, .d => false
  | .host, _ => true
  | .peer _, .u => true
  | .peer _, _ => false

/-- The treatment a CT field names (Table 10.3). -/
def treatOf (e : W64) : Option Treat :=
  match (e.extractLsb' 8 2).toNat with
  | 1 => some .d
  | 2 => some .s
  | 3 => some .u
  | _ => none

/-! ## Lines held at a cache -/

/-- Bits [o, o + n) of a line's mask. -/
def lineMask (o n : Nat) : BitVec 64 := BitVec.ofNat 64 ((2 ^ n - 1) * 2 ^ o)

/-- The line of a number among some lines. -/
def lineIn (ls : List Line) (n : Nat) : Option Line := ls.find? fun x => x.line == n

/-- Bytes [o, o + n) of a list. -/
def sliceBytes (xs : List Byte) (o n : Nat) : List Byte := (xs.drop o).take n

/-- Bytes put into a list from place o. -/
def putBytes (xs : List Byte) (o : Nat) (ys : List Byte) : List Byte := xs.take o ++ ys ++ xs.drop (o + ys.length)

/-- A line that holds nothing. -/
def emptyLine (n : Nat) : Line := { line := n, data := List.replicate 64 0#8, valid := 0#64, dirty := 0#64 }

/-- Dirty bytes put into a line from offset o. -/
def Line.store (x : Line) (o : Nat) (ys : List Byte) : Line :=
  { x with data := putBytes x.data o ys, valid := x.valid ||| lineMask o ys.length,
           dirty := x.dirty ||| lineMask o ys.length }

/-- A line among some lines replaced, or added. -/
def putLine (ls : List Line) (x : Line) : List Line :=
  if ls.any (fun y => y.line == x.line) then updateFirst (fun y => y.line == x.line) (fun _ => x) ls else ls ++ [x]

/-! ## Reads and writes at home, at the host or at a peer -/

/-- One byte at the place where accesses of a treatment are performed: S host bytes stand at the home slice. -/
def State.homeByte (s : State) (t : Treat) (pa : Nat) : Byte :=
  match t with
  | .s =>
    match lineIn s.ctx.l2host (pa / 64) with
    | some x => if x.valid.getLsbD (pa % 64) then x.data.getD (pa % 64) 0#8 else readKey s.mem pa
    | none => readKey s.mem pa
  | _ => readKey s.mem pa

/-- Bytes at the place of performance. -/
def State.homeRead (s : State) (t : Treat) (pa n : Nat) : List Byte :=
  (List.range n).map fun i => s.homeByte t (pa + i)

/-- The region whose leaf, key or value array holds a physical address. -/
def Region.holds (r : Region) (pa : Nat) : Bool :=
  (r.leaf.offset? pa).isSome || (r.value.offset? pa).isSome

def State.leafRegion (s : State) (pa : Nat) : Option Region := s.ctx.regions.find? fun r => r.holds pa

/-- The region whose leaf, key or value array has a byte in the line of a physical address: the line is homed at its slice
(R241, R285). -/
def State.lineRegion (s : State) (pa : Nat) : Option Region := s.leafRegion (pa / 64 * 64)

/-- The region whose shadow holds a physical address (R284, R308). -/
def State.shadowRegion (s : State) (pa : Nat) : Option Region :=
  s.ctx.regions.find? fun r => (r.shadow.offset? pa).isSome

/-- An open region by its number. -/
def State.region (s : State) (num : Nat) : Option Region := s.ctx.regions.find? fun r => r.num == num

def State.updRegion (s : State) (num : Nat) (f : Region → Region) : State :=
  { s with ctx := { s.ctx with regions := updateFirst (fun r => r.num == num) f s.ctx.regions } }

/-- Rows or leaves of `width` bytes that `n` bytes from an offset touch, below `limit`. -/
def touched (off n width limit : Nat) : List Nat :=
  if width = 0 then []
  else ((List.range (n + 1)).map fun i => off / width + i).filter fun x =>
    decide (x * width < off + n) && decide (x < limit)

/-- The tree after a write of `n` bytes at `pa`, as plain stores (R291, R310): a path recompute for each leaf,
or for each row, in ascending order. -/
def Region.written (r : Region) (mem : Sparse 8) (pa n : Nat) : Region :=
  match r.kind with
  | .agg _ count =>
    match r.leaf.offset? pa with
    | some o => (touched o n 4 count).foldl (fun r i => r.recomputePath mem i) r
    | none => r
  | .clu d dv _ m =>
    let rows := (match r.leaf.offset? pa with | some o => touched o n (4 * d) m | none => [])
      ++ (match r.value.offset? pa with | some o => touched o n (4 * dv) m | none => [])
    rows.foldl (fun r i => r.recomputeBlocks mem [i / 16]) r

/-- How many updates a write of `n` bytes at `pa` makes: one for each leaf, or for each row (R297, R312). -/
def Region.updateCount (r : Region) (pa n : Nat) : Nat :=
  match r.kind with
  | .agg _ count => (match r.leaf.offset? pa with | some o => touched o n 4 count | none => []).length
  | .clu d dv _ m =>
    ((match r.leaf.offset? pa with | some o => touched o n (4 * d) m | none => [])
      ++ (match r.value.offset? pa with | some o => touched o n (4 * dv) m | none => [])).length
def State.updateCount (s : State) (pa n : Nat) : Nat := ((s.leafRegion pa).map fun r => r.updateCount pa n).getD 0

/-- The page of a physical address holds code that the context has fetched or may fetch (R60). -/
def Context.isCode (c : Context) (pa : Nat) : Bool :=
  c.tlb.any fun k => k.entry.getLsbD 7 &&
    decide ((k.entry.extractLsb' 16 36).toNat / 2 ^ (if k.level = 2 then 14 else if k.level = 1 then 5 else 0)
      = pa / 65536 / 2 ^ (if k.level = 2 then 14 else if k.level = 1 then 5 else 0))

/-- A context runs on cores of the device: all of them but those that are away (R386). -/
def Context.runs (c : Context) (phys : Nat) : Bool := c.cores.contains phys && !(c.away.contains phys)
def Context.resident (c : Context) : Bool := c.live && c.cores.any c.runs

/-- A write of `n` bytes in an array of an open region of another context that runs on the device: its tree follows (R291, R310). -/
def State.tellOthers (s : State) (pa n : Nat) : State :=
  if s.swapped = [] then s
  else
    let tell (c : Context) : Context :=
      if c.resident then { c with regions := c.regions.map fun g => if g.holds pa then g.written s.mem pa n else g } else c
    { s with swapped := s.swapped.map tell }

/-- The words that `n` bytes from an address touch. -/
def wordsOf (pa n : Nat) : List Nat := if n = 0 then [] else (List.range ((pa + n - 1) / 4 - pa / 4 + 1)).map fun i => 4 * (pa / 4 + i)

/-- Every core may still fetch the old value of the words that a write to a code page changes, as the pages see them that it
changes them for: `views` holds true for S pages (R60). -/
def State.noteCode (s : State) (views : List Bool) (pa n : Nat) : State :=
  let old := views.flatMap fun v => (wordsOf pa n).map fun a => (a, v, bytesW32 (s.homeRead (if v then .s else .u) a 4), s.nextId)
  let note (c : Context) : Context :=
    if c.isCode pa then { c with coreSts := c.coreSts.map fun x => { x with oldCode := x.oldCode ++ old } } else c
  { s with ctx := note s.ctx, swapped := s.swapped.map note }

/-- A page-table entry that an open region's translations rest on changes: its results are unspecified (R289), also when its
context is switched out meanwhile (R386). -/
def State.noteRemap (s : State) (pa : Nat) (ys : List Byte) : State :=
  let hit (g : Region) : Bool := g.slots.any fun a =>
    (mapFrom (fun i y => (pa + i, y)) 0 ys).any fun e => decide (a ≤ e.1) && decide (e.1 < a + 8) && readKey s.mem e.1 != e.2
  let note (c : Context) : Context :=
    if c.regions.any hit then
      { c with regions := c.regions.map fun g => if hit g then { g with remapped := true } else g }
    else c
  { s with ctx := note s.ctx, swapped := s.swapped.map note }

/-- Bytes written to memory, with no region's tree and no core's instructions told. -/
def State.memWrite (s : State) (pa : Nat) (ys : List Byte) : State :=
  let s := s.noteRemap pa ys
  { s with mem := writeBytes s.mem pa ys
           openMem := s.openMem.filter fun a => !(decide (pa ≤ a) && decide (a < pa + ys.length)) }

/-- Bytes written to memory, with no region's tree told. -/
def State.rawWrite (s : State) (pa : Nat) (ys : List Byte) : State := (s.noteCode [false, true] pa ys.length).memWrite pa ys

/-- Bytes of a host line that stand at its home slice are no longer unspecified, or no longer stand there. -/
def State.closeL2 (s : State) (pa n : Nat) : State :=
  { s with ctx := { s.ctx with openL2 := s.ctx.openL2.filter fun a => !(decide (pa ≤ a) && decide (a < pa + n)) } }

/-- A write at the host comes after the S bytes that the home slice holds of its place in coherence order: they are gone
(R264). -/
def State.supersede (s : State) (pa n : Nat) : State :=
  if (lineIn s.ctx.l2host (pa / 64)).isNone then s
  else
    let gone := ~~~(lineMask (pa % 64) n)
    let lines := s.ctx.l2host.map fun x =>
      if x.line = pa / 64 then { x with valid := x.valid &&& gone, dirty := x.dirty &&& gone } else x
    State.closeL2 { s with ctx := { s.ctx with l2host := lines.filter fun x => x.valid != 0#64 } } pa n

/-- Bytes of one line written at home, at the host or at a peer, as a plain store: an open region's tree follows. -/
def State.homeWrite (s : State) (t : Treat) (pa : Nat) (ys : List Byte) : State :=
  if t = .s ∧ rangeOf s.part pa = some .host then
    let s := (s.noteCode [true] pa ys.length).closeL2 pa ys.length
    let x := (lineIn s.ctx.l2host (pa / 64)).getD (emptyLine (pa / 64))
    { s with ctx := { s.ctx with l2host := putLine s.ctx.l2host (x.store (pa % 64) ys) } }
  else
    let s := ((s.rawWrite pa ys).supersede pa ys.length).tellOthers pa ys.length
    match s.leafRegion pa with
    | some r => s.updRegion r.num fun r => r.written s.mem pa ys.length
    | none => s

/-- The offsets of a mask, ascending. -/
def maskBits (m : BitVec 64) : List Nat := (List.range 64).filter fun i => m.getLsbD i

/-- The runs of consecutive offsets of an ascending list, as (first, length). -/
def runsOf : List Nat → List (Nat × Nat)
  | [] => []
  | o :: rest =>
    match runsOf rest with
    | (p, n) :: more => if p = o + 1 then (o, n + 1) :: more else (o, 1) :: (p, n) :: more
    | [] => [(o, 1)]

/-- The home slice of a region number (R241): its place among the slices in service. -/
def State.regionHome (s : State) (num : Nat) : Nat := s.ctx.slices.getD (73 * num % s.ctx.slices.length) 0

/-- The dirty bytes of a line performed at home, under their byte mask (R243). -/
def State.writeDirty (s : State) (x : Line) : State :=
  (runsOf (maskBits x.dirty)).foldl
    (fun s e => s.homeWrite .s (64 * x.line + e.1) (sliceBytes x.data e.1 e.2)) s

/-- A team, placed or saved. -/
def State.teamOr (s : State) (id : Nat) : Option Team :=
  match s.team? id with
  | some t => some t
  | none => (s.ctx.saved.find? fun x => x.team.id == id).map SavedTeam.team

/-- The updates that a write-back of a line makes are noted, as those of the line's last writer (R293). -/
def State.noteBack (s : State) (core : Nat) (x : Line) : State :=
  let hits := (runsOf (maskBits x.dirty)).filterMap fun e =>
    (s.leafRegion (64 * x.line + e.1)).bind fun g =>
      let n := g.updateCount (64 * x.line + e.1) e.2
      if n = 0 then none
      else x.writer.bind fun w => (s.teamOr w.1).map fun t =>
        { core := core, slice := s.regionHome g.num, count := n, launch := t.launch, cls := t.cls, team := t.idx, crew := w.2.1,
          units := w.2.2 }
  if hits = [] then s else { s with ctx := { s.ctx with backs := s.ctx.backs ++ hits } }

/-- The bytes of a host line that left its home slice reach the host; those that are unspecified stay so (R8). -/
def State.flushLine (s : State) (x : Line) : State :=
  let mine := s.ctx.openL2.filter fun a => a / 64 == x.line
  let s := (runsOf (maskBits x.dirty)).foldl (fun s e =>
    ((s.noteCode [false] (64 * x.line + e.1) e.2).memWrite (64 * x.line + e.1) (sliceBytes x.data e.1 e.2))) s
  { s with openMem := mine ++ s.openMem, ctx := { s.ctx with openL2 := s.ctx.openL2.filter fun a => a / 64 != x.line } }

/-- Dirty bytes of S host lines at the home slices reach the host (R244). -/
def State.flushHost (s : State) : State :=
  s.ctx.l2host.foldl State.flushLine { s with ctx := { s.ctx with l2host := [] } }

/-- S bytes of a host line at its home slice reach the host (R258). -/
def State.flushHostLine (s : State) (line : Nat) : State :=
  match lineIn s.ctx.l2host line with
  | none => s
  | some x => State.flushLine { s with ctx := { s.ctx with l2host := s.ctx.l2host.filter fun y => y.line != line } } x

/-! ## L1 and the S treatment -/

def State.setL1 (s : State) (core : Nat) (ls : List Line) : State := s.updCore core fun x => { x with l1 := ls }

/-- Those who have seen bytes of a host line at a core have seen them at its home slice (R262, R264). -/
def State.seenAtHome (s : State) (line : Nat) (seen : List (Nat × Nat × Nat)) : State :=
  if seen = [] then s
  else
    let add (x : Line) : Line := { x with seen := (x.seen ++ seen).eraseDups }
    { s with ctx := { s.ctx with l2host := updateFirst (fun x => x.line == line) add s.ctx.l2host } }

/-- The core writes back its dirty bytes of a line, and the line becomes clean (R243). -/
def State.cleanLine (s : State) (core line : Nat) : State :=
  match lineIn (s.coreSt core).l1 line with
  | none => s
  | some x =>
    (((s.noteBack core x).writeDirty x).seenAtHome line x.seen).updCore core fun c =>
      { c with l1 := putLine c.l1 { x with dirty := 0#64, seen := [] } }

/-- The core drops its copy of a line. -/
def State.dropLine (s : State) (core line : Nat) : State :=
  s.updCore core fun c => { c with l1 := c.l1.filter fun y => y.line != line }

/-- The core's clean bytes of a line leave its L1. -/
def State.dropClean (s : State) (core line : Nat) : State :=
  if (lineIn (s.coreSt core).l1 line).isNone then s
  else
    s.updCore core fun c =>
      let lines : List Line := c.l1.map fun y => if y.line = line then { y with valid := y.dirty } else y
      { c with l1 := lines.filter fun y => y.valid != 0#64 }

/-- The clean bytes of a line leave every L1; dirty bytes stay (R242, R288, R290). -/
def State.dropCopies (s : State) (line : Nat) : State :=
  { s with ctx := { s.ctx with coreSts := s.ctx.coreSts.map fun c =>
      let lines := c.l1.map fun y => if y.line = line then { y with valid := y.dirty } else y
      { c with l1 := lines.filter fun y => y.valid != 0#64 } } }

/-- A release of twin scope or wider by a core: dirty bytes go home, the signature clears (R243), and at system
scope host bytes go to the host (R244). -/
def State.releaseS (s : State) (core : Nat) (sys : Bool) : State :=
  let c := s.coreSt core
  let hit := c.l1.filter fun x => c.sig.contains x.line
  let s := hit.foldl (fun s x => s.cleanLine core x.line) s
  let s := s.updCore core fun c => { c with sig := [] }
  if sys then s.flushHost else s

/-- An acquire of twin scope or wider by a core: its clean S bytes are invalidated; dirty bytes stay (R243). -/
def State.acquireS (s : State) (core : Nat) : State :=
  s.updCore core fun c =>
    let lines : List Line := c.l1.map fun x => { x with valid := x.dirty }
    { c with l1 := lines.filter fun x => x.valid != 0#64 }

/-- A read of an S line through the core's L1, which fetches the bytes it does not hold (R265). -/
def State.l1Read (s : State) (core pa n : Nat) : State × List Byte :=
  let x := (lineIn (s.coreSt core).l1 (pa / 64)).getD (emptyLine (pa / 64))
  if x.valid &&& lineMask (pa % 64) n = lineMask (pa % 64) n then (s, sliceBytes x.data (pa % 64) n)
  else
    let data := (List.range 64).map fun i =>
      if x.valid.getLsbD i then x.data.getD i 0#8 else s.homeByte .s (64 * x.line + i)
    let x := { x with data := data, valid := lineMask 0 64 }
    (s.updCore core fun c => { c with l1 := putLine c.l1 x }, sliceBytes data (pa % 64) n)

/-- A write to an S line, kept dirty in the core's L1; its block joins the signature (R242, R243). -/
def State.l1Write (s : State) (core pa : Nat) (ys : List Byte) : State :=
  let x := (lineIn (s.coreSt core).l1 (pa / 64)).getD (emptyLine (pa / 64))
  s.updCore core fun c =>
    { c with l1 := putLine c.l1 (x.store (pa % 64) ys)
             sig := if c.sig.contains (pa / 64) then c.sig else c.sig ++ [pa / 64] }

/-- The dirty bytes that a core holds of a line are a crew's latest. -/
def State.signLine (s : State) (core line : Nat) (w : Nat × Nat × Nat) : State :=
  s.updCore core fun c => { c with l1 := c.l1.map fun y =>
    if y.line = line ∧ y.dirty ≠ 0#64 then { y with writer := some w } else y }

/-! ### Who has seen S bytes of host memory -/

/-- Bytes [o, o + n) of a line that a mask holds, as some threads have seen them: team and thread. -/
def Line.see (x : Line) (m : BitVec 64) (o n : Nat) (who : List (Nat × Nat)) : Line :=
  let here := (List.range n).filter fun i => m.getLsbD (o + i)
  { x with seen := (x.seen ++ here.flatMap fun i => who.map fun w => (o + i, w.1, w.2)).eraseDups }

/-- Threads have written or read bytes of host memory (R262, R264): what they saw at their core or at the home slice is
noted, for an access that goes to the host itself. -/
def State.noteSeen (s : State) (core pa n : Nat) (who : List (Nat × Nat)) : State :=
  if rangeOf s.part pa ≠ some .host then s
  else
    let s := s.updCore core fun c => { c with l1 := c.l1.map fun y => if y.line = pa / 64 then y.see y.dirty (pa % 64) n who else y }
    let see (y : Line) : Line := if y.line = pa / 64 then y.see y.valid (pa % 64) n who else y
    { s with ctx := { s.ctx with l2host := s.ctx.l2host.map see } }

/-- One byte at the place of performance as some threads read it: at the host they see no older value than they have seen at
the home slice (R262, R264). -/
def State.viewByte (s : State) (who : List (Nat × Nat)) (t : Treat) (pa : Nat) : Byte :=
  let mine (x : Line) : Bool := x.valid.getLsbD (pa % 64) && x.seen.any fun e => e.1 == pa % 64 && who.contains e.2
  match t, lineIn s.ctx.l2host (pa / 64) with
  | .u, some x => if mine x then x.data.getD (pa % 64) 0#8 else s.homeByte .u pa
  | t, _ => s.homeByte t pa

def State.viewRead (s : State) (who : List (Nat × Nat)) (t : Treat) (pa n : Nat) : List Byte :=
  (List.range n).map fun i => s.viewByte who t (pa + i)

/-! ## Translation -/

/-- What an access asks of a page (R237). -/
inductive Access where
  | fetch | load | store | atomic
deriving DecidableEq, Repr

/-- The outcome of a walk: no valid entry, a malformed entry, or a leaf with its level (R237). -/
inductive Walked where
  | xlate
  | prot
  | leaf (entry : W64) (level : Nat)
deriving DecidableEq, Repr

/-- A reserved bit of a page-table entry is set (Table 10.3). -/
def pteReserved (e : W64) : Bool :=
  e.extractLsb' 52 12 != 0#12 || e.extractLsb' 10 6 != 0#6 || e.getLsbD 4 || e.extractLsb' 1 2 != 0#2

/-- The physical page field of an entry, as an address. -/
def ptePage (e : W64) : Nat := (e.extractLsb' 16 36).toNat * 65536

/-- Bytes a leaf of a level maps, and the address bits that index a level (Table 10.2). -/
def leafBytes : Nat → Nat
  | 0 => 2 ^ 16 | 1 => 2 ^ 21 | 2 => 2 ^ 30 | _ => 2 ^ 39

def levelIndex (va : Nat) : Nat → Nat
  | 0 => va / 2 ^ 16 % 32 | 1 => va / 2 ^ 21 % 512 | 2 => va / 2 ^ 30 % 512 | _ => va / 2 ^ 39 % 8192

/-- A leaf of a level is well formed for an address: its low page bits are 0, its treatment suits its range (R237). -/
def leafOk (part : Part) (e : W64) (level va : Nat) : Bool :=
  decide (level ≤ 2) && decide (ptePage e % leafBytes level = 0) &&
    match rangeOf part (ptePage e + va % leafBytes level), treatOf e with
    | some r, some t => treatAllowed r t
    | _, _ => false

/-- The walk from a table of a level down (R235, R237). -/
def State.walkFrom (s : State) (va : Nat) : Nat → Nat → Walked
  | level, table =>
    let slot := table + 8 * levelIndex va level
    if (rangeOf s.part slot).isNone then .prot
    else
      let e := bytesW64 (readBytes s.mem slot 8)
      if !(e.getLsbD 0) then .xlate
      else if pteReserved e then .prot
      else if e.getLsbD 3 then (if leafOk s.part e level va then .leaf e level else .prot)
      else if e.extractLsb' 8 2 != 0#2 then .prot
      else match level with
        | 0 => .prot
        | l + 1 => State.walkFrom s va l (ptePage e)

/-- A whole walk of the context's page table. -/
def State.walk (s : State) (va : Nat) : Walked := s.walkFrom va 3 s.ctx.ptRoot

/-- The permission bits of a leaf allow an access (R237). -/
def permits (e : W64) : Access → Bool
  | .fetch => e.getLsbD 7
  | .load => e.getLsbD 5
  | .store => e.getLsbD 6
  | .atomic => e.getLsbD 5 && e.getLsbD 6

/-- A translation, or the cause it raises. -/
inductive Xlat where
  | fail (c : Cause)
  | ok (pa : Nat) (t : Treat)
deriving DecidableEq, Repr

/-- A leaf applied to an address and an access. -/
def Walked.apply (w : Walked) (va : Nat) (a : Option Access) : Xlat :=
  match w with
  | .xlate => .fail .xlate
  | .prot => .fail .prot
  | .leaf e level =>
    match treatOf e with
    | none => .fail .prot
    | some t =>
      if (match a with | none => true | some a => permits e a) then .ok (ptePage e + va % leafBytes level) t
      else .fail .prot

/-- The entry a device uses for a page: one it kept, or the one a walk finds now (R240). -/
def State.entryFor (s : State) (va : Nat) : State × Walked :=
  let now := s.walk va
  let kept := (s.ctx.tlb.filter fun k => k.page == va / 65536).map fun k => Walked.leaf k.entry k.level
  let options := (if kept.contains now then kept else kept ++ [now]).eraseDups
  match options with
  | [w] => (s, w)
  | _ => (s.bump 1, options.getD ((Config.freeWord s.fresh).toNat % options.length) now)

/-- A leaf the device has walked may be kept (R240). -/
def State.keep (s : State) (va : Nat) (w : Walked) : State :=
  match w with
  | .leaf e level =>
    let k : Kept := { page := va / 65536, entry := e, level := level }
    if s.ctx.tlb.contains k then s else { s with ctx := { s.ctx with tlb := s.ctx.tlb ++ [k] } }
  | _ => s

/-- A page that faults is reported once (R239). -/
def State.reportPage (s : State) (va : Nat) : State :=
  let p := va / 65536
  if s.ctx.reported.contains p then s else { s with ctx := { s.ctx with reported := s.ctx.reported ++ [p] } }

/-- A virtual address translated for an access, or for none of them (R237, R254, R258). -/
def State.translate (s : State) (va : Nat) (a : Option Access) : State × Xlat :=
  let (s, w) := s.entryFor va
  let s := s.keep va w
  match w, a with
  | .xlate, some _ => (s.reportPage va, .fail .xlate)
  | w, a => (s, w.apply va a)

/-- A 64-bit address is canonical (R233). -/
def canonical (x : W64) : Bool := x == (x.setWidth 52).signExtend 64

/-- The checks of a global access of one lane (R238), but for ECC, which a load meets with its data. -/
def State.checkAccess (s : State) (x : W64) (size : Nat) (a : Access) : State × Xlat :=
  if !(canonical x) then (s, .fail .prot)
  else if x.toNat % size ≠ 0 then (s, .fail .align)
  else
    match s.translate (x.toNat % 2 ^ 52) (some a) with
    | (s, .fail c) => (s, .fail c)
    | (s, .ok pa t) =>
      match rangeOf s.part pa with
      | some (.peer p) => if s.dev.cut p then (s, .fail .remote) else (s, .ok pa t)
      | _ => (s, .ok pa t)

/-! ## Instruction fetch -/

/-- A word that a core fetches: its value now, or an old value the core may still hold (R60). -/
def State.fetchWordAt (s : State) (core : Nat) (t : Treat) (pa : Nat) : State × W32 :=
  let now := bytesW32 (s.homeRead t pa 4)
  let old := ((s.coreSt core).oldCode.filter fun e => e.1 == pa && e.2.1 == (t == .s)).map fun e => e.2.2.1
  match old with
  | [] => (s, now)
  | _ => (s.bump 1, (now :: old).getD ((Config.freeWord s.fresh).toNat % (old.length + 1)) now)

/-- A word fetched at a program counter, or the cause the fetch raises (R57). -/
def State.fetchWord (s : State) (core : Nat) (pc : Addr) : State × (Cause ⊕ W32) :=
  match s.translate pc.toNat (some .fetch) with
  | (s, .fail c) => (s, .inl c)
  | (s, .ok pa t) => let (s, w) := s.fetchWordAt core t pa; (s, .inr w)

/-! ## Scopes -/

/-- The scope an instruction acts at: 0 is device scope for global accesses (R252, R260). -/
def globalScope : Scope → Scope
  | .dflt => .dev
  | x => x

/-! ## Performing one access -/

/-- Remote-scope promotion: every core of the instance writes back as a release and drops the line (R272). -/
def State.promote (s : State) (core : Nat) (scope : Scope) (line : Option Nat) : State :=
  (s.instanceCores core scope).foldl (fun s c =>
    let s := s.releaseS c (scope == .sys)
    match line with
    | some l => s.dropLine c l
    | none => s) s

/-- A program load from an open region's shadow returns unspecified bytes (R284). -/
def State.shadowRead (s : State) (n : Nat) : State × List Byte :=
  (s.bump n, (List.range n).map fun i => Config.freeByte (s.fresh + i))

/-- Bytes of a line with the dirty S bytes that a core holds of it in their places (R265, item 1). -/
def State.ownDirty (s : State) (core pa : Nat) (ys : List Byte) : List Byte :=
  match lineIn (s.coreSt core).l1 (pa / 64) with
  | none => ys
  | some x => mapFrom (fun i y => if x.dirty.getLsbD (pa % 64 + i) then x.data.getD (pa % 64 + i) 0#8 else y) 0 ys

/-- A read of `n` bytes within a line by some threads of a core (R245, R265, R284). `direct` reads at the place of performance,
once the core has written its own dirty bytes of the line back (R268). A D copy in L1 holds what its home holds (R265), so a
load of a D page reads there; past it no older clean S copy of the line is left (R264). -/
def State.coreRead (s : State) (core : Nat) (who : List (Nat × Nat)) (t : Treat) (pa n : Nat) (direct : Bool) : State × List Byte :=
  if (s.shadowRegion pa).isSome then s.shadowRead n
  else if (s.leafRegion pa).isSome then
    let s := s.cleanLine core (pa / 64)
    (s, s.homeRead t pa n)
  else if direct then
    let s := (s.cleanLine core (pa / 64)).dropLine core (pa / 64)
    (s, s.viewRead who t pa n)
  else if t = .s then s.l1Read core pa n
  else (s.dropClean core (pa / 64), s.ownDirty core pa (s.viewRead who t pa n))

/-- A write of bytes within a line by a core (R242, R245, R262, R284). `direct` writes at the place of performance, after the
core's own S bytes of the line. -/
def State.coreWrite (s : State) (core : Nat) (t : Treat) (pa : Nat) (ys : List Byte) (direct : Bool) : State :=
  if t = .s && !direct && (s.leafRegion pa).isNone && (s.shadowRegion pa).isNone then s.l1Write core pa ys
  else ((s.cleanLine core (pa / 64)).dropLine core (pa / 64)).homeWrite t pa ys

/-- The line has an uncorrectable error (R255, R394). -/
def State.badAt (s : State) (pa : Nat) : Bool := s.dev.badLines.contains (pa / 64)

/-- The new value of an atomic operation (Tables 8.5, 10.8), of `n` bits. -/
def atomNew (code n : Nat) (o v : Nat) : Nat :=
  match code with
  | 0 => v
  | 1 => (o + v) % 2 ^ n
  | 2 => o &&& v
  | 3 => o ||| v
  | 4 => o ^^^ v
  | 5 => if signedOf n o ≤ signedOf n v then o else v
  | 6 => if signedOf n o ≤ signedOf n v then v else o
  | 7 => if o ≤ v then o else v
  | 8 => if o ≤ v then v else o
  | 9 => (addF32 (word o) (word v)).toNat
  | 10 => (minF32 (word o) (word v)).toNat
  | _ => (maxF32 (word o) (word v)).toNat

/-- A delta is due for an operation on a leaf of this aggregate kind (Table 12.2). -/
def deltaKind (code size kind : Nat) : Bool := size == 4 && ((code == 9 && kind == 0) || (code == 1 && kind == 3))

/-- An atomic's write to memory at home, at the host or at a peer: a leaf may take a delta (R291). -/
def State.atomWrite (s : State) (t : Treat) (pa : Nat) (code : Nat) (operand : Nat) (ys : List Byte) : State :=
  match s.leafRegion pa with
  | some r =>
    match r.kind, r.leaf.offset? pa with
    | .agg kind n, some o =>
      if deltaKind code ys.length kind && decide (o / 4 < n) then
        ((s.rawWrite pa ys).tellOthers pa ys.length).updRegion r.num fun r => r.delta (o / 4) (word operand)
      else s.homeWrite t pa ys
    | _, _ => s.homeWrite t pa ys
  | none => s.homeWrite t pa ys

/-- An atomic is performed on the core's own L1 copy (Table 10.6). -/
def inL1 (t : Treat) (scope : Scope) : Bool := t = .s && !(scopeWide scope)

/-- An atomic performed at its place: the state after it and the old bytes. `f` gives the new value, if it writes. `direct`
keeps it out of L1 (R290). An open region's shadow gives an unspecified value (R284). -/
def State.atomAt (s : State) (core : Nat) (who : List (Nat × Nat)) (t : Treat) (scope : Scope) (direct : Bool) (pa size : Nat) (code operand : Nat)
    (f : Nat → Option Nat) : State × List Byte :=
  if inL1 t scope && !direct && (s.leafRegion pa).isNone && (s.shadowRegion pa).isNone then
    let (s, old) := s.l1Read core pa size
    match f (bytesNat old) with
    | some x => (s.l1Write core pa (natBytes x size), old)
    | none => (s, old)
  else
    let s := (s.cleanLine core (pa / 64)).dropLine core (pa / 64)
    let t' : Treat := if scope == .sys && rangeOf s.part pa == some .host then .u else t
    let (s, old) := if (s.shadowRegion pa).isSome then s.shadowRead size else (s, s.viewRead who t' pa size)
    match f (bytesNat old) with
    | some x => (s.atomWrite t' pa code operand (natBytes x size), old)
    | none => (s, old)

end Sys2Proof.Machine
end

