-- ==== Sys2Proof/Machine/Request.lean ====
section
/-!
DEFINITION. Global requests in flight (R249): issue with the per-lane checks (R238), the order in which they
may be performed (R262, R263, R267 to R269, R276), causes raised when data returns (R255) and the contact sheet (R396,
R397).
-/

namespace Sys2Proof.Machine

/-! ## Launches of teams -/

def State.launch? (s : State) (id : Nat) : Option Launch := s.ctx.launches.find? fun x => x.id == id

/-! ## Contact sheets -/

/-- The address of the contact sheet. -/
def State.sheetBase (s : State) : Nat := (s.dev.cshi ++ s.dev.cslo).toNat

/-- Bytes of one line at a virtual address read or written by the device itself, with no permission check; a page
with no translation is passed over. -/
def State.sysRead (s : State) (va n : Nat) : State × List Byte :=
  match s.translate (va % 2 ^ 52) none with
  | (s, .ok pa t) => (s, s.homeRead t pa n)
  | (s, .fail _) => (s, List.replicate n 0#8)

def State.sysWrite (s : State) (va : Nat) (ys : List Byte) : State :=
  match s.translate (va % 2 ^ 52) none with
  | (s, .ok pa t) => s.homeWrite t pa ys
  | (s, .fail _) => s

/-- Bytes of any length at a virtual address, line by line. -/
def State.sysReadAll (s : State) : Nat → Nat → Nat → State × List Byte
  | 0, _, _ => (s, [])
  | fuel + 1, va, n =>
    if n = 0 then (s, [])
    else
      let k := min n (64 - va % 64)
      let (s, xs) := s.sysRead va k
      let (s, ys) := s.sysReadAll fuel (va + k) (n - k)
      (s, xs ++ ys)

def State.sysWriteAll (s : State) : Nat → Nat → List Byte → State
  | 0, _, _ => s
  | fuel + 1, va, ys =>
    if ys = [] then s
    else
      let k := min ys.length (64 - va % 64)
      (s.sysWrite va (ys.take k)).sysWriteAll fuel (va + k) (ys.drop k)

/-- An entry of a contact sheet (Table 17.3). -/
structure SheetEntry where
  kind : Nat
  slice : Nat
  crew : Nat
  team : Nat
  value : W64
deriving DecidableEq, Repr

/-- An entry as its 16 bytes (Table 17.3). -/
def SheetEntry.bytes (e : SheetEntry) : List Byte :=
  natBytes e.kind 1 ++ natBytes e.slice 1 ++ natBytes e.crew 2 ++ natBytes e.team 4 ++ w64Bytes e.value

/-- An entry read from its 16 bytes. -/
def SheetEntry.ofBytes (b : List Byte) : SheetEntry :=
  { kind := bytesNat (sliceBytes b 0 1), slice := bytesNat (sliceBytes b 1 1), crew := bytesNat (sliceBytes b 2 2),
    team := bytesNat (sliceBytes b 4 4), value := bytesW64 (sliceBytes b 8 8) }

/-- A recording launch adds an entry; a sheet that is full sets TRUNC and stops recording (R397). -/
def State.record (s : State) (launch : Nat) (e : SheetEntry) : State :=
  match s.launch? launch with
  | some x =>
    if x.recording ∧ !s.dev.csTrunc then
      if s.dev.cssize.toNat < s.dev.csused.toNat + 16 then
        ({ s with dev := { s.dev with csTrunc := true } }).updLaunch launch fun y => { y with recording := false }
      else
        let s := s.sysWrite (s.sheetBase + s.dev.csused.toNat) e.bytes
        { s with dev := { s.dev with csused := s.dev.csused + 16#32 } }
    else s
  | none => s

/-- The sheet's entries from index i, up to the first that is no entry or lies past the sheet (log 31). -/
def State.sheetFrom (s : State) : Nat → Nat → List (Nat × SheetEntry)
  | 0, _ => []
  | fuel + 1, i =>
    if s.dev.cssize.toNat < 64 + 16 * (i + 1) then []
    else
      let e := SheetEntry.ofBytes (s.sysRead (s.sheetBase + 64 + 16 * i) 16).2
      if e.kind = 0 ∨ 3 < e.kind then [] else (i, e) :: s.sheetFrom fuel (i + 1)

/-- Entries of the sheet that replay has not consumed. -/
def State.sheetLeft (s : State) : List (Nat × SheetEntry) :=
  (s.sheetFrom (s.dev.cssize.toNat / 16) 0).filter fun e => !(s.dev.csTaken.contains e.1)

/-- Replay consumes an entry. -/
def State.consume (s : State) (i : Nat) : State :=
  { s with dev := { s.dev with csTaken := s.dev.csTaken ++ [i], csused := s.dev.csused + 16#32 } }

/-- An access of a replaying launch matches no recorded entry: DIVERGE, and the launch ends with 0x06 (R397). -/
def State.diverge (s : State) (launch : Nat) : State :=
  ({ s with dev := { s.dev with csDiverge := true } }).endAllTeams launch 6#32

/-- A value a crew reads from a clock or a budget: recorded, or replaced by the recorded one (R397, KIND 1). -/
def State.timedRead (s : State) (v : W64) : State × W64 :=
  let t := s.team
  match s.launch? t.launch with
  | none => (s, v)
  | some x =>
    if x.replaying then
      match s.sheetLeft.find? fun e => e.2.kind == 1 && e.2.crew == s.cur.crew && e.2.team == t.idx with
      | some e => (s.consume e.1, e.2.value)
      | none => (s.diverge t.launch, v)
    else (s.record t.launch { kind := 1, slice := 0, crew := s.cur.crew, team := t.idx, value := v }, v)

/-! ## Issue -/

/-- A request of the unit being issued, before its own fields are set. -/
def State.newReq (s : State) (l : Nat) (kind : ReqKind) : Req :=
  let c := s.crew
  { id := s.nextId, unit := s.nextId, team := s.cur.team, crew := s.cur.crew, core := c.core, lane := l,
    thread := if l < 32 then some (c.lane l).tid else none
    tids := if l < 32 then [] else (lanesOf c.live).map fun x => (c.lane x).tid
    handler := if l < 32 then (c.lane l).inHandler else (lanesOf s.cur.run).any fun x => (c.lane x).inHandler
    kind := kind, pc := s.cur.pc, words := s.cur.words,
    run := if l < 32 then 1#32 <<< l else s.cur.run, units := c.units }

/-- A unit's requests and the lanes with a cause, with the request that none of them makes, while its lanes are checked in
ascending order. -/
structure Issuing where
  s : State
  reqs : List Req := []
  parks : List (Nat × Cause × W64) := []
  failed : List Req := []

/-- The trap address of an access: sign-extended from bit 51 (Table 16.3). -/
def accessAddr (x : W64) : W64 := (x.setWidth 52).signExtend 64

/-- A 16-byte access as its two 8-byte halves, any other as it is (R234). Both keep the address of the access (R375). -/
def Req.halves (r : Req) : List Req :=
  if r.size = 16 then
    [{ r with size := 8, data := r.data.take 8, regs := r.regs / 2 },
     { r with size := 8, data := r.data.drop 8, regs := r.regs / 2, pa := r.pa + 8, dest := r.dest + r.regs / 2 }]
  else [r]

/-- A request that a cause found at its issue has failed: it is nowhere, and only its lane is left of it (R370). -/
def Req.stillborn (r : Req) (c : Cause) (va : W64) : Req :=
  { r with failed := some c, va := va, pa := 2 ^ 60, size := 0, regs := 0, acq := false, rel := false, remote := false }

/-- One lane's access checked (R238): it parks, or it makes a request. -/
def Issuing.lane (x : Issuing) (size : Nat) (acc : Access) (addr : Nat → W64) (mk : Nat → Req → Req) (l : Nat) :
    Issuing :=
  match x.s.checkAccess (addr l) size acc with
  | (s, .fail c) =>
    { x with s := s, parks := x.parks ++ [(l, c, accessAddr (addr l))],
             failed := x.failed ++ [(mk l (s.newReq l .store)).stillborn c (accessAddr (addr l))] }
  | (s, .ok pa t) =>
    let r := mk l { s.newReq l .store with pa := pa, va := addr l, size := size, treat := t }
    { x with s := s, reqs := x.reqs ++ mapFrom (fun i q => { q with id := s.nextId + x.reqs.length + i }) 0 r.halves }

/-- A request to a peer takes the device's next command number (R401). -/
def State.toPeer (s : State) (r : Req) : Bool :=
  !r.kind.near && decide (0 < r.size) && match rangeOf s.part r.pa with | some (.peer _) => true | _ => false

/-- Command numbers for requests to peers, from one on. -/
def State.numbered (s : State) : W32 → List Req → List Req
  | _, [] => []
  | n, r :: rs =>
    if s.toPeer r then { r with number := some n } :: s.numbered (n + 1#32) rs else r :: s.numbered n rs

/-- Requests join the outstanding ones; those to a leaf or a row of an open region are so marked (R290), and those to a peer
carry command numbers (R401). -/
def State.addReqs (s : State) (rs : List Req) : State :=
  { s with nextId := s.nextId + rs.length + 1
           dev := { s.dev with nextNumber := s.dev.nextNumber + word (rs.filter s.toPeer).length }
           ctx := { s.ctx with reqs := s.ctx.reqs ++ (s.numbered s.dev.nextNumber rs).map fun r =>
             { r with leaf := !r.kind.near && decide (0 < r.size) && (s.leafRegion r.pa).isSome } } }

/-- Lanes park with their own causes and addresses. -/
def State.parkEach (s : State) (ps : List (Nat × Cause × W64)) : State :=
  ps.foldl (fun s p => s.updCrew fun c => c.park (1#32 <<< p.1) p.2.1 s.cur.pc fun _ => p.2.2) s

/-- Lanes with a cause wait for the other lanes of their unit, which may meet one too when their data returns: the lanes that a
unit parks park at one moment (R370). -/
def State.parkLater (s : State) (lanes : List Nat) (failed : List Req) : State :=
  let more := mapFrom (fun i (r : Req) => { r with id := s.nextId + i }) 0 failed
  let s := { s with nextId := s.nextId + failed.length, ctx := { s.ctx with reqs := s.ctx.reqs ++ more } }
  s.updCrew fun c => c.wait (maskOf fun l => lanes.contains l) .unit

/-- Bytes that requests move to or from host or peer memory (Table 15.6). -/
def State.outerBytes (s : State) (rs : List Req) : Nat :=
  ((rs.filter fun r => rangeOf s.part r.pa != some .device).map Req.size).foldl (· + ·) 0

/-- The most entries that the commands and the page walks of a core hold together (R249). How many they hold at one moment is a
free value (log 93). -/
def engineEntries : Nat := 512

/-- What a unit that wants some requests waits for, if anything: free entries, or an exposure count (R249, R362). -/
def State.issueWait (s : State) (rs : List Req) : Option Wait :=
  let core := s.crew.core
  let cls := s.team.cls
  let n := (rs.map fun r => if r.size = 0 then 2 ^ 52 + r.id else r.pa / 64).eraseDups.length
  let held := s.entriesHeld core + n
  if 1024 < held + engineEntries ∧ 1024 < held + min engineEntries (Config.freeWord s.fresh).toNat then some (.room n)
  else if rs ≠ [] && s.expoSpent core cls 4 then some (.expo 4)
  else if decide (0 < s.outerBytes rs) && s.expoSpent core cls 3 then some (.expo 3)
  else none

/-- A lane-set memory unit: the active lanes are checked in ascending order, those with a cause park, and the
others' requests join the outstanding ones, once the core has room for all of them. -/
def State.issueLanes (s : State) (act : W32) (size : Nat) (acc : Access) (addr : Nat → W64) (mk : Nat → Req → Req) :
    State :=
  let x := (lanesOf act).foldl (fun x l => Issuing.lane x size acc addr mk l) { s := s }
  match s.issueWait x.reqs with
  | some w => s.stallRoom w
  | none =>
    let s' := (x.s.addReqs x.reqs).spend s.crew.core s.team.cls 3 (s.outerBytes x.reqs)
    if x.reqs = [] then (s'.parkEach x.parks).done false else (s'.parkLater (x.parks.map Prod.fst) x.failed).done false

/-! ## The order of performance -/

/-- The request is a store, an atomic or a reduction. -/
def ReqKind.writes : ReqKind → Bool
  | .store | .atom _ | .cas | .red _ => true
  | _ => false

/-- The request is an update, of a leaf or a row when it reaches one, or a refresh or a grow (Table 11.2, R312). -/
def ReqKind.updates (k : ReqKind) : Bool := k.writes || (match k with | .cluGrow _ | .aggRefresh => true | _ => false)

/-- The region a request concerns, if it is open or named by the request. -/
def State.reqRegion (s : State) (r : Req) : Option Nat :=
  match r.kind with
  | .range .. | .node .. | .aggInfo _ | .aggRefresh | .aggClose | .cluGrow _ | .cluClose => some r.region
  | .bitmapOr => none
  | k => if k.near then none else (s.leafRegion r.pa).map Region.num

/-- Two requests belong to one thread; a uniform unit's request belongs with every thread of
its crew, also once a REGROUP has moved one (R256, R262). -/
def sameThread (a b : Req) : Bool :=
  a.team == b.team &&
    match a.thread, b.thread with
    | some x, some y => x == y
    | some x, none => a.crew == b.crew || b.tids.contains x
    | none, some y => a.crew == b.crew || a.tids.contains y
    | none, none => a.crew == b.crew

/-- Two requests touch a common byte of memory, of their team's scratchpad, or of the accumulators of their core. -/
def overlap (a b : Req) : Bool :=
  a.kind.spad == b.kind.spad && a.kind.accum == b.kind.accum &&
    (!a.kind.near || (a.team == b.team && (a.kind.spad || a.core == b.core))) &&
    decide (a.pa < b.pa + b.size) && decide (b.pa < a.pa + a.size)

/-- Two requests come from one crew. -/
def sameCrew (a b : Req) : Bool := a.team == b.team && a.crew == b.crew

/-- A release of a team on two cores at core scope does not order toward the other core's crews (R199). -/
def State.coreOnly (s : State) (r : Req) : Bool := r.scope == .core && ((s.team? r.team).map Team.twin).getD false

/-- The order of scratchpad and accumulator accesses: those of a crew, or of a thread, to one byte keep their issue order
(R197, R231, R262); an acquire of the scratchpad comes before the crew's later scratchpad accesses, and a release after
its earlier ones, unless its scope is the crew (R199). -/
def State.precedesNear (s : State) (a b : Req) : Bool :=
  (sameCrew a b || sameThread a b) && overlap a b ||
    (sameCrew a b && a.kind.spad && b.kind.spad &&
      ((a.acq && a.scope != .crew) || (b.rel && b.scope != .crew && !(s.coreOnly b))))

/-- An earlier global request must be performed before a later one: one location in program order (R262), lanes of one unit
at one location (R253), nothing of a thread before an earlier acquire (R268), a release after everything of its
thread that counts at its scope (R267, Table 11.2), and region requests of a core to one home slice (R276). The halves of one
16-byte access keep no order (R234). -/
def State.precedesFar (s : State) (a b : Req) : Bool :=
  let ra := s.reqRegion a
  let rb := s.reqRegion b
  (sameThread a b && a.unit != b.unit && (overlap a b || a.acq || (b.rel && !(a.passable && scopeNarrow b.scope)) ||
      (ra.isSome && ra == rb)))
    || (a.unit == b.unit && overlap a b)
    || (a.core == b.core &&
      match ra, rb with
      | some x, some y => s.regionHome x == s.regionHome y
      | _, _ => false)

/-- An earlier request must be performed before a later one. A global acquire comes before every later access of its
thread, and a global release of narrow scope after every earlier one (R267, R268, Table 11.2). -/
def State.precedes (s : State) (a b : Req) : Bool :=
  match a.kind.near, b.kind.near with
  | true, true => s.precedesNear a b
  | false, true => sameThread a b && a.acq
  | true, false => sameThread a b && b.rel && scopeNarrow b.scope
  | false, false => s.precedesFar a b

/-- Updates that releases have passed and that a request must find tree-performed (R271, R272). -/
def State.behindPassed (s : State) (b : Req) : Bool :=
  !b.kind.near && s.ctx.reqs.any fun a => !(decide (b.id ≤ a.id) && (a.id == b.id || s.precedes b a)) &&
    ((b.rel && s.chained b.core b.scope a) || (b.acq && b.remote && s.promotes b.core b.scope a))

/-- An acquire of the scratchpad waits for the accesses that a release of core scope at its place has passed (R199). -/
def State.owes (s : State) (r : Req) : Bool :=
  r.kind.spad && r.acq && r.scope != .crew &&
    match s.team? r.team with
    | some t => t.owed.any fun o => o.core == r.core && decide (o.off < r.pa + r.size) && decide (r.pa < o.off + o.size) &&
        s.anyReq o.reqs
    | none => false

/-- An open or a LAUNCH of the request's crew has issued before it and has not done its release yet (R288, R365). -/
def State.behindCmd (s : State) (r : Req) : Bool :=
  s.ctx.cmds.any fun x => x.team == r.team && x.crew == r.crew && decide (x.id < r.id) && !x.started &&
    (x.kind == .aggOpen || x.kind == .cluOpen || x.kind == .launch)

/-- A FENCE of the request's crew has issued before it and has not ended (R257, R269): it holds every global access, and with an
acquire every access. -/
def State.fenced (s : State) (r : Req) : Bool :=
  match s.team? r.team with
  | none => false
  | some t =>
    (((t.crews.getD r.crew Crew.missing).lanes).any fun x =>
      match x.st with
      | .waiting (.fence _ upto _ _ acq _) => decide (upto ≤ r.id) && (acq || !r.kind.near)
      | .waiting (.depset _ upto _) => decide (upto ≤ r.id) && !r.kind.near
      | _ => false) || (!r.kind.near && s.behindCmd r)

/-- A request's team and, for a leaf update, its exposure (R362): a class whose count is spent sends no update. -/
def State.classOf (s : State) (team : Nat) : Nat := ((s.team? team).map Team.cls).getD 0

/-- The peer that holds a physical address. -/
def State.peerOf (s : State) (pa : Nat) : Option Nat := match rangeOf s.part pa with | some (.peer p) => some p | _ => none

/-- The physical home slice of a line of device or host memory; peer memory has none here (R241). -/
def State.lineHome (s : State) (pa : Nat) : Option Nat :=
  if (s.peerOf pa).isSome then none
  else
    let l := pa / 64
    let h := (l % 2 ^ 16) ^^^ (l / 2 ^ 16 % 2 ^ 16) ^^^ (l / 2 ^ 32 % 2 ^ 14)
    some (s.ctx.slices.getD (h % s.ctx.slices.length) 0)

/-- An atomic or a reduction is performed at the core and not at a home (R250, Table 10.6). -/
def State.atCore (s : State) (r : Req) : Bool := inL1 r.treat r.scope && !r.leaf && (s.leafRegion r.pa).isNone

/-- The request is one of those a contact sheet orders at its home (R397, KIND 2). -/
def State.sheetOrdered (s : State) (r : Req) : Bool :=
  match r.kind with
  | .atom _ | .cas | .red _ => !(s.atCore r) && (s.peerOf r.pa).isNone
  | .range .. | .node .. => true
  | .store => (s.reqRegion r).isSome
  | .load _ => r.acq && scopeWide r.scope && r.scope != .twin && (s.peerOf r.pa).isNone
  | _ => false

/-- The home slice a request is performed at, if it has one; a line of an open region's array is homed with it (R241, R285). -/
def State.reqHome (s : State) (r : Req) : Option Nat :=
  match s.reqRegion r with
  | some n => some (s.regionHome n)
  | none => match s.lineRegion r.pa with
    | some g => some (s.regionHome g.num)
    | none => s.lineHome r.pa

/-- The sheet entry of a request (Table 17.3). -/
def State.reqEntry (s : State) (r : Req) : SheetEntry :=
  { kind := 2, slice := (s.reqHome r).getD 0, crew := r.crew, team := ((s.team? r.team).map Team.idx).getD 0,
    value := BitVec.ofNat 64 r.units }

/-- The launch of a request. -/
def State.reqLaunch (s : State) (r : Req) : Nat := ((s.team? r.team).map Team.launch).getD 0

def State.replays (s : State) (launch : Nat) : Bool := ((s.launch? launch).map Launch.replaying).getD false

/-- The next recorded entry of the request's home slice, in replay (R397). -/
def State.nextAtHome (s : State) (r : Req) : Option (Nat × SheetEntry) :=
  s.sheetLeft.find? fun e => e.2.kind == 2 && some e.2.slice == s.reqHome r

/-- Replay holds a request at its home until it is next there; one that the sheet does not hold is not held. -/
def State.replayHeld (s : State) (r : Req) : Bool :=
  s.replays (s.reqLaunch r) && s.sheetOrdered r &&
    match s.nextAtHome r with
    | some e => e.2 != s.reqEntry r && s.sheetLeft.any fun e => e.2 == s.reqEntry r
    | none => false

/-- The requests issued before one. -/
def earlier (r : Req) : List Req → List Req
  | [] => []
  | q :: qs => if q.id = r.id then [] else q :: earlier r qs

/-- How many of some requests are commands to a peer without a response (R401). -/
def State.owedBy (s : State) (p : Nat) (rs : List Req) : Nat :=
  (rs.filter fun q => !q.kind.near && decide (0 < q.size) && q.failed.isNone && s.peerOf q.pa == some p).length

/-- The device's source has sent a request to a peer: fewer than 4,096 commands that it sent there before are without a
response (R401). -/
def State.sent (s : State) (r : Req) : Bool :=
  if r.kind.near || r.size == 0 then true
  else match s.peerOf r.pa with
    | none => true
    | some p => decide (s.owedBy p (earlier r s.ctx.reqs) < 4096)

/-- An address in a peer to which the source may send no further command (R401). -/
def State.peerFull (s : State) (pa : Nat) : Bool :=
  match s.peerOf pa with
  | none => false
  | some p => decide (4096 ≤ s.owedBy p s.ctx.reqs)

/-- An earlier request that is not performed keeps one behind it. One half of a load that is bound, or an access that has
failed, keeps none; but a release stays behind a failed access of its thread until that one's lane has parked (R267). -/
def State.blocks (s : State) (q r : Req) : Bool :=
  q.bound.isNone && s.precedes q r && (q.failed.isNone || (r.rel && sameThread q r))

/-- A release by another crew at the place of an acquire that later accesses of its own crew have passed already comes after
that acquire (R199). -/
def State.behindJump (s : State) (r : Req) : Bool :=
  r.kind.spad && r.rel && r.scope != .crew &&
    s.ctx.reqs.any fun q => q.jumped && q.core == r.core && !(sameCrew q r) && overlap q r

/-- A request may be performed now, when it need not follow the earlier ones that `passes` names. -/
def State.readyPast (s : State) (passes : Req → Bool) (r : Req) : Bool :=
  r.failed.isNone && r.bound.isNone && !((earlier r s.ctx.reqs).any fun q => s.blocks q r && !(passes q)) && !(s.fenced r) &&
    !(s.owes r) && !(s.behindPassed r) && !(s.behindJump r) && !(s.replayHeld r) && s.sent r &&
    !((s.reqRegion r).isSome && r.kind.updates && !r.passed && s.expoSpent r.core (s.classOf r.team) 2)

/-- A later scratchpad access of a crew may pass an acquire of core scope in a team on two cores, which orders nothing toward
the other core's crews, as long as that acquire could be performed now (R199). -/
def State.jumps (s : State) (r q : Req) : Bool :=
  s.coreOnly q && q.acq && q.kind.spad && r.kind.spad && !(s.precedesNear { q with acq := false } r) &&
    s.readyPast (fun _ => false) q

/-- A request may be performed now. -/
def State.reqReady (s : State) (r : Req) : Bool := s.readyPast (s.jumps r) r

/-! ### On the way to a region's home slice -/

/-- Two region requests of one core go to one home slice. -/
def State.samePath (s : State) (q r : Req) : Bool :=
  q.core == r.core &&
    match s.reqRegion q, s.reqRegion r with
    | some x, some y => s.regionHome x == s.regionHome y
    | _, _ => false

/-- A region request may leave its core: what it must follow is performed, or is ahead of it on the path (R276, Table 11.2). -/
def State.mayLeave (s : State) (r : Req) : Bool :=
  r.failed.isNone && !r.onWay && (s.reqRegion r).isSome && !(s.fenced r) &&
    !(r.kind.updates && s.expoSpent r.core (s.classOf r.team) 2) &&
    (earlier r s.ctx.reqs).all fun q =>
      !(s.blocks q r) || (q.onWay && s.samePath q r && !r.rel && !(q.acq && sameThread q r))

/-- The region requests that may leave their cores do. -/
def State.noteSent (s : State) : State :=
  s.ctx.reqs.foldl (fun s q =>
    match s.ctx.reqs.find? fun r => r.id == q.id with
    | some r =>
      if s.mayLeave r then
        { s with ctx := { s.ctx with reqs := updateFirst (fun x => x.id == r.id) (fun x => { x with onWay := true }) s.ctx.reqs } }
      else s
    | none => s) s

/-- Region requests of a core are outstanding to the home slice of a region: what an engine of the core sends there comes after
them (R276). -/
def State.pathBusy (s : State) (core region : Nat) : Bool :=
  s.ctx.reqs.any fun r => r.core == core && r.failed.isNone &&
    match s.reqRegion r with | some n => s.regionHome n == s.regionHome region | none => false

/-- A request by its number. -/
def State.req? (s : State) (id : Nat) : Option Req := s.ctx.reqs.find? fun r => r.id == id

/-- The entry of a request is freed (R249). -/
def State.freeReq (s : State) (r : Req) : State :=
  { s with ctx := { s.ctx with reqs := s.ctx.reqs.filter fun q => q.id != r.id } }

/-- One position in a home slice's order is recorded, or consumed in replay (R397). -/
def State.sheetOne (s : State) (launch : Nat) (x : SheetEntry) : State :=
  if s.replays launch then
    match s.sheetLeft.find? fun e => e.2.kind == 2 && e.2.slice == x.slice with
    | some e => if e.2 = x then s.consume e.1 else s.diverge launch
    | none => s.diverge launch
  else s.record launch x

/-- The sheet entry of one update that a write-back has made (R293): the line's last writer stands for it. -/
def WriteBack.entry (x : WriteBack) : SheetEntry :=
  { kind := 2, slice := x.slice, crew := x.crew, team := x.team, value := BitVec.ofNat 64 x.units }

/-- The updates of one write-back are charged to the class of the line's last writer and entered in the sheet. -/
def State.chargeBack (s : State) (x : WriteBack) : State :=
  (List.range x.count).foldl (fun s' _ => s'.sheetOne x.launch x.entry) (s.spend x.core x.cls 2 x.count)

/-- The updates that write-backs made in the last step. -/
def State.chargeBacks (s : State) : State :=
  if s.ctx.backs = [] then s
  else s.ctx.backs.foldl State.chargeBack { s with ctx := { s.ctx with backs := [] } }

/-- Replay holds an update that a write-back makes at its home until it is next there (R397); one that the sheet does not hold
is not held. -/
def State.backWaits (s : State) (x : WriteBack) : Bool :=
  s.replays x.launch && (s.sheetLeft.any fun f => f.2 == x.entry) &&
    match s.sheetLeft.find? fun f => f.2.kind == 2 && f.2.slice == x.slice with | some f => f.2 != x.entry | none => false

/-- One of the updates that write-backs have just made is not next at its home in its turn: what makes them does not happen
yet (R397). -/
def State.backsHeld (s : State) : Bool :=
  ((s.ctx.backs.flatMap fun x => List.replicate x.count { x with count := 1 }).foldl
    (fun (acc : State × Bool) x => if acc.2 then acc else (acc.1.chargeBack x, acc.1.backWaits x)) (s, false)).2

/-- Entries of a request at its home: a store has one for each leaf or row that it updates (R291, R397). -/
def State.sheetCount (s : State) (r : Req) : Nat :=
  match r.kind with
  | .store => s.updateCount r.pa r.size
  | _ => 1

/-- The positions of a request that is performed in its home slice's order are recorded, or consumed in replay, after those of
the write-backs that it has made (R397). -/
def State.sheetAt (s : State) (r : Req) : State :=
  if !(s.sheetOrdered r) then s
  else
    (List.range (s.sheetCount r)).foldl (fun s' _ => s'.sheetOne (s.reqLaunch r) (s.reqEntry r))
      (if s.backsHeld then s else s.chargeBacks)

/-- An L2 miss spends one unit; whether a request of a core and class to device memory misses is not stated, so it is a free
choice where the count is limited (R362). -/
def State.missOf (s : State) (core cls : Nat) : State :=
  if s.allowance cls 4 = 0xFFFFFFFF#32 then s
  else
    let miss := Config.freeBool s.fresh
    let s := s.bump 1
    if miss then s.spend core cls 4 1 else s

/-- An access that a core's L1 serves or takes (R242, R265, Table 10.6). -/
def State.servedByL1 (s : State) (r : Req) : Bool :=
  let held : Bool := match lineIn (s.coreSt r.core).l1 (r.pa / 64) with
    | some x => x.valid &&& lineMask (r.pa % 64) r.size == lineMask (r.pa % 64) r.size
    | none => false
  r.treat == .s && !r.leaf && (s.leafRegion r.pa).isNone &&
    match r.kind with
    | .load _ => held && !(r.acq && scopeWide r.scope)
    | .store => !(r.rel && scopeWide r.scope)
    | _ => held && !(scopeWide r.scope)

/-- A request reaches a home slice, where it may miss: device lines and S lines of the host have one (Table 10.4). -/
def State.missable (s : State) (r : Req) : Bool :=
  !(s.servedByL1 r) && match rangeOf s.part r.pa with | some .device => true | some .host => r.treat == .s | _ => false

def State.chargeMiss (s : State) (r : Req) : State := if s.missable r then s.missOf r.core (s.classOf r.team) else s

/-! ## Causes raised when data returns -/

/-- A request fails with a cause that only its data shows: its lane will park (R255, R290, R302, R402). -/
def State.failReq (s : State) (r : Req) (cause : Cause) : State :=
  { s with ctx := { s.ctx with reqs := updateFirst (fun q => q.id == r.id) (fun q => { q with failed := some cause }) s.ctx.reqs } }

/-- The lower of two causes, where there is one (R369). -/
def lowerCause (a b : Option Cause) : Option Cause :=
  match a, b with
  | some x, some y => some (if x.code < y.code then x else y)
  | some x, none => some x
  | none, y => y

/-- The lanes of one unit that issued earlier park together (R255, R370): lanes that still run, wait or are held go back
to it. An exited or parked lane is left as it is, and so is one that runs the handler, which counts as parked (R374), unless the
unit is the handler run's (log 22); only such a unit's cause ends the team. A lane whose page Maelner has refused meanwhile has
its cause delivered at once (R371). -/
def State.parkUnit (s : State) (r : Req) (rs : List Req) : State :=
  match s.team? r.team with
  | none => s
  | some t =>
    let c := t.crews.getD r.crew Crew.missing
    let rs := rs.filter fun q => q.failed.isSome && (q.lane == 32 || q.thread == some (c.lane q.lane).tid)
    let open_ := c.lanesWhere fun x => x.st != .parked && x.st != .exited && x.inHandler == r.handler
    let m := open_ &&& rs.foldl (fun m q => m ||| q.run) 0#32
    let c := rs.foldl (fun c q => c.park (q.run &&& open_) (q.failed.getD .ecc) q.pc fun _ => q.va) c
    let told := m &&& (rs.filter Req.denied).foldl (fun m q => m ||| q.run) 0#32
    let c := (c.queueParked m r.words (r.lane == 32)).delivered told
    let bad := if r.handler then lowerCause (c.handlerTrap m) (if told = 0#32 then none else some .xlate) else none
    let s := s.updCrewOf r.team r.crew fun _ => c.settle
    let s := if c.settle.lanes.any fun x => x.st = .runnable then s else s.swapOutOf r.team r.crew
    match bad with
    | some cause => s.endTeam r.team (trapWord cause t.idx)
    | none => s

/-- A request of a unit whose every request is back, one of them failed. -/
def State.failedUnit (s : State) : Option Req :=
  s.ctx.reqs.find? fun r => r.failed.isSome && !(s.ctx.reqs.any fun q => q.unit == r.unit && q.failed.isNone)

/-- The units with failed requests whose every request is back park their lanes (R370). -/
def State.parkFailed (s : State) : Nat → State
  | 0 => s
  | n + 1 =>
    match s.failedUnit with
    | none => s
    | some r =>
      let rs := s.ctx.reqs.filter fun q => q.unit == r.unit
      let s := { s with ctx := { s.ctx with reqs := s.ctx.reqs.filter fun q => q.unit != r.unit } }
      State.parkFailed (s.parkUnit r rs) n

/-! ## Destinations -/

/-- A value of `n` registers written to a request's destination; the results of a lane that has exited are discarded, also
when a REGROUP has put another thread into its place (R113). -/
def Crew.deliver (c : Crew) (r : Req) (bytes : List Byte) : Crew :=
  if r.lane < 32 ∧ !((c.lane r.lane).live && r.thread == some (c.lane r.lane).tid) then c
  else if r.lane = 32 then c.setK r.dest (bytesW32 (bytes.take 4))
  else (List.range r.regs).foldl (fun c i => c.setV (r.dest + i) r.lane (bytesW32 (sliceBytes bytes (4 * i) 4))) c

def State.deliver (s : State) (r : Req) (bytes : List Byte) : State :=
  s.updCrewOf r.team r.crew fun c => c.deliver r bytes

/-- Loaded data extended to whole registers (R253). -/
def extendLoad (sx : Bool) (size : Nat) (bytes : List Byte) : List Byte :=
  if size ≤ 4 then
    w32Bytes (if sx then sext32 (8 * size) (bytesNat bytes) else word (bytesNat bytes))
  else bytes

/-! ## Performing loads, stores and atomics -/

/-- The cores of the instance first act for a remote acquire (R272). -/
def State.promoteFor (s : State) (r : Req) : State :=
  if r.remote && scopeWide r.scope then s.promote r.core r.scope (some (r.pa / 64)) else s

/-- The threads of a request, with their team. -/
def Req.who (r : Req) : List (Nat × Nat) :=
  (match r.thread with | some x => [x] | none => r.tids).map fun x => (r.team, x)

/-- The other half of a 16-byte load, while it is out or bound (R234). -/
def State.half (s : State) (r : Req) : Option Req :=
  s.ctx.reqs.find? fun q => q.unit == r.unit && q.lane == r.lane && q.id != r.id

def State.updReq (s : State) (id : Nat) (f : Req → Req) : State :=
  { s with ctx := { s.ctx with reqs := updateFirst (fun q => q.id == id) f s.ctx.reqs } }

/-- The data of a load is back. With an uncorrectable error the lane will park, and it writes no destination: the data of the
other half of a 16-byte load is kept until both are back (R255). -/
def State.loaded (s : State) (r : Req) (bytes : List Byte) : State :=
  if s.badAt r.pa then
    let s := s.failReq r .ecc
    match s.half r with
    | some q => if q.bound.isSome then s.freeReq q else s
    | none => s
  else
    match s.half r with
    | none => (s.freeReq r).deliver r bytes
    | some q =>
      match q.bound with
      | some ys => (((s.freeReq r).freeReq q).deliver q ys).deliver r bytes
      | none => if q.failed.isSome then s.freeReq r else s.updReq r.id fun x => { x with bound := some bytes }

/-- A load is performed: its value is bound, and an acquire of twin scope or wider invalidates (R265, R268). -/
def State.performLoad (s : State) (r : Req) (sx : Bool) : State :=
  let wide := r.acq && scopeWide r.scope
  let s := (s.promoteFor r).chargeMiss r
  let (s, bytes) := s.coreRead r.core r.who r.treat r.pa r.size (wide || r.leaf)
  let s := s.noteSeen r.core r.pa r.size r.who
  let s := if wide then s.acquireS r.core else s
  s.loaded r (extendLoad sx r.size bytes)

/-- The updates on their way that a release of narrow scope counts as performed, among those that `p` names (Table 11.2). -/
def State.passUpdates (s : State) (p : Req → Bool) : State :=
  let f (r : Req) : Req := if p r && r.passable then { r with passed := true } else r
  { s with ctx := { s.ctx with reqs := s.ctx.reqs.map f } }

/-- A release first makes the core's dirty bytes performed at home (R267); one of narrow scope counts the updates that its
thread has sent as performed (Table 11.2). -/
def State.releaseFor (s : State) (r : Req) : State :=
  if !r.rel then s
  else
    let s := if scopeWide r.scope then s.releaseS r.core (r.scope == .sys) else s
    if scopeNarrow r.scope then s.passUpdates fun q => sameThread q r && decide (q.id < r.id) else s

/-- Leaf and row updates of a write of `n` bytes spend summary updates, each one (R297, R312, R362). -/
def State.chargeUpdates (s : State) (core cls pa n : Nat) : State :=
  let k := s.updateCount pa n
  if k = 0 then s else s.spend core cls 2 k

/-- A store is performed (R242, R264). A release store of wide scope is performed at home. -/
def State.performStore (s : State) (r : Req) : State :=
  let s := ((s.releaseFor r).chargeMiss r).chargeUpdates r.core (s.classOf r.team) r.pa r.size
  let s := s.coreWrite r.core r.treat r.pa r.data (r.leaf || (r.rel && scopeWide r.scope))
  let s := s.noteSeen r.core r.pa r.size r.who
  let s := s.signLine r.core (r.pa / 64) (r.team, r.crew, r.units)
  if r.rel && r.scope == .sys then s.flushHost else s

/-- An atomic or a reduction is performed at its place (R250); `f` is its new value. -/
def State.performAtom (s : State) (r : Req) (code operand : Nat) (f : Nat → Option Nat) (result : Bool) : State :=
  let s := ((s.promoteFor r).releaseFor r).chargeMiss r
  let n := s.updateCount r.pa r.size
  let (s, old) := s.atomAt r.core r.who r.treat r.scope r.leaf r.pa r.size code operand f
  let s := s.noteSeen r.core r.pa r.size r.who
  let s := if (f (bytesNat old)).isSome ∧ n ≠ 0 then s.spend r.core (s.classOf r.team) 2 n else s
  let s := s.signLine r.core (r.pa / 64) (r.team, r.crew, r.units)
  let s := if r.acq && scopeWide r.scope then s.acquireS r.core else s
  if result then s.deliver r old else s

/-- What a request to memory does at its place. -/
def State.performKind (s : State) (r : Req) : State :=
  match r.kind with
  | .load sx => s.performLoad r sx
  | .store => s.performStore r
  | .atom code =>
    s.performAtom r code.toNat (bytesNat r.data) (fun o => some (atomNew code.toNat (8 * r.size) o (bytesNat r.data))) true
  | .red code =>
    s.performAtom r code.toNat (bytesNat r.data) (fun o => some (atomNew code.toNat (8 * r.size) o (bytesNat r.data))) false
  | .cas =>
    s.performAtom r 0 0 (fun o => if o = bytesNat r.compare then some (bytesNat r.data) else none) true
  | _ => s

/-- A request to memory performed at its place: the entry is freed, and the sheet is told. -/
def State.performMem (s : State) (r : Req) : State :=
  ((match r.kind with | .load _ => s | _ => s.freeReq r).performKind r).sheetAt r

end Sys2Proof.Machine
end

