-- ==== Sys2Proof/Machine/Control.lean ====
section
/-!
DEFINITION. Control and crew instructions: branches and calls (R45, R50, R51, R133), JOIN and EXIT (R113, R124),
convergent instructions (R127), REGROUP (R129), barriers (R130, R131), special registers (R132, R351), YIELD and
SLEEP.
-/

namespace Sys2Proof.Machine

/-! ## Branches and calls -/

/-- NOP, and a budget word, which acts as one (R50). -/
def execNop (_imm : BitVec 16) (s : State) : Out := s.bareUnit {} fun s _ => .next (s.done false)

/-- The run's lanes move to PCs of their own, and the unit ends. -/
def State.jump (s : State) (target : Nat → Addr) (uniform : Bool) : State :=
  (s.updCrew fun c => c.updLanes s.cur.run fun l x => { x with pc := target l }).finish uniform

/-- BRA (R35, R133). -/
def execBra (m : BitVec 3) (inv : Bool) (off : BitVec 20) (s : State) : Out :=
  s.bareUnit {} fun s _ =>
    let taken := s.crew.mreg m.toNat ^^^ (if inv then 0xFFFFFFFF#32 else 0#32)
    .next (s.jump (fun l =>
      if taken.getLsbD l then s.cur.pc + 4#52 * off.signExtend 52 else pcAfter s.cur.pc 1) false)

/-- Checks of a target in a register pair, in their order (R59, R133). -/
def targetCause (x : W64) : Option Cause :=
  if x.toNat % 4 ≠ 0 then some .align else if !(canonical x) then some .prot else none

/-- Each lane jumps to the address in its pair, or parks (R133). -/
def State.indirect (s : State) (a : Src) : Out :=
  s.bareUnit (srcNames a 2) fun s act =>
    let c := s.crew
    let bad := (lanesOf act).filterMap fun l => (targetCause (c.srcPair a l)).map fun k => (l, k, c.srcPair a l)
    let good := act &&& maskOf fun l => (targetCause (c.srcPair a l)).isNone
    let s := s.updCrew fun c => c.updLanes good fun l x => { x with pc := (c.srcPair a l).setWidth 52 }
    .next ((s.parkEach bad).finish false)

/-- BRX (R133). -/
def execBrx (a : Src) (s : State) : Out := s.indirect a

/-- RET: the effect of BRX (R133). -/
def execRet (a : Src) (s : State) : Out := s.indirect a

/-- The link value of a call at the unit's address (R133). -/
def linkOf (pc : Addr) : W64 := (pcAfter pc 1).signExtend 64

/-- CALL (R133). -/
def execCall (off : BitVec 20) (s : State) : Out :=
  s.bareUnit (destNames 0#7 2) fun s act =>
    let s := s.updCrew fun c => (lanesOf act).foldl (fun c l => c.setVPair 0 l (linkOf s.cur.pc)) c
    .next (s.jump (fun _ => s.cur.pc + 4#52 * off.signExtend 52) false)

/-- A word is a budget word, with the v and k registers it needs (Table 2.13). -/
def budgetWord? (w : W32) : Option (Nat × Nat) :=
  if w.extractLsb' 16 16 == 0#16 && w.getLsbD 15 && w.extractLsb' 0 6 == 0#6 then
    some (8 * ((w.extractLsb' 11 4).toNat + 1), 16 * ((w.extractLsb' 6 5).toNat + 1))
  else none

/-- The checks of a CALLX target of one lane: ALIGN, PROT, the budget word's own fault, BUDGET (R51, R133). -/
def State.callCheck (s : State) (x : W64) : State × Option (Cause × W64) :=
  match targetCause x with
  | some k => (s, some (k, x))
  | none =>
    match s.fetchWord s.crew.core (x.setWidth 52 - 4#52) with
    | (s, .inl k) => (s, some (k, (x.setWidth 52 - 4#52).signExtend 64))
    | (s, .inr w) =>
      match budgetWord? w with
      | some (v, k) => (s, if v ≤ s.team.vBudget ∧ k ≤ s.team.kBudget then none else some (.budget, 0#64))
      | none => (s, some (.budget, 0#64))

/-- CALLX of one lane: it parks, or takes the link and its target. -/
def State.callLane (s : State) (d : BitVec 7) (a : Src) (l : Nat) : State :=
  let x := s.crew.srcPair a l
  match s.callCheck x with
  | (s, some (k, addr)) => s.parkEach [(l, k, addr)]
  | (s, none) =>
    s.updCrew fun c =>
      (c.setVPair d.toNat l (linkOf s.cur.pc)).updLanes (1#32 <<< l) fun _ y => { y with pc := x.setWidth 52 }

/-- CALLX (R51, R133). -/
def execCallx (d : BitVec 7) (a : Src) (s : State) : Out :=
  s.bareUnit ((srcNames a 2).add (destNames d 2)) fun s act =>
    .next (((lanesOf act).foldl (fun s l => s.callLane d a l) s).finish false)

/-- KBRA conditions (Table 2.10). -/
def braTaken (cc : BraCond) (x : W32) : Bool :=
  match cc with
  | .always => true
  | .zero => x == 0#32
  | .nonzero => x != 0#32
  | .neg => x.getLsbD 31

/-- KBRA (R45). -/
def execKbra (cc : BraCond) (a : BitVec 8) (off : BitVec 14) (s : State) : Out :=
  s.uniformUnit none { k := [a.toNat] } fun s =>
    if braTaken cc (s.crew.kreg a.toNat) then .next (s.jump (fun _ => s.cur.pc + 4#52 * off.signExtend 52) true)
    else .next (s.done true)

/-! ## Convergent instructions -/

/-- The value each member gets when a convergent unit is performed over its member set (R127, R133). -/
def convValue (c : Crew) (i : Instr) (m : W32) : Option (Nat × (Nat → W32)) :=
  let members := lanesOf m
  let votes (a : Src) : W32 := m &&& maskOf fun l => c.src a l != 0#32
  let fetch (a : Src) (l : Nat) (src : Option Nat) : W32 :=
    match src with
    | some x => if x < 32 ∧ m.getLsbD x then c.src a x else c.src a l
    | none => c.src a l
  match i with
  | .vote _ d a kind =>
    let ballot := votes a
    let x : W32 := match kind with
      | .any => if ballot ≠ 0#32 then 1#32 else 0#32
      | .all => if ballot = m then 1#32 else 0#32
      | .ballot => ballot
      | .count => word (popcount ballot)
    some (d.toNat, fun _ => x)
  | .shflIdx _ d a b => some (d.toNat, fun l => fetch a l (some ((c.src b l).toNat % 32)))
  | .shflUp _ d a b =>
    some (d.toNat, fun l => fetch a l (if l < (c.src b l).toNat then none else some (l - (c.src b l).toNat)))
  | .shflDn _ d a b => some (d.toNat, fun l => fetch a l (some (l + (c.src b l).toNat)))
  | .shflXor _ d a b => some (d.toNat, fun l => fetch a l (some (l ^^^ ((c.src b l).toNat % 32))))
  | .matchEq _ d a => some (d.toNat, fun l => m &&& maskOf fun x => c.src a x == c.src a l)
  | .compact _ incl d a =>
    some (d.toNat, fun l =>
      word ((members.filter fun x => c.src a x != 0#32 && decide (x < l ∨ (incl = true ∧ x = l))).length))
  | _ => none

/-- The k registers that a convergent unit reads (R133). -/
def convSources : Instr → List Nat
  | .vote _ _ a _ => (srcNames a 1).k
  | .shflIdx _ _ a b => ((srcNames a 1).add (srcNames b 1)).k
  | .shflUp _ _ a b => ((srcNames a 1).add (srcNames b 1)).k
  | .shflDn _ _ a b => ((srcNames a 1).add (srcNames b 1)).k
  | .shflXor _ _ a b => ((srcNames a 1).add (srcNames b 1)).k
  | .matchEq _ _ a => (srcNames a 1).k
  | .compact _ _ _ a => (srcNames a 1).k
  | _ => []

/-- Some k registers of a crew are no busy tokens, and no load will still write one (R118, R142). -/
def State.kReady (s : State) (team : Nat) (c : Crew) (regs : List Nat) : Bool :=
  regs.all (fun r => !(c.isBusy r)) && !(s.pendsK team c.idx regs)

/-- A convergent hold whose members are all held there is performed and releases them as one run (R127), once its k
sources are ready: `ready` says whether some k registers are (R118, R142). -/
def Crew.evalConvAt (ready : List Nat → Bool) (c : Crew) (h : Hold) : Crew :=
  match h.kind with
  | .conv unit words members =>
    let m := members &&& c.lanesWhere Lane.counts
    if m = 0#32 then { c with holds := c.holds.filter fun g => g.pc != h.pc }
    else if h.complete c && ready (convSources unit) then
      let c' := match convValue c unit m with
        | some (d, f) => c.setVLanes d f (lanesOf m)
        | none => c
      { c'.updLanes m (fun _ x => { x with st := .runnable, pc := pcAfter h.pc words }) with
        holds := c.holds.filter fun g => g.pc != h.pc }
    else c
  | .regroup d key _ =>
    let live := c.lanesWhere Lane.counts
    if live ≠ 0#32 ∧ live &&& c.heldAt h.pc &&& c.lanesWhere (fun x => !x.inHandler) = live then
      { c with holds := c.holds.map fun g => if g.pc = h.pc then { g with kind := .regroup d key true } else g }
    else c
  | .join .. => c

/-- Convergent waits and the arrival at a REGROUP, evaluated (R127, R129). -/
def Crew.evalConv (ready : List Nat → Bool) (c : Crew) : Crew := c.holds.foldl (Crew.evalConvAt ready) c

/-! ## REGROUP -/

/-- The regroup group of a crew: crews of its team with its core, partition and block of eight positions. The
crew's position in its partition is its local index div 4 (R110, R129). -/
def Team.position (t : Team) (i : Nat) : Nat :=
  let half := if t.twin then ceilDiv t.ncrews 2 else t.ncrews
  (if i < half then i else i - half) / 4

/-- Crew `i` and member bit of each crew of the group of crew `i`. -/
def Team.group (t : Team) (i : Nat) : List (Nat × Crew) :=
  let c := t.crews.getD i Crew.missing
  (t.crews.filter fun x => x.core == c.core && x.partn == c.partn && t.position x.idx / 8 == t.position i / 8).map
    fun x => (t.position x.idx % 8, x)

/-- The crew's arrived REGROUP. -/
def Crew.regroupHold (c : Crew) : Option (Hold × BitVec 7 × Src) :=
  c.holds.findSome? fun h => match h.kind with | .regroup d key true => some (h, d, key) | _ => none

/-- One thread in a regroup: its old crew and lane, its rank among threads of its key, and its register d. -/
structure Moved where
  crew : Crew
  lane : Nat
  rank : Nat
  d : Nat

/-- The live threads of the arrived crews, by key, then by member bit, then by lane, with their ranks (R133). The keys are read
at the deal, a uniform key too (log 39). -/
def regroupList (g : List Crew) : List Moved :=
  (List.range 16).flatMap fun key =>
    let same := g.flatMap fun c =>
      match c.regroupHold with
      | some (_, d, k) =>
        ((lanesOf (c.lanesWhere Lane.counts)).filter fun l => (c.src k l).toNat % 16 == key).map fun l => (c, l, d.toNat)
      | none => []
    mapFrom (fun i (e : Crew × Nat × Nat) => ({ crew := e.1, lane := e.2.1, rank := i, d := e.2.2 } : Moved)) 0 same

/-- The vector registers of a crew after threads move in: lane j takes those of `list[base + j]`. -/
def Crew.takeRegs (c : Crew) (vBudget : Nat) (into : List (Nat × Moved)) : Crew :=
  let kept := c.v.filter fun e => !(into.any fun x => x.1 == e.1 % 32)
  let moved := into.foldl (fun v x =>
    (List.range vBudget).foldl (fun v r => writeKey v (32 * r + x.1) (x.2.crew.vreg r x.2.lane)) v) kept
  { c with v := into.foldl (fun v x => writeKey v (32 * x.2.d + x.1) (word x.2.rank)) moved }

/-- The mask registers m1 to m7 after threads move in; bits of lane positions without a thread stay (log 91). -/
def Crew.takeMasks (c : Crew) (into : List (Nat × Moved)) : Crew :=
  (List.range 7).foldl (fun c' i =>
    c'.setM (i + 1) (maskOf fun j =>
      match into.find? fun x => x.1 == j with
      | some x => (x.2.crew.mreg (i + 1)).getLsbD x.2.lane
      | none => (c.mreg (i + 1)).getLsbD j)) c

/-- A crew after a regroup: it holds the threads dealt to it, as one run after its REGROUP (R133). The mark of a split region
moves with its thread (log 91). -/
def Crew.dealt (c : Crew) (vBudget : Nat) (into : List (Nat × Moved)) : Crew :=
  let pc := match c.regroupHold with | some (h, _, _) => pcAfter h.pc 1 | none => 0#52
  let lanes := (List.range 32).map fun j =>
    match into.find? fun x => x.1 == j with
    | some x =>
      let old := x.2.crew.lane x.2.lane
      { st := LaneSt.runnable, pc := pc, split := old.split, tid := old.tid : Lane }
    | none => { c.lane j with st := .exited }
  { (c.takeMasks into).takeRegs vBudget into with lanes := lanes, holds := [], last := 0#32, streak := 0, stall := none }

/-- The threads that crew number `i` of the arrived crews receives: 32 a crew, in list order. -/
def dealTo (list : List Moved) (i : Nat) : List (Nat × Moved) :=
  mapFrom (fun j x => (j, x)) 0 ((list.drop (32 * i)).take 32)

/-- REGROUP of the arrived crews of a group: they repack, or park with ILLEGAL when their masks differ (R133). -/
def Team.regroup (t : Team) (g : List Crew) : Team :=
  if g.all fun c => c.rgx == (g.headD Crew.missing).rgx then
    let list := regroupList g
    (mapFrom (fun i c => (i, c)) 0 g).foldl (fun t e => t.updCrew e.2.idx fun c =>
      c.dealt t.vBudget (dealTo list e.1)) t
  else
    g.foldl (fun t x => t.updCrew x.idx fun c =>
      let m := c.lanesWhere fun y => y.counts
      let pc := match c.regroupHold with | some (h, _, _) => h.pc | none => 0#52
      { (c.park m .illegal pc fun _ => 0#64).queueParked m 1 false with holds := [] }) t

/-- The k register that a crew's arrived REGROUP reads its keys from, if it does (R133). -/
def Crew.regroupSource (c : Crew) : List Nat :=
  match c.regroupHold with | some (_, _, key) => (srcNames key 1).k | none => []

/-- A crew's REGROUP wait is over (R133): every crew its mask names has arrived or retired. `ready` says whether the k register
of the keys of a crew may be read (R141, R142, log 39). -/
def Team.regroupReady (ready : Crew → List Nat → Bool) (t : Team) (c : Crew) : Bool :=
  c.regroupHold.isSome && (t.group c.idx).all fun e =>
    !(c.rgx.getLsbD e.1) || e.2.retired || (e.2.regroupHold.isSome && ready e.2 e.2.regroupSource)

/-- Every regroup of a team whose wait is over is performed, in crew order (R133). -/
def Team.regroups (ready : Crew → List Nat → Bool) (t : Team) : Nat → Team
  | 0 => t
  | n + 1 =>
    match t.crews.find? fun c => t.regroupReady ready c with
    | none => t
    | some c =>
      let g := ((t.group c.idx).filter fun e => c.rgx.getLsbD e.1 && e.2.regroupHold.isSome).map Prod.snd
      (t.regroup g).regroups ready n

/-- The convergent waits of a crew, and the regroups of its team, evaluated (R125). -/
def State.evalHoldsOf (s : State) (team crew : Nat) : State :=
  (s.updCrewOf team crew fun c => c.evalConv (s.kReady team c)).updTeamId team fun t => t.regroups (s.kReady t.id) t.crews.length

/-- The crew of the unit being issued, and the regroups of its team, evaluated (R125). -/
def State.evalHolds (s : State) : State :=
  s.evalHoldsOf s.cur.team s.cur.crew

/-- The hold at a PC, if it is open. -/
def Crew.holdAt (c : Crew) (pc : Addr) : Option Hold := c.holds.find? fun h => h.pc == pc

/-- Lanes held at a PC, with a hold of the kind given opened there if none is open. -/
def Crew.hold (c : Crew) (m : W32) (pc : Addr) (k : HoldKind) : Crew :=
  let c := c.updLanes m fun _ x => { x with st := .held }
  if (c.holdAt pc).isSome then c else { c with holds := c.holds ++ [⟨pc, k⟩] }

/-- A convergent unit (R127): the first run that issues it opens the wait, with a lane of it in the member set or not;
the lanes in the member set hold, the others move past it. -/
def State.convUnit (s : State) (p : Prefix) (i : Instr) (d : BitVec 7) (n : Names) : Out :=
  let members := match s.crew.holdAt s.cur.pc with
    | some ⟨_, .conv _ _ m⟩ => m
    | _ => s.crew.lanesWhere Lane.counts &&& (s.crew.mreg p.mask.toNat ^^^ (if p.inv then 0xFFFFFFFF#32 else 0#32))
  let hold (s : State) (m : W32) : State := s.updCrew fun c => c.hold m s.cur.pc (.conv i s.cur.words members)
  s.laneCourse (s.cur.run &&& members) p.zeroing (n.add (destNames d 1)) (zeroV d 1)
    (fun s => if members = 0#32 then s else hold s 0#32) fun s act => .next ((hold s act).evalHolds.done false)

/-- VOTE (R127, R133). -/
def execVote (p : Prefix) (d : BitVec 7) (a : Src) (kind : VoteKind) (s : State) : Out :=
  s.convUnit p (.vote p d a kind) d (srcNames a 1)

/-- SHFL.IDX (R133). -/
def execShflIdx (p : Prefix) (d : BitVec 7) (a b : Src) (s : State) : Out :=
  s.convUnit p (.shflIdx p d a b) d ((srcNames a 1).add (srcNames b 1))

/-- SHFL.UP (R133). -/
def execShflUp (p : Prefix) (d : BitVec 7) (a b : Src) (s : State) : Out :=
  s.convUnit p (.shflUp p d a b) d ((srcNames a 1).add (srcNames b 1))

/-- SHFL.DN (R133). -/
def execShflDn (p : Prefix) (d : BitVec 7) (a b : Src) (s : State) : Out :=
  s.convUnit p (.shflDn p d a b) d ((srcNames a 1).add (srcNames b 1))

/-- SHFL.XOR (R133). -/
def execShflXor (p : Prefix) (d : BitVec 7) (a b : Src) (s : State) : Out :=
  s.convUnit p (.shflXor p d a b) d ((srcNames a 1).add (srcNames b 1))

/-- MATCH (R133). -/
def execMatchEq (p : Prefix) (d : BitVec 7) (a : Src) (s : State) : Out :=
  s.convUnit p (.matchEq p d a) d (srcNames a 1)

/-- COMPACT (R133). -/
def execCompact (p : Prefix) (incl : Bool) (d : BitVec 7) (a : Src) (s : State) : Out :=
  s.convUnit p (.compact p incl d a) d (srcNames a 1)

/-! ## JOIN, EXIT, REGROUP, ELECT -/

/-- JOIN: an opening JOIN of a replay-class launch acts as a plain one (R123, R124, R126). -/
def execJoin (split : Bool) (s : State) : Out :=
  s.bareUnit {} fun s act =>
    .next ((s.updCrew fun c => c.hold act s.cur.pc (.join (split && !s.team.replay) 0#32)).finish false)

/-- The lanes of a mask exit; a handler lane leaves its episode, which ends with its last lane (log 23). -/
def Crew.exitLanes (c : Crew) (m : W32) : Crew :=
  let c := c.updLanes m fun _ x => { x with st := .exited, inHandler := false, removed := false }
  match c.episode with
  | none => c
  | some e =>
    let left := e.lanes &&& ~~~m
    if left = 0#32 then { c with episode := none } else { c with episode := some { e with lanes := left } }

/-- EXIT (R113, R133). -/
def execExit (s : State) : Out :=
  s.bareUnit {} fun s act =>
    let s := (s.updCrew fun c => c.exitLanes act).evalHolds
    let s := s.updCrew Crew.eretDue
    .next (s.finish false)

/-- A load of a lane of the run is outstanding, or another access that may still park the lane (R255). -/
def State.loadsOut (s : State) (m : W32) : Bool :=
  s.ctx.reqs.any fun r => r.team == s.cur.team && r.crew == s.cur.crew && decide (r.lane < 32) && m.getLsbD r.lane &&
    (r.regs != 0 || r.failed.isSome ||
      (!r.kind.near && decide (0 < r.size) && match rangeOf s.part r.pa with | some (.peer _) => true | _ => false))

/-- REGROUP: the run waits for its loads, since its threads' registers move (log 24), and then holds (R133). -/
def execRegroup (d : BitVec 7) (a : Src) (s : State) : Out :=
  s.bareUnit ((srcNames a 1).add (destNames d 1)) fun s act =>
    if s.loadsOut act then
      .next (if s.pendingV (List.range s.team.vBudget) act then s.stallCrew (List.range s.team.vBudget) act []
        else s.waitRun (.reqs ((s.ctx.reqs.filter fun r => r.team == s.cur.team && r.crew == s.cur.crew).map Req.id)))
    else
      let s := (s.updCrew fun c => c.hold act s.cur.pc (.regroup d a false)).evalHolds
      let s := if (s.crew.regroupHold).isSome then s.swapOut else s
      .next (s.finish false)

/-- ELECT (R133). -/
def execElect (p : Prefix) (d : BitVec 7) (s : State) : Out :=
  s.laneCrew p (destNames d 1) (zeroV d 1) fun c act =>
    c.setVLanes d.toNat (fun l => if l = lowestLane act then 1#32 else 0#32) (lanesOf act)

/-! ## Special registers -/

/-- The logical quad of a core, counted over the physical quads with four cores in service (R17). -/
def State.quadOf (s : State) (core : Nat) : Option Nat :=
  let whole (q : Nat) : Bool := (List.range 4).all fun i => s.ctx.cores.contains (4 * q + i)
  let q := s.ctx.cores.getD core 0 / 4
  if whole q then some ((List.range q).filter whole).length else none

/-- The index of a lane at a level of the level table (R351). -/
def State.levelIndexOf (s : State) (l n : Nat) : W32 :=
  let core := s.crew.core
  match s.team.levels[n]? with
  | none => 0#32
  | some (domain, _) =>
    match domain with
    | 0 => word l
    | 1 => word s.cur.crew
    | 2 => word core
    | 3 => if core < 2 * s.ctx.twins then word (core / 2) else 0xFFFFFFFF#32
    | 4 => match s.quadOf core with | some q => word q | none => 0xFFFFFFFF#32
    | 5 => word (s.dieOf core)
    | _ => 0#32

/-- A special register other than CLOCK, as lane l reads it (Table 5.4). -/
def State.specialReg (s : State) (n l : Nat) : W32 :=
  match n with
  | 0 => word (s.crew.lane l).tid
  | 1 => word l
  | 2 => word s.cur.crew
  | 3 => word s.team.idx
  | 10 => word s.crew.core
  | 11 => word (s.dieOf s.crew.core)
  | 12 => s.cur.run
  | 14 => s.levelIndexOf l 0
  | 15 => s.levelIndexOf l 1
  | n => s.levelIndexOf l (n - 2)

/-- SREG (R132). -/
def execSreg (p : Prefix) (d : BitVec 7) (n : BitVec 4) (s : State) : Out :=
  s.laneUnit p (destNames d 1) (zeroV d 1) fun s act =>
    let (s, clock) := if n = 13#4 then s.timedRead (0#32 ++ word s.ctx.clock) else (s, 0#64)
    .next ((s.updCrew fun c => c.setVLanes d.toNat
      (fun l => if n = 13#4 then clock.setWidth 32 else s.specialReg n.toNat l) (lanesOf act)).done false)

/-- KSREG (R132). -/
def execKsreg (d : BitVec 8) (n : BitVec 4) (s : State) : Out :=
  s.uniformUnit none { k := [d.toNat] } fun s =>
    let (s, clock) := if n = 13#4 then s.timedRead (0#32 ++ word s.ctx.clock) else (s, 0#64)
    .next ((s.updCrew fun c => c.setK d.toNat
      (if n = 13#4 then clock.setWidth 32 else s.specialReg n.toNat (lowestLane s.cur.run))).done true)

/-! ## Barriers -/

/-- Crews of a team that have not retired. -/
def Team.staying (t : Team) : Nat := (t.crews.filter fun c => !c.retired).length

/-- A barrier whose arrivals have reached its target completes its phase (R130). -/
def Barrier.check (b : Barrier) (staying : Nat) : Barrier :=
  match b.target with
  | none => b
  | some n => if (if n = 0 then staying else n) ≤ b.count then { phase := b.phase + 1, count := 0, target := none } else b

/-- One arrival with a count value (R130). -/
def Barrier.arrive (b : Barrier) (c staying : Nat) : Barrier :=
  ({ b with count := b.count + 1, target := match b.target with | none => some c | x => x }).check staying

/-- The latest arrival of a crew on a barrier, when no wait has used it (R130). -/
def Crew.arrival (c : Crew) (bar : Nat) : Option Nat := (c.arrivals.find? fun e => e.1 == bar).map Prod.snd

/-- The phase a wait of a crew names (R130). -/
def State.waitPhase (s : State) (bar : Nat) : Nat :=
  (s.crew.arrival bar).getD (s.team.bars.getD bar {}).phase

/-- A request belongs to a thread of the run. -/
def State.ofRun (s : State) (r : Req) : Bool :=
  let tids := (lanesOf s.cur.run).map fun l => (s.crew.lane l).tid
  r.team == s.cur.team && match r.thread with | some x => tids.contains x | none => r.crew == s.cur.crew

/-- The outstanding requests of the run's threads: what happens before an arrival or a commit of the run (R131, R345). -/
def State.runReqs (s : State) : List Nat := (s.ctx.reqs.filter s.ofRun).map Req.id

/-- The updates of the run's threads that are on their way count as performed at an arrival (R131, Table 11.2). -/
def State.arrivalPass (s : State) : State := s.passUpdates s.ofRun

/-- The crew's arrival on a barrier; it orders the changes of plates and windows that the crew has seen (R205, R215). -/
def State.arrive (s : State) (bar c : Nat) : State :=
  let phase := (s.team.bars.getD bar {}).phase
  (s.updTeam fun t => { t.markChanges s.cur.crew (.phase bar phase) with bars := updateAt (fun b => b.arrive c t.staying) bar t.bars }).updCrew fun x =>
    { x with arrivals := (bar, phase) :: x.arrivals.filter fun e => e.1 != bar }

/-- The wait on the crew's latest arrival has used it. -/
def State.useArrival (s : State) (bar : Nat) : State :=
  s.updCrew fun x => { x with arrivals := x.arrivals.filter fun e => e.1 != bar }

/-- A barrier of a twin team orders memory at twin scope: an arrival releases, the end of a wait acquires (R131, R269). -/
def State.barRelease (s : State) : State :=
  let s := s.arrivalPass
  if s.team.twin then s.releaseS s.crew.core false else s
def State.barAcquire (s : State) : State := if s.team.twin then s.acquireS s.crew.core else s

/-- What the crew of the unit sees once it has waited for a phase (R131, R205, R215). -/
def State.barSee (s : State) (bar phase : Nat) : State :=
  s.barAcquire.updCrew fun c => c.seeMarked fun m => m == .phase bar phase

/-- The arrival half of BAR.ARR and BAR.SYNC; `k` goes on after it. -/
def State.arriveUnit (s : State) (bar : BitVec 4) (b : BitVec 8) (k : State → Out) : Out :=
  s.uniformUnit none { k := [b.toNat] } fun s =>
    let n := (s.crew.kreg b.toNat).toNat
    if s.team.ncrews < n then .next (s.parkRun .illegal 0#64 true)
    else if !(s.settledReqs true s.runReqs) then .next (s.waitRun (.sent s.runReqs))
    else k (s.barRelease.arrive bar.toNat n)

/-- The wait half: the run waits for a phase, or goes on at once when it has completed; `wait` is its wait, for the phase and
whether it has used an arrival. -/
def State.waitUnit (s : State) (bar : Nat) (wait : Nat → Bool → Wait) : State :=
  let phase := s.waitPhase bar
  let used := (s.crew.arrival bar).isSome
  let s := s.useArrival bar
  if phase < (s.team.bars.getD bar {}).phase then (s.barSee bar phase).done true
  else s.waitRun (wait phase used)

/-- BAR.ARR (R130). -/
def execBarArr (bar : BitVec 4) (b : BitVec 8) (s : State) : Out :=
  s.arriveUnit bar b fun s => .next (s.done true)

/-- BAR.WAIT (R130). -/
def execBarWait (bar : BitVec 4) (s : State) : Out := 
  s.uniformUnit none {} fun s => .next (s.waitUnit bar.toNat (.barWait bar.toNat))

/-- BAR.SYNC: an arrival, then a wait on it (R130). -/
def execBarSync (bar : BitVec 4) (b : BitVec 8) (s : State) : Out :=
  s.arriveUnit bar b fun s => .next (s.waitUnit bar.toNat fun phase _ => .barrier bar.toNat phase)

/-! ## YIELD, RGX.SET, SLEEP -/

/-- YIELD: as if the streak had reached 64, and the crew may leave the active set (R116, R133). A unit ahead of a stalled run
counts in no streak, and its YIELD ends none (log 99). -/
def execYieldRun (s : State) : Out :=
  s.uniformUnit none {} fun s =>
    .next (((s.done true).updCrew fun c => if s.cur.ahead.isSome then c else { c with streak := 64 }).swapOut)

/-- RGX.SET (R129, R133). -/
def execRgxSet (a : BitVec 8) (s : State) : Out :=
  s.uniformUnit none { k := [a.toNat] } fun s =>
    let x := s.crew.kreg a.toNat
    let group := s.team.group s.cur.crew
    let own := s.team.position s.cur.crew % 8
    let named : Bool := (List.range 8).all fun i => !(x.getLsbD i) || group.any fun e => e.1 == i
    if 256 ≤ x.toNat ∨ !(x.getLsbD own) ∨ !named then .next (s.parkRun .illegal 0#64 true)
    else .next ((s.updCrew fun c => { c with rgx := x.setWidth 8 }).done true)

/-- SLEEP: a wait of 64 clocks or more is long-latency (R121, R133). -/
def execSleep (imm : BitVec 16) (s : State) : Out :=
  s.uniformUnit none {} fun s =>
    if imm = 0#16 then .next (s.done true)
    else
      let w : Wait := .sleep (s.ctx.clock + imm.toNat)
      .next (if 64 ≤ imm.toNat then s.waitRun w else s.stallRun w)

end Sys2Proof.Machine
end

