-- ==== Sys2Proof/Machine/Global.lean ====
section
/-!
DEFINITION. Global memory instructions: loads, stores, atomics, reductions and prefetch (R252 to R255), the
uniform load (R256), FENCE (R257, R269) and the cache maintenance of a range (R258).
-/

namespace Sys2Proof.Machine

/-- The order of a PREFIX has an acquire, or a release. -/
def ordAcq (o : Order) : Bool := o == .acq || o == .acqRel
def ordRel (o : Order) : Bool := o == .rel || o == .acqRel

/-- The bytes of n registers of a lane from v(d). -/
def Crew.vbytes (c : Crew) (d n l : Nat) : List Byte := (List.range n).flatMap fun i => w32Bytes (c.vreg (d + i) l)

/-- A lane-set load, store or atomic: `names` are the registers it names, `dest` the number of registers it writes. -/
def State.globalUnit (s : State) (p : Prefix) (d : BitVec 7) (a : Src) (off : BitVec 6) (elem size named dest : Nat)
    (acc : Access) (mk : Crew → Nat → Req → Req) : Out :=
  s.laneUnit p ((srcNames a 2).add (destNames d named)) (if dest = 0 then fun c _ => c else zeroV d dest) fun s act =>
      let c := s.crew
      .next (s.issueLanes act size acc (fun l => c.globalAddr a l off elem) fun l r =>
        mk c l { r with scope := globalScope p.scope, remote := p.remote, dest := d.toNat, regs := dest })

/-- LD (R253). -/
def execLd (p : Prefix) (sx : Bool) (d : BitVec 7) (a : Src) (sz : Width) (off : BitVec 6) (s : State) : Out :=
  s.globalUnit p d a off (widthBytes sz) (widthBytes sz) (widthRegs sz) (widthRegs sz) .load fun _ _ r =>
    { r with kind := .load sx, acq := ordAcq p.order }

/-- ST (R253). -/
def execSt (p : Prefix) (d : BitVec 7) (a : Src) (sz : Width) (off : BitVec 6) (s : State) : Out :=
  s.globalUnit p d a off (widthBytes sz) (widthBytes sz) (widthRegs sz) 0 .store fun c l r =>
    { r with kind := .store, rel := ordRel p.order, data := (c.vbytes d.toNat (widthRegs sz) l).take (widthBytes sz) }

/-- LD.Q: off6 counts 8 bytes (R253). -/
def execLdQ (p : Prefix) (d : BitVec 7) (a : Src) (off : BitVec 6) (s : State) : Out :=
  s.globalUnit p d a off 8 16 4 4 .load fun _ _ r => { r with kind := .load false, acq := ordAcq p.order }

/-- ST.Q (R253). -/
def execStQ (p : Prefix) (d : BitVec 7) (a : Src) (off : BitVec 6) (s : State) : Out :=
  s.globalUnit p d a off 8 16 4 0 .store fun c l r =>
    { r with kind := .store, rel := ordRel p.order, data := c.vbytes d.toNat 4 l }

/-- ATOM: the operation stands in the PREFIX c field (R253). -/
def execAtom (p : Prefix) (d : BitVec 7) (a : Src) (sz : Width) (off : BitVec 6) (s : State) : Out :=
  s.globalUnit p d a off (widthBytes sz) (widthBytes sz) (widthRegs sz) (widthRegs sz) .atomic fun c l r =>
    { r with kind := .atom p.c, acq := ordAcq p.order, rel := ordRel p.order,
             data := c.vbytes d.toNat (widthRegs sz) l }

/-- ATOM.CAS: compare in v(d), new value in the registers after it (R208, R253). -/
def execAtomCas (p : Prefix) (d : BitVec 7) (a : Src) (sz : Width) (off : BitVec 6) (s : State) : Out :=
  let n := widthRegs sz
  s.globalUnit p d a off (widthBytes sz) (widthBytes sz) (2 * n) n .atomic fun c l r =>
    { r with kind := .cas, acq := ordAcq p.order, rel := ordRel p.order, compare := c.vbytes d.toNat n l,
             data := c.vbytes (d.toNat + n) n l }

/-- RED: no value returns; a store in Table 10.3's terms (R237, R253). -/
def execRed (p : Prefix) (d : BitVec 7) (a : Src) (sz : Width) (off : BitVec 6) (s : State) : Out :=
  s.globalUnit p d a off (widthBytes sz) (widthBytes sz) (widthRegs sz) 0 .store fun c l r =>
    { r with kind := .red p.c, rel := ordRel p.order, data := c.vbytes d.toNat (widthRegs sz) l }

/-- One lane's prefetch: an S line is fetched into L1 (R254). -/
def State.prefetch (s : State) (l2 : Bool) (x : W64) : State :=
  if l2 || !(canonical x) || decide (1024 ≤ s.entriesHeld s.crew.core) then s
  else
    match s.translate (x.toNat % 2 ^ 52) none with
    | (s', .ok pa .s) =>
      if (s'.leafRegion pa).isSome || (s'.shadowRegion pa).isSome then s'
      else (s'.l1Read s'.crew.core (pa / 64 * 64) 64).1
    | (s', .ok _ _) => s'
    | (_, .fail _) => s

/-- PREF: a hint that raises nothing (R254). -/
def execPref (p : Prefix) (l2 : Bool) (a : Src) (off : BitVec 6) (s : State) : Out :=
  s.laneUnit p (srcNames a 2) (fun c _ => c) fun s act =>
    .next (((lanesOf act).foldl (fun s l => s.prefetch l2 (s.crew.globalAddr a l off 1)) s).done false)

/-- KLD: a cause parks the run; otherwise the word arrives later in k(d) (R256). -/
def execKld (d a b : BitVec 8) (s : State) : Out :=
  s.uniformUnit none { k := [d.toNat, a.toNat, a.toNat + 1] } fun s =>
      let x := s.crew.kpair a.toNat + BitVec.ofNat 64 (4 * b.toNat)
      match s.checkAccess x 4 .load with
      | (s, .fail c) => .next (s.parkRun c (accessAddr x) true)
      | (s', .ok pa t) =>
        let r := { s'.newReq 32 (.load false) with
          pa := pa, va := x, size := 4, treat := t, scope := .dev, dest := d.toNat, regs := 1 }
        match s.issueWait [r] with
        | some w => .next (s.stallRoom w)
        | none => .next (((s'.addReqs [r]).spend s.crew.core s.team.cls 3 (s.outerBytes [r])).done true)

/-! ## FENCE -/

/-- What a FENCE does once the accesses it waits for are performed (R257, R272). -/
def State.fenceEffect (s : State) (core : Nat) (scope : Scope) (rel acq remote : Bool) : State :=
  let s := if rel && scopeWide scope then s.releaseS core (scope == .sys) else s
  let s := if acq && remote && scopeWide scope then s.promote core scope none else s
  if acq && scopeWide scope then s.acquireS core else s

/-- A request of a crew, or of a thread that is now in it (R257, R269). -/
def State.crewOwn (s : State) (team crew : Nat) (r : Req) : Bool :=
  r.team == team && (r.crew == crew ||
    match r.thread with
    | some x => (((s.team? team).getD Team.missing).crews.getD crew Crew.missing).lanes.any fun l => l.live && l.tid == x
    | none => false)

/-- The outstanding requests that a FENCE waits for, of its crew or of a thread that is now in it (R257, R269): all of them for a
release, those that return a value for an acquire. Accesses to scratchpad and accumulators count at crew, core and twin scope
(Table 11.2). -/
def State.fenceReqs (s : State) (team crew : Nat) (scope : Scope) (rel : Bool) : List Nat :=
  (s.ctx.reqs.filter fun r => s.crewOwn team crew r && (!r.kind.near || scopeNarrow scope) &&
    (rel || match r.kind with | .store | .red _ | .aggRefresh | .spadStore | .accWr | .accAdd | .accClr => false | _ => true)).map Req.id

/-- A FENCE that may end does: one of narrow scope counts the updates on their way as performed (Table 11.2). -/
def State.endFence (s : State) (core : Nat) (ids : List Nat) (scope : Scope) (rel acq remote : Bool) : State :=
  (if rel && scopeNarrow scope then s.passUpdates fun r => ids.contains r.id else s).fenceEffect core scope rel acq remote

/-- FENCE (R257). -/
def execFence (scope : Scope) (remote : Bool) (order : Order) (s : State) : Out :=
  s.uniformUnit none {} fun s =>
    let rel := ordRel order
    let acq := ordAcq order
    let ids := s.fenceReqs s.cur.team s.cur.crew scope rel
    if s.fenceOver s.crew.core ids scope rel acq remote then .next ((s.endFence s.crew.core ids scope rel acq remote).done true)
    else .next (s.waitRun (.fence ids s.nextId scope rel acq remote))

/-! ## CWB and CINV -/

/-- One line of the core's L1 written back, and invalidated for CINV. -/
def State.maintain (s : State) (core : Nat) (inv : Bool) (line : Nat) : State :=
  let s := (s.cleanLine core line).flushHostLine line
  if inv then s.dropLine core line else s

/-- The physical segments of `n` bytes of a virtual range, page by page; pages that do not translate are left out. -/
def State.segments (s : State) : Nat → Nat → Nat → State × List (Nat × Nat)
  | 0, _, _ => (s, [])
  | fuel + 1, va, n =>
    if n = 0 then (s, [])
    else
      let k := min n (65536 - va % 65536)
      match s.translate (va % 2 ^ 52) none with
      | (s, .ok pa _) => let (s, more) := s.segments fuel (va + k) (n - k); (s, (pa, k) :: more)
      | (s, .fail _) => s.segments fuel (va + k) (n - k)

/-- Lines of the core's L1 that a segment touches. -/
def linesIn (ls : List Line) (segs : List (Nat × Nat)) : List Nat :=
  (ls.filter fun x => segs.any fun e => decide (e.1 < 64 * x.line + 64) && decide (64 * x.line < e.1 + e.2)).map Line.line

/-- CWB and CINV: they wait for the crew's earlier writes, then act on the core's L1 (R258, log 21). -/
def State.cacheRange (s : State) (a b : BitVec 8) (inv : Bool) : Out :=
  let names := if b = 0#8 then [] else [a.toNat, a.toNat + 1, b.toNat]
  s.uniformUnit none { k := names } fun s =>
    let ids := (s.ctx.reqs.filter fun r => r.team == s.cur.team && r.crew == s.cur.crew && r.kind.writes).map Req.id
    if ids ≠ [] then .next (s.waitRun (.reqs ids))
    else
      let c := s.crew
      let (s, lines) :=
        if b = 0#8 then (s, (s.coreSt c.core).l1.map Line.line)
        else
          let (s, segs) := s.segments 65538 (c.kpair a.toNat).toNat (c.kreg b.toNat).toNat
          (s, linesIn (s.coreSt c.core).l1 segs)
      .next ((lines.foldl (fun s l => s.maintain c.core inv l) s).done true)

/-- CWB (R258). -/
def execCwb (a b : BitVec 8) (s : State) : Out := s.cacheRange a b false

/-- CINV (R258). -/
def execCinv (a b : BitVec 8) (s : State) : Out := s.cacheRange a b true

end Sys2Proof.Machine
end

