-- ==== Sys2Proof/Machine/Scratch.lean ====
section
/-!
DEFINITION. Scratchpad: the wrap rule and the accesses of R194 and R208, and plate descriptors (R202 to R206, R210).
An access joins the outstanding ones at its issue, and is performed at its macro later (R197, R198).
-/

namespace Sys2Proof.Machine

/-! ## The allocation -/

/-- The allocation offset an access of `size` bytes reaches (R194). -/
def spadWrap (alloc x size : Nat) : Nat :=
  let p := pow2AtLeast alloc
  let w := x % p
  let w := if alloc ≤ w then w - p / 2 else w
  w - w % size

/-- The macros of a plate's control word: first and count (Table 8.3). -/
def plateMacros (w : W32) : Nat × Nat := ((w.extractLsb' 0 6).toNat, (w.extractLsb' 6 7).toNat)

/-! ## Bytes of the allocation -/

/-- The plate of a matrix command: bits 2:0 of its imm8 (R226). -/
def Cmd.plate (x : Cmd) : Nat := (x.imm.extractLsb' 0 3).toNat

/-- The command is a matrix operation. -/
def Cmd.isMatrix (x : Cmd) : Bool := x.kind == .mxr || x.kind == .mxg

/-- Matrix operations in flight whose plate has a macro among `ms` are tainted by a write there (R206). -/
def State.taint (s : State) (team : Nat) (ms : List Nat) : State :=
  match s.team? team with
  | none => s
  | some t =>
    { s with ctx := { s.ctx with cmds := s.ctx.cmds.map fun x =>
        let (base, n) := plateMacros (if x.started then x.plateW else t.plateFor x.crew x.plate)
        if x.team = team ∧ x.isMatrix ∧ ms.any (fun m => decide (base ≤ m) && decide (m < base + n)) then
          { x with tainted := true }
        else x } }

/-- Bytes written to a team's scratchpad at an allocation offset. -/
def State.spadWrite (s : State) (team off : Nat) (ys : List Byte) : State :=
  (s.updTeamId team fun t =>
    { t with spad := writeBytes t.spad off ys
             openSpad := t.openSpad.filter fun a => !(decide (off ≤ a) && decide (a < off + ys.length)) }).taint team
    [off / 65536, (off + ys.length - 1) / 65536]

/-- Bytes of a team's scratchpad that are unspecified from now on (R8). -/
def State.openBytes (s : State) (team : Nat) (os : List Nat) : State :=
  (s.updTeamId team fun t =>
    { t with spad := (mapFrom (fun i o => (o, i)) s.fresh os).foldl (fun m e => writeKey m e.1 (Config.freeByte e.2)) t.spad
             openSpad := os ++ t.openSpad.filter fun a => !(os.contains a) }).bump os.length

/-- The scratchpad offset of a stage (R342). -/
def Ring.offset (g : Ring) (n : Nat) : W32 := g.base + word (n % g.scount * g.ssize)

/-- The allocation offsets of a stage's bytes (R194, R342). -/
def Team.stageBytes (t : Team) (g : Ring) (n : Nat) : List Nat :=
  (List.range g.ssize).map fun i => spadWrap t.spadBytes (((g.offset n).toNat + i) % 2 ^ 32) 1

/-- The bytes of a range that lie in a stage whose contents are unspecified stay so (R317). -/
def State.spoilAgain (s : State) (team off n : Nat) : State :=
  match s.team? team with
  | none => s
  | some t =>
    if t.rings.all fun g => g.spoilt.isEmpty then s
    else s.openBytes team (((t.rings.flatMap fun g => g.spoilt.flatMap (t.stageBytes g)).filter fun o =>
      decide (off ≤ o) && decide (o < off + n)).eraseDups)

/-- Bytes stored to a team's scratchpad at an allocation offset. -/
def State.spadPut (s : State) (team off : Nat) (ys : List Byte) : State :=
  (s.spadWrite team off ys).spoilAgain team off ys.length

/-- Bytes of a team's scratchpad at an allocation offset. -/
def Team.spadGet (t : Team) (off n : Nat) : List Byte := readBytes t.spad off n

/-- The wrapped offset of a lane's access (R37, R194). -/
def State.laneOffset (s : State) (a : Src) (l : Nat) (off : BitVec 6) (elem size : Nat) : Nat :=
  spadWrap s.team.spadBytes (s.crew.spadOffset a l off elem) size

/-! ## Accesses -/

/-- A lane-set scratchpad unit: `mk c l r` completes the request of lane l, in ascending lanes. -/
def State.spadUnit (s : State) (p : Prefix) (d : BitVec 7) (a : Src) (off : BitVec 6) (elem size named dest : Nat)
    (mk : Crew → Nat → Req → Req) : Out :=
  s.laneUnit p ((srcNames a 1).add (destNames d named)) (if dest = 0 then fun c _ => c else zeroV d dest) fun s act =>
    let c := s.crew
    let rs := mapFrom (fun i l =>
      { mk c l (s.newReq l .spadStore) with
        id := s.nextId + i, pa := s.laneOffset a l off elem size, size := size, dest := d.toNat, regs := dest }) 0 (lanesOf act)
    .next ((s.addReqs rs).done false)

/-- LDS (R208). -/
def execLds (p : Prefix) (sx : Bool) (d : BitVec 7) (a : Src) (sz : Width) (off : BitVec 6) (s : State) : Out :=
  s.spadUnit p d a off (widthBytes sz) (widthBytes sz) (widthRegs sz) (widthRegs sz) fun _ _ r =>
    { r with kind := .spadLoad sx }

/-- STS (R208). -/
def execSts (p : Prefix) (d : BitVec 7) (a : Src) (sz : Width) (off : BitVec 6) (s : State) : Out :=
  s.spadUnit p d a off (widthBytes sz) (widthBytes sz) (widthRegs sz) 0 fun c l r =>
    { r with kind := .spadStore, data := (c.vbytes d.toNat (widthRegs sz) l).take (widthBytes sz) }

/-- LDS.Q: off6 counts 8 bytes (R208, R209). -/
def execLdsQ (p : Prefix) (d : BitVec 7) (a : Src) (off : BitVec 6) (s : State) : Out :=
  s.spadUnit p d a off 8 16 4 4 fun _ _ r => { r with kind := .spadLoad false }

/-- STS.Q (R208, R209). -/
def execStsQ (p : Prefix) (d : BitVec 7) (a : Src) (off : BitVec 6) (s : State) : Out :=
  s.spadUnit p d a off 8 16 4 0 fun c l r => { r with kind := .spadStore, data := c.vbytes d.toNat 4 l }

/-- ATOMS: the operation stands in the PREFIX c field, and its scope and order in the PREFIX (R199, R208). -/
def execAtoms (p : Prefix) (d : BitVec 7) (a : Src) (sz : Width) (off : BitVec 6) (s : State) : Out :=
  s.spadUnit p d a off (widthBytes sz) (widthBytes sz) (widthRegs sz) (widthRegs sz) fun c l r =>
    { r with kind := .spadAtom p.c, scope := p.scope, acq := ordAcq p.order, rel := ordRel p.order,
             data := c.vbytes d.toNat (widthRegs sz) l }

/-- ATOMS.CAS: compare in v(d), new value in the registers after it (R199, R208). -/
def execAtomsCas (p : Prefix) (d : BitVec 7) (a : Src) (sz : Width) (off : BitVec 6) (s : State) : Out :=
  let k := widthRegs sz
  s.spadUnit p d a off (widthBytes sz) (widthBytes sz) (2 * k) k fun c l r =>
    { r with kind := .spadCas, scope := p.scope, acq := ordAcq p.order, rel := ordRel p.order,
             compare := c.vbytes d.toNat k l, data := c.vbytes (d.toNat + k) k l }

/-! ## Plates -/

/-- The fields of a plate control word are in range (Table 8.4, code 1). -/
def plateFieldsOk (w : W32) : Bool :=
  let (base, n) := plateMacros w
  let kt := (w.extractLsb' 13 7).toNat
  w.extractLsb' 22 10 == 0#10 && w.extractLsb' 20 2 != 3#2 && decide (1 ≤ kt) && decide (1 ≤ n) &&
    decide (n % kt = 0) && decide (base + n ≤ 64)

/-- An allocation macro lies wholly inside the allocation and wholly inside one core's half (Table 8.4, code 2). -/
def Team.macroInside (t : Team) (j : Nat) : Bool :=
  let half := if t.twin then t.spadBytes / 2 else t.spadBytes
  decide (65536 * (j + 1) ≤ half) || (decide (half ≤ 65536 * j) && decide (65536 * (j + 1) ≤ t.spadBytes))

/-- A macro belongs to a mapped descriptor of the team other than `pl`. -/
def Team.macroTaken (t : Team) (pl j : Nat) : Bool :=
  (List.range 8).any fun i => i != pl && (t.plate i).getLsbD 31 && decide ((plateMacros (t.plate i)).1 ≤ j) &&
    decide (j < (plateMacros (t.plate i)).1 + (plateMacros (t.plate i)).2)

/-- The status of PLATE.MAP (Table 8.4). -/
def Team.mapStatus (t : Team) (pl : Nat) (w : W32) : W32 :=
  let (base, n) := plateMacros w
  let ms := (List.range n).map fun i => base + i
  if !(plateFieldsOk w) then 1#32
  else if !(ms.all t.macroInside) then 2#32
  else if ms.any (t.macroTaken pl) then 3#32
  else if (t.plate pl).getLsbD 31 then 4#32
  else 0#32

/-- PLATE.MAP (R204, R210). -/
def execPlateMap (d : BitVec 8) (pl : BitVec 3) (b : BitVec 8) (s : State) : Out :=
  s.uniformUnit none { k := [d.toNat, b.toNat] } fun s =>
    let w := s.crew.kreg b.toNat
    let status := s.team.mapStatus pl.toNat w
    let s := if status = 0#32 then
        (s.change s.cur.team s.cur.crew (fun _ => true) (.plate pl.toNat (s.team.plate pl.toNat))).updTeam fun t => { t with plates := updateAt (fun _ => w ||| 0x80000000#32) pl.toNat t.plates }
      else s
    .next ((s.updCrew fun c => c.setK d.toNat status).done true)

/-- PLATE.UNMAP: it waits for the operations on the descriptor (R210). -/
def execPlateUnmap (pl : BitVec 3) (s : State) : Out :=
  s.uniformUnit none {} fun s =>
    if s.waitDone s.team s.crew (.plate pl.toNat) then
      let s := s.change s.cur.team s.cur.crew (fun _ => true) (.plate pl.toNat (s.team.plate pl.toNat))
      .next ((s.updTeam fun t => { t with plates := updateAt (fun _ => 0#32) pl.toNat t.plates }).done true)
    else .next (s.waitRun (.plate pl.toNat))

/-- PLATE.INFO (R205, R210): the descriptor as the crew sees it. -/
def execPlateInfo (d : BitVec 8) (pl : BitVec 3) (s : State) : Out :=
  s.uniformUnit none { k := [d.toNat] } fun s =>
    .next ((s.updCrew fun c => c.setK d.toNat (s.team.plateFor s.cur.crew pl.toNat)).done true)

end Sys2Proof.Machine
end

