-- ==== Sys2Proof/Machine/Engine.lean ====
section
/-!
DEFINITION. What the engines share: status words and the writing of a token (R142, R273, R331, R332), the start of a
command after its crew's accesses (R273), global reads and writes of an engine with their failures, and the accumulator
rows (R213, R222).
-/

namespace Sys2Proof.Machine

/-! ## Status words -/

def statusDone : W32 := 0x00000000#32
def statusFault : W32 := 0x80000001#32
def statusPoisoned : W32 := 0x80000002#32
def statusRemote : W32 := 0x80000003#32
def statusBudget : W32 := 0x80000004#32

/-- A status is a failure (R225, Table 14.1). -/
def isFailure (x : W32) : Bool := decide (0x80000001 ≤ x.toNat) && decide (x.toNat ≤ 0x80000004)

/-! ## Accumulator rows -/

/-- The rows on the core of a crew: the leader's, or the follower's of a twin team (R213). -/
def Team.acc (t : Team) (core : Nat) : Sparse 32 := if t.twin && core != t.core then t.acc1 else t.acc0

def Team.setAcc (t : Team) (core : Nat) (a : Sparse 32) : Team :=
  if t.twin && core != t.core then { t with acc1 := a } else { t with acc0 := a }

/-- The commands of a team on a core that own a row (R222). -/
def State.owners (s : State) (team core row : Nat) : List Cmd :=
  s.ctx.cmds.filter fun x => x.team == team && x.core == core && decide (x.ownBase ≤ row) &&
    decide (row < x.ownBase + x.ownCount)

/-- The commands that own a row while a direct access to it is performed (R222): an operation that the access's own crew issued
after it starts only once it is performed, and does not count (R221, log 26). -/
def State.holders (s : State) (r : Req) (row : Nat) : List Cmd :=
  (s.owners r.team r.core row).filter fun x => !(x.crew == r.crew && decide (r.id < x.id))

/-- A direct write to a row spoils it for every command that owns it (R222). -/
def State.spoil (s : State) (r : Req) (row : Nat) : State :=
  let hit (x : Cmd) : Bool := ((s.holders r row).map Cmd.id).contains x.id
  { s with ctx := { s.ctx with cmds := s.ctx.cmds.map fun x =>
      if (hit x) then { x with spoiled := if x.spoiled.contains row then x.spoiled else x.spoiled ++ [row] }
      else x } }

/-- The entries of a team's rows on a core whose value is unspecified (R8). -/
def Team.openAcc (t : Team) (core : Nat) : List Nat := if t.twin && core != t.core then t.openAcc1 else t.openAcc0

def Team.setOpenAcc (t : Team) (core : Nat) (ks : List Nat) : Team :=
  if t.twin && core != t.core then { t with openAcc1 := ks } else { t with openAcc0 := ks }

/-- Entries [first, last) of a team's rows changed to a table's, and no longer unspecified. -/
def Team.putAcc (t : Team) (core first last : Nat) (a : Sparse 32) : Team :=
  (t.setAcc core a).setOpenAcc core ((t.openAcc core).filter fun k => decide (k < first) || decide (last ≤ k))

/-- Entries of a row filled with unspecified values (R8, R222). -/
def freeRow (a : Sparse 32) (row fresh : Nat) : Sparse 32 :=
  (List.range 512).foldl (fun a i => writeKey a (512 * row + i) (Config.freeWord (fresh + i))) a

/-- Entries of a team's rows that are unspecified from now on. -/
def Team.openKeys (t : Team) (core : Nat) (ks : List Nat) : Team :=
  t.setOpenAcc core (ks ++ (t.openAcc core).filter fun k => !(ks.contains k))

/-- A row becomes unspecified. -/
def State.freeAccRow (s : State) (team core row : Nat) : State :=
  (s.updTeamId team fun t =>
    (t.setAcc core (freeRow (t.acc core) row s.fresh)).openKeys core ((List.range 512).map fun i => 512 * row + i)).bump 512

/-- The rows a command's direct writers spoiled become unspecified as its token is written. -/
def State.applySpoil (s : State) (x : Cmd) : State :=
  x.spoiled.foldl (fun s row => s.freeAccRow x.team x.core row) s

/-- The rows that `n` entries from a key on touch. -/
def rowsOf (key n : Nat) : List Nat := (List.range (ceilDiv n 512)).map fun i => key / 512 + i

/-- A direct write of entries of a team's rows (R222): an owned row is spoiled, and a row that was owned when the access
issued and has come free meanwhile is unspecified too. -/
def State.directWrite (s : State) (r : Req) (f : Sparse 32 → Sparse 32) : State :=
  let late := r.owned.filter fun x => s.holders r x == []
  let s := (rowsOf r.pa r.size).foldl (fun s x => s.spoil r x) s
  let s := s.updTeamId r.team fun t => t.putAcc r.core r.pa (r.pa + r.size) (f (t.acc r.core))
  late.foldl (fun s x => s.freeAccRow r.team r.core x) s

/-- The row of a direct access of one entry is owned, now or at its issue (R222). -/
def State.heldRow (s : State) (r : Req) : Bool := r.owned != [] || s.holders r (r.pa / 512) != []

/-- The value of a direct read: unspecified while the row is owned (R222). -/
def State.directRead (s : State) (r : Req) : State × W32 :=
  if s.heldRow r then (s.bump 1, Config.freeWord s.fresh)
  else (s, readKey (((s.team? r.team).getD Team.missing).acc r.core) r.pa)

/-- A direct accumulator access performed at its row (R222, R229, R231). ACC.RD.clr of an owned row has no effect but its
unspecified value (R8, log 86); ACC.ADD rounds once, with no flag. -/
def State.performAcc (s : State) (r : Req) : State :=
  let v := bytesW32 (r.data.take 4)
  match r.kind with
  | .accRd clr =>
    let held := s.heldRow r
    let (s, x) := s.directRead r
    let s := s.deliver r (w32Bytes x)
    if clr && !held then s.directWrite r fun a => writeKey a r.pa 0#32 else s
  | .accWr => s.directWrite r fun a => writeKey a r.pa v
  | .accAdd => s.directWrite r fun a => writeKey a r.pa (addF32 (readKey a r.pa) v)
  | .accClr => s.directWrite r fun a => clearKeys a r.pa (r.pa + r.size)
  | _ => s

/-! ## Scratchpad accesses -/

/-- A plain store takes away what orders a plate change at the bytes it writes (R205, R270). -/
def Team.dropMarks (t : Team) (off n : Nat) : Team :=
  let keep (m : Mark) : Bool := match m with | .place o _ _ => !(decide (off ≤ o) && decide (o < off + n)) | .phase .. => true
  { t with crews := t.crews.map fun c => { c with unseen := c.unseen.map fun u => { u with marks := u.marks.filter keep } } }

/-- What a release of the scratchpad does as it is performed (R199, R205): accesses of its crew that it has passed are
owed to acquires on its core, and the plate changes that its crew has seen are ordered. -/
def State.spadRelease (s : State) (r : Req) : State :=
  if !r.rel || r.scope == .crew then s
  else
    let passed := if s.coreOnly r then
        (s.ctx.reqs.filter fun q => sameCrew q r && q.kind.spad && decide (q.id < r.id)).map Req.id else []
    s.updTeamId r.team fun t =>
      let t := t.markChanges r.crew (.place r.pa r.core (!(s.coreOnly r)))
      { t with owed := if passed = [] then t.owed else t.owed ++ [⟨r.core, r.pa, r.size, passed⟩] }

/-- What an acquire of the scratchpad does as it is performed: its crew sees the plate changes ordered at its place. -/
def State.spadAcquire (s : State) (r : Req) : State :=
  if !r.acq || r.scope == .crew then s
  else s.updCrewOf r.team r.crew fun c => c.seeMarked fun m =>
    match m with
    | .place o core wide => o == r.pa && (core == r.core || (wide && !(s.coreOnly r)))
    | .phase .. => false

/-- An atomic of the scratchpad: `new` is what it leaves, if it writes. -/
def State.spadAtomic (s : State) (r : Req) (new : List Byte → Option (List Byte)) : State :=
  let old := ((s.team? r.team).getD Team.missing).spadGet r.pa r.size
  let s := s.spadAcquire r
  let s := match new old with | some ys => s.spadPut r.team r.pa ys | none => s
  (s.spadRelease r).deliver r old

/-- A scratchpad access performed at its macro, in one instant (R197, R208, R264). -/
def State.performSpad (s : State) (r : Req) : State :=
  match r.kind with
  | .spadLoad sx => s.deliver r (extendLoad sx r.size (((s.team? r.team).getD Team.missing).spadGet r.pa r.size))
  | .spadStore => (s.updTeamId r.team fun t => t.dropMarks r.pa r.size).spadPut r.team r.pa r.data
  | .spadAtom code =>
    s.spadAtomic r fun old => some (natBytes (atomNew code.toNat (8 * r.size) (bytesNat old) (bytesNat r.data)) r.size)
  | .spadCas => s.spadAtomic r fun old => if old = r.compare then some r.data else none
  | _ => s

/-- The acquires of core scope that an access passes, as it is performed, keep later releases at their places behind them
(R199). -/
def State.noteJumped (s : State) (r : Req) : State :=
  let late := ((earlier r s.ctx.reqs).filter fun q => s.blocks q r && s.jumps r q).map Req.id
  if late = [] then s
  else { s with ctx := { s.ctx with reqs := s.ctx.reqs.map fun q => if late.contains q.id then { q with jumped := true } else q } }

/-- An access to the scratchpad or the accumulators performed; it leaves the outstanding ones. -/
def State.performNear (s : State) (r : Req) : State :=
  let s := (s.noteJumped r).freeReq r
  if r.kind.spad then s.performSpad r else s.performAcc r

/-! ## Tokens -/

/-- A dependence on a command, once it has written a status. -/
def Dep.settle (id : Nat) (status : W32) : Dep → List Dep
  | .cmd i => if i = id then (if isFailure status then [.failed] else []) else [.cmd i]
  | d => [d]

/-- What a crew holds of a command, once it has written a status. -/
def Crew.settleCmd (c : Crew) (id : Nat) (status : W32) : Crew :=
  { c with
    mxFailed := c.mxFailed || (c.mxCmds.contains id && isFailure status)
    mxCmds := c.mxCmds.filter fun i => i != id
    chain := match c.chain with | some (.inl i) => if i = id then some (.inr status) else some (.inl i) | x => x }

/-- A conditional commit of a ring, once its command has written a status: a failure is the stage's status (R343). -/
def Commit.settle (id : Nat) (status : W32) (x : Commit) : Commit :=
  if x.cmd = some id then { x with cmd := none, status := if isFailure status then status else statusDone } else x

/-- A command writes its status into its token and is over (R142, R273): its spoiled rows become unspecified, and
every dependence, fence condition and commit on it is settled. -/
def State.finishCmd (s : State) (x : Cmd) (status : W32) : State :=
  let s := s.applySpoil x
  let cmds := (s.ctx.cmds.filter fun y => y.id != x.id).map fun y =>
    { y with deps := y.deps.flatMap (Dep.settle x.id status) }
  let s := { s with ctx := { s.ctx with cmds := cmds } }
  (s.updTeamId x.team fun t =>
    { t with crews := t.crews.map fun c => c.settleCmd x.id status
             rings := t.rings.map fun r => { r with commits := r.commits.map (Commit.settle x.id status) } }).updCrewOf
    x.team x.crew fun c =>
      { c.setK x.token status with busy := c.busy.filter fun e => e.2 != x.id }

def State.cmd? (s : State) (id : Nat) : Option Cmd := s.ctx.cmds.find? fun x => x.id == id

def State.updCmd (s : State) (id : Nat) (f : Cmd → Cmd) : State :=
  { s with ctx := { s.ctx with cmds := updateFirst (fun x => x.id == id) f s.ctx.cmds } }

/-- Every global access that the command's crew issued before it has been performed (R273). -/
def State.cmdAfter (s : State) (x : Cmd) : Bool :=
  !(s.ctx.reqs.any fun r => r.team == x.team && r.crew == x.crew && decide (r.id < x.id))

/-- Every dependence of a command is settled. -/
def State.depsSettled (s : State) (x : Cmd) : Bool :=
  x.deps.all fun d =>
    match d with
    | .cmd _ => false
    | .failed => true
    | .phase b n => decide (n < (((s.team? x.team).getD Team.missing).bars.getD b {}).phase)

/-- A dependence of a command holds a failure. -/
def Cmd.poisoned (x : Cmd) : Bool := x.deps.contains .failed

/-! ## Global accesses of an engine -/

/-- Why an engine's access fails, or that it waits: for an exposure count, or for its place in a replayed order. -/
inductive EngFail where
  | xlate (page : Nat)
  | prot
  | remote
  | ecc
  | wait (act : Option Nat)
deriving DecidableEq, Repr

/-- An engine's address within one line checked (R233, R237, R255). -/
def State.engCheck (s : State) (x : W64) (a : Access) : State × (EngFail ⊕ (Nat × Treat)) :=
  if !(canonical x) then (s, .inl .prot)
  else
    match s.translate (x.toNat % 2 ^ 52) (some a) with
    | (s, .fail .xlate) => (s, .inl (.xlate (x.toNat % 2 ^ 52 / 65536)))
    | (s, .fail _) => (s, .inl .prot)
    | (s, .ok pa t) =>
      match rangeOf s.part pa with
      | some (.peer p) => if s.dev.cut p then (s, .inl .remote) else (s, .inr (pa, t))
      | _ => (s, .inr (pa, t))

/-- The threads of a command's crew, with their team. -/
def State.cmdWho (s : State) (x : Cmd) : List (Nat × Nat) :=
  ((((s.team? x.team).getD Team.missing).crews.getD x.crew Crew.missing).lanes.map Lane.tid).map fun t => (x.team, t)

/-- An engine's access to a peer takes the device's next command number (R401). -/
def State.numberTo (s : State) (pa : Nat) : State :=
  if (s.peerOf pa).isSome then { s with dev := { s.dev with nextNumber := s.dev.nextNumber + 1#32 } } else s

/-- An engine's access is not sent yet: the core's earlier requests to its home slice come before it (R276), or its peer owes
4,096 responses (R401). -/
def State.engQueued (s : State) (core pa : Nat) : Bool :=
  (match s.leafRegion pa with | some g => s.pathBusy core g.num | none => false) || s.peerFull pa

/-- Bytes a command reads in one line: it sees its crew's accesses through its core's L1, without filling it (R273). -/
def State.engPeek (s : State) (x : Cmd) (t : Treat) (pa n : Nat) : State × List Byte :=
  let s := s.numberTo pa
  if (s.shadowRegion pa).isSome then s.shadowRead n
  else if (s.leafRegion pa).isSome then (s.cleanLine x.core (pa / 64), s.homeRead t pa n)
  else
    let now := s.viewRead (s.cmdWho x) t pa n
    (s, match lineIn (s.coreSt x.core).l1 (pa / 64) with
      | some l => mapFrom (fun i y =>
          if (if t = .s then l.valid else l.dirty).getLsbD (pa % 64 + i) then l.data.getD (pa % 64 + i) 0#8 else y) 0 now
      | none => now)

/-- Bytes an engine writes in one line: performed at their place, and its core's copy is dropped (R273). -/
def State.engPoke (s : State) (core : Nat) (t : Treat) (pa : Nat) (ys : List Byte) : State :=
  ((s.cleanLine core (pa / 64)).homeWrite t pa ys).dropLine core (pa / 64)

/-- A write of a command as its home sees it (R397): a plain store of its crew. -/
def Cmd.writeReq (x : Cmd) (pa n : Nat) : Req :=
  { id := 0, unit := 0, team := x.team, crew := x.crew, core := x.core, lane := 32, thread := none, kind := .store, pa := pa,
    size := n, units := x.units }

/-- What a command's access to memory waits for at its issue: a spent count of its class (Table 15.6), or, in replay, its turn
at the home (R397); and what it is queued behind (R276, R401). -/
def State.engWaits (s : State) (x : Cmd) (pa n : Nat) (write : Bool) : Option EngFail :=
  let spent (a : Nat) : Bool := s.expoSpent x.core (s.classOf x.team) a
  if s.engQueued x.core pa then some (.wait none)
  else if spent 4 then some (.wait (some 4))
  else if rangeOf s.part pa != some .device && spent 3 then some (.wait (some 3))
  else if !write || s.updateCount pa n == 0 then none
  else if spent 2 then some (.wait (some 2))
  else if s.replayHeld (x.writeReq pa n) then some (.wait none)
  else none

/-- What a command's access to memory spends (Table 15.6), and its entries in the sheet (R397). -/
def State.engPay (s : State) (x : Cmd) (pa n : Nat) (write : Bool) : State :=
  let cls := s.classOf x.team
  let s := s.missOf x.core cls
  let s := if rangeOf s.part pa != some .device then s.spend x.core cls 3 n else s
  let s := if write then s.numberTo pa else s
  if write && s.updateCount pa n != 0 then ((s.cleanLine x.core (pa / 64)).chargeUpdates x.core cls pa n).sheetAt (x.writeReq pa n) else s

/-- The class of a command is limited neither in host and fabric bytes nor in L2 misses. -/
def State.unmetered (s : State) (x : Cmd) : Bool :=
  s.allowance (s.classOf x.team) 3 == 0xFFFFFFFF#32 && s.allowance (s.classOf x.team) 4 == 0xFFFFFFFF#32

/-- A read of bytes within one line. -/
def State.engRead (s : State) (c : Cmd) (x : W64) (n : Nat) : State × (EngFail ⊕ List Byte) :=
  match s.engCheck x .load with
  | (s, .inl e) => (s, .inl e)
  | (s, .inr (pa, t)) =>
    if s.engQueued c.core pa then (s, .inl (.wait none))
    else if s.badAt pa then (s, .inl .ecc)
    else let (s, ys) := s.engPeek c t pa n; (s, .inr ys)

/-- Pieces of a byte range that lie within one line: address and length. -/
def pieces : Nat → Nat → Nat → List (Nat × Nat)
  | 0, _, _ => []
  | fuel + 1, a, n => if n = 0 then [] else
      let k := min n (64 - a % 64)
      (a, k) :: pieces fuel (a + k) (n - k)

/-- The first failure that an access to each piece of a range meets, with its translations noted. -/
def State.engScan (s : State) (x : W64) (n : Nat) (a : Access) : State × Option EngFail :=
  (pieces (n / 64 + 2) x.toNat n).foldl (fun (acc : State × Option EngFail) e =>
    match acc.2 with
    | some _ => acc
    | none =>
      match acc.1.engCheck (BitVec.ofNat 64 e.1) a with
      | (s, .inl f) => (s, some f)
      | (s, .inr _) => (s, none)) (s, none)

/-- Bytes of any length read by an engine; the first failure stops it. -/
def State.engReadAll (s : State) (c : Cmd) (x : W64) (n : Nat) : State × (EngFail ⊕ List Byte) :=
  (pieces (n / 64 + 2) x.toNat n).foldl (fun (acc : State × (EngFail ⊕ List Byte)) e =>
    match acc.2 with
    | .inl _ => acc
    | .inr ys =>
      match acc.1.engRead c (BitVec.ofNat 64 e.1) e.2 with
      | (s, .inl f) => (s, .inl f)
      | (s, .inr zs) => (s, .inr (ys ++ zs))) (s, .inr [])

/-- The requests of a range read that a command may issue now, from the byte it has got to (R362): the state after, the
byte it gets to, and the activity that stops it. -/
def State.engAfford (s : State) (x : Cmd) (va : W64) (total : Nat) : State × Nat × Option Nat :=
  if s.unmetered x then (s, total, none)
  else
    (pieces (total / 64 + 2) (va.toNat + x.pos) (total - x.pos)).foldl (fun (acc : State × Nat × Option Nat) e =>
      match acc with
      | (s, at_, some a) => (s, at_, some a)
      | (s, at_, none) =>
        match s.engCheck (BitVec.ofNat 64 e.1) .load with
        | (s, .inl _) => (s, at_ + e.2, none)
        | (s, .inr (pa, _)) =>
          match s.engWaits x pa e.2 false with
          | some (.wait (some a)) => (s, at_, some a)
          | _ => (s.engPay x pa e.2 false, at_ + e.2, none)) (s, x.pos, none)

/-- An image of some bytes: bytes that single reads of the command have bound already, and the rest as they are now. -/
def Cmd.overlay (x : Cmd) (img : List Byte) : List Byte :=
  x.got.foldl (fun ys e => ys.set e.1 e.2.2) img

/-- Bytes of any length written by an engine; the first failure stops it. -/
def State.engWriteAll (s : State) (core : Nat) (x : W64) (ys : List Byte) : State × Option EngFail :=
  (pieces (ys.length / 64 + 2) x.toNat ys.length).foldl (fun (acc : State × Option EngFail) e =>
    match acc.2 with
    | some _ => acc
    | none =>
      match acc.1.engCheck (BitVec.ofNat 64 e.1) .store with
      | (s, .inl f) => (s, some f)
      | (s, .inr (pa, t)) => (s.engPoke core t pa (sliceBytes ys (e.1 - x.toNat) e.2), none)) (s, none)

/-- Destination bytes that a failed command leaves unspecified (R8), where they can be written at all. -/
def State.engScramble (s : State) (core : Nat) (x : W64) (n : Nat) : State :=
  (pieces (n / 64 + 2) x.toNat n).foldl (fun s e =>
    match s.engCheck (BitVec.ofNat 64 e.1) .store with
    | (s, .inr (pa, t)) =>
      let s' := (s.engPoke core t pa ((List.range e.2).map fun i => Config.freeByte (s.fresh + i))).bump e.2
      let ks := (List.range e.2).map fun i => pa + i
      if t = .s ∧ rangeOf s.part pa = some .host then { s' with ctx := { s'.ctx with openL2 := ks ++ s'.ctx.openL2 } }
      else { s' with openMem := ks ++ s'.openMem }
    | (s, .inl _) => s) s

/-- A command stops until an exposure count has some left, or waits for its turn. -/
def State.engPause (s : State) (id : Nat) (act : Option Nat) : State := s.updCmd id fun x => { x with waits := act }

/-- The status of a failure. -/
def failStatus : EngFail → W32
  | .remote => statusRemote
  | _ => statusFault

/-- A command's page waits for Maelner (R239). -/
def State.stick (s : State) (id page : Nat) : State := s.updCmd id fun x => { x with stuck := some page }

end Sys2Proof.Machine
end

