-- ==== Sys2Proof/Machine/Region.lean ====
section
/-!
DEFINITION. Aggregate and cluster regions: the instructions of R298 to R301 and R322 to R326, and the steps that open a
region, take a request into its serial order and close it (R288, R290, R294, R311, R312).
-/

namespace Sys2Proof.Machine

/-! ## Regions by number -/

/-- The region is an aggregate region. -/
def Region.isAgg (r : Region) : Bool := match r.kind with | .agg .. => true | _ => false

def State.aggRegion (s : State) (num : Nat) : Option Region := (s.region num).filter Region.isAgg
def State.cluRegion (s : State) (num : Nat) : Option Region := (s.region num).filter fun r => !r.isAgg

/-- Shadow bytes of a region. -/
def Region.shadowBytes (r : Region) : Nat :=
  match r.kind with
  | .agg k n => aggShadow k n
  | .clu d dv cap _ => cluShadow d dv cap

/-- Shadow bytes of the pinned regions of the slice that is home to a number (R287). -/
def State.pinnedAt (s : State) (num : Nat) : Nat :=
  ((s.ctx.regions.filter fun r => r.pinned && s.regionHome r.num == s.regionHome num).map Region.shadowBytes).foldl
    (· + ·) 0

/-! ## Opening -/

/-- AGG.OPEN (R298): the region opens when its command completes. -/
def execAggOpen (t q : BitVec 8) (pin : Bool) (s : State) : Out :=
  s.uniformUnit none (ueNames t q 6) fun s =>
    .next ((s.addCmd (s.newCmd .aggOpen t q (0#7 ++ BitVec.ofBool pin) 6)).done true)

/-- CLU.OPEN (R322). -/
def execCluOpen (t q : BitVec 8) (pin : Bool) (s : State) : Out :=
  s.uniformUnit s.walkCheck (ueNames t q 9) fun s =>
    .next ((s.addCmd (s.newCmd .cluOpen t q (0#7 ++ BitVec.ofBool pin) 9)).done true)

/-- What the translation of an array gives: its pages, a bad page (status 4), or a page without a translation. -/
inductive Pages where
  | ok (pages : List Nat)
  | bad
  | missing (page : Nat)
deriving DecidableEq, Repr

/-- The address that stands for a page without a translation: outside the physical map, and one for each page. -/
def lostPage (page : Nat) : Nat := 2 ^ 60 + 65536 * (page % 2 ^ 36)

/-- `n` pages of 64 KiB from a page number on, translated for loads and stores in device memory (R281, R288). With
`fill`, a page without a translation gets a place of its own, for the checks that come before code 7. -/
def State.pagesFrom (s : State) (fill : Bool) : Nat → Nat → State × Pages
  | 0, _ => (s, .ok [])
  | n + 1, page =>
    match s.translate (page * 65536 % 2 ^ 52) (some .atomic) with
    | (s, .fail .xlate) =>
      match s.pagesFrom fill n (page + 1) with
      | (s, .bad) => (s, .bad)
      | (s, .ok ps) => (s, if fill then .ok (lostPage page :: ps) else .missing (page % 2 ^ 36))
      | (s, .missing _) => (s, .missing (page % 2 ^ 36))
    | (s, .fail _) => (s, .bad)
    | (s, .ok pa _) =>
      if rangeOf s.part pa ≠ some .device then (s, .bad)
      else
        match s.pagesFrom fill n (page + 1) with
        | (s, .ok ps) => (s, .ok (pa :: ps))
        | (s, x) => (s, x)

/-- An array of some bytes at an address: aligned, canonical to its last byte, and translated (Table 12.5, code 4). -/
def State.spanAt (s : State) (fill : Bool) (va : W64) (bytes : Nat) : State × (Pages ⊕ Span) :=
  if bytes = 0 then (s, .inr { va := 0, bytes := 0, pages := [] })
  else if va.extractLsb' 0 6 ≠ 0#6 ∨ !(canonical va) ∨ !(canonical (va + BitVec.ofNat 64 (bytes - 1))) then
    (s, .inl .bad)
  else
    let a := va.toNat % 2 ^ 52
    match s.pagesFrom fill ((a + bytes - 1) / 65536 - a / 65536 + 1) (a / 65536) with
    | (s, .ok ps) => (s, .inr { va := a, bytes := bytes, pages := ps })
    | (s, x) => (s, .inl x)

/-- The physical segments of an array: address and length, page by page. -/
def Span.segments (x : Span) : List (Nat × Nat) :=
  mapFrom (fun i p =>
    let first := if i = 0 then x.va % 65536 else 0
    let last := min 65536 (x.va % 65536 + x.bytes - 65536 * i)
    (p + first, last - first)) 0 x.pages

/-- Two arrays share a physical byte. -/
def Span.meets (x y : Span) : Bool :=
  x.segments.any fun a => y.segments.any fun b => decide (a.1 < b.1 + b.2) && decide (b.1 < a.1 + a.2)

/-- The arrays of a region. -/
def Region.spans (r : Region) : List Span := [r.leaf, r.value, r.shadow]

/-- A new region shares a byte among its arrays, or with an open region (Table 12.5, code 5). -/
def State.spansClash (s : State) (r : Region) : Bool :=
  r.leaf.meets r.value || r.leaf.meets r.shadow || r.value.meets r.shadow ||
    s.ctx.regions.any fun o => o.spans.any fun y => r.spans.any fun x => x.meets y

/-- An uncorrectable error lies in an array. -/
def State.spanBad (s : State) (x : Span) : Bool :=
  x.segments.any fun e => s.dev.badLines.any fun l => decide (e.1 < 64 * l + 64) && decide (64 * l < e.1 + e.2)

/-- Every core's L1 copies of the lines of the region's arrays are dropped; dirty bytes stay (R288, R290). -/
def State.dropRegionCopies (s : State) (r : Region) : State :=
  let lines := (s.ctx.coreSts.flatMap fun c => c.l1.map Line.line).filter fun l => r.holds (64 * l)
  lines.foldl State.dropCopies s

/-- A page of the region's arrays has no translation, and Maelner will not give it one. -/
def Region.lost (r : Region) : Bool := r.spans.any fun x => x.pages.any fun p => decide (2 ^ 60 ≤ p)

/-- The page-table entries that a walk of a page reads. -/
def State.walkSlots (s : State) (va : Nat) : Nat → Nat → List Nat
  | level, table =>
    let slot := table + 8 * levelIndex va level
    let e := bytesW64 (readBytes s.mem slot 8)
    if e.getLsbD 3 || !(e.getLsbD 0) then [slot]
    else match level with
      | 0 => [slot]
      | l + 1 => slot :: State.walkSlots s va l (ptePage e)

/-- The page-table entries that the translations of a region's arrays rest on (R289). -/
def State.spanSlots (s : State) (r : Region) : List Nat :=
  (r.spans.flatMap fun x => (List.range x.pages.length).flatMap fun i =>
    s.walkSlots ((x.va / 65536 + i) * 65536) 3 s.ctx.ptRoot).eraseDups

/-- The end of an open: the checks of codes 5 to 7, and then the build (R288). -/
def State.openWith (s : State) (x : Cmd) (r : Region) : State :=
  let pin := x.imm.getLsbD 0
  let fits := decide (s.pinnedAt r.num + r.shadowBytes ≤ 393216)
  if s.spansClash r then s.finishCmd x 5#32
  else if pin && !fits then s.finishCmd x 6#32
  else if s.spanBad r.leaf || s.spanBad r.value || r.lost then s.finishCmd x 7#32
  else
    let s := s.dropRegionCopies r
    let r := { r with pinned := fits, opening := s.nextId, slots := s.spanSlots r }
    let r := if r.isAgg then r.rebuild s.mem else r.buildClu s.mem
    ({ s with nextId := s.nextId + 1, ctx := { s.ctx with regions := s.ctx.regions ++ [r] } }).finishCmd x (if fits then 0#32 else 1#32)

/-- Arrays translated one after the other: a bad page of any of them comes before a missing page (code 4). -/
def State.spansAt (s : State) (fill : Bool) : List (W64 × Nat) → State × (Pages ⊕ List Span)
  | [] => (s, .inr [])
  | (va, n) :: rest =>
    let (s, x) := s.spanAt fill va n
    let (s, y) := s.spansAt fill rest
    (s, match x, y with
      | .inl .bad, _ => .inl .bad
      | _, .inl .bad => .inl .bad
      | .inl e, _ => .inl e
      | _, .inl e => .inl e
      | .inr a, .inr b => .inr (a :: b))

/-- An open with its fields: codes 2 and 3 checked by the caller, the arrays then translated, and a missing page waits
for Maelner. -/
def State.openRegion (s : State) (x : Cmd) (arrays : List (W64 × Nat)) (mk : List Span → Region) : State :=
  match s.spansAt x.unserviced arrays with
  | (s, .inr spans) => s.openWith x (mk spans)
  | (s, .inl (.missing page)) => s.stick x.id page
  | (s, .inl _) => s.finishCmd x 4#32

/-- An open, or a LAUNCH, may go on: it has done its release, or the accesses that a release FENCE of device scope of its crew waits for are performed (R257, R271, R288,
R365). -/
def State.openAfter (s : State) (x : Cmd) : Bool :=
  x.started || (s.cmdAfter x && !(s.ctx.reqs.any fun r =>
    decide (r.id < x.id) && !r.kind.near && s.crewOwn x.team x.crew r || s.chained x.core .dev r))

/-- Step 1 of an open or a LAUNCH, once: a release FENCE of device scope, which later accesses of the crew come after (R257, R288, R365). -/
def State.openRelease (s : State) (x : Cmd) : State :=
  if x.started then s else (s.releaseS x.core false).updCmd x.id fun y => { y with started := true }

/-- AGG_OPEN_COMPLETE (R288, Tables 12.4 and 12.5). -/
def execAggOpenComplete (cmd : Nat) (s : State) : Out :=
  match s.cmd? cmd with
  | none => .next s
  | some x =>
    if x.kind ≠ .aggOpen ∨ !(s.openAfter x) ∨ x.stuck.isSome then .next s
    else
      let s := s.openRelease x
      let w := x.desc.getD 5 0#32
      let num := (w.extractLsb' 0 8).toNat
      let kind := (w.extractLsb' 8 3).toNat
      let n := (x.desc.getD 4 0#32).toNat + 1
      if (s.region num).isSome then .next (s.finishCmd x 2#32)
      else if 5 ≤ kind ∨ w.extractLsb' 11 21 ≠ 0#21 then .next (s.finishCmd x 3#32)
      else .next (s.openRegion x [(x.addr 0, 4 * n), (x.addr 2, aggShadow kind n)] fun spans =>
        { num := num, kind := .agg kind n, pinned := false, leaf := spans.getD 0 ⟨0, 0, []⟩, value := ⟨0, 0, []⟩,
          shadow := spans.getD 1 ⟨0, 0, []⟩ })

/-- CLU_OPEN_COMPLETE (R322, Tables 13.6 and 13.7). -/
def execCluOpenComplete (cmd : Nat) (s : State) : Out :=
  match s.cmd? cmd with
  | none => .next s
  | some x =>
    if x.kind ≠ .cluOpen ∨ !(s.openAfter x) ∨ x.stuck.isSome then .next s
    else
      let s := s.openRelease x
      let w := x.desc.getD 8 0#32
      let num := (w.extractLsb' 0 8).toNat
      let d := 16 * ((w.extractLsb' 8 4).toNat + 1)
      let dv16 := (w.extractLsb' 16 5).toNat
      let dv := 16 * dv16
      let cap := (x.desc.getD 6 0#32).toNat + 1
      let m := (x.desc.getD 7 0#32).toNat
      if (s.region num).isSome then .next (s.finishCmd x 2#32)
      else if 2 ^ 31 < cap ∨ cap < m ∨ 16 < dv16 ∨ w.extractLsb' 12 4 ≠ 0#4 ∨ w.extractLsb' 21 11 ≠ 0#11 then
        .next (s.finishCmd x 3#32)
      else .next (s.openRegion x
        [(x.addr 0, 4 * d * cap), (x.addr 2, 4 * dv * cap), (x.addr 4, cluShadow d dv cap)] fun spans =>
        { num := num, kind := .clu d dv cap m, pinned := false, leaf := spans.getD 0 ⟨0, 0, []⟩,
          value := spans.getD 1 ⟨0, 0, []⟩, shadow := spans.getD 2 ⟨0, 0, []⟩ })

/-! ## Region control instructions -/

/-- A request of the run to a region's home slice. -/
def State.regionReq (s : State) (kind : ReqKind) (rg : BitVec 8) (d regs : Nat) : Req :=
  { s.newReq 32 kind with region := rg.toNat, dest := d, regs := regs, scope := .dev }

/-- The run makes a request and moves on; it waits while the core has no free entry. -/
def State.sendRegion (s : State) (r : Req) : Out :=
    match s.issueWait [r] with
    | some w => .next (s.stallRoom w)
    | none => .next ((s.addReqs [r]).done true)

/-- The run makes a request and waits for it (R290, R323). -/
def State.awaitRegion (s : State) (r : Req) : Out :=
    match s.issueWait [r] with
    | some w => .next (s.stallRoom w)
    | none => .next ((s.addReqs [r]).waitRun (.closed [r.id]))

/-- AGG.CLOSE (R290, R299). -/
def execAggClose (rg : BitVec 8) (s : State) : Out :=
  s.uniformUnit none {} fun s =>
    if (s.aggRegion rg.toNat).isNone then .next (s.parkRun .region 0#64 true)
    else s.awaitRegion (s.regionReq .aggClose rg 0 0)

/-- AGG.INFO (R299). -/
def execAggInfo (d rg : BitVec 8) (pick : BitVec 3) (s : State) : Out :=
  s.uniformUnit none { k := [d.toNat] } fun s => s.sendRegion (s.regionReq (.aggInfo pick) rg d.toNat 1)

/-- AGG.REFRESH: the run does not wait (R299). -/
def execAggRefresh (rg : BitVec 8) (s : State) : Out :=
  s.uniformUnit none {} fun s =>
    if (s.aggRegion rg.toNat).isNone then .next (s.parkRun .region 0#64 true)
    else s.sendRegion (s.regionReq .aggRefresh rg 0 0)

/-- The crew's outstanding updates of one region, or of every region of a kind: leaf or row writes, refreshes and
grows (R295, R312). -/
def State.updatesOut (s : State) (agg : Bool) (rg : Option Nat) : List Nat :=
  (s.ctx.reqs.filter fun r => r.team == s.cur.team && r.crew == s.cur.crew && r.failed.isNone &&
    (match r.kind with | .aggRefresh | .cluGrow _ => true | k => k.writes) &&
    match (s.reqRegion r).bind s.region with
    | some g => g.isAgg == agg && (match rg with | some n => g.num == n | none => true)
    | none => false).map Req.id

/-- The run waits for updates; a closed number has no effect (R299, R323). -/
def State.regionFence (s : State) (agg : Bool) (rg : BitVec 8) (all : Bool) : Out :=
  let ids := s.updatesOut agg (if all then none else some rg.toNat)
  if ids = [] then .next (s.done true) else .next (s.waitRun (.closed ids))

/-- AGG.FENCE (R295, R299). -/
def execAggFence (rg : BitVec 8) (all : Bool) (s : State) : Out :=
  s.uniformUnit none {} fun s => s.regionFence true rg all

/-- CLU.CLOSE (R323). -/
def execCluClose (rg : BitVec 8) (s : State) : Out :=
  s.uniformUnit s.walkCheck {} fun s =>
    if (s.cluRegion rg.toNat).isNone then .next (s.parkRun .region 0#64 true)
    else s.awaitRegion (s.regionReq .cluClose rg 0 0)

/-- CLU.GROW (R311, R323). -/
def execCluGrow (d rg b : BitVec 8) (s : State) : Out :=
  s.uniformUnit s.walkCheck { k := [d.toNat, b.toNat] } fun s =>
    if (s.cluRegion rg.toNat).isNone then .next (s.parkRun .region 0#64 true)
    else s.sendRegion (s.regionReq (.cluGrow (s.crew.kreg b.toNat)) rg d.toNat 1)

/-- CLU.FENCE (R312, R323). -/
def execCluFence (rg : BitVec 8) (all : Bool) (s : State) : Out :=
  s.uniformUnit s.walkCheck {} fun s => s.regionFence false rg all

/-- The status of WALK.SET (R324). -/
def walkSetStatus (theta mode : W32) : W32 :=
  let v := f32.decode false theta.toNat
  if mode.extractLsb' 1 31 ≠ 0#31 then 1#32
  else if v.isNan || v.isInf || v.lt (.fin false 0 0) then 2#32
  else 0#32

/-- WALK.SET (R313, R324). -/
def execWalkSet (t q : BitVec 8) (s : State) : Out :=
  s.uniformUnit s.walkCheck (ueNames t q 3) fun s =>
    .next ((s.updCrew fun c =>
      let w := c.desc q 3
      let status := walkSetStatus (w.getD 0 0#32) (w.getD 1 0#32)
      let c := if status = 0#32 then
          { c with theta := w.getD 0 0#32, walkMode := (w.getD 1 0#32).getLsbD 0, mincount := w.getD 2 0#32 }
        else c
      c.setK t.toNat status).done true)

/-! ## Range loads and CLU.NODE -/

/-- The scope, order and remote fields of a region read. -/
def regionRead (p : Prefix) (acq : Bool) (r : Req) : Req :=
  { r with scope := globalScope p.scope, acq := acq, remote := p.remote }

/-- The active lanes make region requests in ascending order, once the core has room for them. Whether the region is open is
seen at each request's position of the serial order (R268, R290). -/
def State.regionLanes (s : State) (act : W32) (mk : Nat → Req → Req) : State :=
  let rs := mapFrom (fun i l => { mk l (s.newReq l .store) with id := s.nextId + i }) 0 (lanesOf act)
  match s.issueWait rs with
  | some w => s.stallRoom w
  | none => (s.addReqs rs).done false

/-- A range load (R300, R301). -/
def State.rangeUnit (s : State) (p : Prefix) (which : Nat) (arg : Bool) (d : BitVec 7) (a : Src) (rg : BitVec 8) : Out :=
  let n := rangeRegs which arg
  s.laneUnit p ((srcNames a 2).add (destNames d n)) (zeroV d n) fun s act =>
    let c := s.crew
    .next (s.regionLanes act fun l r =>
      regionRead p (p.order == .acq || p.order == .acqRel)
        { r with kind := .range which arg (c.src a l) (c.srcNext a 1 l) (c.vpair d.toNat l), region := rg.toNat,
                 dest := d.toNat, regs := n })

/-- LDA.SUM (R301). -/
def execLdaSum (p : Prefix) (arg : Bool) (d : BitVec 7) (a : Src) (rg : BitVec 8) (s : State) : Out :=
  s.rangeUnit p 0 arg d a rg

/-- LDA.MAX (R301). -/
def execLdaMax (p : Prefix) (arg : Bool) (d : BitVec 7) (a : Src) (rg : BitVec 8) (s : State) : Out :=
  s.rangeUnit p 1 arg d a rg

/-- LDA.MIN (R301). -/
def execLdaMin (p : Prefix) (d : BitVec 7) (a : Src) (rg : BitVec 8) (s : State) : Out := s.rangeUnit p 2 false d a rg

/-- LDA.FIND (R301). -/
def execLdaFind (p : Prefix) (arg : Bool) (d : BitVec 7) (a : Src) (rg : BitVec 8) (s : State) : Out :=
  s.rangeUnit p 3 arg d a rg

/-- LDA.PICK (R301). -/
def execLdaPick (p : Prefix) (arg : Bool) (d : BitVec 7) (a : Src) (rg : BitVec 8) (s : State) : Out :=
  s.rangeUnit p 4 arg d a rg

/-- CLU.NODE (R326). On the LX940 it raises ABSENT on its active lanes (R304, R53). -/
def execCluNode (p : Prefix) (q : Bool) (d : BitVec 7) (a : Src) (rg : BitVec 8) (s : State) : Out :=
  let act := s.activeLanes p
  if s.walkCheck.isSome then .next (if act = 0#32 then s.done false else s.parkLanes act .absent 0#64)
  else
    let n := if q then 4 else 1
    s.laneUnit p ((srcNames a 2).add (destNames d n)) (zeroV d n) fun s act =>
      let c := s.crew
      .next (s.regionLanes act fun l r =>
        regionRead p (ordAcq p.order)
          { r with kind := .node q (c.src a l) (c.srcNext a 1 l), region := rg.toNat, dest := d.toNat, regs := n })

/-! ## Requests at the home slice -/

/-- The request's acquire, once its value is bound (R268, R272). -/
def State.regionPromote (s : State) (r : Req) : State :=
  if r.remote && scopeWide r.scope then s.promote r.core r.scope none else s
def State.regionAcquire (s : State) (r : Req) : State :=
  if r.acq && scopeWide r.scope then s.acquireS r.core else s

/-- The address of an entry of an aggregate tree: a leaf, or a place in the shadow (R281, R283). -/
def Region.entryPa (g : Region) (level j : Nat) : Nat :=
  if level = 0 then g.leaf.pa (4 * j) else g.shadow.pa (g.nodeKey level j * (64 / fanout g.agg.1))

/-- A leaf line or a node line read for a range load has an uncorrectable error (R302). -/
def State.rangeBad (s : State) (g : Region) (which : Nat) (arg : Bool) (start stop : W32) (operand : W64) : Bool :=
  (g.rangeReads s.mem which arg start stop operand).any fun e => s.badAt (g.entryPa e.1 e.2)

/-- The record lines of a cluster node that some words of it stand in have an uncorrectable error (R326). -/
def State.recordBad (s : State) (g : Region) (node w n : Nat) : Bool :=
  (List.range n).any fun i => s.badAt (g.shadow.pa (4 * (node * cluStride g.clu.1 g.clu.2.1 + w + i)))

/-- `n` bytes of a region's result: unspecified once a translation of the region has changed (R289). -/
def State.resultOf (s : State) (g : Region) (bytes : List Byte) : State × List Byte :=
  if g.remapped then s.shadowRead bytes.length else (s, bytes)

/-- RANGE_LOAD_PERFORM (R289, R294, R301, R302). -/
def execRangeLoadPerform (req : Nat) (s : State) : Out :=
  match s.req? req with
  | none => .next s
  | some r =>
    match r.kind with
    | .range which arg start stop operand =>
      if !(s.reqReady r) then .next s
      else
        let s := ((s.regionPromote r).sheetAt r).missOf r.core (s.classOf r.team)
        match s.aggRegion r.region with
        | none => .next (s.failReq r .region)
        | some g =>
          if g.agg.1 ≠ rangeKind which arg then .next (s.failReq r .region)
          else if s.rangeBad g which arg start stop operand then .next (s.failReq r .ecc)
          else
            let (s, x) := s.resultOf g (w64Bytes (g.rangeResult s.mem which arg start stop operand))
            .next (((s.freeReq r).regionAcquire r).deliver r x)
    | _ => .next s

/-- A leaf or row update of a request at its position in the region's order, when its place is what `agg` says
(R291, R310). -/
def State.updatePerform (s : State) (req : Nat) (agg : Bool) : Out :=
  match s.req? req with
  | none => .next s
  | some r =>
    match (s.reqRegion r).bind s.region with
    | none => .next s
    | some g => if r.kind.writes && g.isAgg == agg && s.reqReady r then .next (s.performMem r) else .next s

/-- LEAF_UPDATE (R291). -/
def execLeafUpdate (req : Nat) (s : State) : Out := s.updatePerform req true

/-- ROW_UPDATE (R310). -/
def execRowUpdate (req : Nat) (s : State) : Out := s.updatePerform req false

/-- The value of AGG.INFO (Tables 12.7 and 12.8). -/
def State.aggInfoValue (s : State) (num : Nat) (pick : Nat) : W32 :=
  match s.aggRegion num with
  | none => 0#32
  | some g =>
    let total := s.pinnedAt num
    match pick with
    | 0 => word (2 ^ 31 + (if g.pinned then 2 ^ 30 else 0) + g.height * 2 ^ 12 + g.agg.1 * 2 ^ 8 + num)
    | 1 => word (g.agg.2 - 1)
    | 2 => word (g.shadowBytes % 2 ^ 32)
    | 3 => word (g.shadowBytes / 2 ^ 32)
    | 4 => word (s.regionHome num)
    | 5 => word (ceilDiv total 65536 * 65536)
    | _ => word (393216 - total)

/-- An information word of a cluster region (Table 13.9). -/
def State.cluInfoValue (s : State) (g : Region) (w : Nat) : W32 :=
  let (d, dv, cap, m) := g.clu
  match w with
  | 0 => word (2 ^ 31 + (if g.pinned then 2 ^ 30 else 0) + dv / 16 * 2 ^ 16 + ((cluLevels cap).length - 1) * 2 ^ 12
      + (d / 16 - 1) * 2 ^ 8 + g.num)
  | 1 => word m
  | 2 => word (cap - 1)
  | 3 => word (cluNodes cap)
  | 4 => word (4 * cluStride d dv)
  | 5 => word (s.regionHome g.num)
  | _ => 0#32

/-- A word that CLU.NODE reads (R326, R327). -/
def State.nodeWord (s : State) (g : Region) (node : W32) (w : Nat) : W32 :=
  let (d, dv, cap, _) := g.clu
  if node = 0xFFFFFFFF#32 then s.cluInfoValue g w
  else if cluStride d dv ≤ w ∨ cluNodes cap ≤ node.toNat then 0#32
  else g.recWord node.toNat w

/-- Bytes written to an array's physical pages, piece by piece within lines. -/
def State.spanWrite (s : State) (x : Span) (ys : List Byte) : State :=
  (pieces (ys.length / 64 + 2) x.va ys.length).foldl (fun s e =>
    s.rawWrite (x.pa (e.1 - x.va)) (sliceBytes ys (e.1 - x.va) e.2)) s

/-- The shadow's bytes of a region. -/
def Region.bytes (g : Region) : List Byte := if g.isAgg then g.aggShadowBytes else g.cluShadowBytes

/-- A region closes at its position: the shadow is written, and L1 copies of its lines are dropped (R284, R290). -/
def State.closeRegion (s : State) (g : Region) : State :=
  let s := (s.dropRegionCopies g)
  let s := { s with ctx := { s.ctx with regions := s.ctx.regions.filter fun r => r.num != g.num } }
  s.spanWrite g.shadow g.bytes

/-- The words that CLU.NODE reads from a node's record, of a number that is a node's (R326). -/
def State.nodeBad (s : State) (g : Region) (node : W32) (w n : Nat) : Bool :=
  decide (node.toNat < cluNodes g.clu.2.2.1) &&
    s.recordBad g node.toNat w (min n (cluStride g.clu.1 g.clu.2.1 - w))

/-- AGG.INFO's value as the request returns it (R289). -/
def State.infoBytes (s : State) (num pick : Nat) : State × List Byte :=
  match s.aggRegion num with
  | some g => s.resultOf g (w32Bytes (s.aggInfoValue num pick))
  | none => (s, w32Bytes (s.aggInfoValue num pick))

/-- REGION_CONTROL_PERFORM (R289, R290, R292, R294, R311, R326). -/
def execRegionControlPerform (req : Nat) (s : State) : Out :=
  match s.req? req with
  | none => .next s
  | some r =>
    if !(s.reqReady r) then .next s
    else
      let s := s.missOf r.core (s.classOf r.team)
      let s' := (s.freeReq r).sheetAt r
      match r.kind with
      | .aggInfo pick => let (s', x) := s'.infoBytes r.region pick.toNat; .next (s'.deliver r x)
      | .aggRefresh =>
        .next (match s'.aggRegion r.region with
          | some _ => s'.updRegion r.region fun g => g.rebuild s'.mem
          | none => s')
      | .aggClose => .next (match s'.aggRegion r.region with | some g => s'.closeRegion g | none => s')
      | .cluClose => .next (match s'.cluRegion r.region with | some g => s'.closeRegion g | none => s')
      | .cluGrow rows =>
        .next (match s'.cluRegion r.region with
          | some g =>
            let g' := g.grow s'.mem rows.toNat
            let m := g.clu.2.2.2
            let m' := g'.clu.2.2.2
            let blocks := if m = m' then 0 else (m' - 1) / 16 - m / 16 + 1
            let (s', x) := ((s'.updRegion r.region fun _ => g').spend r.core (s'.classOf r.team) 2 blocks).resultOf g
              (w32Bytes (word m'))
            s'.deliver r x
          | none => (s.sheetAt r).failReq r .region)
      | .node quad num wordIdx =>
        let n := if quad then 4 else 1
        let s1 := (s.regionPromote r).sheetAt r
        .next (match s1.cluRegion r.region with
          | some g =>
            if s1.nodeBad g num wordIdx.toNat n then s1.failReq r .ecc
            else
              let (s2, x) := s1.resultOf g ((List.range n).flatMap fun i => w32Bytes (s1.nodeWord g num (wordIdx.toNat + i)))
              ((s2.freeReq r).regionAcquire r).deliver r x
          | none => s1.failReq r .region)
      | _ => .next s

end Sys2Proof.Machine
end

