-- ==== Sys2Proof/Machine/Matrix.lean ====
section
/-!
DEFINITION. Matrix operations and the accumulator store (R213 to R232): the instructions, the start and the end of an
operation, and ACC.ST.
-/

namespace Sys2Proof.Machine

/-! ## Direct accumulator units -/

/-- A row lies inside the crew's window (R214). -/
def Crew.inWindow (c : Crew) (row : Nat) : Bool := decide (c.window.1 ≤ row) && decide (row < c.window.2)

/-- The row and column of a direct access (R231). -/
def accIndex (x : W32) : Nat × Nat := ((x.extractLsb' 9 10).toNat, (x.extractLsb' 0 9).toNat)

/-- A row of the crew's core as a list, where a command owns it (R222). -/
def State.rowOwned (s : State) (row : Nat) : List Nat := if s.owners s.cur.team s.crew.core row = [] then [] else [row]

/-- A direct accumulator unit: lanes outside the window park, the others' accesses join the outstanding ones in ascending
order of lanes. -/
def State.accUnit (s : State) (p : Prefix) (d : BitVec 7) (a : Src) (zero : Crew → Nat → Crew) (kind : ReqKind)
    (dest : Nat) : Out :=
  s.laneUnit p ((srcNames a 1).add (destNames d 1)) zero fun s act =>
    let c := s.crew
    let bad := act &&& maskOf fun l => !(c.inWindow (accIndex (c.src a l)).1)
    let rs := mapFrom (fun i l =>
      let e := accIndex (c.src a l)
      { s.newReq l kind with
        id := s.nextId + i, pa := 512 * e.1 + e.2, size := 1, dest := d.toNat, regs := dest, owned := s.rowOwned e.1,
        data := w32Bytes (c.vreg d.toNat l) }) 0 (lanesOf (act &&& ~~~bad))
    .next ((s.addReqs rs).parkLanes bad .accwin 0#64)

/-- ACC.RD (R231). -/
def execAccRd (p : Prefix) (clr : Bool) (d : BitVec 7) (a : Src) (s : State) : Out :=
  s.accUnit p d a (zeroV d 1) (.accRd clr) 1

/-- ACC.WR (R231). -/
def execAccWr (p : Prefix) (d : BitVec 7) (a : Src) (s : State) : Out := s.accUnit p d a (fun c _ => c) .accWr 0

/-- ACC.ADD (R231). -/
def execAccAdd (p : Prefix) (d : BitVec 7) (a : Src) (s : State) : Out := s.accUnit p d a (fun c _ => c) .accAdd 0

/-- ACC.WIN (R215, R228): the target crew is checked against either window until a barrier orders the change. -/
def execAccWin (d a b : BitVec 8) (s : State) : Out :=
  s.uniformUnit none { k := [d.toNat, a.toNat, b.toNat] } fun s =>
    let c := s.crew
    let target := (c.kreg d.toNat).toNat
    let base := (c.kreg a.toNat).toNat
    let limit := (c.kreg b.toNat).toNat
    if s.cur.crew ≠ 0 ∨ s.team.ncrews ≤ target ∨ limit < base ∨ s.team.accRows < limit then
      .next (s.parkRun .accwin 0#64 true)
    else
      let was := s.team.crews.getD target Crew.missing
      let s := s.change s.cur.team s.cur.crew (fun c => c.idx == target) (.window was.winBase was.winLimit)
      .next ((s.updCrewOf s.cur.team target fun c => { c with winBase := base, winLimit := limit }).done true)

/-- ACC.CLR (R229). -/
def execAccClr (a b : BitVec 8) (s : State) : Out :=
  s.uniformUnit none { k := [a.toNat, b.toNat] } fun s =>
    let c := s.crew
    let first := (c.kreg a.toNat).toNat
    let count := (c.kreg b.toNat).toNat
    if count = 0 then .next (s.done true)
    else if first < c.window.1 ∨ c.window.2 < first + count then .next (s.parkRun .accwin 0#64 true)
    else
      let r := { s.newReq 32 .accClr with
        pa := 512 * first, size := 512 * count, owned := (List.range count).flatMap fun i => s.rowOwned (first + i) }
      .next ((s.addReqs [r]).done true)

/-! ## Shape of an operation -/

/-- Columns of one column tile of a plate (R200). -/
def plateNm (w : W32) : Nat := 2048 / (2 * 2 ^ (w.extractLsb' 20 2).toNat)

/-- Mantissa width of a plate (Table 8.3). -/
def plateMw (w : W32) : Nat := 2 * 2 ^ (w.extractLsb' 20 2).toNat

/-- Macros along K of a plate. -/
def plateKt (w : W32) : Nat := (w.extractLsb' 13 7).toNat

/-- The block of a plate an operation takes: KT0, NKT, CT0, NCT (Table 9.1). -/
structure Block where
  kt0 : Nat
  nkt : Nat
  ct0 : Nat
  nct : Nat

def blockOf (w : W32) : Block :=
  ⟨(w.extractLsb' 18 6).toNat, (w.extractLsb' 12 6).toNat, (w.extractLsb' 6 6).toNat, (w.extractLsb' 0 6).toNat⟩

/-- Word n of a command's descriptor. -/
def Cmd.word (x : Cmd) (n : Nat) : W32 := x.desc.getD n 0#32

/-- ROW, and Ra of a command (Table 9.5). -/
def Cmd.row (x : Cmd) : Nat := ((x.word 1).extractLsb' 0 10).toNat
def Cmd.ra (x : Cmd) : Nat :=
  if x.kind = .mxr then ((x.word 1).extractLsb' 25 2).toNat + 1 else ((x.word 1).extractLsb' 17 4).toNat + 1

/-- The activation width mA (R226). -/
def Cmd.ma (x : Cmd) : Nat := (x.imm.extractLsb' 3 3).toNat + 1

/-- Output columns and parts of a row, for a plate's Nm (R216, R217). -/
def Cmd.nc (x : Cmd) (nm : Nat) : Nat := ((blockOf (x.word 0)).nct + 1) * nm
def Cmd.cpr (x : Cmd) (nm : Nat) : Nat := ceilDiv (x.nc nm) 512

/-- The vector registers a descriptor names (R219, R220). -/
def Cmd.vregs (x : Cmd) : List Nat :=
  if x.kind = .mxr then
    ((List.range 8).map fun i => ((x.word 1).extractLsb' 10 7).toNat + i) ++ [((x.word 1).extractLsb' 17 7).toNat]
  else [((x.word 1).extractLsb' 10 7).toNat]

/-- The lanes of those registers that are captured: all, or the first Ra. -/
def Cmd.vlanes (x : Cmd) : Nat := if x.kind = .mxr then 32 else x.ra

/-- What the capture reads, by register. -/
def Cmd.vreads (x : Cmd) : List (Nat × W32) := x.vregs.map fun r => (r, maskOf fun l => decide (l < x.vlanes))

/-- The captured vector registers: register i of lane l at place n i + l, for n captured lanes. -/
def Cmd.capture (x : Cmd) (c : Crew) : List W32 :=
  x.vregs.flatMap fun r => (List.range x.vlanes).map fun l => c.vreg r l

/-- The conditions MXFENCE has set, as dependences of the next operation (R225). -/
def Crew.mxDeps (c : Crew) : List Dep :=
  c.mxCmds.map Dep.cmd ++ (if c.mxFailed then [Dep.failed] else []) ++ c.mxPhases.map fun e => .phase e.1 e.2

/-- The issue of a matrix operation (R226). -/
def State.mxIssue (s : State) (kind : CmdKind) (n : Nat) (t q : BitVec 8) (imm : BitVec 8) : Out :=
  s.uniformUnit none (ueNames t q n) fun s =>
    let x := s.newCmd kind t q imm n
    let w := s.team.plateFor s.cur.crew x.plate
    let nm := if w.getLsbD 31 then plateNm w else 0
    let own := if nm = 0 then 0 else x.ra * x.cpr nm
    if !(x.vregs.all fun r => decide (r < s.team.vBudget)) then .next (s.parkRun .budget 0#64 true)
    else if 0 < own ∧ (s.crew.window.2 < x.row + own ∨ x.row < s.crew.window.1) then
      .next (s.parkRun .accwin 0#64 true)
    else s.afterEach x.vreads fun s =>
    if s.engineFull s.crew.core 1 then .next (s.stallRoom (.engineRoom 1))
    else
      let x := { x with regs := x.capture s.crew, deps := s.crew.mxDeps, ownBase := x.row, ownCount := own, nm := nm }
      let s := s.updCrew fun c => { c with mxCmds := [], mxFailed := false, mxPhases := [] }
      .next ((s.addCmd x).done true)

/-- The imm8 of MXR and MXG: Z, mA - 1 and the plate (R226). -/
def mxImm (z : Bool) (ma pl : BitVec 3) : BitVec 8 := 0#1 ++ BitVec.ofBool z ++ ma ++ pl

/-- MXR (R226). -/
def execMxr (t q : BitVec 8) (z : Bool) (ma pl : BitVec 3) (s : State) : Out := s.mxIssue .mxr 2 t q (mxImm z ma pl)

/-- MXG (R226). -/
def execMxg (t q : BitVec 8) (z : Bool) (ma pl : BitVec 3) (s : State) : Out := s.mxIssue .mxg 5 t q (mxImm z ma pl)

/-- MXFENCE (R225, R227): it does not wait for the token it names. -/
def execMxfence (a : BitVec 8) (on : Bool) (bar : BitVec 4) (s : State) : Out :=
  s.uniformUnit none { quiet := [a.toNat] } fun s =>
    let phase := s.waitPhase bar.toNat
    .next ((s.updCrew fun c =>
      let c := match c.busy.reverse.find? fun e => e.1 == a.toNat with
        | some e => { c with mxCmds := c.mxCmds ++ [e.2] }
        | none => { c with mxFailed := c.mxFailed || isFailure (c.kreg a.toNat) }
      if on then { c with mxPhases := c.mxPhases ++ [(bar.toNat, phase)] } else c).done true)

/-! ## Start and end of an operation -/

/-- The plate's control word of a command: the one read at its start, or the one its crew sees before that (R205, R224). -/
def Team.cmdPlate (t : Team) (x : Cmd) : W32 := if x.started then x.plateW else t.plateFor x.crew x.plate

/-- The plate macros of a command. -/
def State.cmdMacros (s : State) (x : Cmd) : List Nat :=
  let w := ((s.team? x.team).getD Team.missing).cmdPlate x
  if w.getLsbD 31 then (List.range (plateMacros w).2).map fun i => (plateMacros w).1 + i else []

/-- Owned rows of two commands overlap. -/
def rowsMeet (x y : Cmd) : Bool :=
  decide (0 < x.ownCount) && decide (0 < y.ownCount) && decide (x.ownBase < y.ownBase + y.ownCount) &&
    decide (y.ownBase < x.ownBase + x.ownCount)

/-- The start conditions of R221. -/
def State.mxReady (s : State) (x : Cmd) : Bool :=
  !x.started && s.depsSettled x && s.cmdAfter x &&
    !(s.ctx.cmds.any fun y => y.team == x.team && decide (y.id < x.id) &&
      ((y.isMatrix && (s.cmdMacros y).any fun m => (s.cmdMacros x).contains m) ||
        (y.core == x.core && (y.isMatrix || y.kind == .accSt) && rowsMeet x y)))

/-- The half of a team's allocation that holds a macro: 0 the leader's, 1 the follower's. -/
def Team.macroHalf (t : Team) (j : Nat) : Nat := if t.twin && decide (t.spadBytes / 2 ≤ 65536 * j) then 1 else 0

/-- The plate lies where R218 allows for a command of a core. -/
def Team.plateAllowed (t : Team) (w : W32) (core : Nat) : Bool :=
  let ms := (List.range (plateMacros w).2).map fun i => (plateMacros w).1 + i
  let own := if t.twin && core != t.core then 1 else 0
  own == 0 && t.twin && ms.any (fun m => t.macroHalf m == 1) && ms.any (fun m => t.macroHalf m == 0) ||
    ms.all fun m => t.macroHalf m == own

/-- A check of the Fault row of Table 9.3 fails at the start. -/
def Team.mxFaults (t : Team) (x : Cmd) : Bool :=
  let w := t.cmdPlate x
  let b := blockOf (x.word 0)
  let nt := (plateMacros w).2 / plateKt w
  let reserved := (x.word 0).extractLsb' 24 8 != 0#8 ||
    (if x.kind = .mxr then (x.word 1).extractLsb' 27 5 != 0#5
     else (x.word 1).extractLsb' 21 11 != 0#11 || (x.word 4).extractLsb' 16 16 != 0#16)
  !(w.getLsbD 31) || x.nm == 0 || plateNm w != x.nm || decide (plateKt w < b.kt0 + b.nkt + 1) ||
    decide (nt < b.ct0 + b.nct + 1) || !(t.plateAllowed w x.core) || reserved ||
    (if x.kind = .mxr then b.nkt != 0 || decide (((x.word 1).extractLsb' 10 7).toNat % 8 ≠ 0)
     else decide (((x.word 4).extractLsb' 0 16).toNat < 16 * (b.kt0 + b.nkt + 1)))

/-- One byte of a team's scratchpad at a 32-bit offset (R194, R220). -/
def Team.spadByte (t : Team) (off : Nat) : Byte := readKey t.spad (spadWrap t.spadBytes (off % 2 ^ 32) 1)

/-- The offsets of the bytes that MXG gathers: for each row and needed block, 2 mA mantissa bytes and the exponent byte
(R220). -/
def Cmd.gathers (x : Cmd) : List Nat :=
  let b := blockOf (x.word 0)
  let nb := ((x.word 4).extractLsb' 0 16).toNat
  let mb := (x.word 2).toNat
  let eb := (x.word 3).toNat
  (List.range x.ra).flatMap fun i =>
    let row := (x.regs.getD i 0#32).toNat
    (List.range (16 * (b.nkt + 1))).flatMap fun j =>
      let blk := 16 * b.kt0 + j
      ((List.range (2 * x.ma)).map fun z => mb + (row * nb + blk) * 2 * x.ma + z) ++ [eb + row * nb + blk]

/-- The operand latch of a started MXG: the bytes that it has gathered already, and the others as they are now (R220). -/
def Team.latch (t : Team) (x : Cmd) : Cmd :=
  if x.kind = .mxg then { x with regs := (x.overlay (x.gathers.map t.spadByte)).map fun b => b.setWidth 32 } else x

/-- One byte of an MXG gathered, between its start and its products: each byte is read once, at a moment of its own (R220). -/
def State.gatherPart (s : State) (x : Cmd) : State :=
  let os := x.gathers
  let i := (Config.freeWord s.fresh).toNat % os.length
  let s := s.bump 1
  if x.got.any fun e => e.1 == i then s
  else s.updCmd x.id fun y => { y with got := y.got ++ [(i, 0, ((s.team? x.team).getD Team.missing).spadByte (os.getD i 0))] }

/-- MX_START (R221, R224): a failed condition writes Poisoned, a failed check Fault; otherwise the operation starts,
and MXG begins its gather. -/
def execMxStart (cmd : Nat) (s : State) : Out :=
  match s.cmd? cmd with
  | none => .next s
  | some x =>
    if !(x.isMatrix && s.mxReady x) then .next s
    else
      let t := (s.team? x.team).getD Team.missing
      if x.poisoned then .next (s.finishCmd x statusPoisoned)
      else if t.mxFaults x then .next (s.finishCmd x statusFault)
      else .next (s.updCmd cmd fun x =>
        { x with started := true, plateW := t.plateFor x.crew x.plate })

/-- Mantissa i of a packed block string of m-bit mantissas (R98). -/
def packedMantissa (m : Nat) (bytes : List Byte) (i : Nat) : Int := signedOf m (bytesNat bytes / 2 ^ (m * i) % 2 ^ m)

/-- Activation mantissa and exponent of row r, position k counted from the first K tile of the operation. -/
def Cmd.actMantissa (x : Cmd) (r k : Nat) : Int :=
  if x.kind = .mxr then
    let w := x.regs.getD (32 * (k / 32) + k % 32) 0#32
    signedOf x.ma ((w.extractLsb' (8 * r) 8).toNat % 2 ^ x.ma)
  else
    let blocks := 16 * ((blockOf (x.word 0)).nkt + 1)
    let at0 := (r * blocks + k / 16) * (2 * x.ma + 1)
    packedMantissa x.ma (((x.regs.drop at0).take (2 * x.ma)).map fun w => w.setWidth 8) (k % 16)

def Cmd.actExponent (x : Cmd) (r b : Nat) : Nat :=
  if x.kind = .mxr then
    let sel := if (x.word 1).getLsbD 24 then 1 else 0
    ((x.regs.getD (256 + b + 16 * sel) 0#32).extractLsb' (8 * r) 8).toNat
  else
    let blocks := 16 * ((blockOf (x.word 0)).nkt + 1)
    (x.regs.getD ((r * blocks + b) * (2 * x.ma + 1) + 2 * x.ma) 0#32).toNat

/-- The allocation macro that holds plate position k and column n (R202). -/
def plateMacro (w : W32) (k n : Nat) : Nat := (plateMacros w).1 + (n / plateNm w) * plateKt w + k / 256

/-- Weight mantissa (R200, R202) and block exponent (R201) of plate position k, column n. -/
def Team.weight (t : Team) (w : W32) (k n : Nat) : Int :=
  let bit := n % plateNm w * plateMw w
  let b := readKey t.spad (65536 * plateMacro w k n + 256 * (k % 256) + bit / 8)
  signedOf (plateMw w) (b.toNat / 2 ^ (bit % 8) % 2 ^ plateMw w)

def Team.weightExp (t : Team) (w : W32) (k n : Nat) : Nat :=
  (readKey t.side (16384 * plateMacro w k n + 16 * (n % plateNm w) + k % 256 / 16)).toNat

/-- One tile added into an entry (R102): `ew`, `ea` the block exponents, `mw`, `ma` the mantissas of position i of a block. -/
def tileAdd (acc : W32) (wMw wMa blocks : Nat) (ew ea : Nat → Nat) (mw ma : Nat → Nat → Int) : W32 :=
  let js := List.range blocks
  if js.any fun j => ew j == 255 || ea j == 255 then 0x7FC00000#32
  else
    let p (j : Nat) : Int := ((List.range 16).map fun i => mw j i * ma j i).foldl (· + ·) 0
    let sc (j : Nat) : Int := ((ew j : Int) - 127 - (wMw - 1)) + ((ea j : Int) - 127 - (wMa - 1))
    let sMax := js.foldl (fun m j => max m (sc j)) (sc 0)
    let term (j : Nat) : Int :=
      let e := sc j - sMax + 30
      if 0 ≤ e then p j * 2 ^ e.toNat else (p j).tdiv (2 ^ (-e).toNat)
    let total := (js.map term).foldl (· + ·) 0
    word (f32.sum .rne false [f32.decode false acc.toNat, .fin (decide (total < 0)) total.natAbs (sMax - 30)]).1

/-- The value an operation leaves in the entry of activation row r and output column c (R217). -/
def Team.mxEntry (t : Team) (x : Cmd) (acc : W32) (r c : Nat) : W32 :=
  let w := t.cmdPlate x
  let b := blockOf (x.word 0)
  let n := b.ct0 * plateNm w + c
  (List.range (b.nkt + 1)).foldl (fun acc i =>
    let k0 := 256 * (b.kt0 + i)
    tileAdd acc (plateMw w) x.ma 16 (fun j => t.weightExp w (k0 + 16 * j) n) (fun j => x.actExponent r (16 * i + j))
      (fun j z => t.weight w (k0 + 16 * j + z) n) (fun j z => x.actMantissa r (256 * i + 16 * j + z)))
    (if x.imm.getLsbD 6 then 0#32 else acc)

/-- Every entry of an operation written (R217, R226); unspecified when a weight was written meanwhile (R206). -/
def State.mxWrite (s : State) (x : Cmd) : State :=
  let t := (s.team? x.team).getD Team.missing
  let cpr := x.cpr x.nm
  let acc := (List.range x.ra).foldl (fun a r =>
    (List.range (x.nc x.nm)).foldl (fun a c =>
      let key := 512 * (x.row + r * cpr + c / 512) + c % 512
      writeKey a key (if x.tainted then Config.freeWord (s.fresh + r * x.nc x.nm + c)
        else t.mxEntry x (readKey (t.acc x.core) key) r c)) a) (t.acc x.core)
  let keys := (List.range x.ra).flatMap fun r =>
    (List.range (x.nc x.nm)).map fun c => 512 * (x.row + r * cpr + c / 512) + c % 512
  (s.updTeamId x.team fun t =>
    let t := t.setAcc x.core acc
    if x.tainted then t.openKeys x.core keys
    else t.setOpenAcc x.core ((t.openAcc x.core).filter fun k => !(keys.contains k))).bump (if x.tainted then x.ra * x.nc x.nm else 0)

/-- MX_DONE (R220, R223): what is left of the gather is read, and the last entry and the token are written. -/
def execMxDone (cmd : Nat) (s : State) : Out :=
  match s.cmd? cmd with
  | none => .next s
  | some x =>
    if x.isMatrix && x.started then
      .next ((s.mxWrite (((s.team? x.team).getD Team.missing).latch x)).finishCmd x statusDone)
    else .next s

/-! ## ACC.ST -/

/-- FIRST, COUNT and FMT of an ACC.ST (R230). -/
def Cmd.accFirst (x : Cmd) : Nat := ((x.word 2).extractLsb' 0 10).toNat
def Cmd.accCount (x : Cmd) : Nat := ((x.word 2).extractLsb' 10 11).toNat
def Cmd.accFmt (x : Cmd) : Nat := ((x.word 2).extractLsb' 21 3).toNat

/-- ACC.ST (R230). -/
def execAccSt (t q : BitVec 8) (clr : Bool) (s : State) : Out :=
  s.uniformUnit none (ueNames t q 4) fun s =>
    let x := s.newCmd .accSt t q (0#7 ++ BitVec.ofBool clr) 4
    let c := s.crew
    if 0 < x.accCount ∧ (x.accFirst < c.window.1 ∨ c.window.2 < x.accFirst + x.accCount) then
      .next (s.parkRun .accwin 0#64 true)
    else if s.engineFull c.core 1 then .next (s.stallRoom (.engineRoom 1))
    else
      let taken := (List.range x.accCount).filter fun i => s.owners s.cur.team c.core (x.accFirst + i) != []
      .next ((s.addCmd { x with ownBase := x.accFirst, ownCount := x.accCount,
                                spoiledAtIssue := taken.map fun i => x.accFirst + i }).done true)

/-- A check that gives Fault with nothing stored (R230). -/
def Cmd.accFaults (x : Cmd) : Bool :=
  let addr : W64 := x.word 1 ++ x.word 0
  addr.extractLsb' 0 6 != 0#6 || (x.word 3).extractLsb' 0 6 != 0#6 || !(canonical addr) || decide (3 ≤ x.accFmt) ||
    x.accCount == 0 || decide (1024 < x.accCount) || (x.word 2).extractLsb' 24 8 != 0#8

/-- A row as ACC.ST stores it (R230). -/
def accRowBytes (fmt : Nat) (value : Nat → W32) : List Byte :=
  (List.range 512).flatMap fun i =>
    let v := f32.decode false (value i).toNat
    match fmt with
    | 0 => natBytes (f32.encodeVal .rne false v).1 4
    | 1 => natBytes (bf16.encodeVal .rne false v).1 2
    | _ => natBytes (f16.encodeVal .rne false v).1 2

/-- The clear of an ACC.ST as a direct write of its crew, made as its token is written (R222, R230). -/
def Cmd.clearReq (x : Cmd) : Req :=
  { id := x.id, unit := 0, team := x.team, crew := x.crew, core := x.core, lane := 32, thread := none, kind := .accClr }

/-- The address of row i of an ACC.ST. -/
def Cmd.accAddr (x : Cmd) (i : Nat) : W64 :=
  (x.word 1 ++ x.word 0) + BitVec.ofNat 64 (i * (x.word 3).toNat)

/-- Bytes of one stored entry, and of a row. -/
def Cmd.accWidth (x : Cmd) : Nat := if x.accFmt = 0 then 4 else 2
def Cmd.accRow (x : Cmd) : Nat := 512 * x.accWidth

/-- The bytes of row i as ACC.ST stores them now; a row owned at its issue is stored as an unspecified value. -/
def State.accImage (s : State) (x : Cmd) (i : Nat) : State × List Byte :=
  let row := x.accFirst + i
  let acc := ((s.team? x.team).getD Team.missing).acc x.core
  if x.spoiledAtIssue.contains row then (s.bump 512, accRowBytes x.accFmt fun c => Config.freeWord (s.fresh + c))
  else (s, accRowBytes x.accFmt fun c => readKey acc (512 * row + c))

/-- Bytes of row i from a place on stored, within one line each; the first failure stops it. -/
def State.accPieces (s : State) (x : Cmd) (i o : Nat) (ys : List Byte) : State × Option EngFail :=
  (pieces (ys.length / 64 + 2) ((x.accAddr i).toNat + o) ys.length).foldl (fun (acc : State × Option EngFail) e =>
    match acc.2 with
    | some _ => acc
    | none =>
      match acc.1.engCheck (BitVec.ofNat 64 e.1) .store with
      | (s, .inl f) => (s, some f)
      | (s, .inr (pa, t)) =>
        ((s.engPay x pa e.2 true).engPoke x.core t pa (sliceBytes ys (e.1 - (x.accAddr i).toNat - o) e.2), none)) (s, none)

/-- What the stores of row i wait for, if anything (R362, R397). -/
def State.accWaits (s : State) (x : Cmd) (i : Nat) : Option EngFail :=
  ((pieces 34 (x.accAddr i).toNat x.accRow).filterMap fun e =>
    match s.engCheck (BitVec.ofNat 64 e.1) .store with
    | (s, .inr (pa, _)) => s.engWaits x pa e.2 true
    | (_, .inl _) => none).head?

/-- Row i of an ACC.ST stored, but for the entries that single moves of the command have stored. -/
def State.accStRow (s : State) (x : Cmd) (i : Nat) : State × Option EngFail :=
  let (s, ys) := s.accImage x i
  let w := x.accWidth
  let left := (List.range 512).filter fun c => !(x.put.contains (i, c))
  (runsOf left).foldl (fun (acc : State × Option EngFail) e =>
    match acc.2 with
    | some _ => acc
    | none => acc.1.accPieces x i (w * e.1) (sliceBytes ys (w * e.1) (w * e.2))) (s, none)

/-- Rows of an ACC.ST from one on stored until one must wait. -/
def State.accRows (s : State) (x : Cmd) : Nat → Nat → State × Nat × Option EngFail
  | 0, i => (s, i, none)
  | fuel + 1, i =>
    match s.accWaits x i with
    | some f => (s, i, some f)
    | none => (s.accStRow x i).1.accRows x fuel (i + 1)

/-- One entry of an ACC.ST stored ahead of the rest; which one is free. -/
def State.accPart (s : State) (x : Cmd) : State :=
  let n := (Config.freeWord s.fresh).toNat
  let i := x.pos + n / 512 % (x.accCount - x.pos)
  let c := n % 512
  let s := s.bump 1
  if x.accCount ≤ x.pos ∨ x.put.contains (i, c) ∨ (s.accWaits x i).isSome then s
  else
    let (s', ys) := s.accImage x i
    match s'.accPieces x i (x.accWidth * c) (sliceBytes ys (x.accWidth * c) x.accWidth) with
    | (s', none) => s'.updCmd x.id fun y => { y with put := y.put ++ [(i, c)] }
    | (_, some _) => s

/-- The first failure among the pages of an ACC.ST's rows. -/
def State.accScan (s : State) (x : Cmd) : State × Option EngFail :=
  let n := if x.accFmt = 0 then 2048 else 1024
  (List.range x.accCount).foldl (fun (a : State × Option EngFail) i =>
    match a.2 with
    | some _ => a
    | none => a.1.engScan (x.accAddr i) n .store) (s, none)

/-- ACC_ST_DONE (R230): the stores still to be made are performed, rows are cleared on Done with CLR (a direct write, R222), and the
token is written. A page without a translation only delays the command until Maelner answers. -/
def execAccStDone (cmd : Nat) (s : State) : Out :=
  match s.cmd? cmd with
  | none => .next s
  | some x =>
    if x.kind ≠ .accSt ∨ !(s.cmdAfter x) ∨ x.stuck.isSome then .next s
    else if x.accFaults then .next (s.finishCmd x statusFault)
    else
      let scramble (s : State) : State :=
        (List.range x.accCount).foldl (fun s i => s.engScramble x.core (x.accAddr i) (if x.accFmt = 0 then 2048 else 1024)) s
      match s.accScan x with
      | (s', some (.xlate page)) =>
        if x.unserviced then .next ((scramble s').finishCmd x statusFault) else .next (s'.stick cmd page)
      | (s', some f) => .next ((scramble s').finishCmd x (failStatus f))
      | (s', none) =>
        match s'.accRows x (x.accCount - x.pos) x.pos with
        | (s, n, some f) =>
          .next ((s.updCmd cmd fun y => { y with pos := n }).engPause cmd (match f with | .wait a => a | _ => none))
        | (s, _, none) =>
        let s := if x.imm.getLsbD 0 then
            s.updTeamId x.team fun t =>
              t.putAcc x.core (512 * x.accFirst) (512 * (x.accFirst + x.accCount))
                (clearKeys (t.acc x.core) (512 * x.accFirst) (512 * (x.accFirst + x.accCount)))
          else s
        let s := s.finishCmd ((s.cmd? cmd).getD x) statusDone
        .next (if x.imm.getLsbD 0 then
            (List.range x.accCount).foldl (fun s i => s.spoil x.clearReq (x.accFirst + i)) s
          else s)

end Sys2Proof.Machine
end

