-- ==== Sys2Proof/Machine/Stream.lean ====
section
/-!
DEFINITION. The streamer's commands, tokens and rings, and the issue of a walk (R211, R325, R329 to R346): what an
instruction does at its issue. EvEngine.lean holds what the engines do afterwards.
-/

namespace Sys2Proof.Machine

/-! ## Issue of streamer commands -/

/-- The word that holds DEPK in a command's descriptor (Tables 14.2 and 14.3, R338). -/
def depWord : CmdKind → Nat
  | .copy => 19
  | .copyG => 9
  | .copyS => 9
  | _ => 4

/-- DEPK and DEP of a command (R336, R339); PLATE.LOAD has neither. -/
def Cmd.depk (x : Cmd) : Nat := if x.kind = .plateLoad then 0 else ((x.word (depWord x.kind)).extractLsb' 24 8).toNat
def Cmd.dep (x : Cmd) : Bool := x.kind != .plateLoad && x.imm.getLsbD 1
def Cmd.chained (x : Cmd) : Bool := x.kind != .plateLoad && x.imm.getLsbD 0

/-- The dependence on a register: the command that will write a busy one, or its value now (R339). -/
def Crew.registerDep (c : Crew) (r : Nat) : List Dep :=
  match c.busy.reverse.find? fun e => e.1 == r with
  | some e => [.cmd e.2]
  | none => if isFailure (c.kreg r) then [.failed] else []

/-- The dependence on the crew's streamer command before, when that one has CHAIN = 1 (R340). -/
def Crew.chainDep (c : Crew) : List Dep :=
  match c.chain with
  | none => []
  | some (.inl id) => [.cmd id]
  | some (.inr status) => if isFailure status then [.failed] else []

/-- The issue of a streamer command (R329, R330, R331, R339, R340): `more` captures what a kind captures. -/
def State.streamIssue (s : State) (kind : CmdKind) (n : Nat) (t q imm : BitVec 8) (more : State → Cmd → Cmd) : Out :=
  s.uniformUnit none (ueNames t q n) fun s =>
    let c := s.crew
    let x := s.newCmd kind t q imm n
    if s.team.producer ≠ some s.cur.crew then .next (s.parkRun .streamRight 0#64 true)
    else if s.engineFull c.core 0 then .next (s.stallRoom (.engineRoom 0))
    else if x.dep && s.pendingK [x.depk] then .next (s.stallCrew [] 0#32 [x.depk])
    else
      let deps := (if x.dep && x.depk != 0 then c.registerDep x.depk else []) ++ c.chainDep
      let id := s.nextId
      let s := s.updCrew fun c => { c with chain := if x.chained then some (.inl id) else none }
      .next ((s.addCmd (more s { x with deps := deps })).done true)

/-- The imm8 of the copies: CHAIN and DEP (R336). -/
def copyImm (dep chain : Bool) : BitVec 8 := 0#6 ++ BitVec.ofBool dep ++ BitVec.ofBool chain

/-- COPY (R336). -/
def execCopy (t q : BitVec 8) (dep chain : Bool) (s : State) : Out :=
  s.streamIssue .copy 20 t q (copyImm dep chain) fun _ x => x

/-- COPY.G (R337). -/
def execCopyG (t q : BitVec 8) (dep chain : Bool) (s : State) : Out :=
  s.streamIssue .copyG 10 t q (copyImm dep chain) fun _ x => x

/-- COPY.S (R337). -/
def execCopyS (t q : BitVec 8) (dep chain : Bool) (s : State) : Out :=
  s.streamIssue .copyS 10 t q (copyImm dep chain) fun _ x => x

/-- COPY.FILL (R338). -/
def execCopyFill (t q : BitVec 8) (dep chain : Bool) (s : State) : Out :=
  s.streamIssue .fill 5 t q (copyImm dep chain) fun _ x => x

/-- PLATE.LOAD (R211): the plate's control word is taken at issue. -/
def execPlateLoad (t q : BitVec 8) (s : State) : Out :=
  s.streamIssue .plateLoad 3 t q 0#8 fun s x =>
    { x with regs := [s.team.plateFor s.cur.crew ((x.word 2).extractLsb' 0 3).toNat] }

/-- WALK (R304, R319, R325): the descriptor and the crew's walk parameters are taken at issue. -/
def execWalk (t q : BitVec 8) (s : State) : Out :=
  s.uniformUnit s.walkCheck (ueNames t q 3) fun s =>
    let c := s.crew
    if s.engineFull c.core 2 then .next (s.stallRoom (.engineRoom 2))
    else
      .next ((s.addCmd { s.newCmd .walk t q 0#8 3 with
        theta := c.theta, walkMode := c.walkMode, mincount := c.mincount }).done true)

/-! ## Rings -/

def Team.ring (t : Team) (r : Nat) : Ring := t.rings.getD r {}
def Team.updRing (t : Team) (r : Nat) (f : Ring → Ring) : Team := { t with rings := updateAt f r t.rings }

/-- The sequence number a 32-bit operand names (R342). -/
def Ring.named (g : Ring) (x : W32) : Int :=
  g.f + signedOf 32 (((x.toNat : Int) - g.f) % 2 ^ 32).toNat

/-- RING_STAGE_FREE (R344): stages whose releases have reached NCONS are freed in order. -/
def Ring.free : Nat → Ring → Ring
  | 0, g => g
  | fuel + 1, g =>
    match g.stages with
    | (_, n) :: rest => if g.ncons ≤ n then
        Ring.free fuel { g with f := g.f + 1, stages := rest, spoilt := g.spoilt.filter fun n => n != g.f } else g
    | [] => g

/-- The oldest commit takes effect when it waits for no token and no access (R343, R344, R345). -/
def State.commitReady (s : State) (g : Ring) : Bool :=
  match g.commits with
  | x :: _ => x.cmd.isNone && s.settledReqs true x.reqs
  | [] => false

/-- One commit takes effect: stage c has a status and no release. -/
def Ring.commitOne (g : Ring) : Ring :=
  match g.commits with
  | x :: rest => { g with c := g.c + 1, stages := g.stages ++ [(x.status, 0)], commits := rest }
  | [] => g

/-- Every commit that can take effect in order does (R344). -/
def State.effects (s : State) : Nat → Ring → Ring
  | 0, g => g
  | fuel + 1, g => if s.commitReady g then s.effects fuel g.commitOne else g

/-- The edges of R345 in a twin team, whose two cores share rings: S bytes are written back, and copies dropped. -/
def Team.cores (t : Team) : List Nat := t.core :: (if t.bracket then [] else t.follower.toList)
def State.ringRelease (s : State) (t : Team) : State :=
  if t.twin then t.cores.foldl (fun s c => s.releaseS c false) s else s

/-- Walks of a team on a ring that have started. -/
def Cmd.walksOn (x : Cmd) (team r : Nat) : Bool :=
  x.kind == .walk && x.team == team && x.started && decide (((x.word 1).extractLsb' 8 4).toNat = r)

/-- A walk has formed and placed all its entries, and the stage that holds END is below a count of commits (R321). -/
def Walk.over (k : Walk) (c : Nat) : Bool :=
  k.ended.isSome && k.out == [] && k.stage.isNone && match k.last with | some n => decide (n < c) | none => true

/-- Walks on a ring whose last stage is committed write their tokens (R321). -/
def State.endWalks (s : State) (team r : Nat) : State :=
  let c := ((((s.team? team).getD Team.missing).ring r)).c
  (s.ctx.cmds.filter fun x => x.walksOn team r && x.walk.over c).foldl (fun s x =>
    match s.cmd? x.id with
    | some y => s.finishCmd y (y.walk.ended.getD statusDone)
    | none => s) s

/-- The commits of a ring that are due take effect, with their release (R345, Table 11.2), and end the walks that wait for
them. -/
def State.commitEffects (s : State) (team r : Nat) : State :=
  match s.team? team with
  | none => s
  | some t =>
    let g := t.ring r
    if s.commitReady g then
      let g' := s.effects g.commits.length g
      let passes := (g.commits.take (g.commits.length - g'.commits.length)).flatMap Commit.reqs
      (((s.ringRelease t).passUpdates fun q => passes.contains q.id).updTeamId team fun t => t.updRing r fun _ => g').endWalks
        team r
    else s

/-- The contents of a stage are unspecified until it is freed, whatever is stored there (R8, R317). -/
def State.spoilStage (s : State) (team r n : Nat) : State :=
  match s.team? team with
  | none => s
  | some t =>
    (s.updTeamId team fun t => t.updRing r fun g =>
      { g with spoilt := if g.spoilt.contains n then g.spoilt else n :: g.spoilt }).openBytes team (t.stageBytes (t.ring r) n)

/-- A crew or a walk uses stage n of a ring while another walk runs on it: the stage contents of both are unspecified (R317). -/
def State.ringConflict (s : State) (team r n : Nat) (but : Option Nat) : State :=
  let spoil (x : Cmd) : Cmd := { x with walk := { x.walk with spoilt := true } }
  let hit := s.ctx.cmds.filter fun x => x.walksOn team r && some x.id != but
  if hit = [] then s
  else
    let s := hit.foldl (fun s x => (match x.walk.stage with | some m => s.spoilStage team r m | none => s).updCmd x.id spoil) s
    (match but with | some id => s.updCmd id spoil | none => s).spoilStage team r n

/-- A ring instruction on an uninitialized ring parks its run with ILLEGAL (R344). -/
def State.ringUnit (s : State) (n : Names) (r : BitVec 4) (body : State → Ring → Out) : Out :=
  s.uniformUnit none n fun s =>
    let g := s.team.ring r.toNat
    if g.init then body s g else .next (s.parkRun .illegal 0#64 true)

/-- The accesses of the run that a release puts before it: the run waits for them (R345). -/
def State.afterAccesses (s : State) (body : State → Out) : Out :=
  if s.settledReqs true s.runReqs then body s else .next (s.waitRun (.sent s.runReqs))

/-- RING.INIT (R343, R344). -/
def execRingInit (r : BitVec 4) (a b : BitVec 8) (s : State) : Out :=
  s.uniformUnit none { k := [a.toNat, b.toNat] } fun s =>
    let geom := s.crew.kreg b.toNat
    let ssize := (geom.extractLsb' 0 16).toNat
    let ncons := (geom.extractLsb' 24 8).toNat
    if ssize = 0 ∨ ssize % 4 ≠ 0 ∨ ncons = 0 then .next (s.parkRun .illegal 0#64 true)
    else if !(s.waitDone s.team s.crew (.ringInit r.toNat)) then .next (s.waitRun (.ringInit r.toNat))
    else
      let g : Ring := { init := true, base := s.crew.kreg a.toNat, ssize := ssize,
                        scount := (geom.extractLsb' 16 8).toNat + 1, ncons := ncons }
      .next ((s.updTeam fun t => t.updRing r.toNat fun _ => g).done true)

/-- RING.ACQ (R343). -/
def execRingAcq (d : BitVec 8) (r : BitVec 4) (s : State) : Out :=
  s.ringUnit { k := [d.toNat] } r fun s g =>
    if g.a = g.f + g.scount then .next (s.waitRun (.ringAcq r.toNat))
    else
      let s := (s.barAcquire).ringConflict s.cur.team r.toNat g.a none
      let s := s.updTeam fun t => t.updRing r.toNat fun g => { g with a := g.a + 1 }
      .next ((s.updCrew fun c => c.setK d.toNat (g.offset g.a)).done true)

/-- A commit given to the oldest acquired stage without one; it takes effect at once where nothing is before it. -/
def State.giveCommit (s : State) (team r : Nat) (x : Commit) : State :=
  let s := s.updTeamId team fun t => t.updRing r fun g => { g with commits := g.commits ++ [x] }
  match s.team? team with
  | some t => if (t.ring r).commits.length = 1 then s.commitEffects team r else s
  | none => s

/-- RING.COMMIT (R343, R344): with a register it does not stall, and takes effect once its token is written and the
run's accesses are performed. -/
def execRingCommit (r : BitVec 4) (b : BitVec 8) (s : State) : Out :=
  s.ringUnit { quiet := [b.toNat] } r fun s g =>
    let n := g.c + g.commits.length
    if g.a ≤ n then .next (s.parkRun .illegal 0#64 true)
    else
      let go (s : State) (x : Commit) : Out :=
        .next (((s.ringConflict s.cur.team r.toNat n none).giveCommit s.cur.team r.toNat x).done true)
      if b = 0#8 then s.afterAccesses fun s => go s { reqs := s.runReqs }
      else
        match s.crew.busy.reverse.find? fun e => e.1 == b.toNat with
        | some e => go s { cmd := some e.2, reqs := s.runReqs }
        | none =>
          let x := s.crew.kreg b.toNat
          go s { status := if isFailure x then x else statusDone, reqs := s.runReqs }

/-- RING.WAIT (R343). -/
def execRingWait (d : BitVec 8) (r : BitVec 4) (b : BitVec 8) (s : State) : Out :=
  s.ringUnit { k := [d.toNat, d.toNat + 1, b.toNat] } r fun s g =>
    let n := g.named (s.crew.kreg b.toNat)
    if n < g.f then
      .next (((s.updCrew fun c => (c.setK d.toNat (Config.freeWord s.fresh)).setK (d.toNat + 1) statusFault).bump 1).done
        true)
    else if (g.c : Int) ≤ n then .next (s.waitRun (.ringWait r.toNat n.toNat))
    else
      let status := (g.stages.getD (n.toNat - g.f) (0#32, 0)).1
      .next ((s.barAcquire.updCrew fun c =>
        (c.setK d.toNat (g.offset n.toNat)).setK (d.toNat + 1) status).done true)

/-- RING.REL (R343, R344): the run's accesses are performed before the release (R345). -/
def execRingRel (r : BitVec 4) (b : BitVec 8) (s : State) : Out :=
  s.ringUnit { k := [b.toNat] } r fun s g =>
    let n := g.named (s.crew.kreg b.toNat)
    if n < g.f ∨ (g.c : Int) ≤ n then .next (s.parkRun .illegal 0#64 true)
    else s.afterAccesses fun s =>
      .next ((s.barRelease.updTeam fun t => t.updRing r.toNat fun g =>
        ({ g with stages := updateAt (fun e => (e.1, e.2 + 1)) (n.toNat - g.f) g.stages }).free (g.scount + 1)).done true)

/-! ## Tokens -/

/-- TWAIT (R346). -/
def execTwait (a b : BitVec 8) (s : State) : Out :=
  s.uniformUnit none { k := [a.toNat, b.toNat] } fun s => .next (s.done true)

/-- TOKTEST (R346). -/
def execToktest (d a : BitVec 8) (s : State) : Out :=
  s.uniformUnit none { k := [d.toNat], quiet := [a.toNat] } fun s =>
    .next ((s.updCrew fun c => c.setK d.toNat (if c.isBusy a.toNat then 1#32 else 0#32)).done true)

end Sys2Proof.Machine
end

