-- ==== Sys2Proof/Machine/EvEngine.lean ====
section
/-!
DEFINITION. What the streamer, the table loader and the walker do after a command has issued: start checks and elements
of a copy (R332 to R341, R363), plate images (R207, R211), table loads (R188, R189), commits of ring stages (R344) and
walks (R314 to R321). What is left of a
command's elements is performed at its DONE step, in iteration order; single accesses may be performed ahead of that.
-/

namespace Sys2Proof.Machine

/-! ## Start of a streamer command -/

/-- One side of a copy: scratchpad or global, its base, and the element width in bits (R333). -/
structure Side where
  spad : Bool
  base : W64
  w : Nat

/-- The address of an element, computed exactly, its bit place in its first byte, and its bytes (R333). -/
def Side.addr (x : Side) (i : Int) : Int := (x.base.toNat : Int) + (i * x.w) / 8
def Side.bit (x : Side) (i : Int) : Nat := ((i * x.w) % 8).toNat
def Side.size (x : Side) : Nat := max (x.w / 8) 1

/-- An exact address is canonical (R233). -/
def canonicalInt (a : Int) : Bool :=
  (decide (0 ≤ a) && decide (a < 2 ^ 51)) || (decide ((2 : Int) ^ 64 - 2 ^ 51 ≤ a) && decide (a < 2 ^ 64))

/-- The base checks of R334. -/
def Side.baseOk (x : Side) : Bool :=
  if x.spad then x.base.extractLsb' 32 32 == 0#32 else decide (x.base.toNat % x.size = 0)

/-- The element addresses of a side are canonical where it is global (R334). -/
def Side.allOk (x : Side) (is : List Int) : Bool := x.spad || is.all fun i => canonicalInt (x.addr i)

/-- The width of elements an ESZ field names (R333). -/
def elemBits (esz : Nat) : Nat := 2 * 2 ^ esz

/-- Places of a COPY's descriptor (Table 14.2). -/
def Cmd.copyEsz (x : Cmd) : Nat := ((x.word (depWord x.kind)).extractLsb' 0 3).toNat
def Cmd.copySrc (x : Cmd) : Side := ⟨(x.word 19).getLsbD 3, x.addr 0, elemBits x.copyEsz⟩
def Cmd.copyDst (x : Cmd) : Side := ⟨(x.word 19).getLsbD 4, x.addr 2, elemBits x.copyEsz⟩

/-- Counter j of a COPY. -/
def Cmd.counter (x : Cmd) (j : Nat) : Nat := ((x.word (4 + j / 2)).extractLsb' (16 * (j % 2)) 16).toNat + 1

/-- Elements of a COPY. -/
def Cmd.copyCount (x : Cmd) : Nat := ((List.range 6).map x.counter).foldl (· * ·) 1

/-- Counter values of element n, counter 0 innermost (R336). -/
def digits : Nat → List Nat → List Nat
  | _, [] => []
  | n, c :: cs => n % c :: digits (n / c) cs

/-- The index of element n on the side whose strides start at a word of the descriptor (R336). -/
def Cmd.strided (x : Cmd) (first n : Nat) : Int :=
  (mapFrom (fun j (i : Nat) => (i : Int) * signedOf 32 (x.word (first + j)).toNat) 0
    (digits n ((List.range 6).map x.counter))).foldl (· + ·) 0

/-- The sides of COPY.G and COPY.S (Table 14.3), their counts and pitch. -/
def Cmd.idxSide (x : Cmd) : Side := ⟨(x.word 9).getLsbD 3, x.addr 0, elemBits x.copyEsz⟩
def Cmd.conSide (x : Cmd) : Side := ⟨(x.word 9).getLsbD 4, x.addr 2, elemBits x.copyEsz⟩
def Cmd.listSide (x : Cmd) : Side := ⟨(x.word 9).getLsbD 5, x.addr 4, 32⟩
def Cmd.indices (x : Cmd) : Nat := (x.word 6).toNat
def Cmd.rowLen (x : Cmd) : Nat := ((x.word 8).extractLsb' 0 16).toNat + 1

/-- The destination of COPY.FILL (R338). -/
def Cmd.fillSide (x : Cmd) : Side := ⟨(x.word 4).getLsbD 4, x.addr 0, 8⟩

/-- DEPK agrees with DEP. -/
def Cmd.depOk (x : Cmd) : Bool := if x.dep then x.depk != 0 else x.depk == 0

/-- The elements a streamer command performs. -/
def Cmd.elements (x : Cmd) : Nat :=
  match x.kind with
  | .copy => x.copyCount
  | .fill => (x.word 2).toNat
  | _ => x.indices * x.rowLen

/-- The start checks of an entry pass (R211, R332, R334, R336 to R338). -/
def Cmd.startOk (x : Cmd) : Bool :=
  match x.kind with
  | .copy =>
    (x.word 19).extractLsb' 5 19 == 0#19 && x.copyEsz != 7 && x.depOk && decide (x.copyCount ≤ 2 ^ 32) &&
      x.copySrc.baseOk && x.copyDst.baseOk &&
      x.copySrc.allOk ((List.range x.copyCount).map (x.strided 7)) &&
      x.copyDst.allOk ((List.range x.copyCount).map (x.strided 13))
  | .copyG | .copyS =>
    (x.word 8).extractLsb' 16 16 == 0#16 && (x.word 9).extractLsb' 6 18 == 0#18 && x.copyEsz != 7 && x.depOk &&
      x.idxSide.baseOk && x.conSide.baseOk && x.listSide.baseOk && decide (x.listSide.base.toNat % 4 = 0) &&
      x.conSide.allOk ((List.range x.elements).map Int.ofNat) &&
      x.listSide.allOk ((List.range x.indices).map Int.ofNat)
  | .fill =>
    (x.word 4).extractLsb' 0 4 == 0#4 && (x.word 4).extractLsb' 5 19 == 0#19 && x.depOk &&
      decide (x.elements % 4 = 0) && (x.fillSide.spad || decide (x.fillSide.base.toNat % 4 = 0)) &&
      x.fillSide.baseOk && x.fillSide.allOk ((List.range x.elements).map Int.ofNat)
  | _ =>
    (x.regs.headD 0#32).getLsbD 31 && (x.word 2).extractLsb' 3 29 == 0#29 && decide ((x.addr 0).toNat % 64 = 0) &&
      canonical (x.addr 0)

/-- STREAM_COMMAND_START (R332, R339, R340): a failed dependence writes Poisoned, a failed check Fault, and otherwise
the command starts. -/
def execStreamCommandStart (cmd : Nat) (s : State) : Out :=
  match s.cmd? cmd with
  | none => .next s
  | some x =>
    if Cmd.engine x.kind ≠ 0 ∨ x.started ∨ !(s.depsSettled x) ∨ !(s.cmdAfter x) then .next s
    else if x.poisoned then .next (s.finishCmd x statusPoisoned)
    else if !x.startOk then .next (s.finishCmd x statusFault)
    else .next (s.updCmd cmd fun y => { y with started := true })

/-! ## Budgets and the contact sheet -/

/-- How a run of elements ends: all performed, a failure, a spent count, or a recorded end with its status (R397). -/
inductive Stop where
  | all
  | fail (f : EngFail)
  | budget
  | recorded (entry : Nat) (status : W32)
deriving DecidableEq, Repr

def State.cmdTeam (s : State) (x : Cmd) : Team := (s.team? x.team).getD Team.missing

/-- Before each unit of work of a command: whether its count is spent, or, in replay, whether a recorded end of its
crew stands at this point (R363, R397). The sheet does not say which of the crew's commands ends there. -/
def State.cmdStop (s : State) (x : Cmd) (act done : Nat) : State × Option Stop :=
  let t := s.cmdTeam x
  if s.replays t.launch then
    match s.sheetLeft.find? fun e => e.2.kind == 3 && e.2.crew == x.crew && e.2.team == t.idx with
    | some e =>
      if (e.2.value.extractLsb' 32 32).toNat = done then
        (s.bump 1, if Config.freeBool s.fresh then some (.recorded e.1 (e.2.value.setWidth 32)) else none)
      else (s, none)
    | none => (s, none)
  else (s, if s.expoSpent x.core t.cls act then some .budget else none)

/-- The entry of a command that a spent count ends (Table 17.3, KIND 3). -/
def State.recordEnd (s : State) (x : Cmd) (done : Nat) : State :=
  let t := s.cmdTeam x
  s.record t.launch { kind := 3, slice := 0, crew := x.crew, team := t.idx,
                      value := word done ++ statusBudget }

/-! ## Elements -/

/-- A run of a command's elements: the state, and what the command has done so far (see Cmd). -/
structure Copying where
  s : State
  log : List Wrote
  got : List (Nat × Nat × Byte)
  rows : List (Nat × W32)
  put : List (Nat × Nat)
  bytes : Nat

/-- A command's run goes on from where it stands. -/
def Cmd.run (c : Cmd) (s : State) : Copying :=
  { s := s, log := c.log, got := c.got, rows := c.rows, put := c.put, bytes := c.bytes }

/-- The state with what a run has done kept in its command, its elements below n performed. -/
def Copying.keep (x : Copying) (id n : Nat) : State :=
  x.s.updCmd id fun y => { y with log := x.log, got := x.got, rows := x.rows, put := x.put, bytes := x.bytes, pos := n }

/-- One byte as a later element reads it: its old value, or a value that an earlier element wrote (R335). -/
def Copying.pick (x : Copying) (spad : Bool) (a : Nat) (now : Byte) : Copying × Byte :=
  let seen := ((x.log.filter fun e => e.spad == spad && e.addr == a).map Wrote.value).eraseDups
  match seen with
  | [] => (x, now)
  | [v] => (x, v)
  | _ => ({ x with s := x.s.bump 1 }, seen.getD ((Config.freeWord x.s.fresh).toNat % seen.length) now)

/-- The bytes of an element as an element of the command reads them. -/
def Copying.pickAll (x : Copying) (spad : Bool) : Nat → List Byte → Copying × List Byte
  | _, [] => (x, [])
  | a, b :: bs =>
    let (x, v) := x.pick spad a b
    let (x, vs) := x.pickAll spad (a + 1) bs
    (x, v :: vs)

/-- The same by one atomic read (R274): an earlier element's write to these bytes is seen as a whole or not at all, and which
elements' writes are seen is free. -/
def Copying.pickWhole (x : Copying) (spad : Bool) (a : Nat) (now : List Byte) : Copying × List Byte :=
  let mine := x.log.filter fun e => e.spad == spad && decide (a ≤ e.addr) && decide (e.addr < a + now.length)
  let elems := (mine.filterMap Wrote.elem).eraseDups
  let seen := (mapFrom (fun i n => (n, i)) 0 elems).filter fun e => Config.freeBool (x.s.fresh + e.2)
  let sees (e : Wrote) : Bool := match e.elem with | none => true | some n => seen.any fun p => p.1 == n
  ({ x with s := x.s.bump elems.length }, mapFrom (fun b v =>
    (((mine.filter fun e => e.addr == b && sees e).getLast?).map Wrote.value).getD v) a now)

/-- The wrapped scratchpad offset of an element (R333). -/
def Side.offset (y : Side) (t : Team) (i : Int) : Nat := spadWrap t.spadBytes ((y.addr i) % 2 ^ 32).toNat y.size

/-- An element's address in global memory, checked; the access may have to wait (R362). -/
def Copying.check (x : Copying) (c : Cmd) (y : Side) (i : Int) (a : Access) : Copying × (EngFail ⊕ (Nat × Treat)) :=
  if !(canonicalInt (y.addr i)) then (x, .inl .prot)
  else
    match x.s.engCheck (BitVec.ofInt 64 (y.addr i)) a with
    | (s, .inl f) => ({ x with s := s }, .inl f)
    | (s, .inr (pa, t)) =>
      match s.engWaits c pa y.size (a == .store) with
      | some f => ({ x with s := s }, .inl f)
      | none => ({ x with s := s }, .inr (pa, t))

/-- The bits of an element among its bytes. -/
def Side.bitsOf (y : Side) (i : Int) (ys : List Byte) : Nat := bytesNat ys / 2 ^ y.bit i % 2 ^ y.w

/-- An element read, as the bytes of its value: a sub-byte element is one byte. `pick` says what is seen of the bytes that the
command has written itself. -/
def Copying.readBy (pick : Copying → Bool → Nat → List Byte → Copying × List Byte) (x : Copying) (c : Cmd) (y : Side)
    (i : Int) : Copying × (EngFail ⊕ List Byte) :=
  if y.spad then
    let t := x.s.cmdTeam c
    let o := y.offset t i
    let (x, ys) := pick x true o (t.spadGet o y.size)
    (x, .inr (natBytes (y.bitsOf i ys) y.size))
  else
    match x.check c y i .load with
    | (x, .inl f) => (x, .inl f)
    | (x, .inr (pa, t)) =>
      if x.s.badAt pa then (x, .inl .ecc)
      else
        let (s, ys) := (x.s.engPay c pa y.size false).engPeek c t pa y.size
        let (x, ys) := pick { x with s := s } false pa ys
        (x, .inr (natBytes (y.bitsOf i ys) y.size))

def Copying.read (x : Copying) (c : Cmd) (y : Side) (i : Int) : Copying × (EngFail ⊕ List Byte) := x.readBy Copying.pickAll c y i

/-- Bytes [a, ...) noted as written by an element: the first value noted of a byte is the one it held before. -/
def noteBytes (log : List Wrote) (spad : Bool) (n bit : Nat) : Nat → List Byte → List Byte → List Wrote
  | a, o :: os, v :: vs =>
    let log := if log.any fun e => e.spad == spad && e.addr == a then log else log ++ [⟨spad, a, none, 0, o⟩]
    noteBytes (log ++ [⟨spad, a, some n, bit, v⟩]) spad n bit (a + 1) os vs
  | _, _, _ => log

/-- Bytes from an address on that the command has not written before: each byte counts once (R341). -/
def Copying.fresh (x : Copying) (spad : Bool) (a n : Nat) : Nat :=
  ((List.range n).filter fun j => !(x.log.any fun e => e.spad == spad && e.addr == a + j)).length

/-- A later element has written a byte of an element already: the byte keeps the later value (R335). -/
def Copying.later (x : Copying) (spad : Bool) (a n bit : Nat) : Bool :=
  x.log.any fun e => e.spad == spad && e.addr == a && e.bit == bit &&
    match e.elem with | some m => decide (n < m) | none => false

/-- The new bytes of an element over the old bytes. -/
def Side.merge (y : Side) (i : Int) (old ys : List Byte) : List Byte :=
  if y.w < 8 then
    let b := y.bit i
    let o := bytesNat old
    natBytes (o - o / 2 ^ b % 2 ^ y.w * 2 ^ b + bytesNat ys % 2 ^ y.w * 2 ^ b) 1
  else ys

/-- Bytes counted against the streamer budget (R341, R362). -/
def Copying.charge (x : Copying) (c : Cmd) (n : Nat) : Copying :=
  { x with s := x.s.spend c.core (x.s.cmdTeam c).cls 0 n, bytes := x.bytes + n }

/-- A run of an element's bytes written at an address, in scratchpad or in global memory. -/
def Copying.writeRun (x : Copying) (c : Cmd) (n : Nat) (y : Side) (i : Int) (t : Treat) (a : Nat) (ys : List Byte) : Copying :=
  let s := if y.spad then x.s else x.s.cleanLine c.core (a / 64)
  let old := if y.spad then (s.cmdTeam c).spadGet a ys.length else s.homeRead t a ys.length
  let new := y.merge i old ys
  let x := Copying.charge { x with s := s } c (x.fresh y.spad a ys.length)
  let s := if y.spad then x.s.spadPut c.team a new else (x.s.engPay c a ys.length true).engPoke c.core t a new
  { x with s := s, log := noteBytes x.log y.spad n (y.bit i) a old new }

/-- The places of element n's bytes that are still to be written, among those of a choice. -/
def Copying.todo (x : Copying) (n : Nat) (y : Side) (i : Int) (a : Nat) (some_ : Nat → Bool) : List Nat :=
  (List.range y.size).filter fun j => some_ j && !(x.put.contains (n, j)) && !(x.later y.spad (a + j) n (y.bit i))

/-- Element n written, or those of its bytes that a choice names. -/
def Copying.write (x : Copying) (c : Cmd) (n : Nat) (y : Side) (i : Int) (ys : List Byte) (some_ : Nat → Bool) :
    Copying × Option EngFail :=
  let go (x : Copying) (t : Treat) (a : Nat) : Copying :=
    (runsOf (x.todo n y i a some_)).foldl (fun x e => x.writeRun c n y i t (a + e.1) (sliceBytes ys e.1 e.2)) x
  if y.spad then (go x .u (y.offset (x.s.cmdTeam c) i), none)
  else
    match x.check c y i .store with
    | (x, .inl f) => (x, some f)
    | (x, .inr (pa, t)) => (go x t pa, none)

/-! ## What an element reads and writes -/

/-- The kinds with an index list. -/
def Cmd.indexed (c : Cmd) : Bool := c.kind == .copyG || c.kind == .copyS

/-- The index of element n, where it has been read, of a kind that has none. -/
def Copying.indexOf (x : Copying) (c : Cmd) (n : Nat) : Option W32 :=
  if c.indexed then (x.rows.find? fun e => e.1 == n / c.rowLen).map Prod.snd else some 0#32

/-- The index of element n read once, by one single-copy atomic access, before it is used (R274, R337); it counts once (R341). -/
def Copying.index (x : Copying) (c : Cmd) (n : Nat) : Copying × (EngFail ⊕ W32) :=
  match x.indexOf c n with
  | some v => (x, .inr v)
  | none =>
    match x.readBy Copying.pickWhole c c.listSide (n / c.rowLen) with
    | (x, .inl f) => (x, .inl f)
    | (x, .inr ys) =>
      ({ x with s := x.s.spend c.core (x.s.cmdTeam c).cls 0 1, rows := (n / c.rowLen, bytesW32 ys) :: x.rows },
        .inr (bytesW32 ys))

/-- The element of the indexed side that element n names (R337). -/
def Cmd.rowElem (c : Cmd) (idx : W32) (n : Nat) : Int := (idx.toNat : Int) * (c.word 7).toNat + (n % c.rowLen : Nat)

/-- What element n reads, given its index (R336 to R338). -/
def Cmd.source (c : Cmd) (idx : W32) (n : Nat) : Option (Side × Int) :=
  match c.kind with
  | .copy => some (c.copySrc, c.strided 7 n)
  | .copyG => if idx = 0xFFFFFFFF#32 then none else some (c.idxSide, c.rowElem idx n)
  | .copyS => if idx = 0xFFFFFFFF#32 then none else some (c.conSide, n)
  | _ => none

/-- What element n writes, given its index. -/
def Cmd.target (c : Cmd) (idx : W32) (n : Nat) : Option (Side × Int) :=
  match c.kind with
  | .copy => some (c.copyDst, c.strided 13 n)
  | .copyG => some (c.conSide, n)
  | .copyS => if idx = 0xFFFFFFFF#32 then none else some (c.idxSide, c.rowElem idx n)
  | _ => some (c.fillSide, n)

/-- The value of an element that reads nothing: a byte of PATTERN, or zeros (R337, R338). -/
def Cmd.constant (c : Cmd) (n : Nat) : List Byte :=
  match c.kind with
  | .fill => natBytes ((c.word 3).toNat / 2 ^ (8 * (n % 4))) 1
  | _ => natBytes 0 c.conSide.size

/-- A byte of element n that a move has read. -/
def Copying.gotten (x : Copying) (n j : Nat) : Option Byte := (x.got.find? fun e => e.1 == n && e.2.1 == j).map fun e => e.2.2

/-- The value of element n: the bytes read before, and the others as they are now. -/
def Copying.value (x : Copying) (c : Cmd) (idx : W32) (n : Nat) : Copying × (EngFail ⊕ List Byte) :=
  match c.source idx n with
  | none => (x, .inr (c.constant n))
  | some (y, i) =>
    let have_ := (List.range y.size).filterMap fun j => x.gotten n j
    if have_.length = y.size then (x, .inr have_)
    else
      match x.read c y i with
      | (x, .inl f) => (x, .inl f)
      | (x, .inr ys) => (x, .inr (mapFrom (fun j v => (x.gotten n j).getD v) 0 ys))

/-- Bytes of element n bound now. -/
def Copying.bind (x : Copying) (n : Nat) (ys : List Byte) (some_ : Nat → Bool) : Copying :=
  let new := (mapFrom (fun j v => (n, j, v)) 0 ys).filter fun e => some_ e.2.1 && (x.gotten n e.2.1).isNone
  { x with got := x.got ++ new }

/-- Element n of a command (R336 to R338), or those of its bytes that a choice names: its index and its value are read, and
then it is written. What has been read when its write must wait stays bound. -/
def Copying.element (x : Copying) (c : Cmd) (n : Nat) (some_ : Nat → Bool) : Copying × Option EngFail :=
  match x.index c n with
  | (x, .inl f) => (x, some f)
  | (x, .inr idx) =>
    match c.target idx n with
    | none => (x, none)
    | some (y, i) =>
      match x.value c idx n with
      | (x, .inl f) => (x, some f)
      | (x, .inr ys) =>
        match x.write c n y i ys some_ with
        | (x, some (.wait a)) => (x.bind n ys fun _ => true, some (.wait a))
        | (x, r) => (x, r)

/-- Elements from n on until one fails, the count is spent, or all are performed. -/
def Copying.strict (c : Cmd) : Nat → Nat → Copying → Copying × Nat × Stop
  | 0, n, x => (x, n, .all)
  | fuel + 1, n, x =>
    match x.s.cmdStop c 0 x.bytes with
    | (s, some stop) => ({ x with s := s }, n, stop)
    | (s, none) =>
      match Copying.element { x with s := s } c n fun _ => true with
      | (x, some f) => (x, n, .fail f)
      | (x, none) => Copying.strict c fuel (n + 1) x

/-- After a failure each byte holds its old value or the command's (Table 14.1). -/
def Copying.loose (c : Cmd) : Nat → Nat → Copying → Copying
  | 0, _, x => x
  | fuel + 1, n, x =>
    let take := Config.freeWord x.s.fresh
    let (x, _) := Copying.element { x with s := x.s.bump 1 } c n fun j => take.getLsbD j
    Copying.loose c fuel (n + 1) x

/-- A state with what a run of checks found out about pages. -/
def State.withPages (s found : State) : State :=
  { s with fresh := found.fresh, ctx := { s.ctx with reported := found.ctx.reported, tlb := found.ctx.tlb } }

/-- The command ends, as it now stands in the state. -/
def State.finishNow (s : State) (id : Nat) (status : W32) : State :=
  match s.cmd? id with
  | some x => s.finishCmd x status
  | none => s

/-- A copy or fill is running and may move on. -/
def Cmd.copies (x : Cmd) : Bool := x.kind == .copy || x.kind == .copyG || x.kind == .copyS || x.kind == .fill

/-- STREAM_COMMAND_DONE (R332, R335, R341, R362, R363): the elements left are performed, and the status is written; a
spent count pauses the command, or ends it in a replay-class launch. -/
def execStreamCommandDone (cmd : Nat) (s : State) : Out :=
  match s.cmd? cmd with
  | none => .next s
  | some c =>
    if !c.copies ∨ !c.started ∨ c.stuck.isSome then .next s
    else
      let left := c.elements - c.pos
      match Copying.strict c left c.pos (c.run s) with
      | (x, _, .all) => .next (x.s.finishNow cmd statusDone)
      | (x, n, .budget) =>
        if (s.cmdTeam c).replay then .next ((x.s.recordEnd c x.bytes).finishNow cmd statusBudget)
        else .next (x.keep cmd n)
      | (x, _, .recorded e status) => .next ((x.s.consume e).finishNow cmd status)
      | (x, n, .fail (.wait a)) => .next ((x.keep cmd n).engPause cmd a)
      | (x, _, .fail f) =>
        match f, c.unserviced with
        | .xlate page, false => .next ((s.withPages x.s).stick cmd page)
        | f, _ =>
          let y := Copying.loose c left c.pos (c.run (s.withPages x.s))
          .next (y.s.finishNow cmd (failStatus f))

/-! ## Single moves of a copy -/

/-- Every byte of element n that it reads has been read, its index among them. -/
def Copying.wasRead (x : Copying) (c : Cmd) (n : Nat) : Bool :=
  match x.indexOf c n with
  | none => false
  | some idx =>
    match c.source idx n with
    | none => true
    | some (y, _) => (List.range y.size).all fun j => (x.gotten n j).isSome

/-- The bytes of an element that go together with byte j: one of scratchpad, and of a global element at most eight, since
an aligned access of up to eight bytes is whole (R234). -/
def Side.whole (y : Side) (j : Nat) : Nat → Bool := fun k => if y.spad then k == j else k / 8 == j / 8

/-- One read of element n: its bytes that go together with byte j. -/
def Copying.readPart (x : Copying) (c : Cmd) (n j : Nat) : Copying × Option EngFail :=
  match x.indexOf c n with
  | none => (x, none)
  | some idx =>
    match c.source idx n with
    | none => (x, none)
    | some (y, i) =>
      match x.read c y i with
      | (x, .inl f) => (x, some f)
      | (x, .inr ys) => (x.bind n ys (y.whole j), none)

/-- Element n has been written, or writes nothing. -/
def Copying.wasWritten (x : Copying) (c : Cmd) (n : Nat) : Bool :=
  decide (n < c.pos) || match x.indexOf c n with
    | none => false
    | some idx => match c.target idx n with
      | none => true
      | some (y, _) => (List.range y.size).all fun j => x.put.contains (n, j)

/-- An element's target lies in an array of an open region. -/
def Copying.inRegion (x : Copying) (c : Cmd) (y : Side) (i : Int) : Bool :=
  !y.spad && match x.check c y i .store with
    | (x, .inr (pa, _)) => (x.s.leafRegion pa).isSome
    | (_, .inl _) => true

/-- One write of element n: its bytes that go together with byte j. The reads of the element, and of every earlier one, come
first (R335), and the updates of a region are made in iteration order (R337). -/
def Copying.writePart (x : Copying) (c : Cmd) (n j : Nat) : Copying × Option EngFail :=
  if !((List.range (n + 1)).all fun m => decide (m < c.pos) || x.wasRead c m) then (x, none)
  else
    match x.indexOf c n with
    | none => (x, none)
    | some idx =>
      match c.target idx n, x.value c idx n with
      | some (y, i), (x, .inr ys) =>
        if x.inRegion c y i && !((List.range n).all (x.wasWritten c)) then (x, none)
        else match x.write c n y i ys (y.whole j) with
        | (x, none) => ({ x with put := x.put ++ ((List.range y.size).filter (y.whole j)).map fun k => (n, k) }, none)
        | r => r
      | _, _ => (x, none)

/-- One access of a running copy or fill, performed ahead of the rest: an index read, a part of an element read, or a part of
an element written. Which one it is is free: the reads come in no stated order (R274, R335). -/
def State.copyPart (s : State) (c : Cmd) : State :=
  if c.elements ≤ c.pos then s else
  let n := c.pos + (Config.freeWord s.fresh).toNat % (c.elements - c.pos)
  let w := (Config.freeWord (s.fresh + 1)).toNat
  match (s.bump 2).cmdStop c 0 c.bytes with
  | (_, some _) => s.bump 2
  | (s', none) =>
    let x := c.run s'
    let r := match w % 3 with
      | 0 => let (x, r) := x.index c n; (x, match r with | .inl f => some f | .inr _ => none)
      | 1 => x.readPart c n (w / 3 % 16)
      | _ => x.writePart c n (w / 3 % 16)
    match r with
    | (x, none) => x.keep c.id c.pos
    | (_, some _) => s'

/-! ## PLATE.LOAD -/

/-- Columns N and positions K of a plate (R202). -/
def plateCols (w : W32) : Nat := plateNm w * ((plateMacros w).2 / plateKt w)
def plateRows (w : W32) : Nat := 256 * plateKt w

/-- Bytes of a plate image (R207). -/
def imageBytes (w : W32) : Nat := plateCols w * plateRows w * plateMw w / 8 + plateCols w * plateRows w / 16

/-- Byte y of position k of allocation macro j of a plate, from an image: its columns' mantissas (R200, R202, R207). -/
def imageMacroByte (w : W32) (img : List Byte) (j k y : Nat) : Byte :=
  let mw := plateMw w
  let per := 8 / mw
  let n0 := j / plateKt w * plateNm w + y * per
  let kk := 256 * (j % plateKt w) + k
  BitVec.ofNat 8 (((List.range per).map fun i =>
    let bit := ((n0 + i) * plateRows w + kk) * mw
    (img.getD (bit / 8) 0#8).toNat / 2 ^ (bit % 8) % 2 ^ mw * 2 ^ (mw * i)).foldl (· + ·) 0)

/-- Byte o of the side array of macro j of a plate, from an image (R201, R207). -/
def imageSideByte (w : W32) (img : List Byte) (j o : Nat) : Byte :=
  let n := j / plateKt w * plateNm w + o / 16
  let b := 16 * (j % plateKt w) + o % 16
  img.getD (plateCols w * plateRows w * plateMw w / 8 + n * (plateRows w / 16) + b) 0#8

/-- Side bytes written; they are no longer unspecified. -/
def Team.sidePut (t : Team) (off : Nat) (ys : List Byte) : Team :=
  { t with side := writeBytes t.side off ys
           openSide := t.openSide.filter fun a => !(decide (off ≤ a) && decide (a < off + ys.length)) }

/-- Each macro of a plate written: byte (k, y) of macro j of the plate, and its side bytes. -/
def State.plateFill (s : State) (x : Cmd) (w : W32) (cell : Nat → Nat → Nat → Byte) (side : Nat → Nat → Byte) : State :=
  let (base, n) := plateMacros w
  (List.range n).foldl (fun s j =>
    let ys := (List.range 256).flatMap fun k => (List.range 256).map fun y => cell j k y
    (s.spadPut x.team (65536 * (base + j)) ys).updTeamId x.team fun t =>
      t.sidePut (16384 * (base + j)) ((List.range (16 * plateNm w)).map (side j))) s

/-- The image in the plate: a byte that a single move of the command has written already stays as it is. Parts written stand
in `put` as (macro, byte), a side byte after the macro's 65,536. -/
def State.plateImage (s : State) (x : Cmd) (w : W32) (img : List Byte) : State :=
  if x.put = [] then s.plateFill x w (imageMacroByte w img) (imageSideByte w img)
  else
    let t := s.cmdTeam x
    s.plateFill x w
      (fun j k y => if x.put.contains (j, 256 * k + y) then (t.spadGet (65536 * ((plateMacros w).1 + j) + 256 * k + y) 1).headD 0#8
        else imageMacroByte w img j k y)
      (fun j o => if x.put.contains (j, 65536 + o) then (readBytes t.side (16384 * ((plateMacros w).1 + j) + o) 1).headD 0#8
        else imageSideByte w img j o)

/-- Bytes and exponents of the plate left unspecified (R8, R211). -/
def State.plateFree (s : State) (x : Cmd) (w : W32) : State :=
  let f := s.fresh
  let (base, n) := plateMacros w
  ((s.plateFill x w (fun j k y => Config.freeByte (f + 131072 * j + 256 * k + y))
    fun j o => Config.freeByte (f + 131072 * j + 65536 + o)).bump (131072 * n)).updTeamId x.team fun t =>
      { t with openSpad := ((List.range (65536 * n)).map fun i => 65536 * base + i) ++ t.openSpad
               openSide := ((List.range n).flatMap fun j => (List.range (16 * plateNm w)).map fun o => 16384 * (base + j) + o) ++ t.openSide }

/-- The image bytes that byte y of position k of macro j depends on (R200, R202, R207). -/
def imageNeeds (w : W32) (j k y : Nat) : List Nat :=
  let mw := plateMw w
  (List.range (8 / mw)).map fun i =>
    ((j / plateKt w * plateNm w + y * (8 / mw) + i) * plateRows w + 256 * (j % plateKt w) + k) * mw / 8

/-- One byte of the plate written ahead of the rest, once the image bytes it depends on have been read: byte b of macro j, or
side byte b - 65,536 of it. It is charged as it is written (R362), and a write of a plate in use spoils its operations (R206). -/
def State.platePut (s : State) (c : Cmd) (w : W32) (j b : Nat) : State :=
  let img := c.overlay (List.replicate (imageBytes w) 0#8)
  let m := (plateMacros w).1 + j
  let had (i : Nat) : Bool := c.got.any fun e => e.1 == i
  let note (s : State) : State :=
    (s.spend c.core (s.cmdTeam c).cls 0 1).updCmd c.id fun y => { y with put := y.put ++ [(j, b)], bytes := y.bytes + 1 }
  if c.put.contains (j, b) ∨ (s.cmdStop c 0 c.bytes).2.isSome ∨ imageBytes w ≤ c.bytes then s
  else if b < 65536 then
    if (imageNeeds w j (b / 256) (b % 256)).all had then note (s.spadPut c.team (65536 * m + b) [imageMacroByte w img j (b / 256) (b % 256)])
    else s
  else if b < 65536 + 16 * plateNm w then
    let o := b - 65536
    if had (plateCols w * plateRows w * plateMw w / 8 + (j / plateKt w * plateNm w + o / 16) * (plateRows w / 16) + 16 * (j % plateKt w) + o % 16) then
      note ((s.updTeamId c.team fun t => t.sidePut (16384 * m + o) [imageSideByte w img j o]).taint c.team [m])
    else s
  else s

/-- One aligned word of an image, of up to eight bytes, read ahead of the rest. -/
def State.imagePart (s : State) (c : Cmd) (va : W64) (word_ : Nat) : State :=
  match s.engRead c (va + BitVec.ofNat 64 (8 * word_)) 8 with
  | (s', .inr ys) =>
    s'.updCmd c.id fun y => { y with got := y.got ++ ((mapFrom (fun i v => (8 * word_ + i, 0, v)) 0 ys).filter fun e =>
      !(y.got.any fun g => g.1 == e.1)) }
  | (_, .inl _) => s

/-- One access of a running PLATE.LOAD performed ahead of the rest: a word of its image read, or a byte of the plate. -/
def State.platePart (s : State) (c : Cmd) : State :=
  let w := c.regs.headD 0#32
  let n := (Config.freeWord s.fresh).toNat
  let m := (Config.freeWord (s.fresh + 1)).toNat
  if Config.freeBool (s.fresh + 2) then (s.bump 3).imagePart c (c.addr 0) (n % (imageBytes w / 8))
  else (s.bump 3).platePut c w (n % (plateMacros w).2) (m % 131072)

/-- PLATE_LOAD_DONE (R207, R211): the image bytes not yet read are read, and the image is written to the plate. Its bytes are
charged first, as far as the counts allow (R362, R363); of a load that fails, the bytes that it wrote are, and how many it wrote of
those left is not stated. -/
def execPlateLoadDone (cmd : Nat) (s : State) : Out :=
  match s.cmd? cmd with
  | none => .next s
  | some c =>
    let w := c.regs.headD 0#32
    let total := imageBytes w
    let t := s.cmdTeam c
    if c.kind ≠ .plateLoad ∨ !c.started ∨ c.stuck.isSome then .next s
    else
      match s.cmdStop c 0 c.bytes with
      | (s, some (.recorded e status)) => .next (((s.plateFree c w).consume e).finishNow cmd status)
      | (s, some _) =>
        if t.replay then .next (((s.plateFree c w).recordEnd c c.bytes).finishNow cmd statusBudget) else .next s
      | (s, none) =>
        let limited := s.allowance t.cls 0 != 0xFFFFFFFF#32
        let n := if limited then min (total - c.bytes) (s.expoLeft c.core t.cls 0).toNat else total - c.bytes
        if c.bytes + n < total then
          .next ((s.spend c.core t.cls 0 n).updCmd cmd fun y => { y with bytes := c.bytes + n })
        else
          match s.engAfford c (c.addr 0) total with
          | (s, at_, some a) => .next ((s.updCmd cmd fun y => { y with pos := at_ }).engPause cmd (some a))
          | (s, at_, none) =>
            match s.engReadAll c (c.addr 0) total with
            | (s', .inr img) =>
              .next (((s'.spend c.core t.cls 0 n).plateImage c w (c.overlay img)).finishNow cmd statusDone)
            | (s', .inl f) =>
              match f, c.unserviced with
              | .xlate page, false => .next (s'.stick cmd page)
              | .wait a, _ => .next ((s'.updCmd cmd fun y => { y with pos := at_ }).engPause cmd a)
              | f, _ =>
                let more := (Config.freeWord s'.fresh).toNat % (n + 1)
                .next ((((s'.bump 1).spend c.core t.cls 0 more).plateFree c w).finishNow cmd (failStatus f))

/-! ## TBL.LOAD -/

/-- A table of the command's core takes an image, and both cores of a bracketed pair do (R186, R188, R390). -/
def State.loadTable (s : State) (c : Cmd) (img : List Byte) : State :=
  let t := ((c.word 2).extractLsb' 0 2).toNat
  let new := (List.range 512).map fun i => bytesW32 (sliceBytes img (4 * i) 4)
  let put (x : CoreSt) : CoreSt :=
    { x with tables := writeWords (clearKeys x.tables (512 * t) (512 * t + 512)) (512 * t) new }
  let team := s.cmdTeam c
  let s := s.updCore c.core put
  match team.bracket, team.follower with
  | true, some b => s.updCore b put
  | _, _ => s

/-- A TBL.LOAD is the first of each core that it fills, and its crew's earlier accesses are performed (R189, R273). -/
def State.tblTurn (s : State) (c : Cmd) : Bool :=
  c.kind == .tblLoad && s.cmdAfter c && c.stuck.isNone &&
    !(s.ctx.cmds.any fun y => decide (y.id < c.id) && (s.tableCores c).any fun k => s.fillsTables y k)

/-- The checks of R188. -/
def Cmd.tblOk (c : Cmd) : Bool :=
  decide ((c.addr 0).toNat % 64 = 0) && canonical (c.addr 0) && (c.word 2).extractLsb' 2 30 == 0#30

/-- TBL_LOAD_DONE (R188, R189): loads of a core are performed in issue order; a failed one never becomes current. -/
def execTblLoadDone (cmd : Nat) (s : State) : Out :=
  match s.cmd? cmd with
  | none => .next s
  | some c =>
    if !(s.tblTurn c) then .next s
    else if !c.tblOk then .next (s.finishCmd c statusFault)
    else
      match s.engAfford c (c.addr 0) 2048 with
      | (s, at_, some a) => .next ((s.updCmd cmd fun y => { y with pos := at_ }).engPause cmd (some a))
      | (s, at_, none) =>
        match s.engReadAll c (c.addr 0) 2048 with
        | (s', .inr img) => .next ((s'.loadTable c (c.overlay img)).finishNow cmd statusDone)
        | (s', .inl f) =>
          match f, c.unserviced with
          | .xlate page, false => .next (s'.stick cmd page)
          | .wait a, _ => .next ((s'.updCmd cmd fun y => { y with pos := at_ }).engPause cmd a)
          | f, _ => .next (s'.finishNow cmd (failStatus f))

/-! ## Moves ahead of a command's end -/

/-- A command that may perform single accesses ahead of its end (R211, R230, R274, R335): it has started, or needs no start,
and waits for no page. -/
def State.partly (s : State) (c : Cmd) : Bool :=
  match c.kind with
  | .copy => c.started && c.stuck.isNone
  | .copyG => c.started && c.stuck.isNone
  | .copyS => c.started && c.stuck.isNone
  | .fill => c.started && c.stuck.isNone
  | .plateLoad => c.started && c.stuck.isNone
  | .tblLoad => s.tblTurn c && c.tblOk
  | .accSt => s.cmdAfter c && c.stuck.isNone && !c.accFaults
  | .mxg => c.started
  | _ => false

/-- One access of a command performed ahead of its end; which one is free. -/
def State.partMove (s : State) (id : Nat) : State :=
  match s.cmd? id with
  | none => s
  | some c =>
    if !(s.partly c) then s
    else if c.copies then s.copyPart c
    else if c.kind = .plateLoad then s.platePart c
    else if c.kind = .mxg then s.gatherPart c
    else if c.kind = .tblLoad then (s.bump 1).imagePart c (c.addr 0) ((Config.freeWord s.fresh).toNat % 256)
    else s.accPart c

/-! ## Ring commits -/

/-- RING_COMMIT_EFFECT (R344, R345). -/
def execRingCommitEffect (team ring : Nat) (s : State) : Out := .next (s.commitEffects team ring)

/-! ## Walks -/

/-- Places of a WALK's descriptor (R325). -/
def Cmd.walkRegion (x : Cmd) : Nat := ((x.word 1).extractLsb' 0 8).toNat
def Cmd.walkRing (x : Cmd) : Nat := ((x.word 1).extractLsb' 8 4).toNat
def Cmd.maxent (x : Cmd) : Nat := (x.word 2).toNat

/-- A walk waits for a free stage of its ring, where a pre-emption suspends it (R320). -/
def State.walkSuspended (s : State) (x : Cmd) : Bool :=
  x.kind == .walk && x.walk.out != [] && x.walk.stage.isNone &&
    (let g := (s.cmdTeam x).ring x.walkRing; decide (g.a = g.f + g.scount))

/-- Two walks write into one ring. -/
def Cmd.sameRing (x y : Cmd) : Bool := x.team == y.team && x.walkRing == y.walkRing

/-- An earlier walk of a core that a drain does not wait for (R320): it waits for a free stage, or for its last commit to take
effect, or it has not started and stands behind such a walk on its ring, whose entries come first. -/
def State.walkAside (s : State) (y : Cmd) : Bool :=
  y.kind == .walk && !(s.cmdTeam y).issues &&
    (s.walkSuspended y || (y.walk.ended.isSome && y.walk.out == []) ||
      (!y.started && s.ctx.cmds.any fun z => z.kind == .walk && z.core == y.core && decide (z.id < y.id) && z.sameRing y))

/-- A core's walker serves its walks one at a time, in issue order (R319); in a drain it passes over those of other rings that
the drain does not wait for (R320). -/
def State.walkTurn (s : State) (x : Cmd) : Bool :=
  x.kind == .walk && s.cmdAfter x &&
    !(s.ctx.cmds.any fun y => y.kind == .walk && y.core == x.core && decide (y.id < x.id) &&
      !(s.walkAside y && !(y.sameRing x)))

/-- The checks at the start of a walk (Table 13.4). -/
def State.walkOk (s : State) (x : Cmd) : Bool :=
  let g := (s.cmdTeam x).ring x.walkRing
  (s.cluRegion x.walkRegion).isSome && g.init && decide (g.ssize % 8 = 0) && (x.word 1).extractLsb' 12 20 == 0#20

/-- An entry of a walk (Table 13.3). -/
def walkEntry (kind node level rows : Nat) : W64 :=
  BitVec.ofNat 64 (rows * 2 ^ 48 + kind * 2 ^ 32 + level * 2 ^ 28 + node)

/-- END, with its status. -/
def Walk.finish (k : Walk) (trunc : Bool) (status : W32) : Walk :=
  { k with stack := [], ended := some status, out := k.out ++ [walkEntry 2 0 0 (if trunc then 1 else 0)] }

/-- An ACCEPT or LEAF entry, or END with TRUNC = 1 where MAXENT stops the walk (R315). -/
def Walk.emit (k : Walk) (maxent : Nat) (e : W64) : Walk :=
  if maxent ≠ 0 ∧ maxent ≤ k.written + 1 then k.finish true statusDone
  else { k with written := k.written + 1, out := k.out ++ [e] }

/-- The query of a walk, read once before its first node test (R314). -/
def State.walkQuery (s : State) (x : Cmd) (d : Nat) : List W32 :=
  let t := s.cmdTeam x
  (List.range d).map fun j =>
    bytesW32 (t.spadGet (spadWrap t.spadBytes (((x.word 0).toNat + 4 * j) % 2 ^ 32) 4) 4)

/-- The number of a node (R306). -/
def Region.nodeNumber (g : Region) (level j : Nat) : Nat := cluBase g.clu.2.2.1 level + j

/-- The test of one record and what it leads to (R314, R315): `count` and `first` are the record's, `pass` is its test. -/
def Walk.step (k : Walk) (x : Cmd) (node level j count first : Nat) (pass : Bool) : Walk :=
  let k := { k with tests := k.tests + 1 }
  if count = 0 then k
  else if pass then k.emit x.maxent (walkEntry 0 node level 0)
  else if level = 0 then k.emit x.maxent (walkEntry 1 node 0 count)
  else
    let present := (List.range 8).filter fun i => decide (16 * (first + i * 8 ^ (level - 1)) < 16 * first + count)
    { k with stack := (present.map fun i => (level - 1, 8 * j + i)) ++ k.stack }

/-- A record read and tested; once a translation of the region has changed, what is read is unspecified (R289). -/
def State.walkRecord (s : State) (g : Region) (x : Cmd) (k : Walk) (level j : Nat) : State × Walk :=
  let node := g.nodeNumber level j
  if g.remapped then
    (s.bump 3, k.step x node level j (Config.freeWord s.fresh).toNat (Config.freeWord (s.fresh + 1)).toNat
      (Config.freeBool (s.fresh + 2)))
  else
    (s, k.step x node level j (g.recWord node 0).toNat (g.recWord node 3).toNat
      (g.passes node x.theta x.walkMode x.mincount k.query (normOf k.query)))

/-- The region that a walk reads, while it is the one that was open at its start (R318, R321). -/
def State.walkedRegion (s : State) (x : Cmd) (k : Walk) : Option Region :=
  (s.cluRegion x.walkRegion).filter fun g => g.opening == k.opening

/-- A stage acquired by the walker, as RING.ACQ does (R317). -/
def State.walkAcquire (s : State) (x : Cmd) : State :=
  let t := s.cmdTeam x
  let g := t.ring x.walkRing
  if g.a = g.f + g.scount then s
  else
    let s := (if t.twin then s.acquireS x.core else s).ringConflict x.team x.walkRing g.a (some x.id)
    let s := (s.updTeamId x.team fun t => t.updRing x.walkRing fun g => { g with a := g.a + 1 }).updCmd x.id fun y =>
      { y with walk := { y.walk with stage := some g.a, fill := 0 } }
    if ((s.cmd? x.id).map fun y => y.walk.spoilt).getD false then s.spoilStage x.team x.walkRing g.a else s

/-- The walker commits its stage, as RING.COMMIT does (R317). -/
def State.walkCommit (s : State) (x : Cmd) : State :=
  let s := match x.walk.stage with | some n => s.ringConflict x.team x.walkRing n (some x.id) | none => s
  (s.updCmd x.id fun y => { y with walk := { y.walk with stage := none, fill := 0, last := y.walk.stage } }).giveCommit
    x.team x.walkRing {}

/-- One entry written into the walker's stage; a full stage is committed. -/
def State.walkPut (s : State) (x : Cmd) (n : Nat) (e : W64) : State :=
  let t := s.cmdTeam x
  let g := t.ring x.walkRing
  let at0 := (g.offset n).toNat + x.walk.fill
  let s := s.spadPut x.team (spadWrap t.spadBytes (at0 % 2 ^ 32) 4) (w32Bytes (e.setWidth 32))
  let s := s.spadPut x.team (spadWrap t.spadBytes ((at0 + 4) % 2 ^ 32) 4) (w32Bytes (e.extractLsb' 32 32))
  let s := s.updCmd x.id fun y => { y with walk := { y.walk with fill := y.walk.fill + 8, out := y.walk.out.drop 1 } }
  if g.ssize ≤ x.walk.fill + 8 then s.walkCommit x else s

/-- Entries formed go to stages while there is one; after END the stage is committed, and the token is written once that
commit has taken effect (R317, R321). -/
def State.walkPlace (s : State) (cmd : Nat) : Nat → State
  | 0 => s
  | fuel + 1 =>
    match s.cmd? cmd with
    | none => s
    | some x =>
      match x.walk.out, x.walk.stage with
      | e :: _, some n => (s.walkPut x n e).walkPlace cmd fuel
      | _ :: _, none =>
        let s' := s.walkAcquire x
        match (s'.cmd? cmd).bind fun y => y.walk.stage with
        | some _ => s'.walkPlace cmd fuel
        | none => s'
      | [], stage =>
        if x.walk.ended.isSome && stage.isSome then s.walkCommit x else s

/-- The walk after one step of its own, with what it has formed placed. -/
def State.walkGo (s : State) (cmd : Nat) (k : Walk) : State :=
  let k := if k.stack = [] ∧ k.ended.isNone then k.finish false statusDone else k
  (s.updCmd cmd fun y => { y with started := true, walk := k }).walkPlace cmd 8

/-- A walk about to make a node test. -/
def State.walkTest (s : State) (x : Cmd) (k : Walk) : State :=
  match s.cmdStop x 1 k.tests with
  | (s, some .budget) =>
    if (s.cmdTeam x).replay then (s.recordEnd x k.tests).walkGo x.id (k.finish true statusBudget) else s
  | (s, some (.recorded e status)) => (s.consume e).walkGo x.id (k.finish true status)
  | (s, _) =>
    match k.stack with
    | [] => s.walkGo x.id k
    | (level, j) :: rest =>
      match s.walkedRegion x k with
      | none => s.walkGo x.id (k.finish true statusFault)
      | some g =>
        if s.pathBusy x.core g.num then s
        else if s.recordBad g (g.nodeNumber level j) 0 (cluStride g.clu.1 g.clu.2.1) then s.walkGo x.id (k.finish true statusFault)
        else
          let (s, k) := s.walkRecord g x { k with stack := rest } level j
          (s.spend x.core (s.cmdTeam x).cls 1 1).walkGo x.id k

/-- WALKER_NODE_TEST (R314, R315, R319, R321). -/
def execWalkerNodeTest (cmd : Nat) (s : State) : Out :=
  match s.cmd? cmd with
  | none => .next s
  | some x =>
    if !(s.walkTurn x) ∨ x.walk.out ≠ [] ∨ x.walk.ended.isSome then .next s
    else if x.started then .next (s.walkTest x x.walk)
    else if !(s.walkOk x) then .next (s.finishCmd x statusFault)
    else
      match s.cluRegion x.walkRegion with
      | none => .next s
      | some g =>
        .next (s.walkTest x { x.walk with opening := g.opening, stack := [((cluLevels g.clu.2.2.1).length - 1, 0)],
                                          query := s.walkQuery x g.clu.1 })

/-- WALKER_STAGE_ACQUIRE (R317): the walker waited for a free stage. -/
def execWalkerStageAcquire (cmd : Nat) (s : State) : Out :=
  match s.cmd? cmd with
  | none => .next s
  | some x => if x.kind == .walk && x.walk.out != [] then .next (s.walkPlace cmd 8) else .next s

end Sys2Proof.Machine
end

