-- ==== Sys2Proof/Decode.lean ====
section
/-!
DEFINITION. The decoder and the encoder, from the formats and opcode maps of 02_encoding.md (Tables 2.4
to 2.12). The decoder reads the words of one instruction unit (R28): an optional PREFIX word, the
instruction word, and a literal word after LIT or KLIT. It is total, and it refuses every word that is
not a well-formed instruction (R52).
-/

namespace Sys2Proof

/-- The source an 8-bit field names (Table 2.1). -/
def Src.ofBits (x : BitVec 8) : Src :=
  if x.getLsbD 7 then .k (x.extractLsb' 0 7) else .v (x.extractLsb' 0 7)

/-- The 8-bit field of a source (Table 2.1). -/
def Src.toBits : Src → BitVec 8
  | .v r => 0#1 ++ r
  | .k r => 1#1 ++ r

/-- The fields of a PREFIX word (Table 2.6); a reserved round or scope value gives none. -/
def Prefix.ofWord? (w : W32) : Option Prefix :=
  (Round.ofBits? (w.extractLsb' 8 3)).bind fun round =>
  (Scope.ofBits? (w.extractLsb' 4 3)).bind fun scope =>
  (Order.ofBits? (w.extractLsb' 2 2)).map fun order =>
    ⟨w.extractLsb' 16 8, w.extractLsb' 13 3, w.getLsbD 12, w.getLsbD 11, round, w.getLsbD 7, scope, order,
      w.getLsbD 1, w.getLsbD 0⟩

/-- The PREFIX word of its fields (Table 2.6). -/
def Prefix.toWord (p : Prefix) : W32 :=
  0x7F#8 ++ p.c ++ p.mask ++ BitVec.ofBool p.inv ++ BitVec.ofBool p.zeroing ++ p.round.toBits
    ++ BitVec.ofBool p.sat ++ p.scope.toBits ++ p.order.toBits ++ BitVec.ofBool p.remote
    ++ BitVec.ofBool p.cValid

/-- The word is a PREFIX word (R39). -/
def isPrefixWord (w : W32) : Bool := w.extractLsb' 24 8 == 0x7F#8

/-- The word is of literal form, LIT or KLIT (R38). -/
def isLiteralWord (w : W32) : Bool := w.extractLsb' 24 8 == 0x2E#8 || w.extractLsb' 24 8 == 0x95#8

/-- The word belongs to the uniform set (R27). -/
def isUniformWord (w : W32) : Bool := w.getLsbD 31

/-- A CSRR by number: the reads of FPFLAGS and TBLDATA are steps of their own (R164, R387). -/
def csrReadInstr (d : BitVec 8) (n : BitVec 12) : Instr :=
  if n = 0x041#12 then .fpflagsRead d else if n = 0x084#12 then .tbldataRead d else .csrr d n

/-- A CSRW by number: the writes of FPFLAGS, TBLDATA and the save-area registers are steps of their own
(R163, R387, R388). -/
def csrWriteInstr (s : BitVec 8) (n : BitVec 12) : Instr :=
  if n = 0x041#12 then .fpflagsWrite s
  else if n = 0x084#12 then .tbldataWrite s
  else if n.extractLsb' 2 10 = 0x00C#10 then .saveAreaWrite (n.extractLsb' 0 2) s
  else .csrw s n

/-- The CSR numbers of the save-area registers (Table 16.3). -/
def saveAreaNumber (n : BitVec 2) : BitVec 12 := 0x00C#10 ++ n

/-- A lane-set word under the fields of its PREFIX (Table 2.11). `bare` is whether no PREFIX stands before it. The term may still fail `wellFormed`. -/
def decodeLane (bare : Bool) (p : Prefix) (w lit : W32) : Option Instr :=
  match (w.extractLsb' 24 8).toNat with
  | 0x00 => if bare then (if !(w.getLsbD 23) && w.extractLsb' 16 7 == 0#7 then some (.nop (w.extractLsb' 0 16)) else none) else none
  | 0x01 => if bare then (some (.bra (w.extractLsb' 21 3) (w.getLsbD 20) (w.extractLsb' 0 20))) else none
  | 0x02 => if bare then (if !(w.getLsbD 23) && w.extractLsb' 16 7 == 0#7 && w.extractLsb' 0 8 == 0#8 then some (.brx (Src.ofBits (w.extractLsb' 8 8))) else none) else none
  | 0x03 => if bare then (if w.extractLsb' 21 3 == 0#3 && !(w.getLsbD 20) then some (.call (w.extractLsb' 0 20)) else none) else none
  | 0x04 => if bare then (if !(w.getLsbD 23) && w.extractLsb' 0 8 == 0#8 then some (.callx (w.extractLsb' 16 7) (Src.ofBits (w.extractLsb' 8 8))) else none) else none
  | 0x05 => if bare then (if !(w.getLsbD 23) && w.extractLsb' 16 7 == 0#7 && w.extractLsb' 0 8 == 0#8 then some (.ret (Src.ofBits (w.extractLsb' 8 8))) else none) else none
  | 0x06 => if bare then (if !(w.getLsbD 23) && w.extractLsb' 16 7 == 0#7 && w.extractLsb' 1 15 == 0#15 then some (.join (w.getLsbD 0)) else none) else none
  | 0x07 => if bare then (if !(w.getLsbD 23) && w.extractLsb' 16 7 == 0#7 && w.extractLsb' 0 16 == 0#16 then some .exit else none) else none
  | 0x08 => if !(w.getLsbD 23) then (VoteKind.ofBits? (w.extractLsb' 0 8)).bind fun kind => some (.vote p (w.extractLsb' 16 7) (Src.ofBits (w.extractLsb' 8 8)) kind) else none
  | 0x09 => if !(w.getLsbD 23) then some (.shflIdx p (w.extractLsb' 16 7) (Src.ofBits (w.extractLsb' 8 8)) (Src.ofBits (w.extractLsb' 0 8))) else none
  | 0x0A => if !(w.getLsbD 23) then some (.shflUp p (w.extractLsb' 16 7) (Src.ofBits (w.extractLsb' 8 8)) (Src.ofBits (w.extractLsb' 0 8))) else none
  | 0x0B => if !(w.getLsbD 23) then some (.shflDn p (w.extractLsb' 16 7) (Src.ofBits (w.extractLsb' 8 8)) (Src.ofBits (w.extractLsb' 0 8))) else none
  | 0x0C => if !(w.getLsbD 23) then some (.shflXor p (w.extractLsb' 16 7) (Src.ofBits (w.extractLsb' 8 8)) (Src.ofBits (w.extractLsb' 0 8))) else none
  | 0x0D => if !(w.getLsbD 23) && w.extractLsb' 0 8 == 0#8 then some (.matchEq p (w.extractLsb' 16 7) (Src.ofBits (w.extractLsb' 8 8))) else none
  | 0x0E => if w.extractLsb' 0 8 == 0#8 then some (.compact p (w.getLsbD 23) (w.extractLsb' 16 7) (Src.ofBits (w.extractLsb' 8 8))) else none
  | 0x0F => if bare then (if !(w.getLsbD 23) && w.extractLsb' 0 8 == 0#8 then some (.regroup (w.extractLsb' 16 7) (Src.ofBits (w.extractLsb' 8 8))) else none) else none
  | 0x10 => if !(w.getLsbD 23) && w.extractLsb' 8 8 == 0#8 && w.extractLsb' 0 8 == 0#8 then some (.elect p (w.extractLsb' 16 7)) else none
  | 0x11 => if !(w.getLsbD 23) && w.extractLsb' 8 8 == 0#8 && w.extractLsb' 4 4 == 0#4 then some (.sreg p (w.extractLsb' 16 7) (w.extractLsb' 0 4)) else none
  | 0x14 => some (.iadd p (w.getLsbD 23) (w.extractLsb' 16 7) (Src.ofBits (w.extractLsb' 8 8)) (Src.ofBits (w.extractLsb' 0 8)))
  | 0x15 => some (.isub p (w.getLsbD 23) (w.extractLsb' 16 7) (Src.ofBits (w.extractLsb' 8 8)) (Src.ofBits (w.extractLsb' 0 8)))
  | 0x16 => some (.imul p (w.getLsbD 23) (w.extractLsb' 16 7) (Src.ofBits (w.extractLsb' 8 8)) (Src.ofBits (w.extractLsb' 0 8)))
  | 0x17 => some (.imulh p (w.getLsbD 23) (w.extractLsb' 16 7) (Src.ofBits (w.extractLsb' 8 8)) (Src.ofBits (w.extractLsb' 0 8)))
  | 0x18 => some (.imad p (w.getLsbD 23) (w.extractLsb' 16 7) (Src.ofBits (w.extractLsb' 8 8)) (Src.ofBits (w.extractLsb' 0 8)))
  | 0x19 => some (.imin p (w.getLsbD 23) (w.extractLsb' 16 7) (Src.ofBits (w.extractLsb' 8 8)) (Src.ofBits (w.extractLsb' 0 8)))
  | 0x1A => some (.imax p (w.getLsbD 23) (w.extractLsb' 16 7) (Src.ofBits (w.extractLsb' 8 8)) (Src.ofBits (w.extractLsb' 0 8)))
  | 0x1B => if w.getLsbD 23 then (if w.getLsbD 23 && w.extractLsb' 0 8 == 0#8 then some (.iabs p (w.extractLsb' 16 7) (Src.ofBits (w.extractLsb' 8 8))) else none) else (if !(w.getLsbD 23) && w.extractLsb' 0 8 == 0#8 then some (.ineg p (w.extractLsb' 16 7) (Src.ofBits (w.extractLsb' 8 8))) else none)
  | 0x1C => if !(w.getLsbD 23) then some (.vand p (w.extractLsb' 16 7) (Src.ofBits (w.extractLsb' 8 8)) (Src.ofBits (w.extractLsb' 0 8))) else none
  | 0x1D => if !(w.getLsbD 23) then some (.vor p (w.extractLsb' 16 7) (Src.ofBits (w.extractLsb' 8 8)) (Src.ofBits (w.extractLsb' 0 8))) else none
  | 0x1E => if !(w.getLsbD 23) then some (.vxor p (w.extractLsb' 16 7) (Src.ofBits (w.extractLsb' 8 8)) (Src.ofBits (w.extractLsb' 0 8))) else none
  | 0x1F => if !(w.getLsbD 23) then some (.andn p (w.extractLsb' 16 7) (Src.ofBits (w.extractLsb' 8 8)) (Src.ofBits (w.extractLsb' 0 8))) else none
  | 0x20 => if !(w.getLsbD 23) then some (.shl p (w.extractLsb' 16 7) (Src.ofBits (w.extractLsb' 8 8)) (Src.ofBits (w.extractLsb' 0 8))) else none
  | 0x21 => if w.getLsbD 23 then (if w.getLsbD 23 then some (.sar p (w.extractLsb' 16 7) (Src.ofBits (w.extractLsb' 8 8)) (Src.ofBits (w.extractLsb' 0 8))) else none) else (if !(w.getLsbD 23) then some (.shr p (w.extractLsb' 16 7) (Src.ofBits (w.extractLsb' 8 8)) (Src.ofBits (w.extractLsb' 0 8))) else none)
  | 0x22 => if !(w.getLsbD 23) then some (.rotl p (w.extractLsb' 16 7) (Src.ofBits (w.extractLsb' 8 8)) (Src.ofBits (w.extractLsb' 0 8))) else none
  | 0x23 => if !(w.getLsbD 23) then some (.bfe p (w.extractLsb' 16 7) (Src.ofBits (w.extractLsb' 8 8)) (Src.ofBits (w.extractLsb' 0 8))) else none
  | 0x24 => if !(w.getLsbD 23) then some (.bfi p (w.extractLsb' 16 7) (Src.ofBits (w.extractLsb' 8 8)) (Src.ofBits (w.extractLsb' 0 8))) else none
  | 0x25 => if !(w.getLsbD 23) && w.extractLsb' 0 8 == 0#8 then some (.popc p (w.extractLsb' 16 7) (Src.ofBits (w.extractLsb' 8 8))) else none
  | 0x26 => if !(w.getLsbD 23) && w.extractLsb' 0 8 == 0#8 then some (.clz p (w.extractLsb' 16 7) (Src.ofBits (w.extractLsb' 8 8))) else none
  | 0x27 => if !(w.getLsbD 23) && w.extractLsb' 0 8 == 0#8 then some (.brev p (w.extractLsb' 16 7) (Src.ofBits (w.extractLsb' 8 8))) else none
  | 0x28 => (IntCond.ofBits? (w.extractLsb' 19 4)).bind fun cc => some (.icmp p (w.getLsbD 23) cc (w.extractLsb' 16 3) (Src.ofBits (w.extractLsb' 8 8)) (Src.ofBits (w.extractLsb' 0 8)))
  | 0x29 => if !(w.getLsbD 23) then some (.sel p (w.extractLsb' 16 7) (Src.ofBits (w.extractLsb' 8 8)) (Src.ofBits (w.extractLsb' 0 8))) else none
  | 0x2A => some (.idot4 p (w.getLsbD 23) (w.extractLsb' 16 7) (Src.ofBits (w.extractLsb' 8 8)) (Src.ofBits (w.extractLsb' 0 8)))
  | 0x2B => some (.iaddi p (w.getLsbD 23) (w.extractLsb' 16 7) (Src.ofBits (w.extractLsb' 8 8)) (w.extractLsb' 0 8))
  | 0x2C => some (.movi p (w.getLsbD 23) (w.extractLsb' 16 7) (w.extractLsb' 0 16))
  | 0x2D => if !(w.getLsbD 23) && w.extractLsb' 0 8 == 0#8 then some (.mov p (w.extractLsb' 16 7) (Src.ofBits (w.extractLsb' 8 8))) else none
  | 0x2E => if !(w.getLsbD 23) && w.extractLsb' 0 16 == 0#16 then some (.lit p (w.extractLsb' 16 7) lit) else none
  | 0x30 => some (.fadd p (w.getLsbD 23) (w.extractLsb' 16 7) (Src.ofBits (w.extractLsb' 8 8)) (Src.ofBits (w.extractLsb' 0 8)))
  | 0x31 => some (.fsub p (w.getLsbD 23) (w.extractLsb' 16 7) (Src.ofBits (w.extractLsb' 8 8)) (Src.ofBits (w.extractLsb' 0 8)))
  | 0x32 => some (.fmul p (w.getLsbD 23) (w.extractLsb' 16 7) (Src.ofBits (w.extractLsb' 8 8)) (Src.ofBits (w.extractLsb' 0 8)))
  | 0x33 => some (.ffma p (w.getLsbD 23) (w.extractLsb' 16 7) (Src.ofBits (w.extractLsb' 8 8)) (Src.ofBits (w.extractLsb' 0 8)))
  | 0x34 => some (.fmin p (w.getLsbD 23) (w.extractLsb' 16 7) (Src.ofBits (w.extractLsb' 8 8)) (Src.ofBits (w.extractLsb' 0 8)))
  | 0x35 => some (.fmax p (w.getLsbD 23) (w.extractLsb' 16 7) (Src.ofBits (w.extractLsb' 8 8)) (Src.ofBits (w.extractLsb' 0 8)))
  | 0x36 => if w.getLsbD 23 then (if w.getLsbD 23 && w.extractLsb' 0 8 == 0#8 then some (.fabs p (w.extractLsb' 16 7) (Src.ofBits (w.extractLsb' 8 8))) else none) else (if !(w.getLsbD 23) && w.extractLsb' 0 8 == 0#8 then some (.fneg p (w.extractLsb' 16 7) (Src.ofBits (w.extractLsb' 8 8))) else none)
  | 0x37 => (FpCond.ofBits? (w.extractLsb' 19 4)).bind fun cc => some (.fcmp p (w.getLsbD 23) cc (w.extractLsb' 16 3) (Src.ofBits (w.extractLsb' 8 8)) (Src.ofBits (w.extractLsb' 0 8)))
  | 0x38 => if !(w.getLsbD 23) && w.extractLsb' 0 8 == 0#8 then some (.fclass p (w.extractLsb' 16 7) (Src.ofBits (w.extractLsb' 8 8))) else none
  | 0x39 => if !(w.getLsbD 23) && w.extractLsb' 0 8 == 0#8 then some (.frnd p (w.extractLsb' 16 7) (Src.ofBits (w.extractLsb' 8 8))) else none
  | 0x3A => if !(w.getLsbD 23) then some (.fscale p (w.extractLsb' 16 7) (Src.ofBits (w.extractLsb' 8 8)) (Src.ofBits (w.extractLsb' 0 8))) else none
  | 0x3B => if !(w.getLsbD 23) && w.extractLsb' 0 8 == 0#8 then some (.frcp p (w.extractLsb' 16 7) (Src.ofBits (w.extractLsb' 8 8))) else none
  | 0x3C => if !(w.getLsbD 23) && w.extractLsb' 0 8 == 0#8 then some (.frsq p (w.extractLsb' 16 7) (Src.ofBits (w.extractLsb' 8 8))) else none
  | 0x3D => if !(w.getLsbD 23) && w.extractLsb' 0 8 == 0#8 then some (.fsqrt p (w.extractLsb' 16 7) (Src.ofBits (w.extractLsb' 8 8))) else none
  | 0x3E => if !(w.getLsbD 23) && w.extractLsb' 0 8 == 0#8 then some (.fexp2 p (w.extractLsb' 16 7) (Src.ofBits (w.extractLsb' 8 8))) else none
  | 0x3F => if !(w.getLsbD 23) && w.extractLsb' 0 8 == 0#8 then some (.flog2 p (w.extractLsb' 16 7) (Src.ofBits (w.extractLsb' 8 8))) else none
  | 0x40 => if !(w.getLsbD 23) && w.extractLsb' 0 8 == 0#8 then some (.fsin p (w.extractLsb' 16 7) (Src.ofBits (w.extractLsb' 8 8))) else none
  | 0x41 => if !(w.getLsbD 23) && w.extractLsb' 0 8 == 0#8 then some (.fcos p (w.extractLsb' 16 7) (Src.ofBits (w.extractLsb' 8 8))) else none
  | 0x42 => if !(w.getLsbD 23) && w.extractLsb' 0 8 == 0#8 then some (.ftanh p (w.extractLsb' 16 7) (Src.ofBits (w.extractLsb' 8 8))) else none
  | 0x43 => some (.fdot2 p (w.getLsbD 23) (w.extractLsb' 16 7) (Src.ofBits (w.extractLsb' 8 8)) (Src.ofBits (w.extractLsb' 0 8)))
  | 0x44 => if !(w.getLsbD 23) then (FloatFmt.ofBits? (w.extractLsb' 5 3)).bind fun dst => (FloatFmt.ofBits? (w.extractLsb' 2 3)).bind fun src => some (.cvtFF p (w.extractLsb' 16 7) (Src.ofBits (w.extractLsb' 8 8)) dst src (w.extractLsb' 0 2)) else none
  | 0x45 => if !(w.getLsbD 23) then (FloatFmt.ofBits? (w.extractLsb' 5 3)).bind fun src => (IntFmt.ofBits? (w.extractLsb' 0 3)).bind fun dst => some (.cvtFI p (w.extractLsb' 16 7) (Src.ofBits (w.extractLsb' 8 8)) src (w.extractLsb' 3 2) dst) else none
  | 0x46 => if !(w.getLsbD 23) then (FloatFmt.ofBits? (w.extractLsb' 5 3)).bind fun dst => (IntFmt.ofBits? (w.extractLsb' 0 3)).bind fun src => some (.cvtIF p (w.extractLsb' 16 7) (Src.ofBits (w.extractLsb' 8 8)) dst (w.extractLsb' 3 2) src) else none
  | 0x47 => if w.getLsbD 23 then (if w.getLsbD 23 && w.extractLsb' 6 2 == 0#2 then some (.bfpqE p (w.extractLsb' 16 7) (Src.ofBits (w.extractLsb' 8 8)) (w.getLsbD 5) (w.extractLsb' 3 2) (w.extractLsb' 0 3)) else none) else (if !(w.getLsbD 23) && w.extractLsb' 6 2 == 0#2 then some (.bfpqM p (w.extractLsb' 16 7) (Src.ofBits (w.extractLsb' 8 8)) (w.extractLsb' 4 2) (w.extractLsb' 0 4)) else none)
  | 0x48 => if !(w.getLsbD 23) then some (.bfpx p (w.extractLsb' 16 7) (Src.ofBits (w.extractLsb' 8 8)) (w.extractLsb' 6 2) (w.extractLsb' 4 2) (w.extractLsb' 0 4)) else none
  | 0x50 => if !(w.getLsbD 23) then some (.permb p (w.extractLsb' 16 7) (Src.ofBits (w.extractLsb' 8 8)) (Src.ofBits (w.extractLsb' 0 8))) else none
  | 0x51 => if !(w.getLsbD 23) && w.extractLsb' 4 4 == 0#4 then some (.nibx p (w.extractLsb' 16 7) (Src.ofBits (w.extractLsb' 8 8)) (w.getLsbD 3) (w.getLsbD 2) (w.extractLsb' 0 2)) else none
  | 0x52 => if bare then (if !(w.getLsbD 23) && w.extractLsb' 1 7 == 0#7 then some (.xpose (w.extractLsb' 16 7) (Src.ofBits (w.extractLsb' 8 8)) (w.getLsbD 0)) else none) else none
  | 0x53 => if !(w.getLsbD 23) && w.extractLsb' 4 4 == 0#4 then (LutMode.ofBits? (w.extractLsb' 2 2)).bind fun mode => some (.lut p (w.extractLsb' 16 7) (Src.ofBits (w.extractLsb' 8 8)) mode (w.extractLsb' 0 2)) else none
  | 0x54 => some (.pack2 p (w.getLsbD 23) (w.extractLsb' 16 7) (Src.ofBits (w.extractLsb' 8 8)) (Src.ofBits (w.extractLsb' 0 8)))
  | 0x58 => (Width.ofBits? (w.extractLsb' 6 2)).bind fun sz => some (.lds p (w.getLsbD 23) (w.extractLsb' 16 7) (Src.ofBits (w.extractLsb' 8 8)) sz (w.extractLsb' 0 6))
  | 0x59 => if !(w.getLsbD 23) then (Width.ofBits? (w.extractLsb' 6 2)).bind fun sz => some (.sts p (w.extractLsb' 16 7) (Src.ofBits (w.extractLsb' 8 8)) sz (w.extractLsb' 0 6)) else none
  | 0x5A => if !(w.getLsbD 23) && w.extractLsb' 6 2 == 3#2 then some (.ldsQ p (w.extractLsb' 16 7) (Src.ofBits (w.extractLsb' 8 8)) (w.extractLsb' 0 6)) else none
  | 0x5B => if !(w.getLsbD 23) && w.extractLsb' 6 2 == 3#2 then some (.stsQ p (w.extractLsb' 16 7) (Src.ofBits (w.extractLsb' 8 8)) (w.extractLsb' 0 6)) else none
  | 0x5C => if !(w.getLsbD 23) then (Width.ofBits? (w.extractLsb' 6 2)).bind fun sz => some (.atoms p (w.extractLsb' 16 7) (Src.ofBits (w.extractLsb' 8 8)) sz (w.extractLsb' 0 6)) else none
  | 0x5D => if !(w.getLsbD 23) then (Width.ofBits? (w.extractLsb' 6 2)).bind fun sz => some (.atomsCas p (w.extractLsb' 16 7) (Src.ofBits (w.extractLsb' 8 8)) sz (w.extractLsb' 0 6)) else none
  | 0x60 => if w.extractLsb' 0 8 == 0#8 then some (.accRd p (w.getLsbD 23) (w.extractLsb' 16 7) (Src.ofBits (w.extractLsb' 8 8))) else none
  | 0x61 => if !(w.getLsbD 23) && w.extractLsb' 0 8 == 0#8 then some (.accWr p (w.extractLsb' 16 7) (Src.ofBits (w.extractLsb' 8 8))) else none
  | 0x62 => if !(w.getLsbD 23) && w.extractLsb' 0 8 == 0#8 then some (.accAdd p (w.extractLsb' 16 7) (Src.ofBits (w.extractLsb' 8 8))) else none
  | 0x68 => (Width.ofBits? (w.extractLsb' 6 2)).bind fun sz => some (.ld p (w.getLsbD 23) (w.extractLsb' 16 7) (Src.ofBits (w.extractLsb' 8 8)) sz (w.extractLsb' 0 6))
  | 0x69 => if !(w.getLsbD 23) then (Width.ofBits? (w.extractLsb' 6 2)).bind fun sz => some (.st p (w.extractLsb' 16 7) (Src.ofBits (w.extractLsb' 8 8)) sz (w.extractLsb' 0 6)) else none
  | 0x6A => if !(w.getLsbD 23) && w.extractLsb' 6 2 == 3#2 then some (.ldQ p (w.extractLsb' 16 7) (Src.ofBits (w.extractLsb' 8 8)) (w.extractLsb' 0 6)) else none
  | 0x6B => if !(w.getLsbD 23) && w.extractLsb' 6 2 == 3#2 then some (.stQ p (w.extractLsb' 16 7) (Src.ofBits (w.extractLsb' 8 8)) (w.extractLsb' 0 6)) else none
  | 0x6C => if !(w.getLsbD 23) then (Width.ofBits? (w.extractLsb' 6 2)).bind fun sz => some (.atom p (w.extractLsb' 16 7) (Src.ofBits (w.extractLsb' 8 8)) sz (w.extractLsb' 0 6)) else none
  | 0x6D => if !(w.getLsbD 23) then (Width.ofBits? (w.extractLsb' 6 2)).bind fun sz => some (.atomCas p (w.extractLsb' 16 7) (Src.ofBits (w.extractLsb' 8 8)) sz (w.extractLsb' 0 6)) else none
  | 0x6E => if !(w.getLsbD 23) then (Width.ofBits? (w.extractLsb' 6 2)).bind fun sz => some (.red p (w.extractLsb' 16 7) (Src.ofBits (w.extractLsb' 8 8)) sz (w.extractLsb' 0 6)) else none
  | 0x6F => if w.extractLsb' 16 7 == 0#7 && w.extractLsb' 6 2 == 0#2 then some (.pref p (w.getLsbD 23) (Src.ofBits (w.extractLsb' 8 8)) (w.extractLsb' 0 6)) else none
  | 0x70 => some (.ldaSum p (w.getLsbD 23) (w.extractLsb' 16 7) (Src.ofBits (w.extractLsb' 8 8)) (w.extractLsb' 0 8))
  | 0x71 => some (.ldaMax p (w.getLsbD 23) (w.extractLsb' 16 7) (Src.ofBits (w.extractLsb' 8 8)) (w.extractLsb' 0 8))
  | 0x72 => if !(w.getLsbD 23) then some (.ldaMin p (w.extractLsb' 16 7) (Src.ofBits (w.extractLsb' 8 8)) (w.extractLsb' 0 8)) else none
  | 0x73 => some (.ldaFind p (w.getLsbD 23) (w.extractLsb' 16 7) (Src.ofBits (w.extractLsb' 8 8)) (w.extractLsb' 0 8))
  | 0x74 => some (.ldaPick p (w.getLsbD 23) (w.extractLsb' 16 7) (Src.ofBits (w.extractLsb' 8 8)) (w.extractLsb' 0 8))
  | 0x75 => some (.cluNode p (w.getLsbD 23) (w.extractLsb' 16 7) (Src.ofBits (w.extractLsb' 8 8)) (w.extractLsb' 0 8))
  | _ => none

/-- A uniform-set word (Table 2.12). The term may still fail `wellFormed`. -/
def decodeUniform (w lit : W32) : Option Instr :=
  match (w.extractLsb' 24 8).toNat with
  | 0x80 => if w.extractLsb' 16 8 == 0#8 && w.extractLsb' 8 8 == 0#8 && w.extractLsb' 0 8 == 0#8 then some .knop else none
  | 0x81 => some (.kadd (w.extractLsb' 16 8) (w.extractLsb' 8 8) (w.extractLsb' 0 8))
  | 0x82 => some (.ksub (w.extractLsb' 16 8) (w.extractLsb' 8 8) (w.extractLsb' 0 8))
  | 0x83 => some (.kmul (w.extractLsb' 16 8) (w.extractLsb' 8 8) (w.extractLsb' 0 8))
  | 0x84 => some (.kmulh (w.extractLsb' 16 8) (w.extractLsb' 8 8) (w.extractLsb' 0 8))
  | 0x85 => some (.kmad (w.extractLsb' 16 8) (w.extractLsb' 8 8) (w.extractLsb' 0 8))
  | 0x86 => some (.kmin (w.extractLsb' 16 8) (w.extractLsb' 8 8) (w.extractLsb' 0 8))
  | 0x87 => some (.kmax (w.extractLsb' 16 8) (w.extractLsb' 8 8) (w.extractLsb' 0 8))
  | 0x88 => some (.kand (w.extractLsb' 16 8) (w.extractLsb' 8 8) (w.extractLsb' 0 8))
  | 0x89 => some (.kor (w.extractLsb' 16 8) (w.extractLsb' 8 8) (w.extractLsb' 0 8))
  | 0x8A => some (.kxor (w.extractLsb' 16 8) (w.extractLsb' 8 8) (w.extractLsb' 0 8))
  | 0x8B => some (.kshl (w.extractLsb' 16 8) (w.extractLsb' 8 8) (w.extractLsb' 0 8))
  | 0x8C => some (.kshr (w.extractLsb' 16 8) (w.extractLsb' 8 8) (w.extractLsb' 0 8))
  | 0x8D => some (.ksar (w.extractLsb' 16 8) (w.extractLsb' 8 8) (w.extractLsb' 0 8))
  | 0x8E => some (.kbfe (w.extractLsb' 16 8) (w.extractLsb' 8 8) (w.extractLsb' 0 8))
  | 0x8F => if w.extractLsb' 0 8 == 0#8 then some (.kpopc (w.extractLsb' 16 8) (w.extractLsb' 8 8)) else none
  | 0x90 => if w.extractLsb' 0 8 == 0#8 then some (.kclz (w.extractLsb' 16 8) (w.extractLsb' 8 8)) else none
  | 0x91 => some (.kcmp (w.extractLsb' 16 8) (w.extractLsb' 8 8) (w.extractLsb' 0 8))
  | 0x92 => some (.ksel (w.extractLsb' 16 8) (w.extractLsb' 8 8) (w.extractLsb' 0 8))
  | 0x93 => if w.extractLsb' 0 8 == 0#8 then some (.kmov (w.extractLsb' 16 8) (w.extractLsb' 8 8)) else none
  | 0x94 => some (.kmovi (w.extractLsb' 16 8) (w.extractLsb' 0 16))
  | 0x95 => if w.extractLsb' 0 16 == 0#16 then some (.klit (w.extractLsb' 16 8) lit) else none
  | 0x96 => if w.extractLsb' 8 8 == 0#8 then some (.khiRd (w.extractLsb' 16 8) (w.extractLsb' 0 8)) else none
  | 0x97 => if w.extractLsb' 8 8 == 0#8 then some (.khiWr (w.extractLsb' 16 8) (w.extractLsb' 0 8)) else none
  | 0x98 => some (.kaddi (w.extractLsb' 16 8) (w.extractLsb' 0 16))
  | 0x99 => if !(w.getLsbD 15) && w.extractLsb' 5 2 == 0#2 then some (.vtok (w.extractLsb' 16 8) (w.extractLsb' 8 7) (w.getLsbD 7) (w.extractLsb' 0 5)) else none
  | 0x9A => if w.extractLsb' 11 5 == 0#5 && w.extractLsb' 0 8 == 0#8 then some (.mtok (w.extractLsb' 16 8) (w.extractLsb' 8 3)) else none
  | 0x9B => if w.extractLsb' 19 5 == 0#5 && w.extractLsb' 0 8 == 0#8 then some (.ktom (w.extractLsb' 16 3) (w.extractLsb' 8 8)) else none
  | 0x9C => if w.extractLsb' 22 2 == 0#2 && w.extractLsb' 11 5 == 0#5 && w.extractLsb' 3 5 == 0#5 then (MlogOp.ofBits? (w.extractLsb' 19 3)).bind fun f => some (.mlog f (w.extractLsb' 16 3) (w.extractLsb' 8 3) (w.extractLsb' 0 3)) else none
  | 0x9D => some (.kld (w.extractLsb' 16 8) (w.extractLsb' 8 8) (w.extractLsb' 0 8))
  | 0xA0 => (BraCond.ofBits? (w.extractLsb' 22 2)).bind fun cc => some (.kbra cc (w.extractLsb' 14 8) (w.extractLsb' 0 14))
  | 0xA1 => if w.extractLsb' 16 8 == 0#8 && w.extractLsb' 12 4 == 0#4 then some (.barArr (w.extractLsb' 8 4) (w.extractLsb' 0 8)) else none
  | 0xA2 => if w.extractLsb' 16 8 == 0#8 && w.extractLsb' 12 4 == 0#4 && w.extractLsb' 0 8 == 0#8 then some (.barWait (w.extractLsb' 8 4)) else none
  | 0xA3 => if w.extractLsb' 16 8 == 0#8 && w.extractLsb' 12 4 == 0#4 then some (.barSync (w.extractLsb' 8 4) (w.extractLsb' 0 8)) else none
  | 0xA4 => if w.extractLsb' 16 8 == 0#8 && w.extractLsb' 8 8 == 0#8 && w.extractLsb' 0 8 == 0#8 then some .yieldRun else none
  | 0xA5 => if w.extractLsb' 16 8 == 0#8 && w.extractLsb' 0 8 == 0#8 then some (.rgxSet (w.extractLsb' 8 8)) else none
  | 0xA6 => if w.extractLsb' 12 4 == 0#4 && w.extractLsb' 0 8 == 0#8 then some (.ksreg (w.extractLsb' 16 8) (w.extractLsb' 8 4)) else none
  | 0xA7 => if w.extractLsb' 16 8 == 0#8 then some (.sleep (w.extractLsb' 0 16)) else none
  | 0xB0 => if w.extractLsb' 11 5 == 0#5 then some (.plateMap (w.extractLsb' 16 8) (w.extractLsb' 8 3) (w.extractLsb' 0 8)) else none
  | 0xB1 => if w.extractLsb' 16 8 == 0#8 && w.extractLsb' 11 5 == 0#5 && w.extractLsb' 0 8 == 0#8 then some (.plateUnmap (w.extractLsb' 8 3)) else none
  | 0xB2 => if w.extractLsb' 11 5 == 0#5 && w.extractLsb' 0 8 == 0#8 then some (.plateInfo (w.extractLsb' 16 8) (w.extractLsb' 8 3)) else none
  | 0xB3 => if w.extractLsb' 0 8 == 0#8 then some (.plateLoad (w.extractLsb' 16 8) (w.extractLsb' 8 8)) else none
  | 0xB8 => if !(w.getLsbD 7) then some (.mxr (w.extractLsb' 16 8) (w.extractLsb' 8 8) (w.getLsbD 6) (w.extractLsb' 3 3) (w.extractLsb' 0 3)) else none
  | 0xB9 => if !(w.getLsbD 7) then some (.mxg (w.extractLsb' 16 8) (w.extractLsb' 8 8) (w.getLsbD 6) (w.extractLsb' 3 3) (w.extractLsb' 0 3)) else none
  | 0xBA => if w.extractLsb' 16 8 == 0#8 && w.extractLsb' 4 3 == 0#3 then some (.mxfence (w.extractLsb' 8 8) (w.getLsbD 7) (w.extractLsb' 0 4)) else none
  | 0xBB => some (.accWin (w.extractLsb' 16 8) (w.extractLsb' 8 8) (w.extractLsb' 0 8))
  | 0xBC => if w.extractLsb' 16 8 == 0#8 then some (.accClr (w.extractLsb' 8 8) (w.extractLsb' 0 8)) else none
  | 0xBD => if w.extractLsb' 1 7 == 0#7 then some (.accSt (w.extractLsb' 16 8) (w.extractLsb' 8 8) (w.getLsbD 0)) else none
  | 0xC0 => if w.extractLsb' 16 8 == 0#8 && w.extractLsb' 11 5 == 0#5 && w.extractLsb' 4 4 == 0#4 && !(w.getLsbD 2) then (Scope.ofBits? (w.extractLsb' 8 3)).bind fun scope => (Order.ofBits? (w.extractLsb' 0 2)).bind fun order => some (.fence scope (w.getLsbD 3) order) else none
  | 0xC1 => if w.extractLsb' 16 8 == 0#8 then some (.cwb (w.extractLsb' 8 8) (w.extractLsb' 0 8)) else none
  | 0xC2 => if w.extractLsb' 16 8 == 0#8 then some (.cinv (w.extractLsb' 8 8) (w.extractLsb' 0 8)) else none
  | 0xC8 => if w.extractLsb' 1 7 == 0#7 then some (.aggOpen (w.extractLsb' 16 8) (w.extractLsb' 8 8) (w.getLsbD 0)) else none
  | 0xC9 => if w.extractLsb' 16 8 == 0#8 && w.extractLsb' 0 8 == 0#8 then some (.aggClose (w.extractLsb' 8 8)) else none
  | 0xCA => if w.extractLsb' 3 5 == 0#5 then some (.aggInfo (w.extractLsb' 16 8) (w.extractLsb' 8 8) (w.extractLsb' 0 3)) else none
  | 0xCB => if w.extractLsb' 16 8 == 0#8 && w.extractLsb' 0 8 == 0#8 then some (.aggRefresh (w.extractLsb' 8 8)) else none
  | 0xCC => if w.extractLsb' 16 8 == 0#8 && w.extractLsb' 1 7 == 0#7 then some (.aggFence (w.extractLsb' 8 8) (w.getLsbD 0)) else none
  | 0xD0 => if w.extractLsb' 1 7 == 0#7 then some (.cluOpen (w.extractLsb' 16 8) (w.extractLsb' 8 8) (w.getLsbD 0)) else none
  | 0xD1 => if w.extractLsb' 16 8 == 0#8 && w.extractLsb' 0 8 == 0#8 then some (.cluClose (w.extractLsb' 8 8)) else none
  | 0xD2 => some (.cluGrow (w.extractLsb' 16 8) (w.extractLsb' 8 8) (w.extractLsb' 0 8))
  | 0xD3 => if w.extractLsb' 0 8 == 0#8 then some (.walkSet (w.extractLsb' 16 8) (w.extractLsb' 8 8)) else none
  | 0xD4 => if w.extractLsb' 0 8 == 0#8 then some (.walk (w.extractLsb' 16 8) (w.extractLsb' 8 8)) else none
  | 0xD5 => if w.extractLsb' 16 8 == 0#8 && w.extractLsb' 1 7 == 0#7 then some (.cluFence (w.extractLsb' 8 8) (w.getLsbD 0)) else none
  | 0xD8 => if w.extractLsb' 2 6 == 0#6 then some (.copy (w.extractLsb' 16 8) (w.extractLsb' 8 8) (w.getLsbD 1) (w.getLsbD 0)) else none
  | 0xD9 => if w.extractLsb' 2 6 == 0#6 then some (.copyG (w.extractLsb' 16 8) (w.extractLsb' 8 8) (w.getLsbD 1) (w.getLsbD 0)) else none
  | 0xDA => if w.extractLsb' 2 6 == 0#6 then some (.copyS (w.extractLsb' 16 8) (w.extractLsb' 8 8) (w.getLsbD 1) (w.getLsbD 0)) else none
  | 0xDB => if w.extractLsb' 2 6 == 0#6 then some (.copyFill (w.extractLsb' 16 8) (w.extractLsb' 8 8) (w.getLsbD 1) (w.getLsbD 0)) else none
  | 0xDC => if w.extractLsb' 20 4 == 0#4 then some (.ringInit (w.extractLsb' 16 4) (w.extractLsb' 8 8) (w.extractLsb' 0 8)) else none
  | 0xDD => if w.extractLsb' 12 4 == 0#4 && w.extractLsb' 0 8 == 0#8 then some (.ringAcq (w.extractLsb' 16 8) (w.extractLsb' 8 4)) else none
  | 0xDE => if w.extractLsb' 16 8 == 0#8 && w.extractLsb' 12 4 == 0#4 then some (.ringCommit (w.extractLsb' 8 4) (w.extractLsb' 0 8)) else none
  | 0xDF => if w.extractLsb' 12 4 == 0#4 then some (.ringWait (w.extractLsb' 16 8) (w.extractLsb' 8 4) (w.extractLsb' 0 8)) else none
  | 0xE0 => if w.extractLsb' 16 8 == 0#8 && w.extractLsb' 12 4 == 0#4 then some (.ringRel (w.extractLsb' 8 4) (w.extractLsb' 0 8)) else none
  | 0xE1 => if w.extractLsb' 16 8 == 0#8 then some (.twait (w.extractLsb' 8 8) (w.extractLsb' 0 8)) else none
  | 0xE2 => if w.extractLsb' 0 8 == 0#8 then some (.toktest (w.extractLsb' 16 8) (w.extractLsb' 8 8)) else none
  | 0xE8 => if w.extractLsb' 0 8 == 0#8 then some (.launch (w.extractLsb' 16 8) (w.extractLsb' 8 8)) else none
  | 0xE9 => if w.extractLsb' 16 8 == 0#8 && w.extractLsb' 8 8 == 0#8 && w.extractLsb' 1 7 == 0#7 then some (.depset (w.getLsbD 0)) else none
  | 0xEA => if w.extractLsb' 11 5 == 0#5 && w.extractLsb' 2 6 == 0#6 then some (.expoRd (w.extractLsb' 16 8) (w.extractLsb' 8 3) (w.extractLsb' 0 2)) else none
  | 0xF0 => if w.extractLsb' 16 8 == 0#8 then some (.trap (w.extractLsb' 0 16)) else none
  | 0xF1 => if w.extractLsb' 16 8 == 0#8 && w.extractLsb' 8 8 == 0#8 && w.extractLsb' 0 8 == 0#8 then some .eret else none
  | 0xF2 => if w.extractLsb' 12 4 == 0#4 then some (csrReadInstr (w.extractLsb' 16 8) (w.extractLsb' 0 12)) else none
  | 0xF3 => if w.extractLsb' 12 4 == 0#4 then some (csrWriteInstr (w.extractLsb' 16 8) (w.extractLsb' 0 12)) else none
  | 0xF4 => if w.extractLsb' 17 7 == 0#7 then some (.parkPc (w.getLsbD 16) (w.extractLsb' 8 8) (w.extractLsb' 0 8)) else none
  | 0xF5 => if w.extractLsb' 16 8 == 0#8 && w.extractLsb' 0 8 == 0#8 then some (.parkMask (w.extractLsb' 8 8)) else none
  | 0xF6 => if w.extractLsb' 16 8 == 0#8 then some (.bkpt (w.extractLsb' 0 16)) else none
  | 0xF7 => if w.extractLsb' 16 8 == 0#8 && w.extractLsb' 8 8 == 0#8 && w.extractLsb' 0 8 == 0#8 then some .halt else none
  | 0xF8 => if w.extractLsb' 0 8 == 0#8 then some (.brkt (w.extractLsb' 16 8) (w.extractLsb' 8 8)) else none
  | 0xF9 => if w.extractLsb' 0 8 == 0#8 then some (.tblLoad (w.extractLsb' 16 8) (w.extractLsb' 8 8)) else none
  | 0xFA => if w.extractLsb' 8 8 == 0#8 && w.extractLsb' 0 8 == 0#8 then some (.time (w.extractLsb' 16 8)) else none
  | _ => none

/-- What the decoder says of one instruction unit. -/
structure Decoded where
  /-- words of the unit, 1 to 3 (R28) -/
  words : Nat
  /-- the unit is a uniform-set unit (R27) -/
  uniform : Bool
  /-- the mask and inv that form the active set of a lane-set unit (R41, R56) -/
  mask : BitVec 3
  inv : Bool
  /-- the instruction; none for a unit that is not well formed (R52) -/
  instr : Option Instr
deriving DecidableEq, Repr

/-- The instruction, where its term is well formed. -/
def onlyWellFormed (i : Option Instr) : Option Instr :=
  i.bind fun i => if i.wellFormed then some i else none

/-- The word's major is SEL, which reads mask and inv as its selector (R41). -/
def isSelWord (w : W32) : Bool := w.extractLsb' 24 8 == 0x29#8

/-- How many words the unit that begins with these words has (R28). -/
def unitWords (w0 w1 : W32) : Nat :=
  if isPrefixWord w0 then (if !(isUniformWord w1) && isLiteralWord w1 then 3 else 2)
  else if isLiteralWord w0 then 2 else 1

/-- Decodes the unit that begins with the three words. Words past the unit's last are not read. -/
def decodeUnit (w0 w1 w2 : W32) : Decoded :=
  if isPrefixWord w0 then
    if isUniformWord w1 then ⟨2, true, 0#3, false, none⟩
    else
      let i := if isPrefixWord w1 then none
        else (Prefix.ofWord? w0).bind fun p => onlyWellFormed (decodeLane false p w1 w2)
      if isSelWord w1 then ⟨unitWords w0 w1, false, 0#3, false, i⟩
      else ⟨unitWords w0 w1, false, w0.extractLsb' 13 3, w0.getLsbD 12, i⟩
  else if isUniformWord w0 then
    ⟨unitWords w0 w1, true, 0#3, false, onlyWellFormed (decodeUniform w0 w1)⟩
  else ⟨unitWords w0 w1, false, 0#3, false, onlyWellFormed (decodeLane true Prefix.zero w0 w1)⟩

/-- The four bytes of a word in memory, little-endian (R6, R26). -/
def wordBytes (w : W32) : List Byte :=
  [w.extractLsb' 0 8, w.extractLsb' 8 8, w.extractLsb' 16 8, w.extractLsb' 24 8]

/-- The word that four bytes hold, little-endian (R6, R26). -/
def bytesWord (b0 b1 b2 b3 : Byte) : W32 := b3 ++ b2 ++ b1 ++ b0

/-- Decodes the unit at the front of a byte string, which stands padded with zero bytes to twelve. -/
def decodeBytes : List Byte → Decoded
  | [a0, a1, a2, a3, b0, b1, b2, b3, c0, c1, c2, c3] =>
    decodeUnit (bytesWord a0 a1 a2 a3) (bytesWord b0 b1 b2 b3) (bytesWord c0 c1 c2 c3)
  | _ => ⟨1, false, 0#3, false, none⟩

/-- The bytes of an instruction whose bits are numbered from the first word up, as the opcode table
numbers them; the bits above `nbits` are 0. -/
def tableBytes (nbits w : Nat) : List Byte :=
  let x : BitVec 96 := BitVec.ofNat 96 (w % 2 ^ nbits)
  wordBytes (x.extractLsb' 0 32) ++ wordBytes (x.extractLsb' 32 32) ++ wordBytes (x.extractLsb' 64 32)

/-- The instruction the decoder reads from a word of the opcode table. -/
def decodeTableWord (nbits w : Nat) : Option Instr := (decodeBytes (tableBytes nbits w)).instr

/-- The instruction word of an instruction; a step without a word of its own has none. -/
def encodeWord : Instr → Option W32
  | .nop imm => some (0x00#8 ++ 0#1 ++ 0#7 ++ imm)
  | .bra m inv off => some (0x01#8 ++ m ++ BitVec.ofBool inv ++ off)
  | .brx a => some (0x02#8 ++ 0#1 ++ 0#7 ++ a.toBits ++ 0#8)
  | .call off => some (0x03#8 ++ 0#3 ++ 0#1 ++ off)
  | .callx d a => some (0x04#8 ++ 0#1 ++ d ++ a.toBits ++ 0#8)
  | .ret a => some (0x05#8 ++ 0#1 ++ 0#7 ++ a.toBits ++ 0#8)
  | .join split => some (0x06#8 ++ 0#1 ++ 0#7 ++ 0#15 ++ BitVec.ofBool split)
  | .exit => some (0x07#8 ++ 0#1 ++ 0#7 ++ 0#16)
  | .vote _ d a kind => some (0x08#8 ++ 0#1 ++ d ++ a.toBits ++ kind.toBits)
  | .shflIdx _ d a b => some (0x09#8 ++ 0#1 ++ d ++ a.toBits ++ b.toBits)
  | .shflUp _ d a b => some (0x0A#8 ++ 0#1 ++ d ++ a.toBits ++ b.toBits)
  | .shflDn _ d a b => some (0x0B#8 ++ 0#1 ++ d ++ a.toBits ++ b.toBits)
  | .shflXor _ d a b => some (0x0C#8 ++ 0#1 ++ d ++ a.toBits ++ b.toBits)
  | .matchEq _ d a => some (0x0D#8 ++ 0#1 ++ d ++ a.toBits ++ 0#8)
  | .compact _ incl d a => some (0x0E#8 ++ BitVec.ofBool incl ++ d ++ a.toBits ++ 0#8)
  | .regroup d a => some (0x0F#8 ++ 0#1 ++ d ++ a.toBits ++ 0#8)
  | .elect _ d => some (0x10#8 ++ 0#1 ++ d ++ 0#8 ++ 0#8)
  | .sreg _ d n => some (0x11#8 ++ 0#1 ++ d ++ 0#8 ++ 0#4 ++ n)
  | .iadd _ u d a b => some (0x14#8 ++ BitVec.ofBool u ++ d ++ a.toBits ++ b.toBits)
  | .isub _ u d a b => some (0x15#8 ++ BitVec.ofBool u ++ d ++ a.toBits ++ b.toBits)
  | .imul _ u d a b => some (0x16#8 ++ BitVec.ofBool u ++ d ++ a.toBits ++ b.toBits)
  | .imulh _ u d a b => some (0x17#8 ++ BitVec.ofBool u ++ d ++ a.toBits ++ b.toBits)
  | .imad _ u d a b => some (0x18#8 ++ BitVec.ofBool u ++ d ++ a.toBits ++ b.toBits)
  | .imin _ u d a b => some (0x19#8 ++ BitVec.ofBool u ++ d ++ a.toBits ++ b.toBits)
  | .imax _ u d a b => some (0x1A#8 ++ BitVec.ofBool u ++ d ++ a.toBits ++ b.toBits)
  | .ineg _ d a => some (0x1B#8 ++ 0#1 ++ d ++ a.toBits ++ 0#8)
  | .iabs _ d a => some (0x1B#8 ++ 1#1 ++ d ++ a.toBits ++ 0#8)
  | .vand _ d a b => some (0x1C#8 ++ 0#1 ++ d ++ a.toBits ++ b.toBits)
  | .vor _ d a b => some (0x1D#8 ++ 0#1 ++ d ++ a.toBits ++ b.toBits)
  | .vxor _ d a b => some (0x1E#8 ++ 0#1 ++ d ++ a.toBits ++ b.toBits)
  | .andn _ d a b => some (0x1F#8 ++ 0#1 ++ d ++ a.toBits ++ b.toBits)
  | .shl _ d a b => some (0x20#8 ++ 0#1 ++ d ++ a.toBits ++ b.toBits)
  | .shr _ d a b => some (0x21#8 ++ 0#1 ++ d ++ a.toBits ++ b.toBits)
  | .sar _ d a b => some (0x21#8 ++ 1#1 ++ d ++ a.toBits ++ b.toBits)
  | .rotl _ d a b => some (0x22#8 ++ 0#1 ++ d ++ a.toBits ++ b.toBits)
  | .bfe _ d a b => some (0x23#8 ++ 0#1 ++ d ++ a.toBits ++ b.toBits)
  | .bfi _ d a b => some (0x24#8 ++ 0#1 ++ d ++ a.toBits ++ b.toBits)
  | .popc _ d a => some (0x25#8 ++ 0#1 ++ d ++ a.toBits ++ 0#8)
  | .clz _ d a => some (0x26#8 ++ 0#1 ++ d ++ a.toBits ++ 0#8)
  | .brev _ d a => some (0x27#8 ++ 0#1 ++ d ++ a.toBits ++ 0#8)
  | .icmp _ andOld cc md a b => some (0x28#8 ++ BitVec.ofBool andOld ++ cc.toBits ++ md ++ a.toBits ++ b.toBits)
  | .sel _ d a b => some (0x29#8 ++ 0#1 ++ d ++ a.toBits ++ b.toBits)
  | .idot4 _ u d a b => some (0x2A#8 ++ BitVec.ofBool u ++ d ++ a.toBits ++ b.toBits)
  | .iaddi _ u d a imm => some (0x2B#8 ++ BitVec.ofBool u ++ d ++ a.toBits ++ imm)
  | .movi _ hi d imm => some (0x2C#8 ++ BitVec.ofBool hi ++ d ++ imm)
  | .mov _ d a => some (0x2D#8 ++ 0#1 ++ d ++ a.toBits ++ 0#8)
  | .lit _ d _ => some (0x2E#8 ++ 0#1 ++ d ++ 0#16)
  | .fadd _ bf d a b => some (0x30#8 ++ BitVec.ofBool bf ++ d ++ a.toBits ++ b.toBits)
  | .fsub _ bf d a b => some (0x31#8 ++ BitVec.ofBool bf ++ d ++ a.toBits ++ b.toBits)
  | .fmul _ bf d a b => some (0x32#8 ++ BitVec.ofBool bf ++ d ++ a.toBits ++ b.toBits)
  | .ffma _ bf d a b => some (0x33#8 ++ BitVec.ofBool bf ++ d ++ a.toBits ++ b.toBits)
  | .fmin _ bf d a b => some (0x34#8 ++ BitVec.ofBool bf ++ d ++ a.toBits ++ b.toBits)
  | .fmax _ bf d a b => some (0x35#8 ++ BitVec.ofBool bf ++ d ++ a.toBits ++ b.toBits)
  | .fneg _ d a => some (0x36#8 ++ 0#1 ++ d ++ a.toBits ++ 0#8)
  | .fabs _ d a => some (0x36#8 ++ 1#1 ++ d ++ a.toBits ++ 0#8)
  | .fcmp _ andOld cc md a b => some (0x37#8 ++ BitVec.ofBool andOld ++ cc.toBits ++ md ++ a.toBits ++ b.toBits)
  | .fclass _ d a => some (0x38#8 ++ 0#1 ++ d ++ a.toBits ++ 0#8)
  | .frnd _ d a => some (0x39#8 ++ 0#1 ++ d ++ a.toBits ++ 0#8)
  | .fscale _ d a b => some (0x3A#8 ++ 0#1 ++ d ++ a.toBits ++ b.toBits)
  | .frcp _ d a => some (0x3B#8 ++ 0#1 ++ d ++ a.toBits ++ 0#8)
  | .frsq _ d a => some (0x3C#8 ++ 0#1 ++ d ++ a.toBits ++ 0#8)
  | .fsqrt _ d a => some (0x3D#8 ++ 0#1 ++ d ++ a.toBits ++ 0#8)
  | .fexp2 _ d a => some (0x3E#8 ++ 0#1 ++ d ++ a.toBits ++ 0#8)
  | .flog2 _ d a => some (0x3F#8 ++ 0#1 ++ d ++ a.toBits ++ 0#8)
  | .fsin _ d a => some (0x40#8 ++ 0#1 ++ d ++ a.toBits ++ 0#8)
  | .fcos _ d a => some (0x41#8 ++ 0#1 ++ d ++ a.toBits ++ 0#8)
  | .ftanh _ d a => some (0x42#8 ++ 0#1 ++ d ++ a.toBits ++ 0#8)
  | .fdot2 _ half d a b => some (0x43#8 ++ BitVec.ofBool half ++ d ++ a.toBits ++ b.toBits)
  | .cvtFF _ d a dst src e => some (0x44#8 ++ 0#1 ++ d ++ a.toBits ++ dst.toBits ++ src.toBits ++ e)
  | .cvtFI _ d a src e dst => some (0x45#8 ++ 0#1 ++ d ++ a.toBits ++ src.toBits ++ e ++ dst.toBits)
  | .cvtIF _ d a dst e src => some (0x46#8 ++ 0#1 ++ d ++ a.toBits ++ dst.toBits ++ e ++ src.toBits)
  | .bfpqM _ d a r m => some (0x47#8 ++ 0#1 ++ d ++ a.toBits ++ 0#2 ++ r ++ m)
  | .bfpqE _ d a pick r j => some (0x47#8 ++ 1#1 ++ d ++ a.toBits ++ 0#2 ++ BitVec.ofBool pick ++ r ++ j)
  | .bfpx _ d a q r m => some (0x48#8 ++ 0#1 ++ d ++ a.toBits ++ q ++ r ++ m)
  | .permb _ d a b => some (0x50#8 ++ 0#1 ++ d ++ a.toBits ++ b.toBits)
  | .nibx _ d a sx two g => some (0x51#8 ++ 0#1 ++ d ++ a.toBits ++ 0#4 ++ BitVec.ofBool sx ++ BitVec.ofBool two ++ g)
  | .xpose d a bytes => some (0x52#8 ++ 0#1 ++ d ++ a.toBits ++ 0#7 ++ BitVec.ofBool bytes)
  | .lut _ d a mode t => some (0x53#8 ++ 0#1 ++ d ++ a.toBits ++ 0#4 ++ mode.toBits ++ t)
  | .pack2 _ half d a b => some (0x54#8 ++ BitVec.ofBool half ++ d ++ a.toBits ++ b.toBits)
  | .lds _ sx d a sz off => some (0x58#8 ++ BitVec.ofBool sx ++ d ++ a.toBits ++ sz.toBits ++ off)
  | .sts _ d a sz off => some (0x59#8 ++ 0#1 ++ d ++ a.toBits ++ sz.toBits ++ off)
  | .ldsQ _ d a off => some (0x5A#8 ++ 0#1 ++ d ++ a.toBits ++ 3#2 ++ off)
  | .stsQ _ d a off => some (0x5B#8 ++ 0#1 ++ d ++ a.toBits ++ 3#2 ++ off)
  | .atoms _ d a sz off => some (0x5C#8 ++ 0#1 ++ d ++ a.toBits ++ sz.toBits ++ off)
  | .atomsCas _ d a sz off => some (0x5D#8 ++ 0#1 ++ d ++ a.toBits ++ sz.toBits ++ off)
  | .accRd _ clr d a => some (0x60#8 ++ BitVec.ofBool clr ++ d ++ a.toBits ++ 0#8)
  | .accWr _ d a => some (0x61#8 ++ 0#1 ++ d ++ a.toBits ++ 0#8)
  | .accAdd _ d a => some (0x62#8 ++ 0#1 ++ d ++ a.toBits ++ 0#8)
  | .ld _ sx d a sz off => some (0x68#8 ++ BitVec.ofBool sx ++ d ++ a.toBits ++ sz.toBits ++ off)
  | .st _ d a sz off => some (0x69#8 ++ 0#1 ++ d ++ a.toBits ++ sz.toBits ++ off)
  | .ldQ _ d a off => some (0x6A#8 ++ 0#1 ++ d ++ a.toBits ++ 3#2 ++ off)
  | .stQ _ d a off => some (0x6B#8 ++ 0#1 ++ d ++ a.toBits ++ 3#2 ++ off)
  | .atom _ d a sz off => some (0x6C#8 ++ 0#1 ++ d ++ a.toBits ++ sz.toBits ++ off)
  | .atomCas _ d a sz off => some (0x6D#8 ++ 0#1 ++ d ++ a.toBits ++ sz.toBits ++ off)
  | .red _ d a sz off => some (0x6E#8 ++ 0#1 ++ d ++ a.toBits ++ sz.toBits ++ off)
  | .pref _ l2 a off => some (0x6F#8 ++ BitVec.ofBool l2 ++ 0#7 ++ a.toBits ++ 0#2 ++ off)
  | .ldaSum _ arg d a rg => some (0x70#8 ++ BitVec.ofBool arg ++ d ++ a.toBits ++ rg)
  | .ldaMax _ arg d a rg => some (0x71#8 ++ BitVec.ofBool arg ++ d ++ a.toBits ++ rg)
  | .ldaMin _ d a rg => some (0x72#8 ++ 0#1 ++ d ++ a.toBits ++ rg)
  | .ldaFind _ arg d a rg => some (0x73#8 ++ BitVec.ofBool arg ++ d ++ a.toBits ++ rg)
  | .ldaPick _ arg d a rg => some (0x74#8 ++ BitVec.ofBool arg ++ d ++ a.toBits ++ rg)
  | .cluNode _ q d a rg => some (0x75#8 ++ BitVec.ofBool q ++ d ++ a.toBits ++ rg)
  | .knop => some (0x80#8 ++ 0#8 ++ 0#8 ++ 0#8)
  | .kadd d a b => some (0x81#8 ++ d ++ a ++ b)
  | .ksub d a b => some (0x82#8 ++ d ++ a ++ b)
  | .kmul d a b => some (0x83#8 ++ d ++ a ++ b)
  | .kmulh d a b => some (0x84#8 ++ d ++ a ++ b)
  | .kmad d a b => some (0x85#8 ++ d ++ a ++ b)
  | .kmin d a b => some (0x86#8 ++ d ++ a ++ b)
  | .kmax d a b => some (0x87#8 ++ d ++ a ++ b)
  | .kand d a b => some (0x88#8 ++ d ++ a ++ b)
  | .kor d a b => some (0x89#8 ++ d ++ a ++ b)
  | .kxor d a b => some (0x8A#8 ++ d ++ a ++ b)
  | .kshl d a b => some (0x8B#8 ++ d ++ a ++ b)
  | .kshr d a b => some (0x8C#8 ++ d ++ a ++ b)
  | .ksar d a b => some (0x8D#8 ++ d ++ a ++ b)
  | .kbfe d a b => some (0x8E#8 ++ d ++ a ++ b)
  | .kpopc d a => some (0x8F#8 ++ d ++ a ++ 0#8)
  | .kclz d a => some (0x90#8 ++ d ++ a ++ 0#8)
  | .kcmp d a b => some (0x91#8 ++ d ++ a ++ b)
  | .ksel d a b => some (0x92#8 ++ d ++ a ++ b)
  | .kmov d a => some (0x93#8 ++ d ++ a ++ 0#8)
  | .kmovi d imm => some (0x94#8 ++ d ++ imm)
  | .klit d _ => some (0x95#8 ++ d ++ 0#16)
  | .khiRd d q => some (0x96#8 ++ d ++ 0#8 ++ q)
  | .khiWr src q => some (0x97#8 ++ src ++ 0#8 ++ q)
  | .kaddi d imm => some (0x98#8 ++ d ++ imm)
  | .vtok d r first l => some (0x99#8 ++ d ++ 0#1 ++ r ++ BitVec.ofBool first ++ 0#2 ++ l)
  | .mtok d m => some (0x9A#8 ++ d ++ 0#5 ++ m ++ 0#8)
  | .ktom m a => some (0x9B#8 ++ 0#5 ++ m ++ a ++ 0#8)
  | .mlog f md ma mb => some (0x9C#8 ++ 0#2 ++ f.toBits ++ md ++ 0#5 ++ ma ++ 0#5 ++ mb)
  | .kld d a b => some (0x9D#8 ++ d ++ a ++ b)
  | .kbra cc a off => some (0xA0#8 ++ cc.toBits ++ a ++ off)
  | .barArr bar b => some (0xA1#8 ++ 0#8 ++ 0#4 ++ bar ++ b)
  | .barWait bar => some (0xA2#8 ++ 0#8 ++ 0#4 ++ bar ++ 0#8)
  | .barSync bar b => some (0xA3#8 ++ 0#8 ++ 0#4 ++ bar ++ b)
  | .yieldRun => some (0xA4#8 ++ 0#8 ++ 0#8 ++ 0#8)
  | .rgxSet a => some (0xA5#8 ++ 0#8 ++ a ++ 0#8)
  | .ksreg d n => some (0xA6#8 ++ d ++ 0#4 ++ n ++ 0#8)
  | .sleep imm => some (0xA7#8 ++ 0#8 ++ imm)
  | .plateMap d pl b => some (0xB0#8 ++ d ++ 0#5 ++ pl ++ b)
  | .plateUnmap pl => some (0xB1#8 ++ 0#8 ++ 0#5 ++ pl ++ 0#8)
  | .plateInfo d pl => some (0xB2#8 ++ d ++ 0#5 ++ pl ++ 0#8)
  | .plateLoad t q => some (0xB3#8 ++ t ++ q ++ 0#8)
  | .mxr t q z ma pl => some (0xB8#8 ++ t ++ q ++ 0#1 ++ BitVec.ofBool z ++ ma ++ pl)
  | .mxg t q z ma pl => some (0xB9#8 ++ t ++ q ++ 0#1 ++ BitVec.ofBool z ++ ma ++ pl)
  | .mxfence a on bar => some (0xBA#8 ++ 0#8 ++ a ++ BitVec.ofBool on ++ 0#3 ++ bar)
  | .accWin d a b => some (0xBB#8 ++ d ++ a ++ b)
  | .accClr a b => some (0xBC#8 ++ 0#8 ++ a ++ b)
  | .accSt t q clr => some (0xBD#8 ++ t ++ q ++ 0#7 ++ BitVec.ofBool clr)
  | .fence scope remote order => some (0xC0#8 ++ 0#8 ++ 0#5 ++ scope.toBits ++ 0#4 ++ BitVec.ofBool remote ++ 0#1 ++ order.toBits)
  | .cwb a b => some (0xC1#8 ++ 0#8 ++ a ++ b)
  | .cinv a b => some (0xC2#8 ++ 0#8 ++ a ++ b)
  | .aggOpen t q pin => some (0xC8#8 ++ t ++ q ++ 0#7 ++ BitVec.ofBool pin)
  | .aggClose rg => some (0xC9#8 ++ 0#8 ++ rg ++ 0#8)
  | .aggInfo d rg pick => some (0xCA#8 ++ d ++ rg ++ 0#5 ++ pick)
  | .aggRefresh rg => some (0xCB#8 ++ 0#8 ++ rg ++ 0#8)
  | .aggFence rg all => some (0xCC#8 ++ 0#8 ++ rg ++ 0#7 ++ BitVec.ofBool all)
  | .cluOpen t q pin => some (0xD0#8 ++ t ++ q ++ 0#7 ++ BitVec.ofBool pin)
  | .cluClose rg => some (0xD1#8 ++ 0#8 ++ rg ++ 0#8)
  | .cluGrow d rg b => some (0xD2#8 ++ d ++ rg ++ b)
  | .walkSet t q => some (0xD3#8 ++ t ++ q ++ 0#8)
  | .walk t q => some (0xD4#8 ++ t ++ q ++ 0#8)
  | .cluFence rg all => some (0xD5#8 ++ 0#8 ++ rg ++ 0#7 ++ BitVec.ofBool all)
  | .copy t q dep chain => some (0xD8#8 ++ t ++ q ++ 0#6 ++ BitVec.ofBool dep ++ BitVec.ofBool chain)
  | .copyG t q dep chain => some (0xD9#8 ++ t ++ q ++ 0#6 ++ BitVec.ofBool dep ++ BitVec.ofBool chain)
  | .copyS t q dep chain => some (0xDA#8 ++ t ++ q ++ 0#6 ++ BitVec.ofBool dep ++ BitVec.ofBool chain)
  | .copyFill t q dep chain => some (0xDB#8 ++ t ++ q ++ 0#6 ++ BitVec.ofBool dep ++ BitVec.ofBool chain)
  | .ringInit r a b => some (0xDC#8 ++ 0#4 ++ r ++ a ++ b)
  | .ringAcq d r => some (0xDD#8 ++ d ++ 0#4 ++ r ++ 0#8)
  | .ringCommit r b => some (0xDE#8 ++ 0#8 ++ 0#4 ++ r ++ b)
  | .ringWait d r b => some (0xDF#8 ++ d ++ 0#4 ++ r ++ b)
  | .ringRel r b => some (0xE0#8 ++ 0#8 ++ 0#4 ++ r ++ b)
  | .twait a b => some (0xE1#8 ++ 0#8 ++ a ++ b)
  | .toktest d a => some (0xE2#8 ++ d ++ a ++ 0#8)
  | .launch t q => some (0xE8#8 ++ t ++ q ++ 0#8)
  | .depset sys => some (0xE9#8 ++ 0#8 ++ 0#8 ++ 0#7 ++ BitVec.ofBool sys)
  | .expoRd d act pick => some (0xEA#8 ++ d ++ 0#5 ++ act ++ 0#6 ++ pick)
  | .trap imm => some (0xF0#8 ++ 0#8 ++ imm)
  | .eret => some (0xF1#8 ++ 0#8 ++ 0#8 ++ 0#8)
  | .csrr d n => some (0xF2#8 ++ d ++ 0#4 ++ n)
  | .csrw src n => some (0xF3#8 ++ src ++ 0#4 ++ n)
  | .parkPc abs a b => some (0xF4#8 ++ 0#7 ++ BitVec.ofBool abs ++ a ++ b)
  | .parkMask a => some (0xF5#8 ++ 0#8 ++ a ++ 0#8)
  | .bkpt imm => some (0xF6#8 ++ 0#8 ++ imm)
  | .halt => some (0xF7#8 ++ 0#8 ++ 0#8 ++ 0#8)
  | .brkt d a => some (0xF8#8 ++ d ++ a ++ 0#8)
  | .tblLoad t q => some (0xF9#8 ++ t ++ q ++ 0#8)
  | .time d => some (0xFA#8 ++ d ++ 0#8 ++ 0#8)
  | .fpflagsWrite s => some (0xF3#8 ++ s ++ 0x0041#16)
  | .fpflagsRead d => some (0xF2#8 ++ d ++ 0x0041#16)
  | .xinvPage => none
  | .xinvAll => none
  | .tbldataRead d => some (0xF2#8 ++ d ++ 0x0084#16)
  | .tbldataWrite s => some (0xF3#8 ++ s ++ 0x0084#16)
  | .saveAreaWrite n s => some (0xF3#8 ++ s ++ 0x0#4 ++ saveAreaNumber n)
  | .csRecord => none
  | .csReplay => none
  | .contextCreate _ _ => none
  | .contextSwitchOut => none
  | .contextSwitchIn _ => none
  | .doorbellTailWrite _ => none
  | .doorbellSlotTake => none
  | .launchRecordAccept _ => none
  | .teamDispatch _ => none
  | .teamPreempt _ => none
  | .teamRestore _ => none
  | .crewRetire _ _ => none
  | .crewForcedSwap _ _ => none
  | .sleepExpire _ _ => none
  | .shutterBoundary => none
  | .handlerEpisodeOpen _ _ => none
  | .xlateService _ _ => none
  | .pageWalk _ => none
  | .loadDataReturn _ => none
  | .requestPerformed _ => none
  | .sLineWriteback _ _ => none
  | .hostMemAccess _ _ => none
  | .leafUpdate _ => none
  | .rangeLoadPerform _ => none
  | .rowUpdate _ => none
  | .aggOpenComplete _ => none
  | .cluOpenComplete _ => none
  | .mxStart _ => none
  | .mxDone _ => none
  | .streamCommandStart _ => none
  | .streamCommandDone _ => none
  | .plateLoadDone _ => none
  | .tblLoadDone _ => none
  | .accStDone _ => none
  | .ringCommitEffect _ _ => none
  | .walkerNodeTest _ => none
  | .walkerStageAcquire _ => none
  | .flitReceive _ _ => none
  | .remoteCommand _ _ _ => none
  | .portDown _ => none
  | .dieLinkFailure _ _ => none
  | .correctedSoftError _ _ => none
  | .uncorrectableError _ _ _ => none
  | .powerThrottle => none
  | .thermalStop => none
  | .deviceReset => none
  | .recoveryDoorbell => none
  | .attestReport => none
  | .attestCertificate => none
  | .mailboxComplete _ => none
  | .regionControlPerform _ => none
  | .launchEndedBySystem _ => none
  | .powerThrottleEnd => none
  | .errcntClear _ => none
  | .imageFlashWrite => none

/-- The PREFIX an instruction carries, where it accepts one. -/
def Instr.prefix? : Instr → Option Prefix
  | .nop _ => none
  | .bra _ _ _ => none
  | .brx _ => none
  | .call _ => none
  | .callx _ _ => none
  | .ret _ => none
  | .join _ => none
  | .exit => none
  | .vote p _ _ _ => some p
  | .shflIdx p _ _ _ => some p
  | .shflUp p _ _ _ => some p
  | .shflDn p _ _ _ => some p
  | .shflXor p _ _ _ => some p
  | .matchEq p _ _ => some p
  | .compact p _ _ _ => some p
  | .regroup _ _ => none
  | .elect p _ => some p
  | .sreg p _ _ => some p
  | .iadd p _ _ _ _ => some p
  | .isub p _ _ _ _ => some p
  | .imul p _ _ _ _ => some p
  | .imulh p _ _ _ _ => some p
  | .imad p _ _ _ _ => some p
  | .imin p _ _ _ _ => some p
  | .imax p _ _ _ _ => some p
  | .ineg p _ _ => some p
  | .iabs p _ _ => some p
  | .vand p _ _ _ => some p
  | .vor p _ _ _ => some p
  | .vxor p _ _ _ => some p
  | .andn p _ _ _ => some p
  | .shl p _ _ _ => some p
  | .shr p _ _ _ => some p
  | .sar p _ _ _ => some p
  | .rotl p _ _ _ => some p
  | .bfe p _ _ _ => some p
  | .bfi p _ _ _ => some p
  | .popc p _ _ => some p
  | .clz p _ _ => some p
  | .brev p _ _ => some p
  | .icmp p _ _ _ _ _ => some p
  | .sel p _ _ _ => some p
  | .idot4 p _ _ _ _ => some p
  | .iaddi p _ _ _ _ => some p
  | .movi p _ _ _ => some p
  | .mov p _ _ => some p
  | .lit p _ _ => some p
  | .fadd p _ _ _ _ => some p
  | .fsub p _ _ _ _ => some p
  | .fmul p _ _ _ _ => some p
  | .ffma p _ _ _ _ => some p
  | .fmin p _ _ _ _ => some p
  | .fmax p _ _ _ _ => some p
  | .fneg p _ _ => some p
  | .fabs p _ _ => some p
  | .fcmp p _ _ _ _ _ => some p
  | .fclass p _ _ => some p
  | .frnd p _ _ => some p
  | .fscale p _ _ _ => some p
  | .frcp p _ _ => some p
  | .frsq p _ _ => some p
  | .fsqrt p _ _ => some p
  | .fexp2 p _ _ => some p
  | .flog2 p _ _ => some p
  | .fsin p _ _ => some p
  | .fcos p _ _ => some p
  | .ftanh p _ _ => some p
  | .fdot2 p _ _ _ _ => some p
  | .cvtFF p _ _ _ _ _ => some p
  | .cvtFI p _ _ _ _ _ => some p
  | .cvtIF p _ _ _ _ _ => some p
  | .bfpqM p _ _ _ _ => some p
  | .bfpqE p _ _ _ _ _ => some p
  | .bfpx p _ _ _ _ _ => some p
  | .permb p _ _ _ => some p
  | .nibx p _ _ _ _ _ => some p
  | .xpose _ _ _ => none
  | .lut p _ _ _ _ => some p
  | .pack2 p _ _ _ _ => some p
  | .lds p _ _ _ _ _ => some p
  | .sts p _ _ _ _ => some p
  | .ldsQ p _ _ _ => some p
  | .stsQ p _ _ _ => some p
  | .atoms p _ _ _ _ => some p
  | .atomsCas p _ _ _ _ => some p
  | .accRd p _ _ _ => some p
  | .accWr p _ _ => some p
  | .accAdd p _ _ => some p
  | .ld p _ _ _ _ _ => some p
  | .st p _ _ _ _ => some p
  | .ldQ p _ _ _ => some p
  | .stQ p _ _ _ => some p
  | .atom p _ _ _ _ => some p
  | .atomCas p _ _ _ _ => some p
  | .red p _ _ _ _ => some p
  | .pref p _ _ _ => some p
  | .ldaSum p _ _ _ _ => some p
  | .ldaMax p _ _ _ _ => some p
  | .ldaMin p _ _ _ => some p
  | .ldaFind p _ _ _ _ => some p
  | .ldaPick p _ _ _ _ => some p
  | .cluNode p _ _ _ _ => some p
  | .knop => none
  | .kadd _ _ _ => none
  | .ksub _ _ _ => none
  | .kmul _ _ _ => none
  | .kmulh _ _ _ => none
  | .kmad _ _ _ => none
  | .kmin _ _ _ => none
  | .kmax _ _ _ => none
  | .kand _ _ _ => none
  | .kor _ _ _ => none
  | .kxor _ _ _ => none
  | .kshl _ _ _ => none
  | .kshr _ _ _ => none
  | .ksar _ _ _ => none
  | .kbfe _ _ _ => none
  | .kpopc _ _ => none
  | .kclz _ _ => none
  | .kcmp _ _ _ => none
  | .ksel _ _ _ => none
  | .kmov _ _ => none
  | .kmovi _ _ => none
  | .klit _ _ => none
  | .khiRd _ _ => none
  | .khiWr _ _ => none
  | .kaddi _ _ => none
  | .vtok _ _ _ _ => none
  | .mtok _ _ => none
  | .ktom _ _ => none
  | .mlog _ _ _ _ => none
  | .kld _ _ _ => none
  | .kbra _ _ _ => none
  | .barArr _ _ => none
  | .barWait _ => none
  | .barSync _ _ => none
  | .yieldRun => none
  | .rgxSet _ => none
  | .ksreg _ _ => none
  | .sleep _ => none
  | .plateMap _ _ _ => none
  | .plateUnmap _ => none
  | .plateInfo _ _ => none
  | .plateLoad _ _ => none
  | .mxr _ _ _ _ _ => none
  | .mxg _ _ _ _ _ => none
  | .mxfence _ _ _ => none
  | .accWin _ _ _ => none
  | .accClr _ _ => none
  | .accSt _ _ _ => none
  | .fence _ _ _ => none
  | .cwb _ _ => none
  | .cinv _ _ => none
  | .aggOpen _ _ _ => none
  | .aggClose _ => none
  | .aggInfo _ _ _ => none
  | .aggRefresh _ => none
  | .aggFence _ _ => none
  | .cluOpen _ _ _ => none
  | .cluClose _ => none
  | .cluGrow _ _ _ => none
  | .walkSet _ _ => none
  | .walk _ _ => none
  | .cluFence _ _ => none
  | .copy _ _ _ _ => none
  | .copyG _ _ _ _ => none
  | .copyS _ _ _ _ => none
  | .copyFill _ _ _ _ => none
  | .ringInit _ _ _ => none
  | .ringAcq _ _ => none
  | .ringCommit _ _ => none
  | .ringWait _ _ _ => none
  | .ringRel _ _ => none
  | .twait _ _ => none
  | .toktest _ _ => none
  | .launch _ _ => none
  | .depset _ => none
  | .expoRd _ _ _ => none
  | .trap _ => none
  | .eret => none
  | .csrr _ _ => none
  | .csrw _ _ => none
  | .parkPc _ _ _ => none
  | .parkMask _ => none
  | .bkpt _ => none
  | .halt => none
  | .brkt _ _ => none
  | .tblLoad _ _ => none
  | .time _ => none
  | .fpflagsWrite _ => none
  | .fpflagsRead _ => none
  | .xinvPage => none
  | .xinvAll => none
  | .tbldataRead _ => none
  | .tbldataWrite _ => none
  | .saveAreaWrite _ _ => none
  | .csRecord => none
  | .csReplay => none
  | .contextCreate _ _ => none
  | .contextSwitchOut => none
  | .contextSwitchIn _ => none
  | .doorbellTailWrite _ => none
  | .doorbellSlotTake => none
  | .launchRecordAccept _ => none
  | .teamDispatch _ => none
  | .teamPreempt _ => none
  | .teamRestore _ => none
  | .crewRetire _ _ => none
  | .crewForcedSwap _ _ => none
  | .sleepExpire _ _ => none
  | .shutterBoundary => none
  | .handlerEpisodeOpen _ _ => none
  | .xlateService _ _ => none
  | .pageWalk _ => none
  | .loadDataReturn _ => none
  | .requestPerformed _ => none
  | .sLineWriteback _ _ => none
  | .hostMemAccess _ _ => none
  | .leafUpdate _ => none
  | .rangeLoadPerform _ => none
  | .rowUpdate _ => none
  | .aggOpenComplete _ => none
  | .cluOpenComplete _ => none
  | .mxStart _ => none
  | .mxDone _ => none
  | .streamCommandStart _ => none
  | .streamCommandDone _ => none
  | .plateLoadDone _ => none
  | .tblLoadDone _ => none
  | .accStDone _ => none
  | .ringCommitEffect _ _ => none
  | .walkerNodeTest _ => none
  | .walkerStageAcquire _ => none
  | .flitReceive _ _ => none
  | .remoteCommand _ _ _ => none
  | .portDown _ => none
  | .dieLinkFailure _ _ => none
  | .correctedSoftError _ _ => none
  | .uncorrectableError _ _ _ => none
  | .powerThrottle => none
  | .thermalStop => none
  | .deviceReset => none
  | .recoveryDoorbell => none
  | .attestReport => none
  | .attestCertificate => none
  | .mailboxComplete _ => none
  | .regionControlPerform _ => none
  | .launchEndedBySystem _ => none
  | .powerThrottleEnd => none
  | .errcntClear _ => none
  | .imageFlashWrite => none

/-- The literal word of LIT and KLIT (R38). -/
def Instr.literal? : Instr → Option W32
  | .lit _ _ word => some word
  | .klit _ word => some word
  | _ => none

/-- The words of an instruction: a PREFIX word where some field of it is not 0, the instruction word,
and the literal word (R28, R43). -/
def encode (i : Instr) : List W32 :=
  match encodeWord i with
  | none => []
  | some w =>
    (match i.prefix? with
      | some p => if p = Prefix.zero then [] else [p.toWord]
      | none => [])
    ++ [w]
    ++ (match i.literal? with
      | some x => [x]
      | none => [])

/-- The unit that a list of words holds, the words past its end being zeros. -/
def decodeWords (ws : List W32) : Decoded :=
  decodeUnit (ws.getD 0 0#32) (ws.getD 1 0#32) (ws.getD 2 0#32)

end Sys2Proof
end

