-- ==== Sys2Proof/Machine/Launching.lean ====
section
/-!
DEFINITION. LAUNCH, DEPSET and EXPO.RD (R357, R365 to R367).
-/

namespace Sys2Proof.Machine

/-- The die a LAUNCH names; 7 is the issuing crew's die (R365). -/
def State.launchDie (s : State) (x : Cmd) : Nat :=
  let d := ((x.word 2).extractLsb' 0 3).toNat
  if d = 7 then s.dieOf x.core else d

/-- LAUNCH (R365): the record waits at its die's engine, which first makes the crew's accesses performed. -/
def execLaunch (t q : BitVec 8) (s : State) : Out :=
  s.uniformUnit none (ueNames t q 3) fun s =>
    let x := s.newCmd .launch t q 0#8 3
    let i : Incoming := { record := x.addr 0, die := s.launchDie x, cmd := some s.nextId, no := s.nextId }
    let s := s.addCmd x
    .next (({ s with ctx := { s.ctx with incoming := s.ctx.incoming ++ [i] } }).done true)

/-- The completion bitmap of the launch of a team, 0 for none. -/
def State.bitmapOf (s : State) (t : Team) : W64 := ((s.launch? t.launch).map Launch.bitmap).getD 0#64

/-- The request that sets a team's completion bit: an OR of one bit of byte t div 8 (R357). -/
def State.bitmapReq (s : State) (bitmap : W64) (team pa : Nat) : Req :=
  { s.newReq 32 .bitmapOr with
    pa := pa, va := bitmap + BitVec.ofNat 64 (team / 8), size := 1, scope := .dev, data := natBytes (2 ^ (team % 8)) 1 }

/-- A DEPSET whose release is done makes its OR, which the run waits for; `ends` ends a unit that has none to make, and
`waits` is what the run does in a wait (R366). -/
def State.setDep (s : State) (ends : State → State) (waits : State → Wait → State) : State :=
  let b := s.bitmapOf s.team
  if b = 0#64 then ends s
  else
    match s.translate ((b.toNat + s.team.idx / 8) % 2 ^ 52) none with
    | (s, .ok pa _) =>
      let r := s.bitmapReq b s.team.idx pa
      match s.issueWait [r] with
      | some _ => waits s (.depset [] r.id .dev)
      | none => waits (s.addReqs [r]) (.closed [r.id])
    | (s, .fail _) => ends s

/-- DEPSET (R366): a release FENCE for the crew's accesses, then the OR, which the run waits for. -/
def execDepset (sys : Bool) (s : State) : Out :=
  s.uniformUnit none {} fun s =>
    let scope : Scope := if sys then .sys else .dev
    let ids := s.fenceReqs s.cur.team s.cur.crew scope true
    if s.fenceOver s.crew.core ids scope true false false then
      .next ((s.endFence s.crew.core ids scope true false false).setDep (fun s => s.done true) State.waitRun)
    else .next (s.waitRun (.depset ids s.nextId scope))

/-- The value EXPO.RD selects (R367). -/
def State.expoValue (s : State) (act pick : Nat) : W32 :=
  let core := s.crew.core
  let cls := s.team.cls
  match pick with
  | 0 => if s.allowance cls act = 0xFFFFFFFF#32 then 0xFFFFFFFF#32 else BitVec.ofInt 32 (s.expoLeft core cls act)
  | 1 => s.allowance cls act
  | _ => word (s.ctx.boundary - s.ctx.clock)

/-- EXPO.RD (R367). -/
def execExpoRd (d : BitVec 8) (act : BitVec 3) (pick : BitVec 2) (s : State) : Out :=
  s.uniformUnit none { k := [d.toNat] } fun s =>
    let (s, v) := s.timedRead (0#32 ++ s.expoValue act.toNat pick.toNat)
    .next ((s.updCrew fun c => c.setK d.toNat (v.setWidth 32)).done true)

end Sys2Proof.Machine
end

