-- ==== Sys2Proof/Machine/Issue.lean ====
section
/-!
DEFINITION. What a step does around an instruction's meaning: it ends the waits that are over (R114, R121), lets a
crew choose its run (R116), fetches the unit's words (R57) and decodes them (R52 to R56).
-/

namespace Sys2Proof.Machine

/-! ## Ends of waits -/

/-- A unit whose wait is over moves its run past it; it has counted since its wait began (R116, R123). -/
def State.donePast (s : State) (uniform : Bool) : State :=
  (s.updCrew fun c => c.advance s.cur.run s.cur.pc s.cur.words).settleUnit uniform id

/-- What the end of a wait does for the run of the cursor. -/
def State.endWait (s : State) : Wait → State
  | .barrier bar phase | .barWait bar phase _ => (s.barSee bar phase).donePast true
  | .sleep _ | .closed _ | .xinv => s.donePast true
  | .fence ids _ scope rel acq remote => (s.endFence s.crew.core ids scope rel acq remote).donePast true
  | .depset ids _ scope =>
    (s.endFence s.crew.core ids scope true false false).setDep (fun s => s.donePast true) fun s w =>
      s.updCrew fun c => c.wait s.cur.run w
  | _ => s

/-- One wait of a crew ends: its lanes are runnable again, and a unit that completes moves them past it. -/
def State.wakeOne (s : State) (id i : Nat) (m : W32) (pc : Addr) (w : Wait) : State :=
  let s := s.updCrewOf id i fun c => c.updLanes m fun _ x => { x with st := .runnable }
  if w.completes then
    let s' := ({ s with cur := { team := id, crew := i, run := m, pc := pc, words := 1 } }).endWait w
    { s' with cur := s.cur }
  else s

/-- The wait of the first lane of a crew whose wait is over, with the lanes that wait for the same thing at the same
place; replay holds one whose release writes back an update that is not next at its home (R397). -/
def State.overWait (s : State) (t : Team) (c : Crew) : Option (W32 × Addr × Wait) :=
  c.lanes.findSome? fun x =>
    match x.st with
    | .waiting w =>
      let m := c.lanesWhere fun y => y.st = .waiting w && y.pc = x.pc
      if s.waitDone t c w && !(w.completes && (s.wakeOne t.id c.idx m x.pc w).backsHeld) then some (m, x.pc, w) else none
    | _ => none

/-- Every wait of a crew that is over ends. -/
def State.wakeCrew (s : State) (id i : Nat) : Nat → State
  | 0 => s
  | fuel + 1 =>
    match s.team? id with
    | none => s
    | some t =>
      match s.overWait t (t.crews.getD i Crew.missing) with
      | none => s
      | some (m, pc, w) => (s.wakeOne id i m pc w).wakeCrew id i fuel

/-- A convergent unit of a crew that waited for a source is performed (R118, R127). -/
def State.wakeConv (s : State) (id i : Nat) : State :=
  match s.team? id with
  | none => s
  | some t =>
    let c := t.crews.getD i Crew.missing
    if c.holds.any fun h => match h.kind with
      | .conv u _ _ => h.complete c && s.kReady id c (convSources u)
      | .regroup .. => t.regroupReady (s.kReady id) c
      | .join .. => false
    then (s.evalHoldsOf id i).updCrewOf id i Crew.settle
    else s

/-! ## Fetch and decode -/

/-- The words of a unit as far as they are known, and the fault that ended the fetch, if one did (R56, R57). -/
structure Fetched where
  s : State
  words : List W32
  fault : Option (Cause × Addr)

/-- One more word fetched at the address after those already fetched. -/
def Fetched.more (f : Fetched) (core : Nat) (pc : Addr) : Fetched :=
  match f.fault with
  | some _ => f
  | none =>
    let a := pcAfter pc f.words.length
    match f.s.fetchWord core a with
    | (s, .inl c) => { f with s := s, fault := some (c, a) }
    | (s, .inr w) => { f with s := s, words := f.words ++ [w] }

/-- A unit's words fetched (R28, R56): a second after a PREFIX or a literal word, a third after both. -/
def State.fetchUnit (s : State) (core : Nat) (pc : Addr) : Fetched :=
  let f := Fetched.more ⟨s, [], none⟩ core pc
  let w0 := f.words.headD 0#32
  if isPrefixWord w0 || isLiteralWord w0 then
    let f := f.more core pc
    if isPrefixWord w0 && decide (f.words.length = 2) && decide (unitWords w0 (f.words.getD 1 0#32) = 3) then
      f.more core pc
    else f
  else f

/-- What the crew does with the unit it has fetched: it has parked or passed the unit, or it executes one. -/
inductive Issued where
  | over (s : State)
  | run (i : Instr) (s : State)

/-- A unit that is not well formed (R52 to R54): every lane of the run parks with ILLEGAL for a uniform word, the
active lanes for a lane-set unit. -/
def State.illegalUnit (s : State) (d : Decoded) : State :=
  if d.uniform then s.parkRun .illegal 0#64 true
  else
    let act := s.cur.run &&& (s.crew.mreg d.mask.toNat ^^^ (if d.inv then 0xFFFFFFFF#32 else 0#32))
    if act = 0#32 then s.done false else s.parkLanes act .illegal 0#64

/-- The run of the cursor fetches and decodes its unit. -/
def State.decodeAt (s : State) : Issued :=
  let f := s.fetchUnit s.crew.core s.cur.pc
  let at0 := f.words.headD 0#32
  match f.fault with
  | some (c, a) =>
    let s' := { f.s with cur := { s.cur with words := f.words.length + 1 } }
    .over (s'.parkRun c (a.signExtend 64) (decide (f.words ≠ []) && isUniformWord at0))
  | none =>
    let d := decodeUnit at0 (f.words.getD 1 0#32) (f.words.getD 2 0#32)
    let s' := { f.s with cur := { s.cur with words := d.words } }
    match d.instr with
    | none => .over (s'.illegalUnit d)
    | some i => .run i s'

/-- A crew chooses its run, which the cursor then names (R116). -/
def State.chooseRun (s : State) (id i : Nat) : Option State :=
  match s.team? id with
  | none => none
  | some t =>
    let c := t.crews.getD i Crew.missing
    c.choose.map fun x =>
      { s with cur := { team := id, crew := i, run := c.runAt x.pc, pc := x.pc, words := 1, rot := x.rot, streak := x.streak } }

/-- A crew issues: its run, its unit's words, and the instruction they hold. -/
def State.issueCrew (s : State) (id i : Nat) : Issued :=
  match s.chooseRun id i with
  | none => .over s
  | some s => s.decodeAt

end Sys2Proof.Machine
end

