-- ==== Sys2Proof/Machine/Save.lean ====
section
/-!
DEFINITION. The end of teams and launches (R113, R352, R357, R373), and the save record of a pre-empted team: when a
team is drained, where its record goes and what it holds (R320, R347, R382 to R385, R388).
-/

namespace Sys2Proof.Machine

/-! ## The end of a launch -/

/-- A launch's levels name system scope: its teams retire at system scope (R351). -/
def Launch.system (x : Launch) : Bool := x.levels.any fun e => e.2 == .sys

/-- No team of a launch is placed or saved, and none is still to start (R352). -/
def State.launchOver (s : State) (x : Launch) : Bool :=
  (x.word.isSome || decide (x.teams ≤ x.next)) && !(s.ctx.teams.any fun t => t.launch == x.id) &&
    !(s.ctx.saved.any fun t => t.team.launch == x.id)

/-- A launch leaves the device. -/
def State.dropLaunch (s : State) (id : Nat) : State :=
  { s with ctx := { s.ctx with launches := s.ctx.launches.filter fun x => x.id != id } }

/-- A launch leaves without its word, which Maelner reports lost (R352). -/
def State.loseWord (s : State) (x : Launch) : State :=
  ({ s with dev := { s.dev with lostWords := s.dev.lostWords ++ [x.done] } }).dropLaunch x.id

/-- The status word of a launch written (R352): a page that Maelner is asked about delays it, one that has lost W drops
it. -/
def State.statusWord (s : State) (x : Launch) : State :=
  if x.done = 0#64 then s.dropLaunch x.id
  else
    match s.translate (x.done.toNat % 2 ^ 52) (some .store) with
    | (s, .ok pa t) =>
      let s := s.homeWrite t pa (w32Bytes (x.word.getD 0#32))
      (if x.system then s.flushHost else s).dropLaunch x.id
    | (s, .fail .xlate) => s
    | (s, .fail _) => s.loseWord x

/-- Every launch that is over writes its word. -/
def State.settleLaunches (s : State) : State :=
  (s.ctx.launches.filter s.launchOver).foldl State.statusWord s

/-! ## The end of a team -/

/-- The cores of a team's copies. -/
def Team.allCores (t : Team) : List Nat := t.core :: t.follower.toList

/-- The completion bit of a team set at its bitmap's home (R357). -/
def State.setBit (s : State) (bitmap : W64) (team : Nat) : State :=
  if bitmap = 0#64 then s
  else
    match s.translate ((bitmap.toNat + team / 8) % 2 ^ 52) none with
    | (s, .ok pa t) =>
      let b := s.homeByte t pa ||| BitVec.ofNat 8 (2 ^ (team % 8))
      s.homeWrite t pa [b]
    | (s, .fail _) => s

/-- A team leaves its core with everything that is its own. -/
def State.removeTeam (s : State) (id : Nat) : State :=
  { s with ctx := { s.ctx with
      teams := s.ctx.teams.filter fun t => t.id != id
      incoming := s.ctx.incoming.filter fun i => !(s.ctx.cmds.any fun x => x.team == id && i.cmd == some x.id)
      cmds := s.ctx.cmds.filter fun x => x.team != id
      reqs := s.ctx.reqs.filter fun r => r.team != id } }

/-- The release of a team that leaves, at its launch's scope (R275, R351). -/
def State.retireRelease (s : State) (t : Team) : State :=
  let sys := ((s.launch? t.launch).map Launch.system).getD false
  t.allCores.foldl (fun s c => s.releaseS c sys) s

/-- TEAM_RETIRE (R113, R275, R352, R357): a release at the launch's scope, the completion bit, and the launch's word
when it is due. -/
def State.retireTeam (s : State) (t : Team) : State :=
  let bitmap := ((s.launch? t.launch).map Launch.bitmap).getD 0#64
  (((s.retireRelease t).chargeBacks.setBit bitmap t.idx).removeTeam t.id).settleLaunches

/-! ## Draining -/

/-- Accepted launches of a priority that hold a slot of a die's engine (R358). -/
def State.queueLength (s : State) (die prio : Nat) : Nat :=
  (s.ctx.launches.filter fun x => x.die == die && x.prio == prio && x.word.isNone && decide (x.next < x.teams)).length

/-- A command that a drain leaves pending: its dependences wait, it is a walk that waits for a stage or for its last
commit to take effect, an earlier matrix operation holds it, or its record waits for a slot (R320, R347, R382). -/
def State.cmdPending (s : State) (x : Cmd) : Bool :=
  !(s.depsSettled x) || s.walkAside x ||
    (x.isMatrix && !x.started && !(s.mxReady x)) ||
    (x.kind == .launch && s.ctx.incoming.any fun i => i.cmd == some x.id && i.held.isSome)

/-- A team has drained: its accesses are performed, and its commands are over or pending (R382). -/
def State.drained (s : State) (t : Team) : Bool :=
  !(s.ctx.reqs.any fun r => r.team == t.id) && (s.ctx.cmds.filter fun x => x.team == t.id).all s.cmdPending &&
    t.rings.all fun g => !(s.commitReady g)

/-! ## The save record -/

/-- Macros an allocation touches on each core's half (R384). -/
def Team.macroCount (t : Team) : Nat :=
  if t.twin then 2 * ceilDiv (t.spadBytes / 2) 65536 else ceilDiv t.spadBytes 65536

/-- Cores of a record: two for a twin team (R384, R392). -/
def Team.recordCores (t : Team) : Nat := if t.twin then 2 else 1

/-- The size S of a team's record (R384). -/
def Team.recordSize (t : Team) : Nat :=
  256 + t.ncrews * (640 + 4 * t.kBudget + 128 * t.vBudget) + t.spadBytes + 16384 * t.macroCount + 2048 +
    2048 * t.accRows * t.recordCores + 16384 * t.recordCores

/-- Bytes that only the device reads. -/
def privateBytes (fresh n : Nat) : List Byte := (List.range n).map fun i => Config.freeByte (fresh + i)

/-- The state byte of a lane (Table 16.6). -/
def Lane.stateByte (x : Lane) : Nat :=
  if x.inHandler then 5
  else match x.st with
    | .runnable => 0 | .held => 1 | .waiting _ => 2 | .parked => 3 | .exited => 4

/-- A lane of a record holds its saved PC: it is parked, and does not run the handler. -/
def Lane.atSaved (x : Lane) : Bool := x.st = .parked && !x.inHandler

/-- A lane of a record: the PC, or the saved PC of a parked lane. -/
def Lane.recordBytes (x : Lane) (fresh : Nat) : List Byte :=
  let pc := if x.atSaved then x.saved else x.pc
  w64Bytes (pc.signExtend 64) ++ natBytes x.stateByte 1 ++ natBytes (if x.st = .parked ∨ x.inHandler then x.cause.code else 0) 1 ++
    privateBytes fresh 6

/-- A cause-vector word of a crew (Table 16.3): lanes outside PARKMASK read 0. -/
def Crew.causeWord (c : Crew) (n : Nat) : W32 :=
  match c.episode with
  | none => 0#32
  | some e => word (((List.range 8).map fun i =>
      let l := 8 * n + i
      if c.parkMask.getLsbD l then (e.causes.getD l 0#4).toNat * 2 ^ (4 * i) else 0).foldl (· + ·) 0)

/-- The trap CSRs of a crew; 0 while no episode is active (R375). -/
def Crew.trapPcWord (c : Crew) : W32 := match c.episode with | some e => e.trapPc | none => 0#32
def Crew.trapInfoWord (c : Crew) : W32 := match c.episode with | some e => e.trapInfo | none => 0#32
def Crew.trapAddrWord (c : Crew) : W64 := match c.episode with | some e => e.trapAddr | none => 0#64

/-- The control part of a crew in a record. -/
def Crew.controlBytes (c : Crew) (fresh : Nat) : List Byte :=
  ([c.fpmode, c.fpflags, c.theta, if c.walkMode then 1#32 else 0#32, c.mincount, c.rgx.setWidth 32,
    word (c.winBase + 65536 * c.winLimit)] ++ ((List.range 7).map fun i => c.mreg (i + 1)) ++
    [c.trapPcWord, c.trapInfoWord, c.causeWord 0, c.causeWord 1, c.causeWord 2, c.causeWord 3, c.parkMask,
     c.trapAddrWord.setWidth 32, c.trapAddrWord.extractLsb' 32 32, 0#32]).flatMap w32Bytes ++ privateBytes fresh 32

/-- One crew of a record. -/
def Crew.recordBytes (c : Crew) (v k fresh : Nat) : List Byte :=
  (mapFrom (fun l (x : Lane) => x.recordBytes (fresh + 6 * l)) 0 c.lanes).flatten ++ c.controlBytes (fresh + 192) ++
    (List.range k).flatMap (fun r => w32Bytes (c.kreg r)) ++
    (List.range v).flatMap fun r => (List.range 32).flatMap fun l => w32Bytes (c.vreg r l)

/-- What a barrier and a ring hold, as numbers (R130, Table 14.4). -/
def Barrier.fields (b : Barrier) : List Nat := [b.phase, b.count, match b.target with | some n => n + 1 | none => 0]
def Ring.fields (g : Ring) : List Nat :=
  [if g.init then 1 else 0, g.base.toNat, g.ssize, g.scount, g.ncons, g.a, g.c, g.f] ++
    g.stages.flatMap fun e => [e.1.toNat, e.2]

/-- `n` bytes of a list, padded with 0. -/
def exactly (n : Nat) (x : List Byte) : List Byte := (x ++ List.replicate n 0#8).take n

/-- The record of a team (Table 16.6). -/
def State.recordBytes (s : State) (t : Team) : List Byte :=
  let rec0 := (s.launch? t.launch).map Launch.record
  let head := natBytes 0x00015341 4 ++ natBytes t.recordSize 4 ++ w64Bytes (rec0.getD 0#64) ++ natBytes t.idx 4 ++
    natBytes t.ncrews 2 ++ natBytes t.recordCores 1 ++ privateBytes s.fresh 1 ++ w32Bytes t.handler ++
    privateBytes (s.fresh + 1) 228
  let crews := t.crews.flatMap fun c => c.recordBytes t.vBudget t.kBudget (s.fresh + 256 + 256 * c.idx)
  let f := s.fresh + 256 + 256 * t.ncrews
  let plates := (List.range 8).flatMap fun i => w32Bytes (t.plate i)
  let bars := t.bars.flatMap fun b => (List.range 8).map (Config.barrierByte b.fields)
  let rings := t.rings.flatMap fun g => (List.range 64).map (Config.ringByte g.fields)
  let acc (a : Sparse 32) := (List.range (512 * t.accRows)).flatMap fun i => w32Bytes (readKey a i)
  head ++ crews ++ readBytes t.spad 0 t.spadBytes ++
    (List.range t.macroCount).flatMap (fun j => readBytes t.side (16384 * j) 16384) ++
    exactly 1184 (plates ++ bars ++ rings) ++ privateBytes f 864 ++ acc t.acc0 ++ (if t.twin then acc t.acc1 else []) ++
    privateBytes (f + 864) (16384 * t.recordCores)

/-! ### A record read back (R385) -/

/-- Words of a byte string, little-endian. -/
def wordsOfBytes : List Byte → List W32
  | a :: b :: c :: d :: rest => bytesW32 [a, b, c, d] :: wordsOfBytes rest
  | _ => []

/-- A store whose keys from 0 on hold some words. -/
def storeOf {w : Nat} (xs : List (BitVec w)) : Sparse w := (mapFrom (fun i x => (i, x)) 0 xs).filter fun e => e.2 != 0#w

/-- A byte string cut into its parts, of some lengths. -/
def cutBytes : List Nat → List Byte → List (List Byte)
  | [], _ => []
  | n :: ns, b => b.take n :: cutBytes ns (b.drop n)

/-- A lane in the state of a record's byte (Table 16.6): as it was saved where the byte says the same, and otherwise, in a record that
has been changed, with nothing to wait for. -/
def Lane.inState (x : Lane) (n : Nat) : Lane :=
  if n = x.stateByte then x
  else
    let st : LaneSt := match n with
      | 1 => .held | 2 => .waiting (.reqs []) | 3 => .parked | 4 => .exited | _ => .runnable
    { x with st := st, inHandler := n == 5 }

/-- A lane takes its parts of a record: the PC or saved PC, the state and the cause. -/
def Lane.ofRecord (x : Lane) (b : List Byte) : Lane :=
  let pc : Addr := (bytesW64 (b.take 8)).setWidth 52
  let x := x.inState (bytesNat (sliceBytes b 8 1))
  let x := if x.atSaved then { x with saved := pc } else { x with pc := pc }
  let c := bytesNat (sliceBytes b 9 1)
  if c = 0 then x else { x with cause := Cause.ofCode c }

/-- The open episode of a crew takes the trap words of a record, of which `at_` gives the words of the control part. -/
def Episode.ofRecord (e : Episode) (at_ : Nat → W32) : Episode :=
  { e with trapPc := at_ 14, trapInfo := at_ 15, trapAddr := at_ 22 ++ at_ 21
           causes := (List.range 32).map fun l => (at_ (16 + l / 8)).extractLsb' (4 * (l % 8)) 4 }

/-- A crew takes its parts of a record (Table 16.6); what the record keeps for the device alone is as it was saved. -/
def Crew.ofRecord (c : Crew) (v k : Nat) (b : List Byte) : Crew :=
  let part := cutBytes [512, 128, 4 * k, 128 * v] b
  let w := wordsOfBytes (part.getD 1 [])
  let at_ (i : Nat) : W32 := w.getD i 0#32
  let gone : W32 := match c.episode with | some e => e.lanes &&& ~~~(at_ 20) | none => 0#32
  { c with
    lanes := mapFrom (fun l (x : Lane) =>
      let y := x.ofRecord ((part.headD []).drop (16 * l))
      if y.inHandler then { y with removed := gone.getLsbD l } else y) 0 c.lanes
    fpmode := at_ 0, fpflags := at_ 1, theta := at_ 2, walkMode := (at_ 3).getLsbD 0, mincount := at_ 4
    rgx := (at_ 5).setWidth 8, winBase := (at_ 6).toNat % 65536, winLimit := (at_ 6).toNat / 65536
    m := storeOf (0#32 :: (List.range 7).map fun i => at_ (7 + i))
    episode := c.episode.map fun e => e.ofRecord at_
    k := storeOf (0#32 :: (wordsOfBytes (part.getD 2 [])).drop 1)
    v := storeOf (wordsOfBytes (part.getD 3 [])) }

/-- A barrier takes its 8 bytes of a record: what was saved where they are the bytes of that, and otherwise, in a record that has been
changed, what they stand for, which only the device knows. -/
def Barrier.ofRecord (x : Barrier) (b : List Byte) : Barrier :=
  if b = (List.range 8).map (Config.barrierByte x.fields) then x
  else
    let n (i : Nat) : Nat := Config.barrierField b i
    { phase := n 0, count := n 1, target := if n 2 = 0 then none else some (n 2 - 1) }

/-- A ring takes its 64 bytes of a record, as a barrier does. -/
def Ring.ofRecord (g : Ring) (b : List Byte) : Ring :=
  if b = (List.range 64).map (Config.ringByte g.fields) then g
  else
    let n (i : Nat) : Nat := Config.ringField b i
    { g with init := n 0 % 2 = 1, base := word (n 1), ssize := n 2, scount := n 3, ncons := n 4, a := n 5, c := n 6, f := n 7
             stages := (List.range (n 6 - n 7)).map fun i => (word (n (8 + 2 * i)), n (9 + 2 * i)) }

/-- A team takes its parts of a record (R385, Table 16.6). -/
def Team.ofRecord (t : Team) (b : List Byte) : Team :=
  let crewLen := 640 + 4 * t.kBudget + 128 * t.vBudget
  let rows := 2048 * t.accRows
  let head := cutBytes ([256] ++ t.crews.map (fun _ => crewLen) ++ [t.spadBytes, 16384 * t.macroCount, 2048, rows, rows]) b
  let rest := head.drop (1 + t.crews.length)
  let tables := rest.getD 2 []
  { t with
    handler := bytesW32 (sliceBytes (head.headD []) 24 4)
    crews := mapFrom (fun i (c : Crew) => c.ofRecord t.vBudget t.kBudget (head.getD (1 + i) [])) 0 t.crews
    spad := storeOf (rest.getD 0 [])
    side := storeOf (rest.getD 1 [])
    plates := wordsOfBytes (tables.take 32)
    bars := mapFrom (fun i (x : Barrier) => x.ofRecord (sliceBytes tables (32 + 8 * i) 8)) 0 t.bars
    rings := mapFrom (fun i (g : Ring) => g.ofRecord (sliceBytes tables (160 + 64 * i) 64)) 0 t.rings
    acc0 := storeOf (wordsOfBytes (rest.getD 3 []))
    acc1 := if t.twin then storeOf (wordsOfBytes (rest.getD 4 [])) else t.acc1
    copy := none }

/-- The lowest free save slot (R383). -/
def State.freeSlot (s : State) : Option Nat :=
  (List.range (s.ctx.saveSlots.extractLsb' 0 16).toNat).find? fun i => !(s.ctx.saved.any fun x => x.slot == i)

/-- A team's record has a slot and fits it (R383). -/
def State.saveRoom (s : State) (t : Team) : Option Nat :=
  if t.recordSize ≤ s.ctx.saveStride.toNat then s.freeSlot else none

/-- The address of a save slot. -/
def State.slotAddr (s : State) (i : Nat) : W64 :=
  (s.ctx.saveAreaH ++ s.ctx.saveArea) + BitVec.ofNat 64 (i * s.ctx.saveStride.toNat)

/-- A wait that starts its unit again after a restore (R382). -/
def Wait.restarts : Wait → Bool
  | .sleep _ | .barWait .. => true
  | _ => false

/-- The arrival that a BAR.WAIT has used is unused again, unless the crew has arrived later (R130, R382). -/
def Crew.giveBack (c : Crew) : Wait → Crew
  | .barWait bar phase true =>
    if c.arrivals.any fun e => e.1 == bar && decide (phase ≤ e.2) then c
    else { c with arrivals := (bar, phase) :: c.arrivals.filter fun e => e.1 != bar }
  | _ => c

/-- Waits of a stopped crew as a record holds them: a SLEEP and a BAR.WAIT have taken no effect and start again (R382). -/
def Crew.restWaits (c : Crew) : Crew :=
  let runs := (c.lanes.filterMap fun x =>
    match x.st with | .waiting w => if w.restarts then some (x.pc, w) else none | _ => none).eraseDups
  let c := runs.foldl (fun c e => c.giveBack e.2) c
  { c with
    units := c.units - runs.length
    lanes := c.lanes.map fun x =>
      match x.st with
      | .waiting w => if w.restarts then { x with st := LaneSt.runnable } else x
      | _ => x }

/-- The outcome of writing a record: written, waiting for Maelner, or refused by the page. -/
inductive Written where
  | ok
  | page (p : Nat)
  | refused
deriving DecidableEq, Repr

/-- A record written at a slot, line by line, with the context's translation (R383). -/
def State.writeRecord (s : State) (t : Team) (slot : Nat) : State × Written :=
  let x := s.slotAddr slot
  match s.engScan x t.recordSize .store with
  | (s, some (.xlate p)) => (s, .page p)
  | (s, some _) => (s, .refused)
  | (s, none) =>
    let ys := s.recordBytes t
    let s := s.bump (256 + 256 * t.ncrews + 864 + 16384 * t.recordCores)
    (s.sysWriteAll (ys.length / 64 + 2) (x.toNat % 2 ^ 52) ys, .ok)

/-- A stopped and drained team is saved, if a slot takes it (R382, R383, R388): a system pre-emption waits blocked, a
launch engine's gives the team up again. -/
def State.trySave (s : State) (id : Nat) : State :=
  match s.team? id with
  | none => s
  | some t =>
    let sys := match t.phase with | .stopping b => b | .blocked => true | _ => false
    let s := t.crews.foldl (fun s c => (s.updCrewOf id c.idx Crew.restWaits).wakeCrew id c.idx 33) s
    match s.team? id with
    | none => s
    | some t =>
      match s.saveRoom t with
      | none => s.updTeamId id fun t => { t with phase := if sys then .blocked else .running }
      | some slot =>
        match s.writeRecord t slot with
        | (s, .page _) => s
        | (s, .refused) => s.endTeam id (trapWord .prot t.idx)
        | (s, .ok) =>
          let x : SavedTeam := { team := t, cmds := s.ctx.cmds.filter fun y => y.team == id, slot := slot, bySystem := sys }
          let s := { s with ctx := { s.ctx with saved := s.ctx.saved ++ [x] } }
          { s with ctx := { s.ctx with teams := s.ctx.teams.filter fun t => t.id != id
                                       cmds := s.ctx.cmds.filter fun y => y.team != id } }

/-- Every waiting save is tried again (R388). -/
def State.retrySaves (s : State) : State :=
  (s.ctx.teams.filter fun t => t.phase = .blocked).foldl (fun s t => s.trySave t.id) s

/-- SAVENEED: the largest record among the waiting teams (Table 16.3). -/
def State.saveNeed (s : State) : Nat :=
  ((s.ctx.teams.filter fun t => t.phase = .blocked).map Team.recordSize).foldl max 0

/-- A stopped and drained team waits for Maelner about a page of its record. -/
def State.recordPage (s : State) (t : Team) (page : Nat) : Bool :=
  (match t.phase with | .stopping _ => true | .blocked => true | _ => false) && s.drained t &&
    match s.saveRoom t with
    | some slot =>
      let a := (s.slotAddr slot).toNat % 2 ^ 52
      decide (a / 65536 ≤ page) && decide (page ≤ (a + t.recordSize - 1) / 65536)
    | none => false

end Sys2Proof.Machine
end

