-- ==== Sys2Proof/Machine/EvCrew.lean ====
section
/-!
DEFINITION. Steps of crews and of time: retirement (R113), the forced swap (R122), the end of a SLEEP (R133), the shutter
boundary (R362) and the delivery of a parked run to the handler (R373).
-/

namespace Sys2Proof.Machine

/-! ## Retirement -/

/-- Time goes on by some core clocks, for every context from its creation on, switched out or not (R132). -/
def State.pass (s : State) (n : Nat) : State :=
  { s with dev := { s.dev with clocks := s.dev.clocks + n }
           ctx := { s.ctx with clock := if s.ctx.live then s.ctx.clock + n else s.ctx.clock }
           swapped := s.swapped.map fun c => { c with clock := c.clock + n } }

/-- A crew may retire (R113): no lane is live and its commands are over, or its team has ended and drained. The last crew's
retirement is a release of device scope (R275), which the updates that a narrow release of its cores has passed come before
(R271). -/
def State.mayRetire (s : State) (t : Team) (c : Crew) : Bool :=
  !c.retired &&
    match t.phase with
    | .running =>
      c.live == 0#32 && !(s.ctx.cmds.any fun x => x.team == t.id && x.crew == c.idx) &&
        (decide (1 < t.staying) || !(s.ctx.reqs.any fun r => r.team == t.id || (t.core :: t.follower.toList).any fun k => s.chained k .dev r))
    | .ending => s.drained t
    | _ => false

/-- Barriers whose target counts the crews not retired, evaluated again (R130). -/
def Team.checkBarriers (t : Team) : Team := { t with bars := t.bars.map fun b => b.check t.staying }

/-- CREW_RETIRE, with TEAM_RETIRE for the last crew (R113, R275, R352); the crew's MXFENCE conditions go (R227).
Replay holds the last crew while a write-back of the release is not next at its home (R397). -/
def execCrewRetire (team crew : Nat) (s0 : State) : Out :=
  match s0.team? team with
  | none => .next s0
  | some t =>
    let c := t.crews.getD crew Crew.missing
    if !(s0.mayRetire t c) then .next s0
    else
      let s := s0.updCrewOf team crew fun c => { c with retired := true, active := false, chain := none, mxCmds := [], mxFailed := false, mxPhases := [] }
      let s := s.updTeamId team fun t => (t.checkBarriers).regroups (s.kReady t.id) t.crews.length
      match s.team? team with
      | none => .next s
      | some t =>
        if t.staying ≠ 0 then .next s
        else if (s.retireRelease t).backsHeld then .next s0
        else if t.phase = .ending then .next (((s.retireRelease t).chargeBacks.removeTeam team).settleLaunches)
        else .next (s.retireTeam t)

/-- The active crew of a partition that has been in the active set longest (R122). -/
def State.longestActive (s : State) (like : Crew) : Option (Team × Crew) :=
  (s.allCrews.filter fun e => samePartition like e.2 && e.2.active && !e.2.retired).foldl (fun acc e =>
    match acc with
    | none => some e
    | some b => if e.2.activeSince < b.2.activeSince then some e else some b) none

/-- A pending crew has been ready for 2,048 core clocks (R122). -/
def State.swapDue (s : State) (t : Team) (c : Crew) : Bool :=
  t.issues && !c.active && !c.retired && match c.readySince with | some n => decide (n + 2048 ≤ s.ctx.clock) | none => false

/-- CREW_FORCED_SWAP (R122). -/
def execCrewForcedSwap (team crew : Nat) (s : State) : Out :=
  match s.team? team with
  | none => .next s
  | some t =>
    let c := t.crews.getD crew Crew.missing
    if !(s.swapDue t c) then .next s
    else
      match s.longestActive c with
      | some e => .next (s.exchange e.1.id e.2.idx team crew e.2.slot c.slot)
      | none => .next s

/-! ## Time -/

/-- The earliest end of a SLEEP of a crew. -/
def Crew.nextWake (c : Crew) : Option Nat :=
  c.lanes.foldl (fun acc x =>
    match x.st with
    | .waiting (.sleep n) => match acc with | some m => some (min m n) | none => some n
    | _ => acc) none

/-- SLEEP_EXPIRE (R133): the clock reaches the end of the crew's SLEEP; its run then moves past it. -/
def execSleepExpire (team crew : Nat) (s : State) : Out :=
  match s.team? team with
  | none => .next s
  | some t =>
    match (t.crews.getD crew Crew.missing).nextWake with
    | some n => if t.issues then .next ((s.pass (n - s.ctx.clock)).wakeCrew team crew 33) else .next s
    | none => .next s

/-- A remaining count at a boundary: the allowance, less a carried overrun (R362). -/
def Context.resetExpo (c : Context) (e : Expo) : Option Expo :=
  let a : W32 := ~~~(readKey c.allow (8 * e.cls + e.act))
  if e.left < 0 ∧ a ≠ 0xFFFFFFFF#32 then some { e with left := a.toNat + e.left } else none

/-- SHUTTER_BOUNDARY (R361, R362): a written period and written allowances come into force, and counts are reset. -/
def execShutterBoundary (s : State) : Out :=
  if !s.ctx.live then .next s
  else
    let s := s.pass (s.ctx.boundary - s.ctx.clock)
    let c := { s.ctx with period := s.ctx.shutter.toNat, boundary := s.ctx.boundary + s.ctx.shutter.toNat,
                          allow := s.ctx.allowW, periodNo := s.ctx.periodNo + 1 }
    .next { s with ctx := { c with expo := c.expo.filterMap c.resetExpo } }

/-! ## Delivery of a parked run -/

/-- HANDLER_EPISODE_OPEN (R373, R374), with TEAM_END where the team has no handler. -/
def execHandlerEpisodeOpen (team crew : Nat) (s : State) : Out :=
  match s.team? team with
  | none => .next s
  | some t =>
    let c := t.crews.getD crew Crew.missing
    match c.queue with
    | [] => .next s
    | r :: rest =>
      if c.episode.isSome ∨ !t.issues then .next s
      else if t.handler = 0#32 then .next (s.endTeam team (trapWord (c.primary r.lanes) t.idx))
      else .next (s.updCrewOf team crew fun c =>
        ({ c with queue := rest }.openEpisode t.entry t.handler r).settle)

end Sys2Proof.Machine
end

