-- ==== Sys2Proof/Machine/EvMem.lean ====
section
/-!
DEFINITION. Steps of memory and translation: returning data and performed requests (R249, R255, R264), write-backs of S
lines (R265), the host's accesses (R278, R399), walks and Maelner's service of a fault (R237, R239, R371) and the
translation invalidations (R240, R372).
-/

namespace Sys2Proof.Machine

/-- LOAD_DATA_RETURN (R249, R255): a global load, or a load from the scratchpad or the accumulators (R197, R222). -/
def execLoadDataReturn (req : Nat) (s : State) : Out :=
  match s.req? req with
  | none => .next s
  | some r =>
    match r.kind with
    | .load _ => if s.reqReady r then .next (s.performMem r) else .next s
    | .spadLoad _ => if s.reqReady r then .next (s.performNear r) else .next s
    | .accRd _ => if s.reqReady r then .next (s.performNear r) else .next s
    | _ => .next s

/-- A bit of a completion bitmap set at its home (R357). -/
def State.performBit (s : State) (r : Req) : State :=
  let s := (s.freeReq r).chargeMiss r
  s.homeWrite .u r.pa [s.homeByte .u r.pa ||| r.data.headD 0#8]

/-- REQUEST_PERFORMED (R250, R264): a store, atomic or reduction that reaches no open region, or an access that changes
the scratchpad or the accumulators (R197, R222). -/
def execRequestPerformed (req : Nat) (s : State) : Out :=
  match s.req? req with
  | none => .next s
  | some r =>
    if (s.reqRegion r).isSome ∨ !(s.reqReady r) then .next s
    else if r.kind.writes then .next (s.performMem r)
    else match r.kind with
      | .bitmapOr => .next (s.performBit r)
      | .spadStore => .next (s.performNear r)
      | .spadAtom _ => .next (s.performNear r)
      | .spadCas => .next (s.performNear r)
      | .accWr => .next (s.performNear r)
      | .accAdd => .next (s.performNear r)
      | .accClr => .next (s.performNear r)
      | _ => .next s

/-- S_LINE_WRITEBACK (R265): a line leaves a core's L1, and its dirty bytes are written at home, in a replayed order in
their turn (R293, R397). -/
def execSLineWriteback (core line : Nat) (s : State) : Out :=
  let s' := (s.cleanLine core line).dropLine core line
  .next (if s'.backsHeld then s else s')

/-- Bytes of any length written by the host at home, line by line. -/
def State.hostWrite (s : State) (pa : Nat) (ys : List Byte) : State :=
  (pieces (ys.length / 64 + 2) pa ys.length).foldl (fun s e =>
    s.homeWrite .u e.1 (sliceBytes ys (e.1 - pa) e.2)) s

/-! ### The control window (R360, R399, R405, R407) -/

/-- Where the control window begins among the addresses of HOST_MEM_ACCESS: physical addresses have 52 bits. -/
def hostWindow : Nat := 2 ^ 52

/-- A mailbox request is accepted unless one is being served (R407). -/
def State.mailboxRequest (s : State) (cmd : Nat) : State :=
  if s.dev.boot = .running ∧ s.dev.mbStatus ≠ 1#32 then
    { s with dev := { s.dev with mbStatus := 1#32, mbCmd := cmd, mbNonce := s.dev.nonce } }
  else s

/-- A byte written to a register of the running part (Tables 15.4, 17.7); other bytes are read-only, write-only words, or no
register. -/
def Device.windowByte (d : Device) (o : Nat) (y : Byte) : Device :=
  if o = 0 then { d with dbTail := y }
  else if 0x8 ≤ o ∧ o < 0xC then { d with dbErr := d.dbErr &&& ~~~(setByte 0#32 (o - 8) y) }
  else if 0x1000 ≤ o ∧ o < 0x2000 then
    let k := (o - 0x1000) / 4
    { d with dbSlots := writeKey d.dbSlots k (setByte (readKey d.dbSlots k) (o % 4) y) }
  else if 0x90000 ≤ o ∧ o < 0x90030 then { d with nonce := putBytes (exactly 48 d.nonce) (o - 0x90000) [y] }
  else d

/-- The word that a write puts at an offset, if it covers it. -/
def coveredWord (o : Nat) (ys : List Byte) (at_ : Nat) : Option W32 :=
  if o ≤ at_ ∧ at_ + 4 ≤ o + ys.length then some (bytesW32 (sliceBytes ys (at_ - o) 4)) else none

/-- A write of the running part's window: its registers, and CMD of the mailbox last (R407). -/
def State.windowWrite (s : State) (o : Nat) (ys : List Byte) : State :=
  let d := (mapFrom (fun i y => (o + i, y)) 0 ys).foldl (fun (d : Device) e => d.windowByte e.1 e.2) s.dev
  let s := { s with dev := d }
  match coveredWord o ys 0x90040 with
  | some x => if x = 1#32 then s.mailboxRequest 1 else if x = 2#32 then s.mailboxRequest 2 else s
  | none => s

/-! ### The ROM's checks (R404) -/

/-- A field of a record (Table 15.1) or of a header. -/
def field (r : List Byte) (o n : Nat) : Nat := bytesNat (sliceBytes r o n)

/-- The body length and the body of an image (Table 17.6). -/
def imageBody (x : List Byte) : List Byte := sliceBytes x 256 (field x 8 8)

/-- The ROM's checks of an image (R404). -/
def Device.imageOk (d : Device) (x : List Byte) : Bool :=
  decide (256 + field x 8 8 ≤ x.length) && decide (field x 8 8 ≤ 2 ^ 29 - 256) &&
    Config.sha384 (sliceBytes x 160 96) == d.fuseHash && decide (d.fuseRollback.toNat ≤ field x 16 4) &&
    Config.ecdsaVerify (sliceBytes x 160 96) (sliceBytes x 64 96) (x.take 64 ++ imageBody x)

/-- The image's own bytes. -/
def imageOf (x : List Byte) : List Byte := x.take (256 + field x 8 8)

/-- Yiljo ports of a part (Table 1.8). -/
def portCount : Part → Nat | .lx960 => 12 | .lx940 => 6

/-- Maelner starts: it applies the recorded fences, brings up the ports in service and programs the routes (R402, R404). -/
def State.startMaelner (s : State) (x : List Byte) : State :=
  let ports := (List.range (portCount s.part)).map fun i =>
    ({ index := i, up := !(s.dev.flashFences.contains (3#8, BitVec.ofNat 8 i)) } : Port)
  { s.bump 1 with dev := { s.dev with boot := .running, image := imageOf x, fences := s.dev.flashFences, ports := ports,
                                      routes := Config.routes s.fresh } }

/-- The recovery doorbell (R405): the buffered image is checked, and the device boots from it or stays in recovery mode. -/
def State.recoveryCheck (s : State) : State :=
  if s.dev.boot = .recovery ∧ s.dev.imageOk s.dev.recovery then s.startMaelner s.dev.recovery else s

/-- A write of the window in recovery mode: the part that falls into the buffer, and then the doorbell (R405). -/
def State.recoveryWrite (s : State) (o : Nat) (ys : List Byte) : State :=
  let low := 0x1000000 - o
  let kept := (ys.drop low).take (0x21000000 - max o 0x1000000)
  let off := o - 0x1000000
  let buf := s.dev.recovery ++ List.replicate (off + kept.length - s.dev.recovery.length) 0#8
  let s := if kept = [] then s else { s with dev := { s.dev with recovery := putBytes buf off kept } }
  if coveredWord o ys 0x80000 = some 1#32 then s.recoveryCheck else s

/-- HOST_MEM_ACCESS (R278, R399): a read changes nothing. In recovery mode only the control window is there. -/
def execHostMemAccess (pa : Nat) (store : Option (List Byte)) (s : State) : Out :=
  let ys := store.getD []
  if hostWindow ≤ pa then
    if hostWindow + s.dev.window < pa + ys.length then .next s
    else if s.dev.boot = .recovery then .next (s.recoveryWrite (pa - hostWindow) ys)
    else if s.dev.boot = .running then .next (s.windowWrite (pa - hostWindow) ys)
    else .next s
  else if s.dev.boot ≠ .running then .next s
  else if deviceBytes s.part < pa + max 1 ys.length then .fault .noDeviceMemory
  else .next (s.hostWrite pa ys)

/-- PAGE_WALK (R237, R239, R240): the device may walk a page and keep what it finds. -/
def execPageWalk (va : W64) (s : State) : Out := .next (s.translate (va.toNat % 2 ^ 52) none).1

/-! ## Maelner's service of a page -/

/-- The page is mapped: its lanes are runnable at their units again (R371). -/
def Crew.pageMapped (c : Crew) (page : Nat) : Crew :=
  let m := c.atMaelner.foldl (fun m r => m ||| c.onPage r page) 0#32
  Crew.settle ((c.leaveMaelner m).updLanes m fun l x => x.resume (c.episodeCause l))

/-- The cause is delivered: the page's lanes join the handler's queue (R371). -/
def Crew.pageDelivered (c : Crew) (page : Nat) : Crew :=
  c.delivered (c.lanesWhere fun x => x.faultPage == page)

/-- Maelner has answered for a page. -/
def Crew.pageTold (c : Crew) (page : Nat) (ok : Bool) : Crew := if ok then c.pageMapped page else c.pageDelivered page

/-- A lane of a crew's handler run waits at Maelner for a page. -/
def Crew.handlerOnPage (c : Crew) (page : Nat) : Bool :=
  c.atMaelner.any fun r => (c.onPage r page &&& c.lanesWhere fun x => x.inHandler) != 0#32

/-- Commands and records that wait for a page go on, or learn that it will not be serviced. -/
def State.pageAnswer (s : State) (page : Nat) (ok : Bool) : State :=
  let cmds := s.ctx.cmds.map fun x =>
    if x.stuck = some page then { x with stuck := none, unserviced := !ok } else x
  let incoming := s.ctx.incoming.map fun i =>
    if i.stuck = some page then { i with stuck := none, unserviced := !ok } else i
  { s with ctx := { s.ctx with cmds := cmds, incoming := incoming, reported := s.ctx.reported.filter fun p => p != page } }

/-- A failed access whose lane waits, with cause XLATE on a page, for the other lanes of its unit (R370). -/
def Req.xlateOn (r : Req) (page : Nat) : Bool :=
  r.failed == some .xlate && decide (r.va.toNat % 2 ^ 52 / 65536 = page)

/-- A lane that waits for the others of its unit goes back to the unit: its page has been mapped before it has parked. -/
def Crew.replays (c : Crew) (m : W32) : Crew :=
  Crew.settle (c.updLanes m fun _ x => if x.st = .waiting .unit then { x with st := .runnable } else x)

/-- Failed accesses that still wait for their unit learn of Maelner's answer for a page: their lanes issue the unit again, or
their cause goes to the handler when they park (R371). -/
def State.earlyTold (s : State) (page : Nat) (ok : Bool) : State :=
  if ok then
    let s' := { s with ctx := { s.ctx with reqs := s.ctx.reqs.filter fun q => !(q.xlateOn page) } }
    (s.ctx.reqs.filter fun q => q.xlateOn page).foldl (fun s q => s.updCrewOf q.team q.crew fun c => c.replays q.run) s'
  else
    { s with ctx := { s.ctx with reqs := s.ctx.reqs.map fun q => if q.xlateOn page then { q with denied := true } else q } }

/-- Crews of the placed teams learn of Maelner's answer for a page; saved teams will when they are restored (R371, R385). -/
def State.pageTold (s : State) (page : Nat) (ok : Bool) : State :=
  let told (t : Team) : Team := { t with crews := t.crews.map fun c => c.pageTold page ok }
  let s : State := { s with ctx := { s.ctx with teams := s.ctx.teams.map told
                                                saved := s.ctx.saved.map fun x => { x with answers := x.answers ++ [(page, ok)] } } }
  s.earlyTold page ok

/-- A saved team ends: it is given up, and its launch ends with it (R374). -/
def State.endSaved (s : State) (x : SavedTeam) (w : W32) : State :=
  ({ s with ctx := { s.ctx with saved := s.ctx.saved.filter fun y => y.team.id != x.team.id } }).endLaunch x.team.launch w

/-- XLATE_SERVICE (R239, R352, R371, R383): Maelner writes an entry for a reported page, or answers that it will not. -/
def execXlateService (page : Nat) (entry : Option (Nat × W64)) (s : State) : Out :=
  if !(s.ctx.reported.contains page) then .next s
  else
    match entry with
    | some (slot, e) =>
      let s := (s.rawWrite slot (w64Bytes e)).pageAnswer page true
      .next ((s.pageTold page true).settleLaunches)
    | none =>
      let dead := s.ctx.teams.filter fun t => t.crews.any fun c => c.handlerOnPage page
      let deadSaved := s.ctx.saved.filter fun x => x.team.crews.any fun c => c.handlerOnPage page
      let unsaved := s.ctx.teams.filter fun t => s.recordPage t page
      let lost := s.ctx.launches.filter fun x => s.launchOver x && decide (x.done.toNat % 2 ^ 52 / 65536 = page)
      let s := (s.pageAnswer page false).pageTold page false
      let s := dead.foldl (fun s t => s.endTeam t.id (trapWord .xlate t.idx)) s
      let s := deadSaved.foldl (fun s x => s.endSaved x (trapWord .xlate x.team.idx)) s
      let s := unsaved.foldl (fun s t => s.endTeam t.id (trapWord .prot t.idx)) s
      .next (lost.foldl State.loseWord s)

/-! ## Translation invalidation -/

/-- A kept translation of the page that holds an address, at any page size (R372). -/
def Kept.covers (k : Kept) (va : Nat) : Bool :=
  decide (k.page * 65536 / leafBytes k.level = va / leafBytes k.level)

/-- No access that has been translated is outstanding where an invalidation drops translations: anywhere, or in the GiB of
the address, which holds its page at every page size (R372, Table 10.2). -/
def State.xinvReady (s : State) : Bool :=
  !(s.ctx.reqs.any fun r => !r.kind.near && decide (0 < r.size) &&
    (s.ctx.xinvCmd == 2 || decide (r.va.toNat % 2 ^ 52 / 2 ^ 30 = s.ctx.xinvAt / 2 ^ 30)))

/-- XINV_PAGE (R240, R372): the page is the one named when the invalidation was asked for. -/
def execXinvPage (s : State) : Out :=
  if s.ctx.xinvCmd = 1 ∧ s.xinvReady then
    .next { s with ctx := { s.ctx with xinvCmd := 0, tlb := s.ctx.tlb.filter fun k => !(k.covers s.ctx.xinvAt) } }
  else .next s

/-- XINV_ALL (R240, R372). -/
def execXinvAll (s : State) : Out :=
  if s.ctx.xinvCmd = 2 ∧ s.xinvReady then .next { s with ctx := { s.ctx with xinvCmd := 0, tlb := [] } } else .next s

end Sys2Proof.Machine
end

