-- ==== Sys2Proof/Machine/System.lean ====
section
/-!
DEFINITION. Traps, control and status registers, the handler's instructions, TIME, HALT, BRKT and TBL.LOAD (R162 to
R164, R188, R361, R372 to R381, R387, R388, R393, R396, R398).
-/

namespace Sys2Proof.Machine

/-! ## Values of control and status registers -/

/-- Device time in ns: 5/6 ns a core clock, from 0 at reset (R18, R375, log 4). -/
def State.timeNs (s : State) : W64 := BitVec.ofNat 64 (s.dev.clocks * 5 / 6)

/-- Clocks of a number of hours, and of 1 ms (R18). -/
def hourClocks : Nat := 4320000000000
def millisecondClocks : Nat := 1200000

/-- A unit is fenced (R395). -/
def Device.fenced (d : Device) (cls index : BitVec 8) : Bool :=
  d.fences.contains (cls, index) || d.flashFences.contains (cls, index)

/-- The count of a unit within the window that ends now (R394, Table 17.2). -/
def Device.errorCount (d : Device) (cls index : BitVec 8) : Nat :=
  (d.errors.filter fun e => e.1 == cls && e.2.1 == index &&
    decide (d.clocks < e.2.2 + (d.sercfg.extractLsb' 0 8).toNat * hourClocks)).length

/-- The launch of the issuing crew. -/
def State.ownLaunch (s : State) : Option Launch := s.launch? s.team.launch

/-- Issue throttling is active, or was within the last 1 ms (R398). -/
def Device.throttled (d : Device) : Bool :=
  d.throttling || match d.throttleEnd with | some t => decide (d.clocks < t + millisecondClocks) | none => false

/-- Bits of a word from truth values. -/
def bitAt (b : Bool) (n : Nat) : Nat := if b then 2 ^ n else 0

/-- RELSTAT (Table 17.4). -/
def State.relstat (s : State) : W32 :=
  let x := s.ownLaunch
  word (bitAt s.team.bracket 31 + bitAt s.dev.throttled 30 + bitAt ((x.map Launch.recording).getD false) 29 +
    bitAt ((x.map Launch.replaying).getD false) 28)

/-- CSCTL (Table 17.4). -/
def State.csctl (s : State) : W32 :=
  word (bitAt ((s.ctx :: s.swapped).any fun c => c.launches.any fun x => x.recording || x.replaying) 10 + bitAt s.dev.csDiverge 9 +
    bitAt s.dev.csTrunc 8 + s.dev.csmode.toNat)

/-- The allowance written of the class and activity that EXPOSEL selects. -/
def State.exposelKey (s : State) : Nat :=
  8 * (s.ctx.exposel.extractLsb' 0 4).toNat + (s.ctx.exposel.extractLsb' 4 3).toNat

/-- A control and status register as a CSRR reads it (R23, R361, R375, R379, R387, R398); undefined numbers read 0. -/
def State.csrValue (s : State) (n : Nat) : W32 :=
  let c := s.crew
  match n with
  | 0x000 => if s.part = .lx960 then 0x00010001#32 else 0x00010000#32
  | 0x001 => s.ctx.ident
  | 0x002 => s.ctx.variant
  | 0x020 => s.team.handler
  | 0x021 => c.trapPcWord
  | 0x022 => c.trapInfoWord
  | 0x023 => c.causeWord 0
  | 0x024 => c.parkMask
  | 0x027 => c.causeWord 1
  | 0x028 => c.causeWord 2
  | 0x029 => c.causeWord 3
  | 0x02A => c.trapAddrWord.setWidth 32
  | 0x02B => c.trapAddrWord.extractLsb' 32 32
  | 0x030 => s.ctx.saveArea
  | 0x031 => s.ctx.saveAreaH
  | 0x032 => s.ctx.saveSlots ||| word (bitAt (s.ctx.teams.any fun t => t.phase = .blocked) 31)
  | 0x033 => s.ctx.saveStride
  | 0x034 => word s.saveNeed
  | 0x040 => c.fpmode
  | 0x050 => s.ctx.shutter
  | 0x051 => s.ctx.exposel
  | 0x052 => ~~~(readKey s.ctx.allowW s.exposelKey)
  | 0x070 => s.relstat
  | 0x080 => s.ctx.xinvLo
  | 0x081 => s.ctx.xinvHi
  | 0x083 => c.tblidx
  | 0x090 => s.dev.sercfg
  | 0x091 => s.dev.sersel
  | 0x092 =>
    let cls := s.dev.sersel.extractLsb' 8 8
    let i := s.dev.sersel.extractLsb' 0 8
    word (bitAt (s.dev.fenced cls i) 31 + s.dev.errorCount cls i)
  | 0x093 => s.dev.pwrcap
  | 0x094 => s.dev.cslo
  | 0x095 => s.dev.cshi
  | 0x096 => s.dev.cssize
  | 0x097 => s.csctl
  | 0x098 => s.dev.csused
  | _ => 0#32

/-- A value read as CSRR reads it: the clock values go through the contact sheet (R397). -/
def State.csrRead (s : State) (n : Nat) : State × W32 :=
  let timed (v : W32) : State × W32 := let (s, x) := s.timedRead (0#32 ++ v); (s, x.setWidth 32)
  match n with
  | 0x010 => timed (s.timeNs.setWidth 32)
  | 0x011 => timed (s.timeNs.extractLsb' 32 32)
  | 0x053 => timed (word s.ctx.periodNo)
  | n => (s, s.csrValue n)

/-- Numbers that an unprivileged context may not read (R379). -/
def csrPrivRead (n : Nat) : Bool := (decide (0x030 ≤ n) && decide (n ≤ 0x034)) || (decide (0x080 ≤ n) && decide (n ≤ 0x0FF))

/-- Numbers that an unprivileged context may not write (R361, R379). -/
def csrPrivWrite (n : Nat) : Bool := csrPrivRead n || (decide (0x050 ≤ n) && decide (n ≤ 0x052))

/-- PRIV of a CSR access. -/
def State.csrCheck (s : State) (priv : Bool) : Option Cause := if priv && !s.ctx.privileged then some .priv else none

/-- CSRR (R379). -/
def execCsrr (d : BitVec 8) (n : BitVec 12) (s : State) : Out :=
  s.uniformUnit (s.csrCheck (csrPrivRead n.toNat)) { k := [d.toNat] } fun s =>
    let (s, v) := s.csrRead n.toNat
    .next ((s.updCrew fun c => c.setK d.toNat v).done true)

/-- CSRR of FPFLAGS: it waits for the crew's earlier units (R164). -/
def execFpflagsRead (d : BitVec 8) (s : State) : Out :=
  s.uniformUnit none { k := [d.toNat] } fun s =>
    if s.waitDone s.team s.crew .flags then .next ((s.updCrew fun c => c.setK d.toNat c.fpflags).done true)
    else .next (s.stallRoom .flags)

/-- CSRW of FPFLAGS (R163, R164). -/
def execFpflagsWrite (src : BitVec 8) (s : State) : Out :=
  s.uniformUnit none { k := [src.toNat] } fun s =>
    let v := s.crew.kreg src.toNat
    if v.extractLsb' 5 27 ≠ 0#27 then .next (s.parkRun .illegal 0#64 true)
    else if s.waitDone s.team s.crew .flags then
      .next ((s.updCrew fun c => { c with fpflags := c.fpflags &&& ~~~v }).done true)
    else .next (s.stallRoom .flags)

/-- TBLIDX after a TBLDATA access (R387). -/
def tblNext (x : W32) : W32 :=
  if x.getLsbD 11 then x.extractLsb' 9 23 ++ (x.extractLsb' 0 9 + 1#9) else x

/-- The key of the table entry that TBLIDX selects. -/
def tblKey (x : W32) : Nat := 512 * (x.extractLsb' 9 2).toNat + (x.extractLsb' 0 9).toNat

/-- CSRR of TBLDATA (R387). -/
def execTbldataRead (d : BitVec 8) (s : State) : Out :=
  s.uniformUnit s.privCheck { k := [d.toNat] } fun s =>
    if s.waitDone s.team s.crew .tables then
      let v := readKey (s.coreSt s.crew.core).tables (tblKey s.crew.tblidx)
      .next ((s.updCrew fun c => { c.setK d.toNat v with tblidx := tblNext c.tblidx }).done true)
    else .next (s.waitRun .tables)

/-- The cores whose state a unit of the issuing crew writes: both of a bracketed pair (R390). -/
def State.ownCores (s : State) : List Nat := s.crew.core :: if s.team.bracket then s.team.follower.toList else []

/-- CSRW of TBLDATA (R387); with no load in flight the staging copy is the current version. -/
def execTbldataWrite (src : BitVec 8) (s : State) : Out :=
  s.uniformUnit s.privCheck { k := [src.toNat] } fun s =>
    if s.waitDone s.team s.crew .tables then
      let c := s.crew
      let s := s.ownCores.foldl (fun s n => s.updCore n fun x =>
        { x with tables := writeKey x.tables (tblKey c.tblidx) (c.kreg src.toNat) }) s
      .next ((s.updCrew fun c => { c with tblidx := tblNext c.tblidx }).done true)
    else .next (s.waitRun .tables)

/-! ## CSRW -/

/-- The device's TDP in watts (Table 0.1). -/
def tdp (p : Part) : Nat := match p with | .lx960 => 2400 | .lx940 => 1300

/-- The next REPLAY launch will be recorded, or replayed (R396). -/
def State.csArm (s : State) (mode : BitVec 2) : State :=
  { s with dev := { s.dev with
      csmode := mode
      csLaunch := none
      csTrunc := if mode = 1#2 then false else s.dev.csTrunc
      csDiverge := if mode = 0#2 then s.dev.csDiverge else false } }

/-- CS_RECORD (R396). -/
def execCsRecord (s : State) : Out := .next (s.csArm 1#2)

/-- CS_REPLAY (R396). -/
def execCsReplay (s : State) : Out := .next (s.csArm 2#2)

/-- The values a CSR takes (step 3 of R379). -/
def State.csrTakes (s : State) (n : Nat) (v : W32) : Bool :=
  match n with
  | 0x020 => v.extractLsb' 0 2 == 0#2
  | 0x040 => v.extractLsb' 5 27 == 0#27 && decide ((v.extractLsb' 0 3).toNat ≤ 4)
  | 0x050 => decide (1200 ≤ v.toNat) && decide (v.toNat ≤ 120000000)
  | 0x051 => v.extractLsb' 7 25 == 0#25 && decide ((v.extractLsb' 4 3).toNat ≤ 4)
  | 0x082 => v == 1#32 || v == 2#32
  | 0x083 => v.extractLsb' 12 20 == 0#20
  | 0x090 => v.extractLsb' 16 16 == 0#16 && v.extractLsb' 8 8 != 0#8 && v.extractLsb' 0 8 != 0#8
  | 0x091 => v.extractLsb' 16 16 == 0#16 && decide ((v.extractLsb' 8 8).toNat ≤ 4)
  | 0x093 => v == 0#32 || (decide (600 ≤ v.toNat) && decide (v.toNat ≤ tdp s.part))
  | 0x094 => v.extractLsb' 0 6 == 0#6
  | 0x096 => v.extractLsb' 0 6 == 0#6
  | 0x097 => v.extractLsb' 11 21 == 0#21 && v.extractLsb' 2 6 == 0#6 && v.extractLsb' 0 2 != 3#2
  | _ => true

/-- The effect of a CSRW, but for XINVCMD's wait. -/
def State.csrWrite (s : State) (n : Nat) (v : W32) : State :=
  let ctx (f : Context → Context) : State := { s with ctx := f s.ctx }
  let dev (f : Device → Device) : State := { s with dev := f s.dev }
  match n with
  | 0x020 => s.updTeam fun t => { t with handler := v }
  | 0x040 => s.updCrew fun c => { c with fpmode := v }
  | 0x050 => ctx fun c => { c with shutter := v }
  | 0x051 => ctx fun c => { c with exposel := v }
  | 0x052 => ctx fun c => { c with allowW := writeKey c.allowW s.exposelKey (~~~v) }
  | 0x080 => ctx fun c => { c with xinvLo := v }
  | 0x081 => ctx fun c => { c with xinvHi := v }
  | 0x082 => ctx fun c =>
    { c with xinvCmd := if c.xinvCmd = 0 then v.toNat else 2, xinvAt := (c.xinvHi ++ c.xinvLo).toNat % 2 ^ 52 }
  | 0x083 => s.updCrew fun c => { c with tblidx := v }
  | 0x090 => dev fun d => { d with sercfg := v }
  | 0x091 => dev fun d => { d with sersel := v }
  | 0x093 => dev fun d => { d with pwrcap := v }
  | 0x094 => dev fun d => { d with cslo := v }
  | 0x095 => dev fun d => { d with cshi := v }
  | 0x096 => dev fun d => { d with cssize := v }
  | 0x097 => s.csArm (v.extractLsb' 0 2)
  | _ => s

/-- A CSR belongs to the crew, so that its write is not compared in a bracketed pair (R391); FPFLAGS is CSR 0x041. -/
def csrLocal (n : Nat) : Bool := n == 0x040 || n == 0x083

/-- CSRW (R379). A write of XINVCMD waits until the translations are dropped (R372). -/
def execCsrw (src : BitVec 8) (n : BitVec 12) (s : State) : Out :=
  s.uniformUnit (s.csrCheck (csrPrivWrite n.toNat)) { k := [src.toNat] } fun s =>
    let v := s.crew.kreg src.toNat
    if !(s.csrTakes n.toNat v) then .next (s.parkRun .illegal 0#64 true)
    else
      let s := s.csrWrite n.toNat v
      if n = 0x082#12 then .next (s.waitRun .xinv) else .next (s.done true)

/-- The values of SAVEAREA, SAVEAREAH, SAVESLOTS and SAVESTRIDE (Table 16.3, R379). -/
def saveTakes (n : Nat) (v : W32) : Bool :=
  match n with
  | 0 => v.extractLsb' 0 6 == 0#6
  | 2 => v.extractLsb' 16 15 == 0#15
  | 3 => v.extractLsb' 0 16 == 0#16
  | _ => true

/-- One of the four save registers written; SAVESLOTS.BLOCKED is read-only. -/
def Context.setSave (c : Context) (n : Nat) (v : W32) : Context :=
  match n with
  | 0 => { c with saveArea := v }
  | 1 => { c with saveAreaH := v }
  | 2 => { c with saveSlots := v &&& 0x7FFFFFFF#32 }
  | _ => { c with saveStride := v }

/-- SAVE_AREA_WRITE: the waiting saves are tried again (R388). -/
def execSaveAreaWrite (n : BitVec 2) (src : BitVec 8) (s : State) : Out :=
  s.uniformUnit s.privCheck { k := [src.toNat] } fun s =>
    let v := s.crew.kreg src.toNat
    if !(saveTakes n.toNat v) then .next (s.parkRun .illegal 0#64 true)
    else
      .next ((({ s with ctx := s.ctx.setSave n.toNat v }).done true).retrySaves)

/-! ## Trap instructions -/

/-- TRAP (R378). -/
def execTrap (imm : BitVec 16) (s : State) : Out :=
  s.uniformUnit none {} fun s => .next (s.parkRun .swtrap (imm.setWidth 64) true)

/-- BKPT (R378). -/
def execBkpt (imm : BitVec 16) (s : State) : Out :=
  s.uniformUnit none {} fun s => .next (s.parkRun .bkpt (imm.setWidth 64) true)

/-- The run is a handler run of the crew's open episode (R380). -/
def Crew.inEpisode (c : Crew) (run : W32) : Bool :=
  c.episode.isSome && (lanesOf run).all fun l => (c.lane l).inHandler

/-- ERET (R377, R380): the run holds until every lane of the episode stands at an ERET. -/
def execEret (s : State) : Out :=
  s.uniformUnit none {} fun s =>
    let run := s.cur.run
    if !(s.crew.inEpisode run) then .next (s.parkRun .illegal 0#64 true)
    else if s.crew.allAtEret run then .next (((s.updCrew Crew.closeEpisode).evalHolds).finish true)
    else .next ((s.updCrew fun c => c.wait run .eret).finish true)

/-- PARK.PC (R376, R380). -/
def execParkPc (abs : Bool) (a b : BitVec 8) (s : State) : Out :=
  s.uniformUnit none { k := [a.toNat, b.toNat] } fun s =>
    let c := s.crew
    let v := c.kreg b.toNat
    if !(c.inEpisode s.cur.run) ∨ v.extractLsb' 0 2 ≠ 0#2 then .next (s.parkRun .illegal 0#64 true)
    else
      let entry := s.team.entry
      .next ((s.updCrew fun c => c.updLanes (c.kreg a.toNat &&& c.parkMask) fun _ x =>
        { x with saved := (if abs then entry else x.saved) + v.signExtend 52 }).evalHolds.done true)

/-- The unit ends, and with it an ERET that waited for the lanes it has removed (R377). -/
def State.doneEret (s : State) : State :=
  let s := (s.updCrew fun c => c.advance s.cur.run s.cur.pc s.cur.words).updCrew Crew.eretDue
  s.evalHolds.finish true

/-- PARK.MASK (R376, R377, R380). -/
def execParkMask (a : BitVec 8) (s : State) : Out :=
  s.uniformUnit none { k := [a.toNat] } fun s =>
    if !(s.crew.inEpisode s.cur.run) then .next (s.parkRun .illegal 0#64 true)
    else .next ((s.updCrew fun c => c.updLanes (c.kreg a.toNat &&& c.parkMask) fun _ x =>
      { x with removed := true }).evalHolds.doneEret)

/-- HALT (R381). -/
def execHalt (s : State) : Out :=
  s.uniformUnit s.privCheck {} fun s => .next ((s.done true).endAllTeams s.team.launch 6#32)

/-- BRKT (R393). -/
def execBrkt (d a : BitVec 8) (s : State) : Out :=
  s.uniformUnit none { k := [d.toNat, a.toNat] } fun s =>
    if s.team.bracket then .next ((s.updCrew fun c => c.setK d.toNat 1#32).done true)
    else .next ((s.updCrew fun c => c.setK d.toNat 0#32).done true)

/-- TBL.LOAD (R188). -/
def execTblLoad (t q : BitVec 8) (s : State) : Out :=
  s.uniformUnit none (ueNames t q 3) fun s =>
    .next ((s.addCmd (s.newCmd .tblLoad t q 0#8 3)).done true)

/-- TIME (R381). -/
def execTime (d : BitVec 8) (s : State) : Out :=
  s.uniformUnit none { k := [d.toNat, d.toNat + 1] } fun s =>
    let (s, v) := s.timedRead s.timeNs
    .next ((s.updCrew fun c => (c.setK d.toNat (v.setWidth 32)).setK (d.toNat + 1) (v.extractLsb' 32 32)).done true)

end Sys2Proof.Machine
end

