-- ==== Sys2Proof/Machine/EvLaunch.lean ====
section
/-!
DEFINITION. Steps of the launch engines and of contexts: creation and switch of a context (R17, R24, R386), the doorbell
queue (R360), acceptance of a record (R349 to R353, R396), placement and dispatch (R110 to R112, R354 to R358),
pre-emption and restore (R359, R382 to R388) and the end of a launch by system software (R352).
-/

namespace Sys2Proof.Machine

/-! ## Contexts -/

/-- Compute dies, cores, L2 slices, stacks and ports of a part (R1, R12, Tables 1.8 and 1.9). -/
def dieCount : Part → Nat | .lx960 => 4 | .lx940 => 2
def coreCount (p : Part) : Nat := 48 * dieCount p
def sliceCount (p : Part) : Nat := 32 * dieCount p
def stackCount (p : Part) : Nat := 2 * dieCount p

/-- The units of a class in service. -/
def State.inService (s : State) (cls n : Nat) : List Nat :=
  (List.range n).filter fun i => !(s.dev.fenced (BitVec.ofNat 8 cls) (BitVec.ofNat 8 i))

/-- The physical cores of complete twins in ascending order, and those whose partner is fenced (R17); that several of these
are numbered in ascending order too is the model's choice (log 87). -/
def State.twinCores (s : State) : List Nat :=
  let cs := s.inService 0 (coreCount s.part)
  cs.filter fun c => cs.contains (if c % 2 = 0 then c + 1 else c - 1)
def State.loneCores (s : State) : List Nat :=
  let cs := s.inService 0 (coreCount s.part)
  cs.filter fun c => !(cs.contains (if c % 2 = 0 then c + 1 else c - 1))

/-- IDENT of a context created now (Table 1.8). -/
def State.identNow (s : State) : W32 :=
  let twins := s.twinCores.length / 2
  word (dieCount s.part * 2 ^ 28 + (s.twinCores.length + s.loneCores.length) * 2 ^ 20 + twins * 2 ^ 12 +
    (s.inService 2 (stackCount s.part)).length * 2 ^ 8 + (s.inService 3 (portCount s.part)).length * 2 ^ 4)

/-- VARIANT of a context created now (Table 1.9). -/
def State.variantNow (s : State) : W32 :=
  word ((match s.part with | .lx960 => 0x0960 | .lx940 => 0x0940) * 2 ^ 16 + 0x1000 +
    (s.inService 1 (sliceCount s.part)).length)

/-- The physical core of a logical one (R17). -/
def Context.phys (c : Context) (core : Nat) : Nat := c.cores.getD core core

/-- What some physical cores hold of their own, kept by the device while no context runs on them (R189, R355, R386). -/
def Context.leaves (c : Context) (cores : List Nat) : List CoreLeft :=
  (c.coreSts.filter fun x => cores.contains (c.phys x.core)).map fun x =>
    { core := c.phys x.core, tables := x.tables, lastLaunch := x.lastLaunch }

/-- A context leaves some physical cores: they keep their tables, and its clean lines go. -/
def Context.leave (c : Context) (cores : List Nat) : Context :=
  { c with away := c.away ++ cores
           coreSts := c.coreSts.map fun x => if cores.contains (c.phys x.core) then { x with tables := [], l1 := [] } else x }

/-- A context comes onto some physical cores, with the tables as they then stand. -/
def Context.arrive (c : Context) (cores : List Nat) (left : List CoreLeft) : Context :=
  let here (n : Nat) : Bool := cores.contains (c.phys n)
  let named := (List.range c.cores.length).filter fun n => here n && left.any fun y => y.core == c.phys n
  let missing := named.filter fun n => !(c.coreSts.any fun x => x.core == n)
  { c with away := c.away.filter fun p => !(cores.contains p)
           coreSts := (c.coreSts ++ missing.map coreDefault).map fun x =>
      if !(here x.core) then x
      else match left.find? fun y => y.core == c.phys x.core with
        | some y => { x with tables := y.tables, lastLaunch := y.lastLaunch }
        | none => { x with tables := [], lastLaunch := none } }

/-- Another context that is on the device moves (R386): it changes places with the current one. The bytes of host lines at the
home slices are of the device. -/
def State.turnTo (s : State) (i : Nat) : State :=
  match s.swapped[i]? with
  | none => s
  | some c =>
    let rest := if s.ctx.live then s.swapped.set i { s.ctx with l2host := [], openL2 := [] } else s.swapped.eraseIdx i
    { s with ctx := { c with l2host := s.ctx.l2host, openL2 := s.ctx.openL2 }, swapped := rest }

/-- CONTEXT_CREATE (R17, R24, R25, R186, R362): every table entry is 0. -/
def execContextCreate (privileged : Bool) (ptRoot : Nat) (s : State) : Out :=
  if s.dev.boot ≠ .running ∨ s.ctx.live then .next s
  else
    let c : Context :=
      { live := true, id := s.nextId, privileged := privileged, ptRoot := ptRoot, l2host := s.ctx.l2host, openL2 := s.ctx.openL2
        cores := s.twinCores ++ s.loneCores
        away := (s.twinCores ++ s.loneCores).filter fun p => s.swapped.any fun c => c.resident && c.runs p
        twins := s.twinCores.length / 2, ident := s.identNow,
        variant := s.variantNow, slices := s.inService 1 (sliceCount s.part), periodNo := 1 }
    .next { s with ctx := c, nextId := s.nextId + 1, dev := { s.dev with left := [] } }

/-- The S bytes of some logical cores reach home. -/
def State.cleanCores (s : State) (cores : List Nat) : State := cores.foldl (fun s c => s.releaseS c true) s

/-- Physical cores of the context on which it has nothing left to do: every team there has been pre-empted or has ended (R386). -/
def State.idleCores (s : State) : List Nat :=
  ((List.range s.ctx.cores.length).filter fun n => s.ctx.runs (s.ctx.phys n) &&
    !(s.ctx.teams.any fun t => t.core == n || t.follower == some n) &&
    !(s.ctx.reqs.any fun r => r.core == n) && !(s.ctx.cmds.any fun x => x.core == n)).map s.ctx.phys

/-- A tree read back from its shadow (R386). -/
def State.readTree (s : State) (g : Region) : Region :=
  let ys := (List.range g.shadow.bytes).map fun o => readKey s.mem (g.shadow.pa o)
  if g.isAgg then
    let w := 64 / fanout g.agg.1
    { g with nodes := storeOf ((List.range (aggShadow g.agg.1 g.agg.2 / w)).map fun i =>
        BitVec.ofNat 64 (bytesNat (sliceBytes ys (w * i) w))) }
  else { g with recs := storeOf (wordsOfBytes ys) }

/-- CONTEXT_SWITCH_OUT (R386). While teams of the context are placed, some of the cores that have none leave it. With no team left
the whole context goes: each tree is written to its shadow and stays open. The cores keep their tables. -/
def execContextSwitchOut (s : State) : Out :=
  if !s.ctx.live then .next s
  else if s.ctx.teams ≠ [] ∨ s.ctx.reqs ≠ [] ∨ s.ctx.cmds ≠ [] then
    let n := s.ctx.cores.length
    let cores := s.idleCores.filter fun p => Config.freeBool (s.fresh + p)
    let s := (s.bump (384 + n)).cleanCores ((List.range n).filter fun i => cores.contains (s.ctx.phys i))
    .next { s with ctx := s.ctx.leave cores, dev := { s.dev with left := s.dev.left ++ s.ctx.leaves cores } }
  else
    let s := s.cleanCores (s.ctx.coreSts.map CoreSt.core)
    let s := s.ctx.regions.foldl (fun s g => s.spanWrite g.shadow g.bytes) s
    let cores := s.ctx.cores.filter s.ctx.runs
    .next { s with swapped := s.swapped ++ [{ s.ctx.leave cores with away := s.ctx.cores, l2host := [], openL2 := [] }]
                   ctx := { l2host := s.ctx.l2host, openL2 := s.ctx.openL2 }
                   dev := { s.dev with left := s.dev.left ++ s.ctx.leaves cores } }

/-- Every launch of the current context ends with 0x06, its regions are open no more, and no further record is accepted (R279,
R395). -/
def State.endContext (s : State) : State :=
  let s := { s with ctx := { s.ctx with ended := true, saved := [], incoming := [], regions := [] } }
  (s.ctx.launches.foldl (fun s x => s.endAllTeams x.id 6#32) s).settleLaunches

/-- Cores that a context may come onto: its own that run no context (R386). -/
def State.freeCores (s : State) (c : Context) : List Nat :=
  c.cores.filter fun p => !((s.ctx :: s.swapped).any fun x => x.live && x.runs p)

/-- A context comes onto its free cores, and the home slices read the shadows of its trees back when it was on none. -/
def State.comeBack (s : State) (c : Context) : Context :=
  let c' := c.arrive (s.freeCores c) s.dev.left
  if c.resident || c.ended then c' else { c' with regions := c'.regions.map s.readTree }

/-- CONTEXT_SWITCH_IN (R386, R395): a context comes onto its cores that are free: one that is switched out or runs on other cores, or,
with the number after theirs, the current one. A context that a fencing has ended only ends its launches. -/
def execContextSwitchIn (which : Nat) (s : State) : Out :=
  match (s.swapped ++ [s.ctx])[which]? with
  | none => .next s
  | some c =>
    let cores := s.freeCores c
    if !c.live ∨ (cores = [] ∧ !c.ended ∧ (s.ctx.live ∨ c.cores ≠ [])) then .next s
    else
      let c' := s.comeBack c
      let s := { s with dev := { s.dev with left := s.dev.left.filter fun y => !(cores.contains y.core) } }
      if which = s.swapped.length then .next { s with ctx := c' }
      else
        let s := { s with swapped := s.swapped.set which c' }
        .next (if !s.ctx.live then (if c.ended then (s.turnTo which).endContext else s.turnTo which)
          else if c.ended then ((s.turnTo which).endContext).turnTo which
          else s)

/-! ## The doorbell queue -/

/-- DOORBELL_TAIL_WRITE (R360). -/
def execDoorbellTailWrite (value : W32) (s : State) : Out :=
  if s.dev.boot ≠ .running then .next s else .next { s with dev := { s.dev with dbTail := value.setWidth 8 } }

/-- ERRCNT_CLEAR (R360): 1s clear bits. -/
def execErrcntClear (value : W32) (s : State) : Out :=
  if s.dev.boot ≠ .running then .next s else .next { s with dev := { s.dev with dbErr := s.dev.dbErr &&& ~~~value } }

/-- The record at HEAD that the context has read and found full. -/
def State.heldRecord (s : State) : Option Incoming := (s.dev.dbHeld.filter fun e => e.1 == s.ctx.id).map Prod.snd

/-- The device may take a slot: there is one, the slot before it has been looked at, and a priority that its record
found full has room (R358). -/
def State.slotReady (s : State) : Bool :=
  s.dev.boot = .running && s.ctx.live && !s.ctx.ended && s.dev.dbHead != s.dev.dbTail &&
    !(s.ctx.incoming.any fun i => i.cmd.isNone && i.stuck.isNone && i.held.isNone) &&
    match s.heldRecord with
    | some i => decide (s.queueLength i.die (i.held.getD 0) < 64)
    | none => true

/-- DOORBELL_SLOT_TAKE (R360). -/
def execDoorbellSlotTake (s : State) : Out :=
  if !s.slotReady then .next s
  else
    let w (i : Nat) : W32 := readKey s.dev.dbSlots (4 * s.dev.dbHead.toNat + i)
    let slot := s.dev.dbHead
    let i := match s.heldRecord with
      | some i => { i with held := none }
      | none => { record := w 1 ++ w 0, die := (w 2).toNat, cmd := none, slot := slot, no := s.nextId }
    let s := { s with nextId := s.nextId + 1, dev := { s.dev with dbHead := slot + 1#8, dbHeld := none } }
    if dieCount s.part ≤ i.die then .next { s with dev := { s.dev with dbErr := s.dev.dbErr + 1#32 } }
    else .next { s with ctx := { s.ctx with incoming := s.ctx.incoming ++ [i] } }

/-! ## Acceptance -/

/-- A waiting record changed. -/
def State.updIncoming (s : State) (i : Incoming) (f : Incoming → Incoming) : State :=
  { s with ctx := { s.ctx with incoming := updateFirst (fun j => j.no == i.no) f s.ctx.incoming } }

/-- Bytes an engine outside the cores reads as plain loads at device scope, once all of them are there (R352). -/
def State.devRead (s : State) (x : W64) (n : Nat) : State × (EngFail ⊕ List Byte) :=
  match s.engScan x n .load with
  | (s, some f) => (s, .inl f)
  | (s, none) =>
    (pieces (n / 64 + 2) x.toNat n).foldl (fun (acc : State × (EngFail ⊕ List Byte)) e =>
      match acc.2 with
      | .inl _ => acc
      | .inr ys =>
        match acc.1.engCheck (BitVec.ofNat 64 e.1) .load with
        | (s, .inl f) => (s, .inl f)
        | (s, .inr (pa, t)) =>
          if s.badAt pa then (s, .inl .ecc)
          else if (s.shadowRegion pa).isSome then let (s, zs) := s.shadowRead e.2; (s, .inr (ys ++ zs))
          else (s, .inr (ys ++ s.homeRead t pa e.2))) (s, .inr [])

/-- A part of what a record names, read once: 0 the record, 1 the descriptor, 2 the placement map (R352). -/
def State.readOnce (s : State) (i : Incoming) (part : Nat) (x : W64) (n : Nat) : State × (EngFail ⊕ List Byte) :=
  match i.read.find? fun e => e.1 == part with
  | some e => (s, .inr e.2)
  | none =>
    match s.devRead x n with
    | (s, .inl f) => (s, .inl f)
    | (s, .inr ys) => (s.updIncoming i fun j => { j with read := j.read ++ [(part, ys)] }, .inr ys)

/-- FLAGS bits. -/
def recTwin (r : List Byte) : Bool := field r 63 1 % 2 = 1
def recReplay (r : List Byte) : Bool := field r 63 1 / 2 % 2 = 1
def recBracket (r : List Byte) : Bool := field r 63 1 / 4 % 2 = 1
def recPrio (r : List Byte) : Nat := field r 63 1 / 8 % 4

/-- A level entry: domain and scope code (R350). -/
def recLevel (r : List Byte) (i : Nat) : Nat × Nat := (field r (96 + 4 * i) 1, field r (97 + 4 * i) 1)

/-- The fields of Table 15.1 are in range and reserved bits are 0. -/
def recFieldsOk (r : List Byte) : Bool :=
  let threads := field r 52 2
  let unit := if recTwin r then 8192 else 4096
  let spad := field r 56 4
  let producer := field r 62 1
  let nlev := field r 65 1
  decide (field r 0 8 % 4 = 0) && decide (1 ≤ field r 48 4) && decide (field r 48 4 ≤ 2 ^ 24) &&
    decide (threads % 32 = 0) && decide (32 ≤ threads) && decide (threads ≤ if recTwin r then 6144 else 3072) &&
    decide (field r 54 1 ≤ 15) && decide (field r 55 1 ≤ 31) &&
    decide (unit ≤ spad) && decide (spad % unit = 0) && decide (spad ≤ 512 * unit) && decide (field r 60 2 ≤ 1024) &&
    (decide (producer = 255) || decide (producer < threads / 32)) && decide (field r 63 1 < 32) &&
    decide (field r 64 1 < 16) && decide (1 ≤ nlev) && decide (nlev ≤ 8) && decide (field r 66 30 = 0) &&
    (List.range 8).all fun i => decide (field r (98 + 4 * i) 2 = 0) && (decide (i < nlev) || decide (field r (96 + 4 * i) 4 = 0))

/-- The scope of a code (Table 11.1), and the least scope of a domain (R350). -/
def scopeOf : Nat → Scope
  | 1 => .crew | 2 => .core | 3 => .twin | 4 => .die | 5 => .dev | _ => .sys
def domainScope : Nat → Nat
  | 0 => 1 | 1 => 1 | 2 => 2 | 3 => 3 | 4 => 4 | 5 => 4 | _ => 5

/-- The level table is legal (R350). -/
def recLevelsOk (r : List Byte) : Bool :=
  (List.range (field r 65 1)).all fun i =>
    let (d, c) := recLevel r i
    decide (d ≤ 6) && decide (1 ≤ c) && decide (c ≤ 6) && decide (domainScope d ≤ c) &&
      (i == 0 || decide ((recLevel r (i - 1)).1 ≤ d))

/-- The pages of a byte range translate into device memory, or one of them waits for Maelner (R352). -/
def State.deviceRange (s : State) (x : W64) (n : Nat) : State × Pages :=
  if !(canonical x) ∨ !(canonical (x + BitVec.ofNat 64 (n - 1))) then (s, .bad)
  else
    let a := x.toNat % 2 ^ 52
    ((List.range ((a + n - 1) / 65536 - a / 65536 + 1)).map fun i => (a / 65536 + i) % 2 ^ 36).foldl
      (fun (acc : State × Pages) p =>
        match acc.2 with
        | .bad => acc
        | _ =>
          match acc.1.translate (p * 65536) none with
          | (s, .ok pa _) => if rangeOf s.part pa = some .device then (s, acc.2) else (s, .bad)
          | (s, .fail .xlate) => (s.reportPage (p * 65536), .missing p)
          | (s, .fail _) => (s, .bad)) (s, .ok [])

/-- How the check of a record ends: a page waits for Maelner, with the code it gives unserviced; a rejection with whether DONE can be written, or it passes
with the placement map and the dependence descriptor. -/
inductive Checked where
  | page (p code : Nat)
  | reject (code : Nat) (done : Bool)
  | pass (place : List Nat) (dep : Option LaunchDep)

/-- DONE's own check at acceptance (R352). -/
def State.doneCheck (s : State) (x : W64) : State × (Nat ⊕ Bool) :=
  if x = 0#64 then (s, .inr true)
  else if x.toNat % 4 ≠ 0 ∨ !(canonical x) then (s, .inr false)
  else
    match s.translate (x.toNat % 2 ^ 52) (some .store) with
    | (s, .fail .xlate) => (s, .inl (x.toNat % 2 ^ 52 / 65536))
    | (s, .fail _) => (s, .inr false)
    | (s, .ok pa _) =>
      match rangeOf s.part pa with
      | some .device => (s, .inr true)
      | some .host => (s, .inr true)
      | _ => (s, .inr false)

/-- The dependence descriptor of a record (Table 15.3). -/
def depOfBytes (d : List Byte) : LaunchDep :=
  { bitmap := bytesW64 (sliceBytes d 0 8), nprod := field d 8 4, mul := field d 12 4, div := field d 16 4,
    off := signedOf 32 (field d 20 4), stride := signedOf 32 (field d 24 4), cnt := field d 28 4 }

/-- The descriptor read and checked, when the record names one. -/
def State.depCheck (s : State) (i : Incoming) (x : W64) : State × (Checked ⊕ Option LaunchDep) :=
  if x = 0#64 then (s, .inr none)
  else
    match s.readOnce i 1 x 32 with
    | (s, .inl (.xlate p)) => (s, .inl (.page p 1))
    | (s, .inl _) => (s, .inl (.reject 1 true))
    | (s, .inr d) =>
      let y := depOfBytes d
      if y.div = 0 ∨ 64 < y.cnt then (s, .inl (.reject 1 true))
      else
        match s.deviceRange y.bitmap (max 1 (ceilDiv y.nprod 8)) with
        | (s, .ok _) => (s, .inr (some y))
        | (s, .missing p) => (s, .inl (.page p 1))
        | (s, .bad) => (s, .inl (.reject 1 true))

/-- The placement map read and checked (R353). -/
def State.placeCheck (s : State) (i : Incoming) (r : List Byte) : State × (Checked ⊕ List Nat) :=
  let x : W64 := BitVec.ofNat 64 (field r 16 8)
  let teams := field r 48 4
  let limit := if recTwin r || recBracket r then s.ctx.twins else s.ctx.cores.length
  if recBracket r && recTwin r then (s, .inl (.reject 2 true))
  else if x = 0#64 then (s, if recReplay r then .inl (.reject 2 true) else .inr [])
  else
    match s.readOnce i 2 x (2 * teams) with
    | (s, .inl (.xlate p)) => (s, .inl (.page p 2))
    | (s, .inl _) => (s, .inl (.reject 2 true))
    | (s, .inr m) =>
      let es := (List.range teams).map fun t => field m (2 * t) 2
      if es.all fun e => if e = 0xFFFF then !(recReplay r) else decide (e < limit) then (s, .inr es)
      else (s, .inl (.reject 2 true))

/-- A team fits an empty core or twin (R139). -/
def State.fits (s : State) (r : List Byte) : Bool :=
  let n := field r 52 2 / 32
  let q := ceilDiv (if recTwin r then ceilDiv n 2 else n) 4
  decide (q ≤ 24) && decide (q * 8 * (field r 54 1 + 1) ≤ 2048) &&
    !((recTwin r || recBracket r) && decide (s.ctx.twins = 0))

/-- The checks of Table 15.2 in their order. -/
def State.recordCheck (s : State) (i : Incoming) (r : List Byte) : State × Checked :=
  match s.doneCheck (BitVec.ofNat 64 (field r 40 8)) with
  | (s, .inl p) => (s, .page p 1)
  | (s, .inr false) => (s, .reject 1 false)
  | (s, .inr true) =>
    if !(recFieldsOk r) then (s, .reject 1 true)
    else
      let b : W64 := BitVec.ofNat 64 (field r 32 8)
      match (if b = 0#64 then (s, Pages.ok []) else s.deviceRange b (ceilDiv (field r 48 4) 8)) with
      | (s, .missing p) => (s, .page p 1)
      | (s, .bad) => (s, .reject 1 true)
      | (s, .ok _) =>
        match s.depCheck i (BitVec.ofNat 64 (field r 24 8)) with
        | (s, .inl c) => (s, c)
        | (s, .inr dep) =>
          if recReplay r && s.dev.csmode == 2#2 && s.dev.csLaunch.isNone && s.dev.csTrunc then (s, .reject 1 true)
          else
            match s.placeCheck i r with
            | (s, .inl c) => (s, c)
            | (s, .inr place) =>
              if !(s.fits r) then (s, .reject 3 true)
              else if !(recLevelsOk r) then (s, .reject 4 true)
              else (s, .pass place dep)

/-- The launch of a record. -/
def launchOf (r : List Byte) (id die : Nat) (record : W64) (place : List Nat) (dep : Option LaunchDep) : Launch :=
  { id := id, record := record, die := die, entry := BitVec.ofNat 52 (field r 0 8), arg := BitVec.ofNat 64 (field r 8 8),
    place := place, dep := dep, bitmap := BitVec.ofNat 64 (field r 32 8), done := BitVec.ofNat 64 (field r 40 8),
    teams := field r 48 4, threads := field r 52 2, vBudget := 8 * (field r 54 1 + 1), kBudget := 16 * (field r 55 1 + 1),
    spadBytes := field r 56 4, accRows := field r 60 2, producer := if field r 62 1 = 255 then none else some (field r 62 1),
    twin := recTwin r, replay := recReplay r, bracket := recBracket r, prio := recPrio r, cls := field r 64 1,
    levels := (List.range (field r 65 1)).map fun i => ((recLevel r i).1, scopeOf (recLevel r i).2) }

/-- A REPLAY launch takes up an armed contact sheet: its header is written, unless it fills the sheet, or the entries will be
consumed (R396, R397). -/
def State.takeSheet (s : State) (r : List Byte) (x : Launch) : State × Launch :=
  if !x.replay ∨ s.dev.csLaunch.isSome ∨ s.dev.csmode = 0#2 then (s, x)
  else if s.dev.csmode = 1#2 then
    if s.dev.cssize.toNat < 64 then
      ({ s with dev := { s.dev with csLaunch := some x.id, csTrunc := true, csused := 0#32 } }, x)
    else
      let s := s.sysWriteAll 4 s.sheetBase (r.take 64)
      ({ s with dev := { s.dev with csLaunch := some x.id, csused := 64#32 } }, { x with recording := true })
  else
    ({ s with dev := { s.dev with csLaunch := some x.id, csused := 64#32, csTaken := [] } }, { x with replaying := true })

/-- A waiting record removed, and its LAUNCH's token written (R365). -/
def State.leaveIncoming (s : State) (i : Incoming) (status : W32) : State :=
  let s := { s with ctx := { s.ctx with incoming := s.ctx.incoming.filter fun j => j.no != i.no } }
  match i.cmd with
  | some id => s.finishNow id status
  | none => s

/-- A rejected record: its word is written at DONE, when it can be, as the word of a launch that is over (R352). -/
def State.rejectRecord (s : State) (i : Incoming) (r : List Byte) (code : Nat) (done : Bool) : State :=
  let s := s.leaveIncoming i statusFault
  if !done ∨ field r 40 8 = 0 then s
  else
    let x := { launchOf r s.nextId i.die i.record [] none with next := field r 48 4, word := some (word code), levels := [] }
    ({ s with nextId := s.nextId + 1, ctx := { s.ctx with launches := s.ctx.launches ++ [x] } }).settleLaunches

/-- A record may be looked at: Maelner is not asked about a page, its LAUNCH's release can be made, and a priority it
found full has room (R358, R365). -/
def State.incomingReady (s : State) (i : Incoming) : Bool :=
  i.stuck.isNone &&
    (match i.cmd with
      | none => true
      | some id => match s.cmd? id with | some x => s.openAfter x | none => false) &&
    (match i.held with | none => true | some p => decide (s.queueLength i.die p < 64))

/-- The fields a LAUNCH checks itself, and the record's address (R349, R365). -/
def State.recordAddrOk (s : State) (i : Incoming) : Bool :=
  i.record.extractLsb' 0 6 == 0#6 && canonical i.record && decide (i.die < dieCount s.part) &&
    match i.cmd.bind s.cmd? with
    | some x => (x.word 2).extractLsb' 3 29 == 0#29
    | none => true

/-- All 128 bytes of a record lie in device or host memory (R349). -/
def State.recordPlace (s : State) (x : W64) : Bool :=
  [0, 64].all fun o =>
    match (s.translate ((x.toNat + o) % 2 ^ 52) none).2 with
    | .ok pa _ => rangeOf s.part pa == some .device || rangeOf s.part pa == some .host
    | .fail _ => true

/-- A page of a record is reported, or, when it will not be serviced, the record is unreadable. -/
def State.recordWait (s : State) (i : Incoming) (r : List Byte) (page : Nat) (code : Nat) : State :=
  if i.unserviced then s.rejectRecord i r code (r != []) else s.updIncoming i fun j => { j with stuck := some page }

/-- A record for a full priority waits in its source (R358): a doorbell slot at HEAD, or the LAUNCH. -/
def State.holdRecord (s : State) (i : Incoming) (prio : Nat) : State :=
  if i.cmd.isNone ∧ i.slot + 1#8 = s.dev.dbHead then
    { s with dev := { s.dev with dbHead := i.slot, dbHeld := (s.ctx.incoming.find? fun j => j.no == i.no).map fun j => (s.ctx.id, { j with held := some prio }) }
             ctx := { s.ctx with incoming := s.ctx.incoming.filter fun j => j.no != i.no } }
  else s.updIncoming i fun j => { j with held := some prio }

/-- One record looked at (R352). -/
def State.acceptOne (s : State) (i : Incoming) : State :=
  let s := match i.cmd.bind s.cmd? with | some x => s.openRelease x | none => s
  if !(s.recordAddrOk i) then s.leaveIncoming i statusFault
  else
    match s.readOnce i 0 i.record 128 with
    | (s, .inl (.xlate p)) => s.recordWait i [] p 1
    | (s, .inl _) => s.leaveIncoming i statusFault
    | (s, .inr r) =>
      if !(s.recordPlace i.record) then s.leaveIncoming i statusFault
      else
        match s.recordCheck i r with
        | (s, .page p code) => s.recordWait i r p code
        | (s, .reject code done) => s.rejectRecord i r code done
        | (s, .pass place dep) =>
          if 64 ≤ s.queueLength i.die (recPrio r) then s.holdRecord i (recPrio r)
          else
            let (s, x) := s.takeSheet r (launchOf r s.nextId i.die i.record place dep)
            let s := { s with nextId := s.nextId + 1
                              ctx := { s.ctx with launches := s.ctx.launches ++ [{ x with turn := s.nextId }] } }
            s.leaveIncoming i statusDone

/-- LAUNCH_RECORD_ACCEPT (R352): the die's engine looks at the first record that is ready. -/
def execLaunchRecordAccept (die : Nat) (s : State) : Out :=
  match s.ctx.incoming.find? fun i => i.die == die && s.incomingReady i with
  | some i => if s.ctx.live && !s.ctx.ended then .next (s.acceptOne i) else .next s
  | none => .next s

/-! ## Room -/

/-- What a team takes (R111): crews on its first core and on its second, V, scratchpad bytes and rows on each core. -/
structure Shape where
  cores : List Nat
  counts : List Nat
  vBudget : Nat
  half : Nat
  rows : Nat

/-- Cores that a placed team occupies. -/
def Team.occupies (t : Team) (core : Nat) : Bool := t.core == core || t.follower == some core

/-- Scratchpad bytes of a placed team on each of its cores (R191). -/
def Team.half (t : Team) : Nat := if t.twin then t.spadBytes / 2 else t.spadBytes

/-- Partition, slot and V of each crew that holds a place on a core; a bracketed pair has its crews on both. -/
def slotsTaken (ts : List Team) (core : Nat) : List (Nat × Nat × Nat) :=
  ts.flatMap fun t => (t.crews.filter fun c => !c.retired && (c.core == core || (t.bracket && t.follower == some core))).map
    fun c => (c.partn, c.slot, t.vBudget)

/-- Granules of 4 KiB that teams hold on a core: first and count (R191). -/
def granulesTaken (ts : List Team) (core : Nat) : List (Nat × Nat) :=
  ts.flatMap fun t => (t.grants.filter fun g => g.1 == core).map Prod.snd

/-- The granules of a half (R191): the lowest whole macros that are free for 64 KiB and above, and for a smaller half the
lowest free granules that lie inside one macro. Of 512 granules, 16 make a macro. -/
def grantAt (taken : List (Nat × Nat)) (half : Nat) : Option (Nat × Nat) :=
  let big := decide (65536 ≤ half)
  let n := if big then 16 * ceilDiv half 65536 else ceilDiv half 4096
  ((List.range 512).find? fun a =>
    decide (a + n ≤ 512) && (if big then a % 16 == 0 else a / 16 == (a + n - 1) / 16) &&
      taken.all fun g => decide (a + n ≤ g.1) || decide (g.1 + g.2 ≤ a)).map fun a => (a, n)

/-- Room for `n` crews of a shape on one core beside some teams (R111, R137, R138, R191, R213). -/
def coreRoom (ts : List Team) (core n : Nat) (x : Shape) : Bool :=
  let taken := slotsTaken ts core
  let here := ts.filter fun t => t.occupies core
  ((List.range 4).all fun p =>
    let mine := taken.filter fun e => e.1 == p
    let new := ((List.range n).filter fun i => i % 4 == p).length
    decide (mine.length + new ≤ 24) &&
      decide ((mine.map fun e => e.2.2 / 8).foldl (· + ·) 0 + new * (x.vBudget / 8) ≤ 256)) &&
    (grantAt (granulesTaken ts core) x.half).isSome &&
    decide ((here.map fun t => ceilDiv t.accRows 16 * 16).foldl (· + ·) (ceilDiv x.rows 16 * 16) ≤ 1024)

/-- The granules that a shape is granted on each of its cores (R191). -/
def grantsFor (ts : List Team) (x : Shape) : List (Nat × Nat × Nat) :=
  x.cores.filterMap fun c => (grantAt (granulesTaken ts c) x.half).map fun g => (c, g)

/-- Room for a shape beside some teams, on cores that are in service. -/
def State.roomAmong (s : State) (ts : List Team) (x : Shape) : Bool :=
  (x.cores.zip x.counts).all fun e =>
    coreRoom ts e.1 e.2 x &&
      match s.ctx.cores[e.1]? with
      | some p => !(s.dev.fenced 0#8 (BitVec.ofNat 8 p)) && s.ctx.runs p
      | none => false

/-- The shape of a team of a launch at a logical core, or a logical twin (R110, R390). -/
def Launch.shape (x : Launch) (at0 : Nat) : Shape :=
  let n := x.threads / 32
  if x.twin then
    { cores := [2 * at0, 2 * at0 + 1], counts := [ceilDiv n 2, n - ceilDiv n 2], vBudget := x.vBudget,
      half := x.spadBytes / 2, rows := x.accRows }
  else if x.bracket then
    { cores := [2 * at0, 2 * at0 + 1], counts := [n, n], vBudget := x.vBudget, half := x.spadBytes, rows := x.accRows }
  else { cores := [at0], counts := [n], vBudget := x.vBudget, half := x.spadBytes, rows := x.accRows }

/-! ## Dispatch -/

/-- Bit p of a bitmap is 1 at its home (R357). -/
def State.bitSet (s : State) (bitmap : W64) (p : Nat) : Bool :=
  match (s.translate ((bitmap.toNat + p / 8) % 2 ^ 52) none).2 with
  | .ok pa t => (s.homeByte t pa).getLsbD (p % 8)
  | .fail _ => false

/-- The dependences of team c are met (R356). -/
def State.depsMet (s : State) (x : Launch) (c : Nat) : Bool :=
  match x.dep with
  | none => true
  | some d => (List.range d.cnt).all fun j =>
      let p : Int := ((c * d.mul / d.div : Nat) : Int) + d.off + (j : Int) * d.stride
      decide (p < 0) || decide ((d.nprod : Int) ≤ p) || s.bitSet d.bitmap p.toNat

/-- The cores or twins that a launch's next team may take: the named one, or each in ascending order (R354). -/
def State.placesFor (s : State) (x : Launch) : List Nat :=
  let e := x.place.getD x.next 0xFFFF
  if e = 0xFFFF then List.range (if x.twin || x.bracket then s.ctx.twins else s.ctx.cores.length) else [e]

/-- A launch's next team may start but for room: the launch runs on, no removed team of it waits to return, and its
dependences are met (R354, R356, R359). -/
def State.wants (s : State) (x : Launch) : Bool :=
  x.word.isNone && decide (x.next < x.teams) && !(s.ctx.saved.any fun t => t.team.launch == x.id) && s.depsMet x x.next

/-- Where a launch's next team can be placed now. -/
def State.placeNow (s : State) (x : Launch) : Option Nat :=
  if s.wants x then (s.placesFor x).find? fun p => s.roomAmong s.ctx.teams (x.shape p) else none

/-- The physical die of a place that a launch's entry names: a core, or a twin (R12, R353). -/
def State.placeDie (s : State) (x : Launch) (at0 : Nat) : Nat := s.dieOf (if x.twin || x.bracket then 2 * at0 else at0)

/-- A launch goes into a list by its turn. -/
def addTurn (xs : List Launch) (x : Launch) : List Launch :=
  match xs with
  | [] => [x]
  | y :: ys => if x.turn < y.turn then x :: y :: ys else y :: addTurn ys x

/-- The launches of a priority in the round-robin order: the one that was accepted or served longest ago first, so that a
launch is passed by each other one at most once between two of its turns (R358). -/
def State.roundRobin (s : State) (prio : Nat) : List Launch :=
  (s.ctx.launches.filter fun x => x.prio == prio).foldl addTurn []

/-- Where a die's engine can place a launch's next team now: it serves the cores of its die (R14, R354). -/
def State.placeOn (s : State) (die : Nat) (x : Launch) : Option Nat := (s.placeNow x).filter fun at0 => s.placeDie x at0 == die

/-- The shape of a placed or saved team. -/
def Team.shape (t : Team) : Shape :=
  { cores := t.allCores, vBudget := t.vBudget, half := t.half, rows := t.accRows,
    counts := t.allCores.map fun c => (t.crews.filter fun x => !x.retired && (x.core == c || t.bracket)).length }

/-- A team that a die's engine has pre-empted can return to its core or twin (R359). -/
def State.canReturn (s : State) (die : Nat) (x : SavedTeam) : Bool :=
  !x.bySystem && s.dieOf x.team.core == die && s.roomAmong s.ctx.teams x.team.shape

/-- A die's engine has a team of a higher priority to place: one that returns, or the next one of a launch (R358). -/
def State.higher (s : State) (die prio : Nat) : Bool :=
  (s.ctx.saved.any fun x => decide (prio < x.team.prio) && s.canReturn die x) ||
    s.ctx.launches.any fun x => decide (prio < x.prio) && (s.placeOn die x).isSome

/-- The launch a die's engine serves: the first placeable one of the highest priority that has a placeable team (R358). -/
def State.serve (s : State) (die : Nat) : Option (Launch × Nat) :=
  ([3, 2, 1, 0].findSome? fun p => (s.roundRobin p).findSome? fun x => (s.placeOn die x).map fun at0 => (x, at0)).filter fun e =>
    !(s.higher die e.1.prio)

/-- The lowest free slot of a partition, active ones first (R111). -/
def lowestSlot (used : List Nat) : Nat := ((List.range 24).find? fun i => !(used.contains i)).getD 23

/-- A slot for each crew, in crew order: `places` gives core and partition of each. -/
def assignSlots (taken : List (Nat × Nat × Nat)) : List (Nat × Nat) → List Nat
  | [] => []
  | (core, p) :: rest =>
    let slot := lowestSlot ((taken.filter fun e => e.1 == core && e.2.1 == p).map fun e => e.2.2)
    slot :: assignSlots (taken ++ [(core, p, slot)]) rest

/-- Core and partition of crew i of n (R110). -/
def crewPlace (twin : Bool) (core follower n i : Nat) : Nat × Nat :=
  let h := if twin then ceilDiv n 2 else n
  if i < h then (core, i % 4) else (follower, (i - h) % 4)

/-- Slots in use on the cores of the context. -/
def slotsOn (ts : List Team) (cores : List Nat) : List (Nat × Nat × Nat) :=
  cores.flatMap fun c => (slotsTaken ts c).map fun e => (c, e.1, e.2.1)

/-- A crew at its start (R112, R129, R140, R214). -/
def startCrew (x : Launch) (i core partn slot clock : Nat) : Crew :=
  let h := if x.twin then ceilDiv (x.threads / 32) 2 else x.threads / 32
  let c : Crew :=
    { idx := i, core := core, partn := partn, slot := slot, active := decide (slot < 8), activeSince := clock,
      winLimit := x.accRows, rgx := BitVec.ofNat 8 (2 ^ ((if i < h then i else i - h) / 4 % 8)),
      lanes := (List.range 32).map fun l => { pc := x.entry, tid := 32 * i + l } }
  (c.setK 2 (x.arg.setWidth 32)).setK 3 (x.arg.extractLsb' 32 32)

/-- A team at its start (R110 to R112, R140, R192, R203, R213, R342). -/
def State.startTeam (s : State) (x : Launch) (at0 : Nat) : Team :=
  let pair := x.twin || x.bracket
  let core := if pair then 2 * at0 else at0
  let n := x.threads / 32
  let places := (List.range n).map fun i => crewPlace x.twin core (core + 1) n i
  let slots := assignSlots (slotsOn s.ctx.teams (x.shape at0).cores) places
  { id := s.nextId, launch := x.id, idx := x.next, core := core, follower := if pair then some (core + 1) else none,
    bracket := x.bracket, ncrews := n, vBudget := x.vBudget, kBudget := x.kBudget, spadBytes := x.spadBytes,
    accRows := x.accRows, producer := x.producer, entry := x.entry, cls := x.cls, prio := x.prio, replay := x.replay,
    grants := grantsFor s.ctx.teams (x.shape at0),
    levels := x.levels, plates := List.replicate 8 0#32, rings := List.replicate 16 {}, bars := List.replicate 16 {},
    crews := (List.range n).map fun i =>
      let p := places.getD i (core, 0)
      startCrew x i p.1 p.2 (slots.getD i 0) s.ctx.clock }

/-- A core starts a team: its instruction cache is dropped for another launch's team, and no value older than a store that
happens before the start is fetched (R60, R355). A launch without a dependence follows no store but those before its
acceptance. The start is an acquire (R275). -/
def State.startOn (s : State) (x : Launch) (core : Nat) : State :=
  let s := s.updCore core fun c =>
    { c with lastLaunch := some x.id
             oldCode := if c.lastLaunch = some x.id ∧ x.dep.isNone then c.oldCode.filter fun e => decide (x.id < e.2.2.2) else [] }
  s.acquireS core

/-- TEAM_DISPATCH (R14, R354, R358): a die's engine places a team on a core or twin of its die. -/
def execTeamDispatch (die : Nat) (s : State) : Out :=
  if !s.ctx.live ∨ s.ctx.ended then .next s
  else
    match s.serve die with
    | none => .next s
    | some (x, at0) =>
      let t := s.startTeam x at0
      let s := t.allCores.foldl (fun s c => s.startOn x c) s
      let s := s.updLaunch x.id fun y => { y with next := y.next + 1, turn := s.nextId }
      .next { s with nextId := s.nextId + 1, ctx := { s.ctx with teams := s.ctx.teams ++ [t] } }

/-! ## Pre-emption and restore -/

/-- Lower-priority teams on some cores in the order they are pre-empted: lowest priority first, then the most recently
placed (R359). -/
def victims (ts : List Team) (cores : List Nat) (prio : Nat) : List Team :=
  (List.range prio).flatMap fun p =>
    (ts.filter fun t => t.prio == p && cores.any fun c => t.occupies c).reverse

/-- The teams to remove, in order, until a shape fits; none when removing them all is not enough. -/
def untilFits (s : State) (x : Shape) : List Team → List Team → Option (List Team)
  | ts, [] => if s.roomAmong ts x then some [] else none
  | ts, v :: vs =>
    if s.roomAmong ts x then some []
    else (untilFits s x (ts.filter fun t => t.id != v.id) vs).map fun r => v :: r

/-- The team to remove next for a launch's next team at a place, if removing teams makes it fit; none while it fits or while
no removal is enough, and none where a team that would go has no save slot (R359, R383). -/
def State.nextOut (s : State) (x : Launch) (at0 : Nat) : Option Team :=
  match untilFits s (x.shape at0) s.ctx.teams (victims s.ctx.teams (x.shape at0).cores x.prio) with
  | some (v :: _) => if !v.issues || (s.saveRoom v).isSome then some v else none
  | _ => none

/-- The team a die's engine pre-empts next: it holds the room of a team of a higher priority (R359). A launch looks at its
first place where a removal helps, and waits there for a team that is already stopping. -/
def State.victim (s : State) (die : Nat) : Option Team :=
  [3, 2, 1].findSome? fun p => (s.roundRobin p).findSome? fun x =>
    if s.wants x && (s.placeNow x).isNone then
      match (s.placesFor x).find? fun at0 => (s.nextOut x at0).isSome with
      | some at0 => if s.placeDie x at0 = die then (s.nextOut x at0).filter Team.issues else none
      | none => none
    else none

/-- A launch engine wants the team out of the way. -/
def State.isVictim (s : State) (id : Nat) : Bool :=
  (List.range (dieCount s.part)).any fun d => match s.victim d with | some t => t.id == id | none => false

/-- TEAM_PREEMPT (R382, R383, R388): first the crews stop, and once the engines have drained the record is written.
A team that no launch engine wants out of the way is pre-empted by system software. -/
def execTeamPreempt (team : Nat) (s : State) : Out :=
  match s.team? team with
  | none => .next s
  | some t =>
    match t.phase with
    | .running => .next (s.updTeamId team fun t => { t with phase := .stopping (!(s.isVictim team)) })
    | .stopping _ => if s.drained t then .next (s.trySave team) else .next s
    | .blocked => .next (if (s.saveRoom t).isSome then s.trySave team else s)
    | .ending => .next s

/-- A saved team's crews with slots anew (R385). -/
def State.reslot (s : State) (t : Team) : Team :=
  let places := (t.crews.filter fun c => !c.retired).map fun c => (c.core, c.partn)
  let slots := assignSlots (slotsOn s.ctx.teams t.allCores) places
  let order := (t.crews.filter fun c => !c.retired).map Crew.idx
  { t with phase := .running, grants := grantsFor s.ctx.teams t.shape, copy := none, crews := t.crews.map fun c =>
      match order.findIdx? fun i => i == c.idx with
      | some j =>
        let slot := slots.getD j 0
        { c with slot := slot, active := decide (slot < 8), activeSince := s.ctx.clock, readySince := none }
      | none => c }

/-- A saved team can return: its core or twin has room, and its die's engine has no team of a higher priority to place
(R358, R359, R385). -/
def State.mayRestore (s : State) (x : SavedTeam) : Bool :=
  !s.ctx.ended && s.roomAmong s.ctx.teams x.team.shape && (x.bySystem || !(s.higher (s.dieOf x.team.core) x.team.prio))

/-- No page of a saved team's record waits for Maelner (R239, R385). -/
def State.recordThere (s : State) (x : SavedTeam) : Bool :=
  let a := (s.slotAddr x.slot).toNat % 2 ^ 52
  !(s.ctx.reported.any fun p => decide (a / 65536 ≤ p) && decide (p ≤ (a + x.team.recordSize - 1) / 65536))

/-- A team's record read from its slot, with the context's translation; none while a page of it is not there (R385). -/
def State.readRecord (s : State) (x : SavedTeam) : State × Option (List Byte) :=
  let a := s.slotAddr x.slot
  match s.engScan a x.team.recordSize .load with
  | (s, some _) => (s, none)
  | (s, none) =>
    let (s, ys) := s.sysReadAll (x.team.recordSize / 64 + 2) (a.toNat % 2 ^ 52) x.team.recordSize
    (s, some ys)

/-- A team's crews learn of the answers that Maelner gave for pages while it was saved (R371). -/
def Team.answered (t : Team) (answers : List (Nat × Bool)) : Team :=
  { t with crews := t.crews.map fun c => answers.foldl (fun c e => c.pageTold e.1 e.2) c }

/-- TEAM_RESTORE (R385): the record is read and sets every part it gives; saved commands go on with their dependences; the
slot it frees lets a waiting save be tried again (R388). -/
def execTeamRestore (team : Nat) (s : State) : Out :=
  match s.ctx.saved.find? fun x => x.team.id == team with
  | none => .next s
  | some x =>
    if !(s.mayRestore x) then .next s
    else
      match s.readRecord x with
      | (s, none) => .next s
      | (s, some ys) =>
        let t := s.reslot ((x.team.ofRecord ys).answered x.answers)
        let s := match s.launch? t.launch with
          | some l => t.allCores.foldl (fun (s : State) c => s.startOn l c) s
          | none => s
        .next ({ s with ctx := { s.ctx with
          saved := s.ctx.saved.filter fun y => y.team.id != team
          cmds := s.ctx.cmds ++ x.cmds
          teams := s.ctx.teams ++ [t] } }.retrySaves)

/-- LAUNCH_ENDED_BY_SYSTEM (R352, R388): placed teams drain, saved ones are given up, and the word is 0x06. -/
def execLaunchEndedBySystem (which : Nat) (s : State) : Out :=
  .next ((s.endAllTeams which 6#32).settleLaunches.retrySaves)

end Sys2Proof.Machine
end

