-- ==== Sys2Proof/Machine/EvDevice.lean ====
section
/-!
DEFINITION. Steps of the device outside its contexts: soft errors and fencing (R394, R395), links, ports and remote
commands (R401 to R403), power (R408), reset, recovery and the image (R404, R405) and the attestation mailbox (R406,
R407).
-/

namespace Sys2Proof.Machine

/-! ## Fencing -/

/-- A context has a team on a physical core, data in its L1, or a table that is not all zero in it (R395); a team saved in memory
is on no core. -/
def Context.onCore (c : Context) (phys : Nat) : Bool :=
  let here (core : Nat) : Bool := c.cores[core]? == some phys
  (c.teams.any fun t => t.allCores.any here) || c.coreSts.any fun x => here x.core && (x.l1 != [] || x.tables != [])

/-- A context has a region homed at a slice, or bytes of a host line in it (R241, R395). -/
def Context.onSlice (c : Context) (slice : Nat) : Bool :=
  (c.regions.any fun g => c.slices.getD (73 * g.num % c.slices.length) 0 == slice) ||
    c.l2host.any fun x =>
      let h := (x.line % 2 ^ 16) ^^^ (x.line / 2 ^ 16 % 2 ^ 16) ^^^ (x.line / 2 ^ 32 % 2 ^ 14)
      c.slices.getD (h % c.slices.length) 0 == slice

/-- A context uses a unit (R395): a stack, a port or a link counts as holding data of every context. Whether a core or a slice in
which the state holds nothing of a context holds other data of it (a clean copy of a line) is free: `holds` says so. -/
def Context.uses (c : Context) (cls index : BitVec 8) (holds : Bool) : Bool :=
  match cls.toNat with
  | 0 => c.onCore index.toNat || (holds && c.cores.contains index.toNat)
  | 1 => c.onSlice index.toNat || (holds && c.slices.contains index.toNat)
  | _ => true

/-- The bytes that a request leaves at its place over the old ones, if it writes (R253, Table 10.8). -/
def Req.leaves (r : Req) (old : List Byte) : Option (List Byte) :=
  match r.kind with
  | .store => some r.data
  | .atom code => some (natBytes (atomNew code.toNat (8 * r.size) (bytesNat old) (bytesNat r.data)) r.size)
  | .red code => some (natBytes (atomNew code.toNat (8 * r.size) (bytesNat old) (bytesNat r.data)) r.size)
  | .cas => if old = r.compare then some r.data else none
  | _ => none

/-- A request to a peer without a route (R255, R401, R402): it fails, and a store, an atomic or a reduction whose turn it is may
have been performed there, once, or not at all; one that has been keeps no later access behind it. -/
def State.failRemote (s : State) (r : Req) : State :=
  let done := r.kind.writes && s.reqReady r && Config.freeBool s.fresh
  let s := s.bump 1
  if !done then
    let s := s.failReq r .remote
    match s.half r with
    | some q => if q.bound.isSome && q.failed.isNone then s.freeReq q else s
    | none => s
  else
    let s := s.releaseFor r
    let s := match r.leaves (s.homeRead .u r.pa r.size) with
      | some ys => s.homeWrite .u r.pa ys
      | none => s
    (s.updReq r.id fun x => { x with bound := some [] }).failReq r .remote

/-- Outstanding requests to peers that are cut off. -/
def State.cutRequests (s : State) : List Req :=
  s.ctx.reqs.filter fun r => r.failed.isNone && r.bound.isNone &&
    match rangeOf s.part r.pa with | some (.peer p) => decide (0 < r.size) && s.dev.cut p | _ => false

/-- An operation on a context that is not the current one, with the bytes of host lines that the home slices hold (R386). -/
def State.within (s : State) (i : Nat) (f : State → State) : State :=
  let aside (c : Context) : Context := { c with l2host := [], openL2 := [] }
  match s.swapped[i]? with
  | none => s
  | some c =>
    let t := f { s with ctx := { c with l2host := s.ctx.l2host, openL2 := s.ctx.openL2 }, swapped := s.swapped.set i (aside s.ctx) }
    match t.swapped[i]? with
    | none => t
    | some d =>
      { t with ctx := { d with l2host := t.ctx.l2host, openL2 := t.ctx.openL2 }, swapped := t.swapped.set i (aside t.ctx) }

/-- Requests to peers that are cut off now fail, those of every context that runs on the device, and Maelner reports the peers
that have been lost (R402). -/
def State.cutPeers (s : State) (had : List Nat) : State :=
  let lost := had.filter fun p => s.dev.cut p
  let s := { s with dev := { s.dev with lostPeers := s.dev.lostPeers ++ lost } }
  let others := (List.range s.swapped.length).filter fun i => match s.swapped[i]? with | some c => c.resident | none => false
  let cut (s : State) : State := s.cutRequests.foldl State.failRemote s
  others.foldl (fun s i => s.within i cut) (cut s)

/-- Peers that have a route through ports that are up. -/
def Device.reached (d : Device) : List Nat := ((d.routes.map Prod.fst).eraseDups).filter fun p => !(d.cut p)

/-- A port is down. -/
def State.portDown (s : State) (port : Nat) : State :=
  let had := s.dev.reached
  let down (p : Port) : Port := if p.index = port then { p with up := false } else p
  { s with dev := { s.dev with ports := s.dev.ports.map down } }.cutPeers had

/-- A context that is not the current one is ended by a fencing (R395): at once when it runs on the device, and else when it is
switched back in. -/
def State.endOther (s : State) (i : Nat) : State :=
  match s.swapped[i]? with
  | none => s
  | some c =>
    if c.resident then s.within i State.endContext
    else { s with swapped := s.swapped.set i { c with ended := true } }

/-- A unit is fenced (R394, R395): it leaves service, the fence is recorded in flash, and the contexts that use it end. -/
def State.fenceUnit (s : State) (cls index : BitVec 8) : State :=
  if s.dev.fenced cls index then s
  else
    let n := s.fresh
    let k := s.swapped.length
    let hit (i : Nat) : Bool := match s.swapped[i]? with
      | some c => c.uses cls index (Config.freeBool (n + 1 + i))
      | none => false
    let mine := s.ctx.live && s.ctx.uses cls index (Config.freeBool n)
    let s := { s.bump (1 + k) with
      dev := { s.dev with fences := s.dev.fences ++ [(cls, index)], flashFences := s.dev.flashFences ++ [(cls, index)] } }
    let s := ((List.range k).filter hit).foldl State.endOther s
    let s := if cls = 3#8 then s.portDown index.toNat else s
    if mine then s.endContext else s

/-- Errors counted against a unit, which is fenced when they reach THRESH within the window (R394). -/
def State.countErrors (s : State) (cls index : BitVec 8) (n : Nat) : State :=
  let s := { s with dev := { s.dev with errors := s.dev.errors ++ List.replicate n (cls, index, s.dev.clocks) } }
  if (s.dev.sercfg.extractLsb' 8 8).toNat ≤ s.dev.errorCount cls index then s.fenceUnit cls index else s

/-- CORRECTED_SOFT_ERROR (R394). -/
def execCorrectedSoftError (cls index : BitVec 8) (s : State) : Out := .next (s.countErrors cls index 1)

/-- UNCORRECTABLE_ERROR (R255, R394): THRESH is added to the count, and a line may hold bad data. -/
def execUncorrectableError (cls index : BitVec 8) (line : Option Nat) (s : State) : Out :=
  let s := { s with dev := { s.dev with badLines := s.dev.badLines ++ line.toList } }
  .next (s.countErrors cls index (s.dev.sercfg.extractLsb' 8 8).toNat)

/-! ## Fatal errors, links and power -/

/-- Every launch of the current context ends at once with 0x06, and its word is written (R352, R403): no team runs on, and no
request that is outstanding is performed. -/
def State.stopContext (s : State) : State :=
  let ls := s.ctx.launches.map fun x => { x with word := match x.word with | some v => some v | none => some 6#32 }
  { s with ctx := { s.ctx with ended := true, teams := [], saved := [], reqs := [], cmds := [], incoming := [], regions := [],
                               launches := ls } }.settleLaunches

/-- A contained fatal error (R403): every context ends with 0x06, those that are switched out too, and nothing further is
performed until a reset. -/
def State.fatal (s : State) : State :=
  let s := s.stopContext
  let live := s.ctx
  let (s, out) := s.swapped.foldl (fun (a : State × List Context) c =>
    let t := { a.1 with ctx := c }.stopContext
    (t, a.2 ++ [t.ctx])) (s, [])
  { s with dev := { s.dev with boot := .stopped }, ctx := live, swapped := out }

/-- DIE_LINK_FAILURE (R403): `critical` when the link carries an invalidation of a D line or a summary-unit request; Maelner
reports the link. -/
def execDieLinkFailure (link : Nat) (critical : Bool) (s : State) : Out :=
  let s := { s with dev := { s.dev with lostLinks := s.dev.lostLinks ++ [link] } }
  .next (if critical then s.fatal else s.fenceUnit 4#8 (BitVec.ofNat 8 link))

/-- THERMAL_STOP (R408). -/
def execThermalStop (s : State) : Out := .next s.fatal

/-- POWER_THROTTLE (R408): issue is throttled, in its order. -/
def execPowerThrottle (s : State) : Out := .next { s with dev := { s.dev with throttling := true } }

/-- POWER_THROTTLE_END (R408). -/
def execPowerThrottleEnd (s : State) : Out :=
  if s.dev.throttling then
    .next { s with dev := { s.dev with throttling := false, throttleEnd := some s.dev.clocks } }
  else .next s

/-! ## The fabric -/

/-- PORT_DOWN (R402). -/
def execPortDown (port : Nat) (s : State) : Out := .next (s.portDown port)

/-- The sequence number a flit carries in three bytes (Table 17.5). -/
def flitSeq (f : List Byte) (o : Nat) : BitVec 24 := BitVec.ofNat 24 (field f o 3)

/-- Flits not acknowledged once a number has been acknowledged. -/
def dropAcked (ack : BitVec 24) (fs : List (List Byte)) : List (List Byte) :=
  match fs.findIdx? fun f => flitSeq f 0 == ack with
  | some i => fs.drop (i + 1)
  | none => fs

/-- FLIT_RECEIVE (R400, R401): a bad CRC or a gap in SEQ asks for a NAK; a NAK asks for the flits not acknowledged. -/
def Port.receive (p : Port) (f : List Byte) : Port :=
  if Config.crc32 (f.take 252) ≠ bytesW32 (sliceBytes f 252 4) ∨ flitSeq f 0 ≠ p.expect then { p with nak := true }
  else
    let p := { p with expect := p.expect + 1#24, acked := flitSeq f 3, unacked := dropAcked (flitSeq f 3) p.unacked }
    if field f 6 1 = 3 then { p with resend := true } else p

def execFlitReceive (port : Nat) (flit : List Byte) (s : State) : Out :=
  if flit.length ≠ 256 then .next s
  else .next { s with dev := { s.dev with ports := s.dev.ports.map fun p =>
    if p.index = port ∧ p.up then p.receive flit else p } }

/-- A flit of a port with the next sequence number and the last number received in order (Table 17.5). -/
def Port.flit (p : Port) (type vc : Nat) (payload : List Byte) : List Byte :=
  let body := natBytes p.nextSeq.toNat 3 ++ natBytes (p.expect - 1#24).toNat 3 ++ natBytes type 1 ++ natBytes vc 1 ++ exactly 244 payload
  body ++ w32Bytes (Config.crc32 body)

/-- A new flit is sent and kept until it is acknowledged. -/
def Port.send (p : Port) (type vc : Nat) (payload : List Byte) : Port :=
  let f := p.flit type vc payload
  { p with out := p.out ++ [f], unacked := p.unacked ++ [f], nextSeq := p.nextSeq + 1#24 }

/-- What a port sends next (R401): a NAK that it owes, then, after a NAK from the other side, every flit from the first one
not acknowledged, and otherwise a flit of its own, whose type, channel and payload are free: the layout of commands in a
payload is not given. -/
def Port.next (p : Port) (type vc : Nat) (payload : List Byte) : Port :=
  if p.nak then { p.send 3 vc [] with nak := false }
  else if p.resend then { p with out := p.out ++ p.unacked, resend := false }
  else p.send (type % 3) vc payload

/-- A port that is up sends (R400, R401). -/
def State.portSend (s : State) (port : Nat) : State :=
  let n := (Config.freeWord s.fresh).toNat
  let payload := (List.range 244).map fun i => Config.freeByte (s.fresh + 1 + i)
  { s.bump 245 with dev := { s.dev with ports := s.dev.ports.map fun p =>
      if p.index = port ∧ p.up then p.next (n % 3) (n / 4 % 4) payload else p } }

/-- The bytes a remote command touches. -/
def remoteRange : RemoteOp → Nat × Nat
  | .load pa n => (pa, n)
  | .store pa ys => (pa, ys.length)
  | .atomic _ pa n _ => (pa, n)
  | .cas pa n _ _ => (pa, n)

/-- A remote command performed at its home in device memory: the state after it and its response. -/
def State.performRemote (s : State) : RemoteOp → State × List Byte
  | .load pa n => (s, s.homeRead .u pa n)
  | .store pa ys => (s.hostWrite pa ys, [])
  | .atomic code pa n v =>
    let old := s.homeRead .u pa n
    (s.atomWrite .u pa code.toNat v.toNat (natBytes (atomNew code.toNat (8 * n) (bytesNat old) (v.toNat % 2 ^ (8 * n))) n), old)
  | .cas pa n c v =>
    let old := s.homeRead .u pa n
    (if bytesNat old = c.toNat % 2 ^ (8 * n) then s.hostWrite pa (natBytes v.toNat n) else s, old)

/-- A response kept: the most recent 4,096 of each source stay (R401). -/
def keepResponse (ks : List KeptResponse) (k : KeptResponse) : List KeptResponse :=
  let mine := ks.filter fun x => x.source == k.source
  (ks.filter fun x => x.source != k.source) ++ mine.drop (mine.length - 4095) ++ [k]

/-- REMOTE_COMMAND (R401): performed once; a repeat finds its kept response. -/
def execRemoteCommand (source : Nat) (number : W32) (op : RemoteOp) (s : State) : Out :=
  if s.dev.boot ≠ .running ∨ s.dev.kept.any (fun k => k.source == source && k.number == number) then .next s
  else
    let (s, data) := if (remoteRange op).1 + (remoteRange op).2 ≤ deviceBytes s.part then s.performRemote op else (s, [])
    .next { s with dev := { s.dev with kept := keepResponse s.dev.kept { source := source, number := number, data := data } } }

/-! ## Reset, recovery and the image -/

/-- Bytes of a big-endian digest. -/
def digestBytes (d : BitVec 384) : List Byte := (natBytes d.toNat 48).reverse

/-- DEVICE_RESET (R395, R399, R404, R405): flash, fuses and memory stay; the image in flash is checked, which fixes the size
of the control window. -/
def execDeviceReset (s : State) : Out :=
  let d : Device := { flash := s.dev.flash, fuseHash := s.dev.fuseHash, fuseRollback := s.dev.fuseRollback,
                      flashFences := s.dev.flashFences, badLines := s.dev.badLines }
  let s := { s with dev := d, ctx := {}, swapped := [], cur := {} }
  .next (if s.dev.imageOk s.dev.flash then s.startMaelner s.dev.flash
    else { s with dev := { s.dev with boot := .recovery, window := 0x40000000 } })

/-- RECOVERY_DOORBELL (R405): the buffered image is checked, and the device boots from it or stays in recovery mode. -/
def execRecoveryDoorbell (s : State) : Out := .next s.recoveryCheck

/-- IMAGE_FLASH_WRITE (R405): the image that was booted goes to flash. -/
def execImageFlashWrite (s : State) : Out :=
  if s.dev.boot = .running then .next { s with dev := { s.dev with flash := putBytes s.dev.flash 0 s.dev.image } } else .next s

/-! ## Attestation -/

/-- ATTEST_REPORT (R407). -/
def execAttestReport (s : State) : Out := .next (s.mailboxRequest 1)

/-- ATTEST_CERTIFICATE (R407). -/
def execAttestCertificate (s : State) : Out := .next (s.mailboxRequest 2)

/-- An attestation report but for its signature (Table 17.8). -/
def State.reportBody (s : State) : List Byte :=
  let img := s.dev.image
  natBytes 0x00015452 4 ++ natBytes 1 4 ++ exactly 48 s.dev.mbNonce ++ w32Bytes s.variantNow ++ exactly 4 (sliceBytes img 4 4) ++
    exactly 4 (sliceBytes img 16 4) ++ natBytes 0 4 ++ digestBytes (Config.sha384 img) ++
    digestBytes (Config.sha384 (Config.fuseSettings s.dev.fuseHash s.dev.fuseRollback)) ++
    digestBytes (Config.sha384 Config.maelnerConfig)

/-- MAILBOX_COMPLETE (R406, R407): Maelner has finished, or the request failed. -/
def execMailboxComplete (ok : Bool) (s : State) : Out :=
  if s.dev.boot ≠ .running ∨ s.dev.mbStatus ≠ 1#32 then .next s
  else if !ok then .next { s with dev := { s.dev with mbStatus := 4#32 } }
  else if s.dev.mbCmd = 1 then
    let data := s.reportBody ++ exactly 96 (Config.identitySign s.reportBody s.fresh)
    .next { s.bump 1 with dev := { s.dev with mbStatus := 2#32, mbLength := 312#32, mbData := data } }
  else
    .next { s with dev := { s.dev with mbStatus := 3#32, mbLength := word Config.identityCert.length,
                                       mbData := Config.identityCert } }

end Sys2Proof.Machine
end

