-- ==== Sys2Proof/Machine/Uniform.lean ====
section
/-!
DEFINITION. Uniform arithmetic, moves between register classes and mask logic (R149 to R158).
-/

namespace Sys2Proof.Machine

/-- KNOP (R149). -/
def execKnop (s : State) : Out := s.uniformCrew {} fun c => c

/-- A two-source uniform unit (R150). -/
def State.kbin (s : State) (d a b : BitVec 8) (f : W32 → W32 → W32) : Out :=
  s.uniformValue d [a.toNat, b.toNat] fun c => f (c.kreg a.toNat) (c.kreg b.toNat)

/-- A one-source uniform unit. -/
def State.kun (s : State) (d a : BitVec 8) (f : W32 → W32) : Out :=
  s.uniformValue d [a.toNat] fun c => f (c.kreg a.toNat)

def execKadd (d a b : BitVec 8) (s : State) : Out := s.kbin d a b fun x y => x + y
def execKsub (d a b : BitVec 8) (s : State) : Out := s.kbin d a b fun x y => x - y
def execKmul (d a b : BitVec 8) (s : State) : Out := s.kbin d a b fun x y => x * y
/-- KMULH: bits 63:32 of the signed product (R150). -/
def execKmulh (d a b : BitVec 8) (s : State) : Out :=
  s.kbin d a b fun x y => BitVec.ofInt 32 (x.toInt * y.toInt / 2 ^ 32)
/-- KMAD: the old d is the addend (R150). -/
def execKmad (d a b : BitVec 8) (s : State) : Out :=
  s.uniformValue d [a.toNat, b.toNat] fun c => c.kreg a.toNat * c.kreg b.toNat + c.kreg d.toNat
def execKmin (d a b : BitVec 8) (s : State) : Out := s.kbin d a b fun x y => if x.toInt ≤ y.toInt then x else y
def execKmax (d a b : BitVec 8) (s : State) : Out := s.kbin d a b fun x y => if y.toInt ≤ x.toInt then x else y
def execKand (d a b : BitVec 8) (s : State) : Out := s.kbin d a b fun x y => x &&& y
def execKor (d a b : BitVec 8) (s : State) : Out := s.kbin d a b fun x y => x ||| y
def execKxor (d a b : BitVec 8) (s : State) : Out := s.kbin d a b fun x y => x ^^^ y
def execKshl (d a b : BitVec 8) (s : State) : Out := s.kbin d a b fun x y => x <<< shiftOf y
def execKshr (d a b : BitVec 8) (s : State) : Out := s.kbin d a b fun x y => x >>> shiftOf y
def execKsar (d a b : BitVec 8) (s : State) : Out := s.kbin d a b fun x y => x.sshiftRight (shiftOf y)
/-- KBFE (R151). -/
def execKbfe (d a b : BitVec 8) (s : State) : Out := s.kbin d a b bitFieldExtract
def execKpopc (d a : BitVec 8) (s : State) : Out := s.kun d a fun x => word (popcount x)
def execKclz (d a : BitVec 8) (s : State) : Out := s.kun d a fun x => word (leadingZeros x)
/-- KCMP (R152). -/
def execKcmp (d a b : BitVec 8) (s : State) : Out :=
  s.kbin d a b fun x y => if x.toInt < y.toInt then 0xFFFFFFFF#32 else if x = y then 0#32 else 1#32
/-- KSEL: the old d selects (R152). -/
def execKsel (d a b : BitVec 8) (s : State) : Out :=
  s.uniformValue d [a.toNat, b.toNat] fun c =>
    if c.kreg d.toNat ≠ 0#32 then c.kreg a.toNat else c.kreg b.toNat
def execKmov (d a : BitVec 8) (s : State) : Out := s.kun d a fun x => x
/-- KMOVI (R153). -/
def execKmovi (d : BitVec 8) (imm : BitVec 16) (s : State) : Out := s.uniformValue d [] fun _ => imm.signExtend 32
/-- KLIT (R153). -/
def execKlit (d : BitVec 8) (x : W32) (s : State) : Out := s.uniformValue d [] fun _ => x
/-- KADDI (R153). -/
def execKaddi (d : BitVec 8) (imm : BitVec 16) (s : State) : Out :=
  s.uniformValue d [] fun c => c.kreg d.toNat + imm.signExtend 32

/-- KHI.RD (R154). -/
def execKhiRd (d q : BitVec 8) (s : State) : Out :=
  s.uniformCrew { k := [d.toNat, 256 + q.toNat] } fun c => c.setK d.toNat (c.kreg (256 + q.toNat))

/-- KHI.WR: d8 names the source (R154). -/
def execKhiWr (src q : BitVec 8) (s : State) : Out :=
  s.uniformCrew { k := [src.toNat, 256 + q.toNat] } fun c => c.setK (256 + q.toNat) (c.kreg src.toNat)

/-- The lane a VTOK reads: the one named, or the lowest of the run (R155). -/
def vtokLane (run : W32) (first : Bool) (l : BitVec 5) : Nat := if first then lowestLane run else l.toNat

/-- VTOK: it waits for the named lane's register (R155). -/
def execVtok (d : BitVec 8) (r : BitVec 7) (first : Bool) (l : BitVec 5) (s : State) : Out :=
  let lane := vtokLane s.cur.run first l
  s.uniformUnit none { k := [d.toNat], v := [r.toNat] } fun s =>
    s.afterWrites [r.toNat] (1#32 <<< lane) fun s => .next ((s.updCrew fun c => c.setK d.toNat (c.vreg r.toNat lane)).done true)

/-- MTOK (R156). -/
def execMtok (d : BitVec 8) (m : BitVec 3) (s : State) : Out := s.uniformValue d [] fun c => c.mreg m.toNat

/-- KTOM (R156). -/
def execKtom (m : BitVec 3) (a : BitVec 8) (s : State) : Out :=
  s.uniformCrew { k := [a.toNat] } fun c => c.setM m.toNat (c.kreg a.toNat)

/-- The operations of Table 6.8. -/
def maskLogic (f : MlogOp) (a b : W32) : W32 :=
  match f with
  | .and => a &&& b
  | .or => a ||| b
  | .xor => a ^^^ b
  | .andn => a &&& ~~~b
  | .not => ~~~a
  | .mov => a

/-- MLOG (R157). -/
def execMlog (f : MlogOp) (md ma mb : BitVec 3) (s : State) : Out :=
  s.uniformCrew {} fun c => c.setM md.toNat (maskLogic f (c.mreg ma.toNat) (c.mreg mb.toNat))

end Sys2Proof.Machine
end

