-- ==== Sys2Proof/Machine/Dispatch.lean ====
section
/-!
DEFINITION. One arm per instruction and step: each calls the meaning of its own.
-/

namespace Sys2Proof.Machine

def exec (i : Instr) (s : State) : Host.Outcome State Fault Refusal :=
  match i with
  | .nop imm => Sys2Proof.Machine.execNop imm s
  | .bra m inv off => Sys2Proof.Machine.execBra m inv off s
  | .brx a => Sys2Proof.Machine.execBrx a s
  | .call off => Sys2Proof.Machine.execCall off s
  | .callx d a => Sys2Proof.Machine.execCallx d a s
  | .ret a => Sys2Proof.Machine.execRet a s
  | .join split => Sys2Proof.Machine.execJoin split s
  | .exit => Sys2Proof.Machine.execExit s
  | .vote p d a kind => Sys2Proof.Machine.execVote p d a kind s
  | .shflIdx p d a b => Sys2Proof.Machine.execShflIdx p d a b s
  | .shflUp p d a b => Sys2Proof.Machine.execShflUp p d a b s
  | .shflDn p d a b => Sys2Proof.Machine.execShflDn p d a b s
  | .shflXor p d a b => Sys2Proof.Machine.execShflXor p d a b s
  | .matchEq p d a => Sys2Proof.Machine.execMatchEq p d a s
  | .compact p incl d a => Sys2Proof.Machine.execCompact p incl d a s
  | .regroup d a => Sys2Proof.Machine.execRegroup d a s
  | .elect p d => Sys2Proof.Machine.execElect p d s
  | .sreg p d n => Sys2Proof.Machine.execSreg p d n s
  | .iadd p u d a b => Sys2Proof.Machine.execIadd p u d a b s
  | .isub p u d a b => Sys2Proof.Machine.execIsub p u d a b s
  | .imul p u d a b => Sys2Proof.Machine.execImul p u d a b s
  | .imulh p u d a b => Sys2Proof.Machine.execImulh p u d a b s
  | .imad p u d a b => Sys2Proof.Machine.execImad p u d a b s
  | .imin p u d a b => Sys2Proof.Machine.execImin p u d a b s
  | .imax p u d a b => Sys2Proof.Machine.execImax p u d a b s
  | .ineg p d a => Sys2Proof.Machine.execIneg p d a s
  | .iabs p d a => Sys2Proof.Machine.execIabs p d a s
  | .vand p d a b => Sys2Proof.Machine.execVand p d a b s
  | .vor p d a b => Sys2Proof.Machine.execVor p d a b s
  | .vxor p d a b => Sys2Proof.Machine.execVxor p d a b s
  | .andn p d a b => Sys2Proof.Machine.execAndn p d a b s
  | .shl p d a b => Sys2Proof.Machine.execShl p d a b s
  | .shr p d a b => Sys2Proof.Machine.execShr p d a b s
  | .sar p d a b => Sys2Proof.Machine.execSar p d a b s
  | .rotl p d a b => Sys2Proof.Machine.execRotl p d a b s
  | .bfe p d a b => Sys2Proof.Machine.execBfe p d a b s
  | .bfi p d a b => Sys2Proof.Machine.execBfi p d a b s
  | .popc p d a => Sys2Proof.Machine.execPopc p d a s
  | .clz p d a => Sys2Proof.Machine.execClz p d a s
  | .brev p d a => Sys2Proof.Machine.execBrev p d a s
  | .icmp p andOld cc md a b => Sys2Proof.Machine.execIcmp p andOld cc md a b s
  | .sel p d a b => Sys2Proof.Machine.execSel p d a b s
  | .idot4 p u d a b => Sys2Proof.Machine.execIdot4 p u d a b s
  | .iaddi p u d a imm => Sys2Proof.Machine.execIaddi p u d a imm s
  | .movi p hi d imm => Sys2Proof.Machine.execMovi p hi d imm s
  | .mov p d a => Sys2Proof.Machine.execMov p d a s
  | .lit p d word => Sys2Proof.Machine.execLit p d word s
  | .fadd p bf d a b => Sys2Proof.Machine.execFadd p bf d a b s
  | .fsub p bf d a b => Sys2Proof.Machine.execFsub p bf d a b s
  | .fmul p bf d a b => Sys2Proof.Machine.execFmul p bf d a b s
  | .ffma p bf d a b => Sys2Proof.Machine.execFfma p bf d a b s
  | .fmin p bf d a b => Sys2Proof.Machine.execFmin p bf d a b s
  | .fmax p bf d a b => Sys2Proof.Machine.execFmax p bf d a b s
  | .fneg p d a => Sys2Proof.Machine.execFneg p d a s
  | .fabs p d a => Sys2Proof.Machine.execFabs p d a s
  | .fcmp p andOld cc md a b => Sys2Proof.Machine.execFcmp p andOld cc md a b s
  | .fclass p d a => Sys2Proof.Machine.execFclass p d a s
  | .frnd p d a => Sys2Proof.Machine.execFrnd p d a s
  | .fscale p d a b => Sys2Proof.Machine.execFscale p d a b s
  | .frcp p d a => Sys2Proof.Machine.execFrcp p d a s
  | .frsq p d a => Sys2Proof.Machine.execFrsq p d a s
  | .fsqrt p d a => Sys2Proof.Machine.execFsqrt p d a s
  | .fexp2 p d a => Sys2Proof.Machine.execFexp2 p d a s
  | .flog2 p d a => Sys2Proof.Machine.execFlog2 p d a s
  | .fsin p d a => Sys2Proof.Machine.execFsin p d a s
  | .fcos p d a => Sys2Proof.Machine.execFcos p d a s
  | .ftanh p d a => Sys2Proof.Machine.execFtanh p d a s
  | .fdot2 p half d a b => Sys2Proof.Machine.execFdot2 p half d a b s
  | .cvtFF p d a dst src e => Sys2Proof.Machine.execCvtFF p d a dst src e s
  | .cvtFI p d a src e dst => Sys2Proof.Machine.execCvtFI p d a src e dst s
  | .cvtIF p d a dst e src => Sys2Proof.Machine.execCvtIF p d a dst e src s
  | .bfpqM p d a r m => Sys2Proof.Machine.execBfpqM p d a r m s
  | .bfpqE p d a pick r j => Sys2Proof.Machine.execBfpqE p d a pick r j s
  | .bfpx p d a q r m => Sys2Proof.Machine.execBfpx p d a q r m s
  | .permb p d a b => Sys2Proof.Machine.execPermb p d a b s
  | .nibx p d a sx two g => Sys2Proof.Machine.execNibx p d a sx two g s
  | .xpose d a bytes => Sys2Proof.Machine.execXpose d a bytes s
  | .lut p d a mode t => Sys2Proof.Machine.execLut p d a mode t s
  | .pack2 p half d a b => Sys2Proof.Machine.execPack2 p half d a b s
  | .lds p sx d a sz off => Sys2Proof.Machine.execLds p sx d a sz off s
  | .sts p d a sz off => Sys2Proof.Machine.execSts p d a sz off s
  | .ldsQ p d a off => Sys2Proof.Machine.execLdsQ p d a off s
  | .stsQ p d a off => Sys2Proof.Machine.execStsQ p d a off s
  | .atoms p d a sz off => Sys2Proof.Machine.execAtoms p d a sz off s
  | .atomsCas p d a sz off => Sys2Proof.Machine.execAtomsCas p d a sz off s
  | .accRd p clr d a => Sys2Proof.Machine.execAccRd p clr d a s
  | .accWr p d a => Sys2Proof.Machine.execAccWr p d a s
  | .accAdd p d a => Sys2Proof.Machine.execAccAdd p d a s
  | .ld p sx d a sz off => Sys2Proof.Machine.execLd p sx d a sz off s
  | .st p d a sz off => Sys2Proof.Machine.execSt p d a sz off s
  | .ldQ p d a off => Sys2Proof.Machine.execLdQ p d a off s
  | .stQ p d a off => Sys2Proof.Machine.execStQ p d a off s
  | .atom p d a sz off => Sys2Proof.Machine.execAtom p d a sz off s
  | .atomCas p d a sz off => Sys2Proof.Machine.execAtomCas p d a sz off s
  | .red p d a sz off => Sys2Proof.Machine.execRed p d a sz off s
  | .pref p l2 a off => Sys2Proof.Machine.execPref p l2 a off s
  | .ldaSum p arg d a rg => Sys2Proof.Machine.execLdaSum p arg d a rg s
  | .ldaMax p arg d a rg => Sys2Proof.Machine.execLdaMax p arg d a rg s
  | .ldaMin p d a rg => Sys2Proof.Machine.execLdaMin p d a rg s
  | .ldaFind p arg d a rg => Sys2Proof.Machine.execLdaFind p arg d a rg s
  | .ldaPick p arg d a rg => Sys2Proof.Machine.execLdaPick p arg d a rg s
  | .cluNode p q d a rg => Sys2Proof.Machine.execCluNode p q d a rg s
  | .knop => Sys2Proof.Machine.execKnop s
  | .kadd d a b => Sys2Proof.Machine.execKadd d a b s
  | .ksub d a b => Sys2Proof.Machine.execKsub d a b s
  | .kmul d a b => Sys2Proof.Machine.execKmul d a b s
  | .kmulh d a b => Sys2Proof.Machine.execKmulh d a b s
  | .kmad d a b => Sys2Proof.Machine.execKmad d a b s
  | .kmin d a b => Sys2Proof.Machine.execKmin d a b s
  | .kmax d a b => Sys2Proof.Machine.execKmax d a b s
  | .kand d a b => Sys2Proof.Machine.execKand d a b s
  | .kor d a b => Sys2Proof.Machine.execKor d a b s
  | .kxor d a b => Sys2Proof.Machine.execKxor d a b s
  | .kshl d a b => Sys2Proof.Machine.execKshl d a b s
  | .kshr d a b => Sys2Proof.Machine.execKshr d a b s
  | .ksar d a b => Sys2Proof.Machine.execKsar d a b s
  | .kbfe d a b => Sys2Proof.Machine.execKbfe d a b s
  | .kpopc d a => Sys2Proof.Machine.execKpopc d a s
  | .kclz d a => Sys2Proof.Machine.execKclz d a s
  | .kcmp d a b => Sys2Proof.Machine.execKcmp d a b s
  | .ksel d a b => Sys2Proof.Machine.execKsel d a b s
  | .kmov d a => Sys2Proof.Machine.execKmov d a s
  | .kmovi d imm => Sys2Proof.Machine.execKmovi d imm s
  | .klit d word => Sys2Proof.Machine.execKlit d word s
  | .khiRd d q => Sys2Proof.Machine.execKhiRd d q s
  | .khiWr src q => Sys2Proof.Machine.execKhiWr src q s
  | .kaddi d imm => Sys2Proof.Machine.execKaddi d imm s
  | .vtok d r first l => Sys2Proof.Machine.execVtok d r first l s
  | .mtok d m => Sys2Proof.Machine.execMtok d m s
  | .ktom m a => Sys2Proof.Machine.execKtom m a s
  | .mlog f md ma mb => Sys2Proof.Machine.execMlog f md ma mb s
  | .kld d a b => Sys2Proof.Machine.execKld d a b s
  | .kbra cc a off => Sys2Proof.Machine.execKbra cc a off s
  | .barArr bar b => Sys2Proof.Machine.execBarArr bar b s
  | .barWait bar => Sys2Proof.Machine.execBarWait bar s
  | .barSync bar b => Sys2Proof.Machine.execBarSync bar b s
  | .yieldRun => Sys2Proof.Machine.execYieldRun s
  | .rgxSet a => Sys2Proof.Machine.execRgxSet a s
  | .ksreg d n => Sys2Proof.Machine.execKsreg d n s
  | .sleep imm => Sys2Proof.Machine.execSleep imm s
  | .plateMap d pl b => Sys2Proof.Machine.execPlateMap d pl b s
  | .plateUnmap pl => Sys2Proof.Machine.execPlateUnmap pl s
  | .plateInfo d pl => Sys2Proof.Machine.execPlateInfo d pl s
  | .plateLoad t q => Sys2Proof.Machine.execPlateLoad t q s
  | .mxr t q z ma pl => Sys2Proof.Machine.execMxr t q z ma pl s
  | .mxg t q z ma pl => Sys2Proof.Machine.execMxg t q z ma pl s
  | .mxfence a on bar => Sys2Proof.Machine.execMxfence a on bar s
  | .accWin d a b => Sys2Proof.Machine.execAccWin d a b s
  | .accClr a b => Sys2Proof.Machine.execAccClr a b s
  | .accSt t q clr => Sys2Proof.Machine.execAccSt t q clr s
  | .fence scope remote order => Sys2Proof.Machine.execFence scope remote order s
  | .cwb a b => Sys2Proof.Machine.execCwb a b s
  | .cinv a b => Sys2Proof.Machine.execCinv a b s
  | .aggOpen t q pin => Sys2Proof.Machine.execAggOpen t q pin s
  | .aggClose rg => Sys2Proof.Machine.execAggClose rg s
  | .aggInfo d rg pick => Sys2Proof.Machine.execAggInfo d rg pick s
  | .aggRefresh rg => Sys2Proof.Machine.execAggRefresh rg s
  | .aggFence rg all => Sys2Proof.Machine.execAggFence rg all s
  | .cluOpen t q pin => Sys2Proof.Machine.execCluOpen t q pin s
  | .cluClose rg => Sys2Proof.Machine.execCluClose rg s
  | .cluGrow d rg b => Sys2Proof.Machine.execCluGrow d rg b s
  | .walkSet t q => Sys2Proof.Machine.execWalkSet t q s
  | .walk t q => Sys2Proof.Machine.execWalk t q s
  | .cluFence rg all => Sys2Proof.Machine.execCluFence rg all s
  | .copy t q dep chain => Sys2Proof.Machine.execCopy t q dep chain s
  | .copyG t q dep chain => Sys2Proof.Machine.execCopyG t q dep chain s
  | .copyS t q dep chain => Sys2Proof.Machine.execCopyS t q dep chain s
  | .copyFill t q dep chain => Sys2Proof.Machine.execCopyFill t q dep chain s
  | .ringInit r a b => Sys2Proof.Machine.execRingInit r a b s
  | .ringAcq d r => Sys2Proof.Machine.execRingAcq d r s
  | .ringCommit r b => Sys2Proof.Machine.execRingCommit r b s
  | .ringWait d r b => Sys2Proof.Machine.execRingWait d r b s
  | .ringRel r b => Sys2Proof.Machine.execRingRel r b s
  | .twait a b => Sys2Proof.Machine.execTwait a b s
  | .toktest d a => Sys2Proof.Machine.execToktest d a s
  | .launch t q => Sys2Proof.Machine.execLaunch t q s
  | .depset sys => Sys2Proof.Machine.execDepset sys s
  | .expoRd d act pick => Sys2Proof.Machine.execExpoRd d act pick s
  | .trap imm => Sys2Proof.Machine.execTrap imm s
  | .eret => Sys2Proof.Machine.execEret s
  | .csrr d n => Sys2Proof.Machine.execCsrr d n s
  | .csrw src n => Sys2Proof.Machine.execCsrw src n s
  | .parkPc abs a b => Sys2Proof.Machine.execParkPc abs a b s
  | .parkMask a => Sys2Proof.Machine.execParkMask a s
  | .bkpt imm => Sys2Proof.Machine.execBkpt imm s
  | .halt => Sys2Proof.Machine.execHalt s
  | .brkt d a => Sys2Proof.Machine.execBrkt d a s
  | .tblLoad t q => Sys2Proof.Machine.execTblLoad t q s
  | .time d => Sys2Proof.Machine.execTime d s
  | .fpflagsWrite src => Sys2Proof.Machine.execFpflagsWrite src s
  | .fpflagsRead d => Sys2Proof.Machine.execFpflagsRead d s
  | .xinvPage => Sys2Proof.Machine.execXinvPage s
  | .xinvAll => Sys2Proof.Machine.execXinvAll s
  | .tbldataRead d => Sys2Proof.Machine.execTbldataRead d s
  | .tbldataWrite src => Sys2Proof.Machine.execTbldataWrite src s
  | .saveAreaWrite n src => Sys2Proof.Machine.execSaveAreaWrite n src s
  | .csRecord => Sys2Proof.Machine.execCsRecord s
  | .csReplay => Sys2Proof.Machine.execCsReplay s
  | .contextCreate privileged ptRoot => Sys2Proof.Machine.execContextCreate privileged ptRoot s
  | .contextSwitchOut => Sys2Proof.Machine.execContextSwitchOut s
  | .contextSwitchIn which => Sys2Proof.Machine.execContextSwitchIn which s
  | .doorbellTailWrite value => Sys2Proof.Machine.execDoorbellTailWrite value s
  | .doorbellSlotTake => Sys2Proof.Machine.execDoorbellSlotTake s
  | .launchRecordAccept die => Sys2Proof.Machine.execLaunchRecordAccept die s
  | .teamDispatch die => Sys2Proof.Machine.execTeamDispatch die s
  | .teamPreempt team => Sys2Proof.Machine.execTeamPreempt team s
  | .teamRestore team => Sys2Proof.Machine.execTeamRestore team s
  | .crewRetire team crew => Sys2Proof.Machine.execCrewRetire team crew s
  | .crewForcedSwap team crew => Sys2Proof.Machine.execCrewForcedSwap team crew s
  | .sleepExpire team crew => Sys2Proof.Machine.execSleepExpire team crew s
  | .shutterBoundary => Sys2Proof.Machine.execShutterBoundary s
  | .handlerEpisodeOpen team crew => Sys2Proof.Machine.execHandlerEpisodeOpen team crew s
  | .xlateService page entry => Sys2Proof.Machine.execXlateService page entry s
  | .pageWalk va => Sys2Proof.Machine.execPageWalk va s
  | .loadDataReturn req => Sys2Proof.Machine.execLoadDataReturn req s
  | .requestPerformed req => Sys2Proof.Machine.execRequestPerformed req s
  | .sLineWriteback core line => Sys2Proof.Machine.execSLineWriteback core line s
  | .hostMemAccess pa store => Sys2Proof.Machine.execHostMemAccess pa store s
  | .leafUpdate req => Sys2Proof.Machine.execLeafUpdate req s
  | .rangeLoadPerform req => Sys2Proof.Machine.execRangeLoadPerform req s
  | .rowUpdate req => Sys2Proof.Machine.execRowUpdate req s
  | .aggOpenComplete cmd => Sys2Proof.Machine.execAggOpenComplete cmd s
  | .cluOpenComplete cmd => Sys2Proof.Machine.execCluOpenComplete cmd s
  | .mxStart cmd => Sys2Proof.Machine.execMxStart cmd s
  | .mxDone cmd => Sys2Proof.Machine.execMxDone cmd s
  | .streamCommandStart cmd => Sys2Proof.Machine.execStreamCommandStart cmd s
  | .streamCommandDone cmd => Sys2Proof.Machine.execStreamCommandDone cmd s
  | .plateLoadDone cmd => Sys2Proof.Machine.execPlateLoadDone cmd s
  | .tblLoadDone cmd => Sys2Proof.Machine.execTblLoadDone cmd s
  | .accStDone cmd => Sys2Proof.Machine.execAccStDone cmd s
  | .ringCommitEffect team ring => Sys2Proof.Machine.execRingCommitEffect team ring s
  | .walkerNodeTest cmd => Sys2Proof.Machine.execWalkerNodeTest cmd s
  | .walkerStageAcquire cmd => Sys2Proof.Machine.execWalkerStageAcquire cmd s
  | .flitReceive port flit => Sys2Proof.Machine.execFlitReceive port flit s
  | .remoteCommand source number op => Sys2Proof.Machine.execRemoteCommand source number op s
  | .portDown port => Sys2Proof.Machine.execPortDown port s
  | .dieLinkFailure link critical => Sys2Proof.Machine.execDieLinkFailure link critical s
  | .correctedSoftError cls index => Sys2Proof.Machine.execCorrectedSoftError cls index s
  | .uncorrectableError cls index line => Sys2Proof.Machine.execUncorrectableError cls index line s
  | .powerThrottle => Sys2Proof.Machine.execPowerThrottle s
  | .thermalStop => Sys2Proof.Machine.execThermalStop s
  | .deviceReset => Sys2Proof.Machine.execDeviceReset s
  | .recoveryDoorbell => Sys2Proof.Machine.execRecoveryDoorbell s
  | .attestReport => Sys2Proof.Machine.execAttestReport s
  | .attestCertificate => Sys2Proof.Machine.execAttestCertificate s
  | .mailboxComplete ok => Sys2Proof.Machine.execMailboxComplete ok s
  | .regionControlPerform req => Sys2Proof.Machine.execRegionControlPerform req s
  | .launchEndedBySystem which => Sys2Proof.Machine.execLaunchEndedBySystem which s
  | .powerThrottleEnd => Sys2Proof.Machine.execPowerThrottleEnd s
  | .errcntClear value => Sys2Proof.Machine.execErrcntClear value s
  | .imageFlashWrite => Sys2Proof.Machine.execImageFlashWrite s

end Sys2Proof.Machine
end

