-- ==== Sys2Proof/Machine/Schedule.lean ====
section
/-!
DEFINITION. What may move next (log 1): the events that are due or enabled, the crews that may issue (R115 to R118, R126), and,
when neither is there, the time that passes. The manual leaves the interleaving open but for the orders these tests
state; State.choices picks.
-/

namespace Sys2Proof.Machine

/-- A move: an event row; a page walk of the device's own (R240); a crew's unit; and, inside a split region, a unit for
some slices, or a unit of the next run (R126); a crew's first sight of a change of a plate or its window (R205, R215); one
access of an engine's command ahead of its end (R274, R335); a flit that a port sends (R401); another context of the device, whose steps come next (R386); and a change of the values that are unspecified (R8). -/
inductive Move where
  | event (i : Instr)
  | walk
  | issue (team crew : Nat)
  | slices (team crew : Nat)
  | nextRun (team crew : Nat)
  | see (team crew : Nat)
  | part (cmd : Nat)
  | send (port : Nat)
  | turn (context : Nat)
  | stir
deriving DecidableEq, Repr

/-! ## Events of requests and commands -/

/-- The event that performs a request (R249, R264, R276). -/
def State.reqEvent (s : State) (r : Req) : Instr :=
  match r.kind with
  | .load _ => .loadDataReturn r.id
  | .spadLoad _ => .loadDataReturn r.id
  | .accRd _ => .loadDataReturn r.id
  | .range .. => .rangeLoadPerform r.id
  | .node .. => .regionControlPerform r.id
  | .aggInfo _ => .regionControlPerform r.id
  | .aggRefresh => .regionControlPerform r.id
  | .aggClose => .regionControlPerform r.id
  | .cluGrow _ => .regionControlPerform r.id
  | .cluClose => .regionControlPerform r.id
  | .bitmapOr => .requestPerformed r.id
  | k =>
    if k.near then .requestPerformed r.id else match s.leafRegion r.pa with
    | some g => match g.kind with | .agg .. => .leafUpdate r.id | .clu .. => .rowUpdate r.id
    | none => .requestPerformed r.id

/-- A command's count is spent, so that it pauses until the next period (R363). -/
def State.paused (s : State) (x : Cmd) (act : Nat) : Bool :=
  let t := s.cmdTeam x
  !t.replay && s.expoSpent x.core t.cls act

/-- A count that has stopped a request of the command is still spent (R362). -/
def State.halted (s : State) (x : Cmd) : Bool :=
  match x.waits with
  | some a => s.expoSpent x.core (s.cmdTeam x).cls a
  | none => false

/-- The event of a command that may move now, if there is one. -/
def State.cmdEvent (s : State) (x : Cmd) : Option Instr :=
  if s.halted x then none else
  match x.kind with
  | .copy | .copyG | .copyS | .fill =>
    if !x.started then (if s.depsSettled x && s.cmdAfter x then some (.streamCommandStart x.id) else none)
    else if x.stuck.isNone && !(s.paused x 0) then some (.streamCommandDone x.id) else none
  | .plateLoad =>
    if !x.started then (if s.depsSettled x && s.cmdAfter x then some (.streamCommandStart x.id) else none)
    else if x.stuck.isNone && !(s.paused x 0) then some (.plateLoadDone x.id) else none
  | .mxr | .mxg =>
    if x.started then some (.mxDone x.id) else if s.mxReady x then some (.mxStart x.id) else none
  | .accSt => if s.cmdAfter x && x.stuck.isNone then some (.accStDone x.id) else none
  | .tblLoad =>
    if s.tblTurn x then some (.tblLoadDone x.id) else none
  | .aggOpen => if s.openAfter x && x.stuck.isNone then some (.aggOpenComplete x.id) else none
  | .cluOpen => if s.openAfter x && x.stuck.isNone then some (.cluOpenComplete x.id) else none
  | .walk =>
    if !(s.walkTurn x) then none
    else if x.walk.out ≠ [] then (if s.walkSuspended x then none else some (.walkerStageAcquire x.id))
    else if x.walk.ended.isNone && !(s.paused x 1) then some (.walkerNodeTest x.id) else none
  | .launch => none

/-! ## Events of crews and teams -/

/-- Events of a crew that are enabled. -/
def State.crewEvents (s : State) (t : Team) (c : Crew) : List Move :=
  (if s.mayRetire t c then [.event (.crewRetire t.id c.idx)] else []) ++
  (if s.swapDue t c then [.event (.crewForcedSwap t.id c.idx)] else []) ++
  if !c.queue.isEmpty && c.episode.isNone && t.issues then [.event (.handlerEpisodeOpen t.id c.idx)] else []

/-- A stopping team that is drained is saved, unless a page of its record waits for Maelner, and so is a blocked one that has room:
its save has met such a page (R382, R383, R388). -/
def State.saveDue (s : State) (t : Team) : Bool :=
  match t.phase with
  | .stopping _ => s.drained t && !(s.ctx.reported.any fun p => s.recordPage t p)
  | .blocked => (s.saveRoom t).isSome && !(s.ctx.reported.any fun p => s.recordPage t p)
  | _ => false

/-- Events of a team that are enabled. -/
def State.teamEvents (s : State) (t : Team) : List Move :=
  (t.crews.flatMap fun c => s.crewEvents t c) ++
  (mapFrom (fun r (g : Ring) => if s.commitReady g then [Move.event (.ringCommitEffect t.id r)] else []) 0 t.rings).flatten ++
  if s.saveDue t || (t.issues && s.isVictim t.id) then [.event (.teamPreempt t.id)] else []

/-- Events of the launch engines that are enabled. -/
def State.engineEvents (s : State) : List Move :=
  ((s.ctx.incoming.filter s.incomingReady).map fun i => .event (.launchRecordAccept i.die)) ++
  ((List.range (dieCount s.part)).filter fun d => (s.serve d).isSome).map fun d => .event (.teamDispatch d)

/-- Every event inside the device that is enabled. -/
def State.enabled (s : State) : List Move :=
  (if s.ctx.live && !s.ctx.ended then s.engineEvents else []) ++
  (if s.slotReady then [.event .doorbellSlotTake] else []) ++
  ((s.ctx.reqs.filter s.reqReady).map fun r => .event (s.reqEvent r)) ++
  ((s.ctx.cmds.filterMap s.cmdEvent).map .event) ++
  (s.ctx.teams.flatMap s.teamEvents) ++
  ((s.ctx.saved.filter fun x => !x.bySystem && s.mayRestore x && s.recordThere x).map fun x => .event (.teamRestore x.team.id)) ++
  (if !s.xinvReady then [] else if s.ctx.xinvCmd = 1 then [.event .xinvPage]
    else if s.ctx.xinvCmd = 2 then [.event .xinvAll] else []) ++
  if s.dev.mbStatus = 1#32 then [.event (.mailboxComplete true), .event (.mailboxComplete false)] else []

/-! ## Issue -/

/-- A crew may issue its chosen run's unit, as far as it is known: the unit that it tried last does not stall. -/
def State.mayIssue (s : State) (t : Team) (c : Crew) : Bool :=
  t.issues && c.active && !c.retired && (c.lanes.any fun x => x.st = .runnable) && !(s.stalled t c)

/-- A crew is stalled on a load, and every lane of its chosen run is inside a split region (R126). -/
def State.maySplit (s : State) (t : Team) (c : Crew) : Bool :=
  t.issues && c.active && !c.retired && s.stalledLoad t.id c &&
    match c.choose with
    | some x => (lanesOf (c.runAt x.pc)).all fun l => (c.lane l).split
    | none => false

/-- A list taken from a place on, and round to that place again. -/
def rotate {α : Type} (n : Nat) (xs : List α) : List α := xs.drop (n % xs.length) ++ xs.take (n % xs.length)

/-- The units that may issue; which crew's comes first goes round with the clock. -/
def State.issues (s : State) : List Move :=
  rotate s.ctx.clock ((s.allCrews.filter fun e => s.mayIssue e.1 e.2).map fun e => .issue e.1.id e.2.idx) ++
  (s.allCrews.filter fun e => s.maySplit e.1 e.2).flatMap fun e =>
    [.slices e.1.id e.2.idx, .nextRun e.1.id e.2.idx]

/-! ## Time, and the device's own moves -/

/-- The crew whose SLEEP ends first among the teams that issue, with its clock. -/
def State.firstWake (s : State) : Option (Nat × Nat × Nat) :=
  (s.allCrews.filter fun e => e.1.issues).foldl (fun acc e =>
    match e.2.nextWake, acc with
    | some n, some b => if n < b.1 then some (n, e.1.id, e.2.idx) else some b
    | some n, none => some (n, e.1.id, e.2.idx)
    | none, acc => acc) none

/-- With nothing else to do, time goes on to the end of a SLEEP or to the shutter boundary. -/
def State.later (s : State) : List Move :=
  if !s.ctx.live then []
  else
    match s.firstWake with
    | some (n, t, c) =>
      if n < s.ctx.boundary then [.event (.sleepExpire t c)] else [.event .shutterBoundary]
    | none => [.event .shutterBoundary]

/-- Crews with a change of a plate or their window that they may come to see (R205, R215). -/
def State.sights (s : State) : List Move :=
  (s.allCrews.filter fun e => e.2.unseen != []).map fun e => .see e.1.id e.2.idx

/-- Some value is unspecified now (R8). -/
def Team.anyOpen (t : Team) : Bool := t.openSpad != [] || t.openSide != [] || t.openAcc0 != [] || t.openAcc1 != []
def State.anyOpen (s : State) : Bool := s.openMem != [] || s.ctx.openL2 != [] || s.ctx.teams.any Team.anyOpen

/-- The unspecified values of a table, all new: key number i takes free value `n + i`. -/
def fillOpen {w : Nat} (free : Nat → BitVec w) (m : Sparse w) (n : Nat) (ks : List Nat) : Sparse w :=
  (mapFrom (fun i k => (k, i)) n ks).foldl (fun m e => writeKey m e.1 (free e.2)) m

/-- A team with its unspecified values new, and how many it has. -/
def Team.stir (t : Team) (n : Nat) : Team × Nat :=
  let a := n + t.openSpad.length
  let b := a + t.openSide.length
  let c := b + t.openAcc0.length
  ({ t with spad := fillOpen Config.freeByte t.spad n t.openSpad
            side := fillOpen Config.freeByte t.side a t.openSide
            acc0 := fillOpen Config.freeWord t.acc0 b t.openAcc0
            acc1 := fillOpen Config.freeWord t.acc1 c t.openAcc1 }, c + t.openAcc1.length - n)

/-- The bytes of a cached line that a mask holds and that are unspecified take new values, from free value n on. -/
def Line.stir (x : Line) (m : BitVec 64) (unspecified : List Nat) (n : Nat) : Line :=
  { x with data := mapFrom (fun i y => if m.getLsbD i && unspecified.contains (64 * x.line + i) then Config.freeByte (n + i) else y) 0 x.data }

/-- The unspecified bytes of host lines at the home slices, and of clean copies in L1, take new values. -/
def Context.stir (c : Context) (openMem : List Nat) (n : Nat) : Context :=
  let k := n + 64 * c.l2host.length
  { c with l2host := mapFrom (fun i (x : Line) => x.stir x.valid c.openL2 (n + 64 * i)) 0 c.l2host
           coreSts := mapFrom (fun j (y : CoreSt) =>
             { y with l1 := mapFrom (fun i (x : Line) =>
                 x.stir (x.valid &&& ~~~x.dirty) (c.openL2 ++ openMem) (k + 64 * (2 ^ 20 * j + i))) 0 y.l1 }) 0 c.coreSts }

/-- An unspecified value need not be the same on two reads: it may change at any time (R8). -/
def State.stir (s : State) : State :=
  let s := s.ctx.teams.foldl (fun s t => (s.updTeamId t.id fun t => (t.stir s.fresh).1).bump (t.stir s.fresh).2) s
  let s := { s.bump s.openMem.length with mem := fillOpen Config.freeByte s.mem s.fresh s.openMem }
  { s.bump (64 * (s.ctx.l2host.length + 2 ^ 20 * s.ctx.coreSts.length)) with ctx := s.ctx.stir s.openMem s.fresh }

/-- Commands with an access to perform ahead of their end (R274, R335). -/
def State.parts (s : State) : List Move := (s.ctx.cmds.filter s.partly).map fun x => .part x.id

/-- What the device may do at any time: perform an access of a running command, write a line back, walk a page, end a throttle (R240, R265, R408), show a crew a
change (R205, R215), change an unspecified value (R8). -/
def State.spontaneous (s : State) : List Move :=
  (s.ctx.coreSts.flatMap fun c => c.l1.map fun x => .event (.sLineWriteback c.core x.line)) ++
  (if s.ctx.live then [.walk] else []) ++ s.sights ++ s.parts ++
  ((s.dev.ports.filter Port.up).map fun p => .send p.index) ++
  (((List.range s.swapped.length).filter fun i => match s.swapped[i]? with | some c => c.resident | none => false).map .turn) ++ (if s.anyOpen then [.stir] else []) ++
  if s.dev.throttling then [.event .powerThrottleEnd] else []

/-- The next event from outside, which the boot ROM does not take. -/
def State.outside (s : State) : List Move :=
  match s.inputs with
  | i :: _ => [.event i]
  | [] => []

/-- Everything that may move now: the ROM's check of the image comes first (R404), and then a due shutter boundary. -/
def State.moves (s : State) : List Move :=
  if s.dev.boot = .rom then [.event .deviceReset]
  else if s.ctx.live && decide (s.ctx.boundary ≤ s.ctx.clock) then [.event .shutterBoundary]
  else
    match s.outside ++ s.enabled ++ s.issues with
    | m :: ms => (m :: ms) ++ s.spontaneous
    | [] => s.later ++ s.spontaneous

/-! ## The active set -/

/-- A crew's chosen run could issue at once (R121): its unit, tried on the state as it is, counts as issued. -/
def State.couldIssue (s : State) (t : Team) (c : Crew) : Bool :=
  let issued (x : State) : Bool := match x.team? t.id with
    | some y => decide (c.units < (y.crews.getD c.idx Crew.missing).units)
    | none => true
  t.issues && !c.retired &&
    match s.issueCrew t.id c.idx with
    | .over x => issued x
    | .run i x => match exec i x with | .next x => issued x | _ => false

/-- A pending crew's readiness clock, and an active crew that has none (R121). -/
def Crew.noteReady (c : Crew) (clock : Nat) (ready : Bool) : Crew :=
  if ready then { c with readySince := some (c.readySince.getD clock) } else { c with readySince := none }

/-- Slots of a partition of a core that crews hold; a bracketed pair's crews hold them on both cores (R111, R390). -/
def State.slotsHeld (s : State) (core partn : Nat) : List Nat :=
  (s.allCrews.filter fun e => !e.2.retired && e.2.partn == partn &&
    (e.2.core == core || (e.1.bracket && e.1.follower == some core))).map fun e => e.2.slot

/-- A slot of the active set that no crew holds, for a pending crew (R121). -/
def State.vacancy (s : State) (t : Team) (c : Crew) : Option Nat :=
  (List.range 8).find? fun i =>
    (c.core :: (if t.bracket then t.follower.toList else [])).all fun k => !((s.slotsHeld k c.partn).contains i)

/-- The pending crew that fills a vacant slot of the active set: the one ready longest, or else the one that has been pending
longest (R121, log 85). -/
def State.filler (s : State) : Option (Team × Crew × Nat) :=
  let free := s.allCrews.filterMap fun e =>
    if e.2.active || e.2.retired || !e.1.issues then none else (s.vacancy e.1 e.2).map fun i => (e.1, e.2, i)
  let before (a b : Team × Crew × Nat) : Bool :=
    match a.2.1.readySince, b.2.1.readySince with
    | some x, some y => decide (x < y ∨ (x = y ∧ a.2.1.slot < b.2.1.slot))
    | some _, none => true
    | none, some _ => false
    | none, none => decide (a.2.1.activeSince < b.2.1.activeSince)
  free.foldl (fun acc e => match acc with | none => some e | some b => if before e b then some e else some b) none

/-- The vacant slots of the active set are filled: after a crew has retired, or a team has left its core (R121). -/
def State.fillSlots (s : State) : Nat → State
  | 0 => s
  | fuel + 1 =>
    match s.filler with
    | none => s
    | some (t, c, i) =>
      (s.updCrewOf t.id c.idx fun x =>
        { x with active := true, slot := i, activeSince := s.ctx.clock, readySince := none }).fillSlots fuel

/-- What the last step has left to note is noted (R297, R397), units with failed requests park their lanes, the waits that are
over end, in the teams that issue, the readiness of every pending crew is noted, and vacant active slots are filled. -/
def State.wakeAll (s : State) : State :=
  let s := s.chargeBacks.noteSent
  let s := s.parkFailed s.ctx.reqs.length
  let s := (s.ctx.teams.filter Team.issues).foldl (fun s t =>
    t.crews.foldl (fun s c => (s.wakeConv t.id c.idx).wakeCrew t.id c.idx 33) s) s
  (s.withTeams (s.ctx.teams.map fun t =>
    { t with crews := t.crews.map fun c => c.noteReady s.ctx.clock (!c.active && s.couldIssue t c) })).fillSlots s.allCrews.length

/-! ## The choice -/

/-- A core clock count goes by, not past the shutter boundary. -/
def State.tick (s : State) (n : Nat) : State :=
  s.pass (if s.ctx.live then min n (s.ctx.boundary - s.ctx.clock) else n)

/-- The clocks of a step go by, and its choice is used. -/
def State.ticked (s : State) : State :=
  match s.choices with
  | [] => s.tick 1
  | (_, n) :: rest => { s with choices := rest }.tick n

/-- The move that comes next: the first, or the one State.choices names, with the clocks it names. -/
def State.pick (s : State) : Option Move × State :=
  let s' := s.ticked.wakeAll
  match s.choices with
  | [] => (s'.moves.head?, s')
  | (p, _) :: _ => (s'.moves[p % s'.moves.length]?, s')

/-- An event leaves the queue of outside events when it is its turn. -/
def State.take (s : State) (i : Instr) : State :=
  match s.inputs with
  | j :: rest => if i = j then { s with inputs := rest } else s
  | [] => s

/-! ## Issue inside a split region -/

/-- The lanes of some slices of four lanes (R126): slice i is bit i. -/
def sliceLanes (x : Nat) : W32 := maskOf fun l => x.testBit (l / 4)

/-- The slices of a stalled run whose registers have all been written (R118, R126). -/
def State.slicesReady (s : State) (team : Nat) (c : Crew) (run : W32) : W32 :=
  match c.stall with
  | some y => maskOf fun l => run.getLsbD l && !(s.pendsV team c.idx y.v (y.lanes &&& run &&& sliceLanes (2 ^ (l / 4))))
  | none => 0#32

/-- No lane outside a run has been passed over so long that it must issue (R117). -/
def Crew.mayPass (c : Crew) (run : W32) : Bool :=
  (List.range 32).all fun l => run.getLsbD l || !(overdue (c.lane l))

/-- The chosen run's unit for slices whose data has arrived (R126); which of them issue now is free. -/
def State.chooseSlices (s : State) (id i : Nat) : Option State :=
  match s.team? id with
  | none => none
  | some t =>
    let c := t.crews.getD i Crew.missing
    if !(s.maySplit t c) then none
    else
      (s.chooseRun id i).bind fun s' =>
        let m := s.slicesReady id c s'.cur.run &&& sliceLanes (Config.freeWord s.fresh).toNat
        if m = 0#32 ∨ !(c.mayPass m) then none else some { s'.bump 1 with cur := { s'.cur with run := m } }

/-- The next run in PC order whose lanes are all inside a split region, ahead of the stalled one (R126); no run is passed
over past its bound (R117). -/
def State.chooseNext (s : State) (id i : Nat) : Option State :=
  match s.team? id with
  | none => none
  | some t =>
    let c := t.crews.getD i Crew.missing
    if !(s.maySplit t c) then none
    else
      match c.choose with
      | none => none
      | some x =>
        let later := c.runPcs.filter fun a => decide (x.pc < a) && (lanesOf (c.runAt a)).all fun l => (c.lane l).split
        match lowestPc later with
        | some a =>
          if c.mayPass (c.runAt a) then
            some { s with cur := { team := id, crew := i, run := c.runAt a, pc := a, words := 1, rot := x.rot, streak := x.streak,
                                   ahead := some (c.runAt x.pc, x.pc) } }
          else none
        | none => none

/-- The run that a move issues from. -/
def State.runOf (s : State) : Move → Option State
  | .issue t c => s.chooseRun t c
  | .slices t c => s.chooseSlices t c
  | .nextRun t c => s.chooseNext t c
  | _ => none

/-- What a move does short of an instruction's own meaning: the instruction it runs and the state it runs it in, or the
state after it. -/
def State.begin (s : State) : Move → Issued
  | .event i => .run i (s.take i)
  | .walk => .run (.pageWalk (Config.freeWord s.fresh ++ Config.freeWord (s.fresh + 1))) (s.bump 2)
  | .see t c => .over ((s.bump 1).updCrewOf t c fun x => x.seeOne (Config.freeWord s.fresh).toNat)
  | .part id => .over (s.partMove id)
  | .send p => .over (s.portSend p)
  | .turn i => .over (s.turnTo i)
  | .stir => .over s.stir
  | m =>
    match s.runOf m with
    | some s => s.decodeAt
    | none => .over s

/-- A stopped part takes a device reset and nothing else (R395, R408). -/
def State.stopped (s : State) : Issued :=
  match s.inputs with
  | i :: rest =>
    if i = .deviceReset then .run i { s with inputs := rest } else .over { s with inputs := rest }
  | [] => .over s

/-- The instruction or event of a step, with the state it acts on; or the state after a step that has none. -/
def State.turn (s : State) : Issued :=
  if s.dev.boot = .stopped then s.stopped
  else
    match s.pick with
    | (some m, s) => s.begin m
    | (none, s) => .over s

/-! ## The placing of one instruction -/

/-- The page table, code address and one team of a context that runs one instruction: the table maps the first GiB of
device memory onto itself with every right and treatment U. -/
def probeMem (bytes : List Byte) : Sparse 8 :=
  writeBytes (writeBytes (writeBytes [] 0x10000 (w64Bytes 0x20001#64)) 0x20000 (w64Bytes 0x3E9#64)) 0x30000 bytes

def probeLaunch : Launch :=
  { id := 1, record := 0#64, die := 0, entry := 0x30000#52, arg := 0#64, place := [], dep := none, bitmap := 0#64,
    done := 0#64, teams := 1, threads := 32, vBudget := 128, kBudget := 512, spadBytes := 65536, accRows := 64,
    producer := none, twin := false, replay := false, bracket := false, prio := 0, cls := 0, levels := [(0, .crew)],
    next := 1 }

def probeTeam : Team :=
  { id := 2, launch := 1, idx := 0, core := 0, follower := none, bracket := false, ncrews := 1, vBudget := 128,
    kBudget := 512, spadBytes := 65536, accRows := 64, producer := none, entry := 0x30000#52, cls := 0, prio := 0,
    replay := false, levels := [(0, .crew)], plates := List.replicate 8 0#32, rings := List.replicate 16 {},
    bars := List.replicate 16 {}, crews := [startCrew probeLaunch 0 0 0 0 0], grants := [(0, 0, 16)] }

def probeContext : Context :=
  { live := true, id := 3, privileged := true, ptRoot := 0x10000, cores := [0, 1], twins := 1, slices := [0],
    periodNo := 1, teams := [probeTeam], launches := [probeLaunch] }

/-- The state with one instruction's bytes at the program counter of one running crew of a fresh context. -/
def State.probe (s : State) (bytes : List Byte) : State :=
  { s with dev := { s.dev with boot := .running }, mem := probeMem bytes, ctx := probeContext, inputs := [], choices := [],
           cur := {}, nextId := 4 }

end Sys2Proof.Machine
end

