-- ==== Sys2Proof/Machine/Lockstep.lean ====
section
/-!
DEFINITION. The follower's copy of a bracketed team (R390 to R393): while the two cores of a pair differ, the move of a step is
run from the follower's side too, what would leave the two cores is compared, and a difference ends the launch.
-/

namespace Sys2Proof.Machine

/-! ## The two sides of a pair -/

/-- An access of a team to its own scratchpad or accumulators. -/
def Req.nearOf (r : Req) (team : Nat) : Bool := r.team == team && r.kind.near

/-- What a team's leader holds of its own. -/
def State.copyOf (s : State) (t : Team) : Copy :=
  { crews := t.crews, spad := t.spad, side := t.side, acc := t.acc0, plates := t.plates, rings := t.rings, bars := t.bars,
    handler := t.handler, near := s.ctx.reqs.filter fun r => r.nearOf t.id, cmds := s.ctx.cmds.filter fun x => x.team == t.id }

/-- The elements of a list that are `mine` exchanged for others of the same keys, in their places. -/
def swapIn {α : Type} (key : α → Nat) (mine : α → Bool) (xs others : List α) : List α :=
  (xs.filterMap fun x => if mine x then others.find? fun y => key y == key x else some x) ++
    others.filter fun y => !(xs.any fun x => key x == key y)

/-- The state with a copy in the leader's place. -/
def State.withCopy (s : State) (id : Nat) (c : Copy) : State :=
  let s := s.updTeamId id fun t =>
    { t with crews := c.crews, spad := c.spad, side := c.side, acc0 := c.acc, plates := c.plates, rings := c.rings,
             bars := c.bars, handler := c.handler }
  { s with ctx := { s.ctx with reqs := swapIn Req.id (fun r => r.nearOf id) s.ctx.reqs c.near
                               cmds := swapIn Cmd.id (fun x => x.team == id) s.ctx.cmds c.cmds } }

/-- A bracketed team seen from the follower: its copy and its tables stand in the leader's place. -/
def State.mirror (s : State) (t : Team) : State :=
  let s' := match t.copy with | some c => s.withCopy t.id c | none => s
  match t.follower with
  | some f => s'.updCore t.core fun x => { x with tables := (s.coreSt f).tables }
  | none => s'

/-- The two cores of a bracketed team that runs differ (R186, R390). -/
def State.apart (s : State) (t : Team) : Bool :=
  t.bracket && match t.follower with
    | some f => t.copy.isSome || (s.coreSt f).tables != (s.coreSt t.core).tables
    | none => false

/-! ## What is compared -/

/-- The compared fields of a request: the kind, the address, the size, the data and the PREFIX fields (R391). -/
structure SentReq where
  crew : Nat
  lane : Nat
  kind : ReqKind
  va : W64
  region : Nat
  size : Nat
  data : List Byte
  compare : List Byte
  scope : Scope
  order : Bool × Bool × Bool
deriving DecidableEq, Repr

def Req.sent (r : Req) : SentReq :=
  { crew := r.crew, lane := r.lane, kind := r.kind, va := r.va, region := r.region, size := r.size, data := r.data,
    compare := r.compare, scope := r.scope, order := (r.acq, r.rel, r.remote) }

/-- What a step would send out of a core of a pair (R391, R393): new requests, new commands with their descriptor values, a
write to a CSR that is not crew-local, a BRKT's register; and the causes it raises there. -/
structure Sent where
  reqs : List SentReq
  cmds : List (Nat × CmdKind × BitVec 8 × List W32 × List W32)
  csr : Option (Nat × W32)
  brkt : Option W32
  causes : List (Nat × Nat × Cause)
deriving DecidableEq, Repr

/-- The parked lanes of a team: crew, lane and cause. -/
def Team.causes (t : Team) : List (Nat × Nat × Cause) :=
  t.crews.flatMap fun c => (lanesOf (c.lanesWhere fun x => x.st = .parked)).map fun l => (c.idx, l, (c.lane l).cause)

/-- The causes raised in a team: those of its parked lanes, and those that its failed accesses have found. -/
def State.causesOf (s : State) (team : Nat) : List (Nat × Nat × Cause) :=
  ((s.team? team).map Team.causes).getD [] ++
    (s.ctx.reqs.filter fun r => r.team == team).filterMap fun r => r.failed.map fun c => (r.crew, r.lane, c)

/-- The crew of the unit has issued it, between two states of the cursor's run. -/
def State.counted (s s' : State) : Bool := decide (s.crew.units < s'.crew.units)

/-- The number and the value of the CSR write that an instruction makes, if it is compared. -/
def State.csrSent (s : State) : Instr → Option (Nat × W32)
  | .csrw src n => if csrLocal n.toNat then none else some (n.toNat, s.crew.kreg src.toNat)
  | .tbldataWrite src => some (0x084, s.crew.kreg src.toNat)
  | .saveAreaWrite n src => some (0x030 + n.toNat, s.crew.kreg src.toNat)
  | _ => none

/-- The register that a BRKT compares. -/
def State.brktSent (s : State) : Instr → Option W32
  | .brkt _ a => some (s.crew.kreg a.toNat)
  | _ => none

/-- What a team's core sends in the step from `s`, before the ends of waits, to `s'`. -/
def State.sentBy (s : State) (team : Nat) (i : Issued) (s' : State) : Sent :=
  let unit {α : Type} (f : State → Instr → Option α) : Option α :=
    match i with
    | .run i s1 => if s1.cur.team = team ∧ s1.counted s' then f s1 i else none
    | .over _ => none
  { reqs := (s'.ctx.reqs.filter fun r => r.team == team && !r.kind.near && r.failed.isNone &&
      !(s.ctx.reqs.any fun q => q.id == r.id)).map Req.sent
    cmds := (s'.ctx.cmds.filter fun x => x.team == team && !(s.ctx.cmds.any fun y => y.id == x.id)).map fun x =>
      (x.crew, x.kind, x.imm, x.desc, x.regs)
    csr := unit State.csrSent
    brkt := unit State.brktSent
    causes := (s'.causesOf team).filter fun e => !((s.causesOf team).contains e) }

/-! ## The follower's step -/

/-- The state after the instruction of a move. -/
def Issued.result (run : Instr → State → Out) : Issued → Out
  | .over s => .next s
  | .run i s => run i s

/-- A crew of the follower keeps the leader's place in the active set: the copies issue in the same clock (R390). -/
def Crew.paced (c like : Crew) : Crew :=
  { c with slot := like.slot, active := like.active, readySince := like.readySince, activeSince := like.activeSince }

/-- Accesses to scratchpad and accumulators that the follower alone has made are performed. -/
def State.settleNear (s lead : State) (team : Nat) : State :=
  (s.ctx.reqs.filter fun r => r.nearOf team && !(lead.ctx.reqs.any fun q => q.id == r.id)).foldl State.performNear s

/-- A move issues a unit of a team. -/
def Move.issues (m : Move) (team : Nat) : Bool :=
  match m with
  | .issue t _ | .slices t _ | .nextRun t _ => t == team
  | _ => false

/-- The leader's next state keeps what the follower then holds, if the two differ. -/
def State.keepCopy (lead : State) (t : Team) (m : Move) (y : State) : State :=
  match lead.team? t.id with
  | none => lead
  | some a =>
    let y := y.settleNear lead t.id
    let b := (y.team? t.id).getD a
    let c := { y.copyOf b with crews := (b.crews.zip a.crews).map fun e => e.1.paced e.2 }
    let lead := lead.updTeamId t.id fun t => { t with copy := if c = lead.copyOf a then none else some c }
    let lead := match t.follower with
      | some f => if m.issues t.id then lead.updCore f fun x => { x with tables := (y.coreSt t.core).tables } else lead
      | none => lead
    { lead with nextId := max lead.nextId y.nextId, fresh := max lead.fresh y.fresh }

/-- One step of a bracketed team whose cores differ: the follower makes the leader's move on its own copy. On a mismatch the
unit is not performed, and every team of the launch ends with 0x05 and cause 13 (R392). -/
def State.follow (s : State) (run : Instr → State → Out) (lead : State) (t : Team) : State :=
  match s.pick with
  | (none, _) => lead
  | (some m, s0) =>
    let i := s0.begin m
    let f0 := (s.mirror t).pick.2
    let j := f0.begin m
    match i.result run, j.result run with
    | .next x, .next y =>
      if s.sentBy t.id i x = (s.mirror t).sentBy t.id j y then lead.keepCopy t m y
      else s.ticked.endAllTeams t.launch (trapWord .bracket t.idx)
    | _, _ => lead

/-- A step's next state, with the followers of the bracketed teams that differ from their leaders (R390, R391). In replay, what
would write back an update that is not next at its home does not happen yet (R397). -/
def State.lockstep (s : State) (run : Instr → State → Out) (lead : State) : State :=
  if lead.backsHeld then s.pick.2 else (s.ctx.teams.filter s.apart).foldl (s.follow run) lead

end Sys2Proof.Machine
end

