-- ==== Sys2Proof/Machine/Step.lean ====
section
/-!
DEFINITION. One step of the machine, and the placing of one instruction for a step to run.
-/

namespace Sys2Proof.Machine

/-- One step: an instruction of a crew, or one event (log 1), and the same on the other core of a bracketed pair that
differs (R390). -/
def step (s : State) : Host.Outcome State Fault Refusal :=
  match s.turn.result exec with
  | .next s' => .next (s.lockstep exec s')
  | .fault f => .fault f
  | .refused r => .refused r

/-- The state with an instruction's words at the program counter (log 32). -/
def State.withFetchWord (s : State) (nbits w : Nat) : State := s.probe (tableBytes nbits w)

end Sys2Proof.Machine
end

