-- ==== Sys2Proof/Safety.lean ====
section
/-!
DEFINITION. The terms that claims are stated in: a crew by its team and place, when a unit is ready to run, what a
completed unit leaves as it was (its frame), and where its lanes then stand.
-/

namespace Sys2Proof.Machine

/-! ## Crews and their views -/

/-- Crew `i` of a team. -/
def State.crewOf (s : State) (id i : Nat) : Crew := ((s.team? id).getD Team.missing).crews.getD i Crew.missing

/-- The team exists and has a crew `i`. -/
def State.hasCrew (s : State) (id i : Nat) : Prop := ∃ t, s.team? id = some t ∧ i < t.crews.length

/-- The team of a request. -/
def State.teamOf (s : State) (r : Req) : Team := (s.team? r.team).getD Team.missing

/-- A team without its crews. -/
def Team.bare (t : Team) : Team := { t with crews := [] }

/-- A crew but for its slot: what an exchange of crews in the active set keeps (R121). -/
def Crew.placeless (c : Crew) : Crew := { c with active := false, slot := 0, readySince := none, activeSince := 0 }

/-- A crew but for what the issue of any unit may change: its slot, its lanes' states, the choice of its run, its
holds, its parked runs and its count of units. What is left is every register of the crew (R135) and the rest. -/
def Crew.regs (c : Crew) : Crew :=
  { c with active := false, slot := 0, readySince := none, activeSince := 0, lanes := [], rot := false, streak := 0,
           pos := 0#52, last := 0#32, stall := none, holds := [], queue := [], atMaelner := [], parkNo := 0, units := 0 }

/-- A region but for the mark that a translation of its arrays has changed (R289). -/
def Region.settled (g : Region) : Region := { g with remapped := false }

/-! ## Readiness -/

/-- The cursor names a run of a crew: its lanes are runnable at the unit (R115). -/
structure State.AtUnit (s : State) : Prop where
  crew : s.hasCrew s.cur.team s.cur.crew
  some : s.cur.run ≠ 0#32
  lanes : ∀ l ∈ lanesOf s.cur.run, (s.crew.lane l).st = .runnable ∧ (s.crew.lane l).pc = s.cur.pc

/-- A lane-set unit has an active lane and nothing to wait for: its registers lie in the budgets (R33), no load will
still write one of them (R118), and no register among them is a busy token (R142). `zeroing` is its PREFIX bit. -/
structure State.LaneReady (s : State) (act : W32) (zeroing : Bool) (n : Names) : Prop where
  unit : s.AtUnit
  active : act ≠ 0#32
  budget : s.team.budgetOk n = true
  loads : s.pendingV n.v (if zeroing then s.cur.run else act) = false
  kloads : s.pendingK n.k = false
  tokens : s.busyAmong n.k = []

/-- A uniform-set unit has nothing to wait for (R33, R142, R256). -/
structure State.UniformReady (s : State) (n : Names) : Prop where
  unit : s.AtUnit
  budget : s.team.budgetOk n = true
  tokens : s.busyAmong n.k = []
  loads : s.pendingK (n.k ++ n.quiet) = false

/-! ## Frames -/

/-- Nothing outside the crews of the context's teams has changed, and no crew but the one of the unit has changed but
for the slots of the active set (R121). -/
structure State.Keeps (s t : State) : Prop where
  outside : t = { s with ctx := { s.ctx with teams := t.ctx.teams } }
  teams : t.ctx.teams.map Team.bare = s.ctx.teams.map Team.bare
  others : ∀ id i, ¬(id = s.cur.team ∧ i = s.cur.crew) → (t.crewOf id i).placeless = (s.crewOf id i).placeless

/-- The lanes of the run have moved past the unit and are runnable there. -/
def State.MovesPast (s t : State) : Prop :=
  ∀ l ∈ lanesOf s.cur.run, t.crew.lane l = { s.crew.lane l with pc := pcAfter s.cur.pc s.cur.words, age := 0 }

/-- A unit that changes only registers of its crew has completed: its frame holds, the registers of the crew are those
of `c`, and the run has moved past it. -/
structure State.Completed (s t : State) (c : Crew) : Prop where
  keeps : s.Keeps t
  regs : t.crew.regs = c.regs
  past : s.MovesPast t

/-! ## What a lane-set unit leaves in the vector registers -/

/-- Register r of lane l after a unit that writes v(d) of its active lanes with `value` (R41, R165): an inactive lane of the
run holds 0 when zeroing is 1, and every other register of every lane is as it was. -/
def State.laneWritten (s : State) (act : W32) (zeroing : Bool) (d : Nat) (value : Nat → W32) (r l : Nat) : W32 :=
  if r = d ∧ act.getLsbD l = true then value l
  else if r = d ∧ zeroing = true ∧ s.cur.run.getLsbD l = true then 0#32
  else s.crew.vreg r l

/-- The same for a unit that writes `n` registers from v(d), register i with `value i`. -/
def State.lanesWritten (s : State) (act : W32) (zeroing : Bool) (d n : Nat) (value : Nat → Nat → W32) (r l : Nat) : W32 :=
  if d ≤ r ∧ r < d + n ∧ act.getLsbD l = true then value (r - d) l
  else if d ≤ r ∧ r < d + n ∧ zeroing = true ∧ s.cur.run.getLsbD l = true then 0#32
  else s.crew.vreg r l

/-- A unit that sends an access for each active lane leaves the vector registers as they were, but for the `n` from v(d) that
zeroing clears in the inactive lanes of the run (R41). -/
def State.destsCleared (s t : State) (p : Prefix) (d : BitVec 7) (n : Nat) : Prop :=
  ∀ r l, l < 32 → t.crew.vreg r l =
    if d.toNat ≤ r ∧ r < d.toNat + n ∧ p.zeroing = true ∧ s.cur.run.getLsbD l = true ∧ (s.activeLanes p).getLsbD l = false then 0#32
    else s.crew.vreg r l

/-- A flag register with the flags of some lanes added (R164): bit by bit. -/
def addsFlags (old new : W32) (lanes : W32) (flags : Nat → W32) : Prop :=
  ∀ b, new.getLsbD b = (old.getLsbD b || (lanesOf lanes).any fun l => (flags l).getLsbD b)

/-- The run's lanes stand at PCs of their own, runnable. -/
def State.MovesTo (s t : State) (target : Nat → Addr) : Prop :=
  ∀ l ∈ lanesOf s.cur.run, t.crew.lane l = { s.crew.lane l with pc := target l, age := 0 }

/-- The address of a branch: the unit's own address plus 4 × the signed offset (R35, R45). -/
def State.branchTo (s : State) {n : Nat} (off : BitVec n) : Addr := s.cur.pc + BitVec.ofInt 52 (4 * off.toInt)

/-- A page maps an address for an access, and no other translation of it is kept (R237, R240). -/
structure State.Translates (s : State) (va : Nat) (a : Option Access) (pa : Nat) (t : Treat) : Prop where
  walk : (s.walk va).apply va a = .ok pa t
  kept : ∀ k ∈ s.ctx.tlb, k.page = va / 65536 → Walked.leaf k.entry k.level = s.walk va

/-- An access to a physical address can be sent: a peer that holds it has a route (R402). -/
def State.reachable (s : State) (pa : Nat) : Prop := ∀ p, rangeOf s.part pa = some (.peer p) → s.dev.cut p = false

/-- The core of the unit has room for 32 more requests beside those its engines may hold, and the team's class has its exposure
left (R249, R362). -/
structure State.MayIssue (s : State) : Prop where
  room : s.entriesHeld s.crew.core + engineEntries + 32 ≤ 1024
  misses : s.expoSpent s.crew.core s.team.cls 4 = false
  bytes : s.expoSpent s.crew.core s.team.cls 3 = false

/-- Everything of a context but what the issue of requests and commands changes; requests to peers take command numbers (R401). -/
structure State.SendsOnly (s t : State) : Prop where
  mem : t.mem = s.mem
  dev : t.dev = { s.dev with nextNumber := t.dev.nextNumber }
  outside : t.swapped = s.swapped ∧ t.part = s.part ∧ t.choices = s.choices ∧ t.inputs = s.inputs ∧ t.cur = s.cur
  teams : t.ctx.teams.map Team.bare = s.ctx.teams.map Team.bare
  others : ∀ id i, ¬(id = s.cur.team ∧ i = s.cur.crew) → (t.crewOf id i).placeless = (s.crewOf id i).placeless
  regions : t.ctx.regions = s.ctx.regions
  launches : t.ctx.launches = s.ctx.launches

/-- Every launch neither records nor replays a contact sheet (R396). -/
def State.noSheet (s : State) : Prop := ∀ x ∈ s.ctx.launches, x.recording = false ∧ x.replaying = false

/-- No single access of a command has been performed ahead of its end. -/
def Cmd.untouched (x : Cmd) : Prop := x.log = [] ∧ x.got = [] ∧ x.rows = [] ∧ x.put = []

/-- A command has written its status into its token and is over, in its own crew (R142, R273). -/
structure State.TokenWritten (s t : State) (x : Cmd) (status : W32) : Prop where
  gone : ∀ y ∈ t.ctx.cmds, y.id ≠ x.id
  token : (t.crewOf x.team x.crew).kreg x.token = if x.token = 0 then 0#32 else status
  others : ∀ r, r ≠ x.token → (t.crewOf x.team x.crew).kreg r = (s.crewOf x.team x.crew).kreg r
  idle : ∀ e ∈ (t.crewOf x.team x.crew).busy, e.2 ≠ x.id

end Sys2Proof.Machine
end

