-- ==== Sys2Proof/Tables.lean ====
section
/-!
DEFINITION. The result tables of the spec as claims use them: for each instruction whose whole effect is one value a
lane or one uniform register, its operands and its result, written from the tables themselves (Tables 6.7, 7.4, 7.6 and the
entries around them).
-/

namespace Sys2Proof.Machine

/-! ## Lane-set results that set no flag -/

/-- A lane-set instruction that writes v(d) of each active lane: its PREFIX, its destination, its sources a and b, whether
it takes the fourth operand c, and its result from a, b, c and the old d. -/
structure LaneForm where
  p : Prefix
  d : BitVec 7
  a : Option Src := none
  b : Option Src := none
  takesC : Bool := false
  result : W32 → W32 → W32 → W32 → W32

/-- The registers of an optional source. -/
def optNames (x : Option Src) : Names := match x with | some x => srcNames x 1 | none => {}

/-- The registers the instruction names (R33). -/
def LaneForm.names (x : LaneForm) : Names :=
  (((optNames x.a).add (optNames x.b)).add (if x.takesC then cNames x.p else {})).add (destNames x.d 1)

/-- An optional source of a lane. -/
def Crew.optSrc (c : Crew) (x : Option Src) (l : Nat) : W32 := match x with | some x => c.src x l | none => 0#32

/-- The result of a lane: c is the register that the PREFIX names, or the old d when c-valid is 0 (R41, R165). -/
def LaneForm.value (x : LaneForm) (c : Crew) (l : Nat) : W32 :=
  let old := c.vreg x.d.toNat l
  x.result (c.optSrc x.a l) (c.optSrc x.b l)
    (match cSource x.p with | some y => c.src y l | none => old) old

/-- An operand as R166 reads it: signed when V = 0, unsigned when V = 1. -/
def operand (u : Bool) (x : W32) : Int := if u then (x.toNat : Int) else x.toInt

/-- The exact result x as R167 writes it. -/
def written (sat u : Bool) (x : Int) : W32 :=
  BitVec.ofInt 32 (if sat then (if u then min (max x 0) (2 ^ 32 - 1) else min (max x (-2 ^ 31)) (2 ^ 31 - 1)) else x)

/-- sh = Bits(b, 4, 0). -/
def amount (b : W32) : Nat := (b.extractLsb' 0 5).toNat

/-- The 64 bits of a product of two operands (IMULH). -/
def product64 (u : Bool) (a b : W32) : W64 :=
  if u then a.setWidth 64 * b.setWidth 64 else a.signExtend 64 * b.signExtend 64

/-- A field's position and length (R151, R168). -/
def fieldPos (b : W32) : Nat := b.toNat % 32
def fieldSize (b : W32) : Nat := min (b.toNat / 2 ^ 8 % 2 ^ 6) 32

/-- BFE and KBFE (R151, R168). -/
def extracted (a b : W32) : W32 :=
  let field : Nat := a.toNat * 2 ^ 32 / 2 ^ (fieldPos b + 32) % 2 ^ fieldSize b
  if fieldSize b = 0 then 0#32
  else if b.getLsbD 16 then BitVec.ofInt 32 (if 2 ^ (fieldSize b - 1) ≤ field then (field : Int) - 2 ^ fieldSize b else field)
  else BitVec.ofNat 32 field

/-- BFI (R168). -/
def inserted (a b c : W32) : W32 :=
  let fieldMask := BitVec.ofNat 32 ((2 ^ fieldSize b - 1) * 2 ^ fieldPos b)
  (c &&& ~~~fieldMask) ||| (BitVec.ofNat 32 (a.toNat * 2 ^ fieldPos b) &&& fieldMask)

/-- The number of 1 bits, and of 0 bits above the highest 1 bit. -/
def ones (a : W32) : W32 := BitVec.ofNat 32 ((List.range 32).filter fun i => a.getLsbD i).length
def zerosAbove (a : W32) : W32 :=
  BitVec.ofNat 32 ((List.range 32).takeWhile fun i => !(a.getLsbD (31 - i))).length

/-- Byte i of a word as IDOT4 reads it. -/
def dotByte (u : Bool) (x : W32) (i : Nat) : Int :=
  if u then ((x.extractLsb' (8 * i) 8).toNat : Int) else (x.extractLsb' (8 * i) 8).toInt

/-- Tables 7.4 and R172, R182 to R184. -/
def laneForm : Instr → Option LaneForm
  | .iadd p u d a b => some { p := p, d := d, a := a, b := b, result := fun a b _ _ => written p.sat u (operand u a + operand u b) }
  | .isub p u d a b => some { p := p, d := d, a := a, b := b, result := fun a b _ _ => written p.sat u (operand u a - operand u b) }
  | .imul p u d a b => some { p := p, d := d, a := a, b := b, result := fun a b _ _ => written p.sat u (operand u a * operand u b) }
  | .imulh p u d a b => some { p := p, d := d, a := a, b := b, result := fun a b _ _ => (product64 u a b).extractLsb' 32 32 }
  | .imad p u d a b =>
    some { p := p, d := d, a := a, b := b, takesC := true,
           result := fun a b c _ => written p.sat u (operand u a * operand u b + operand u c) }
  | .imin p u d a b => some { p := p, d := d, a := a, b := b, result := fun a b _ _ => if operand u b < operand u a then b else a }
  | .imax p u d a b => some { p := p, d := d, a := a, b := b, result := fun a b _ _ => if operand u a < operand u b then b else a }
  | .ineg p d a => some { p := p, d := d, a := a, result := fun a _ _ _ => written p.sat false (-a.toInt) }
  | .iabs p d a => some { p := p, d := d, a := a, result := fun a _ _ _ => written p.sat false (max a.toInt (-a.toInt)) }
  | .vand p d a b => some { p := p, d := d, a := a, b := b, result := fun a b _ _ => a &&& b }
  | .vor p d a b => some { p := p, d := d, a := a, b := b, result := fun a b _ _ => a ||| b }
  | .vxor p d a b => some { p := p, d := d, a := a, b := b, result := fun a b _ _ => a ^^^ b }
  | .andn p d a b => some { p := p, d := d, a := a, b := b, result := fun a b _ _ => a &&& ~~~b }
  | .shl p d a b => some { p := p, d := d, a := a, b := b, result := fun a b _ _ => BitVec.ofNat 32 (a.toNat * 2 ^ amount b) }
  | .shr p d a b => some { p := p, d := d, a := a, b := b, result := fun a b _ _ => BitVec.ofNat 32 (a.toNat / 2 ^ amount b) }
  | .sar p d a b => some { p := p, d := d, a := a, b := b, result := fun a b _ _ => BitVec.ofInt 32 (a.toInt / 2 ^ amount b) }
  | .rotl p d a b =>
    some { p := p, d := d, a := a, b := b, result := fun a b _ _ => BitVec.ofNat 32 (a.toNat * 2 ^ amount b + a.toNat / 2 ^ (32 - amount b)) }
  | .bfe p d a b => some { p := p, d := d, a := a, b := b, result := fun a b _ _ => extracted a b }
  | .bfi p d a b => some { p := p, d := d, a := a, b := b, takesC := true, result := fun a b c _ => inserted a b c }
  | .popc p d a => some { p := p, d := d, a := a, result := fun a _ _ _ => ones a }
  | .clz p d a => some { p := p, d := d, a := a, result := fun a _ _ _ => zerosAbove a }
  | .brev p d a => some { p := p, d := d, a := a, result := fun a _ _ _ => a.reverse }
  | .idot4 p u d a b =>
    some { p := p, d := d, a := a, b := b, takesC := true, result := fun a b c _ => (
      written p.sat u (operand u c + (dotByte u a 0 * dotByte u b 0 + dotByte u a 1 * dotByte u b 1 +
        dotByte u a 2 * dotByte u b 2 + dotByte u a 3 * dotByte u b 3))) }
  | .iaddi p u d a imm => some { p := p, d := d, a := a, result := fun a _ _ _ => written p.sat u (operand u a + imm.toInt) }
  | .movi p hi d imm => some { p := p, d := d, result := fun _ _ _ _ => if hi then BitVec.ofNat 32 (imm.toNat * 2 ^ 16) else imm.signExtend 32 }
  | .lit p d x => some { p := p, d := d, result := fun _ _ _ _ => x }
  | .bfpx p d a q r m => some { p := p, d := d, a := a, result := fun a _ _ old => (
      bfpValue m.toNat (old.extractLsb' (8 * q.toNat) 8).toNat (signedOf m.toNat (a.extractLsb' (8 * r.toNat) 8).toNat)) }
  | .permb p d a b => some { p := p, d := d, a := a, b := b, result := fun a b _ old => permuteBytes a b old }
  | .nibx p d a sx two g => some { p := p, d := d, a := a, result := fun a _ _ _ => unpackFields sx two g.toNat a }
  | _ => none

/-! ## Lane-set results with flags -/

/-- A floating-point instruction that writes v(d) and adds flags to FPFLAGS: its result and its flags, from the crew (its
FPMODE) and a, b, c. -/
structure FloatForm where
  p : Prefix
  d : BitVec 7
  a : Src
  b : Option Src := none
  takesC : Bool := false
  result : Crew → W32 → W32 → W32 → W32 × W32

/-- The registers the instruction names (R33). -/
def FloatForm.names (x : FloatForm) : Names :=
  (((srcNames x.a 1).add (optNames x.b)).add (if x.takesC then cNames x.p else {})).add (destNames x.d 1)

/-- The result and the flags of a lane. -/
def FloatForm.value (x : FloatForm) (c : Crew) (l : Nat) : W32 × W32 :=
  x.result c (c.src x.a l) (c.optSrc x.b l)
    (match cSource x.p with | some y => c.src y l | none => c.vreg x.d.toNat l)

/-- FP32, or both BF16 halves of each register with the OR of their flags (R161). -/
def halves (c : Crew) (bf : Bool) (op : Fmt → Val → Val → Val → Nat × W32) (a b x : W32) : W32 × W32 :=
  if bf then
    let one (hi : Bool) := op bf16 (c.hval bf16 a hi) (c.hval bf16 b hi) (c.hval bf16 x hi)
    (word ((one true).1 * 65536 + (one false).1), (one false).2 ||| (one true).2)
  else
    let r := op f32 (c.fval a) (c.fval b) (c.fval x)
    (word r.1, r.2)

/-- One FP32 operand, its signaling NaN raising NV (R94). -/
def onOne (c : Crew) (a : W32) (op : Val → Nat × W32) : W32 × W32 :=
  let x := c.fval a
  (word (op x).1, (op x).2 ||| sigFlag [x])

/-- An operand as DAZ leaves it, for an instruction that returns it: a subnormal is zero of its sign (R93). -/
def dazWord (c : Crew) (a : W32) : W32 :=
  if c.daz = true ∧ a.toNat / 2 ^ 23 % 2 ^ 8 = 0 then BitVec.ofNat 32 (a.toNat / 2 ^ 31 * 2 ^ 31) else a

/-- Where LUT in linear mode reads, for an operand that is no NaN: min(max(x, 0), 511) as its floor i and the fraction n / 2^k
above it (R187). -/
def lutPoint : Val → Nat × Nat × Nat
  | .fin false m g =>
    if 0 ≤ g then (min (m * 2 ^ g.toNat) 511, 0, 0)
    else
      let k := (-g).toNat
      if 511 * 2 ^ k ≤ m then (511, 0, 0) else (m / 2 ^ k, m % 2 ^ k, k)
  | .inf false => (511, 0, 0)
  | _ => (0, 0, 0)

/-- LUT in linear mode as R187 writes it, with the flags of R94: `e` gives the entries. The one rounding is that of the sum of e[i] and
f × (e[nextI] − e[i]), whose exact zeros have the signs of R89 (log 20). -/
def lutResult (ftz : Bool) (e : Nat → W32) (x : Val) : Nat × W32 :=
  match x with
  | .nan signalling => (0x7FC00000, if signalling then flagNV else 0#32)
  | x =>
    let (i, n, k) := lutPoint x
    let a := f32.decode false (e i).toNat
    let b := f32.decode false (e (min (i + 1) 511)).toNat
    let finite (y : Val) : Bool := !y.isNan && !y.isInf
    if finite a && finite b then
      let q := lowExp [a, b]
      let difference := b.scaled q - a.scaled q
      f32.sum .rne ftz [a, .fin (decide (difference < 0)) (difference.natAbs * n) (q - k)]
    else if n = 0 then (if a.isNan then 0x7FC00000 else (e i).toNat, 0#32)
    else (0x7FC00000, flagNV)

/-- Tables 7.6 and 7.8 and their entries (R173 to R180), and MOV, which sets no flag (R93, R172). -/
def floatForm : Instr → Option FloatForm
  | .fadd p bf d a b => some { p := p, d := d, a := a, b := b, result := fun c a b _ => (
      halves c bf (fun f x y _ => let r := f.sum (c.mode p.round) c.ftz [x, y]; (r.1, r.2 ||| sigFlag [x, y])) a b 0#32) }
  | .fsub p bf d a b => some { p := p, d := d, a := a, b := b, result := fun c a b _ => (
      halves c bf (fun f x y _ => let r := f.sum (c.mode p.round) c.ftz [x, y.negate]; (r.1, r.2 ||| sigFlag [x, y])) a b
        0#32) }
  | .fmul p bf d a b => some { p := p, d := d, a := a, b := b, result := fun c a b _ => (
      halves c bf (fun f x y _ => let r := f.mul (c.mode p.round) c.ftz x y; (r.1, r.2 ||| sigFlag [x, y])) a b 0#32) }
  | .ffma p bf d a b => some { p := p, d := d, a := a, b := b, takesC := true, result := fun c a b x => (
      halves c bf (fun f x y z => f.fma (c.mode p.round) c.ftz [(x, y)] [z]) a b x) }
  | .fmin p bf d a b => some { p := p, d := d, a := a, b := b, result := fun c a b _ => c.minMaxLane bf false a b }
  | .fmax p bf d a b => some { p := p, d := d, a := a, b := b, result := fun c a b _ => c.minMaxLane bf true a b }
  | .mov p d a => some { p := p, d := d, a := a, result := fun c a _ _ => (dazWord c a, 0#32) }
  | .fneg p d a => some { p := p, d := d, a := a, result := fun c a _ _ => onOne c a fun x => f32.encodeVal .rne false x.negate }
  | .fabs p d a => some { p := p, d := d, a := a, result := fun c a _ _ => onOne c a fun x => f32.encodeVal .rne false x.abs }
  | .fclass p d a => some { p := p, d := d, a := a, result := fun c a _ _ => onOne c a fun x => (2 ^ classBit x, 0#32) }
  | .frnd p d a => some { p := p, d := d, a := a, result := fun c a _ _ => onOne c a fun x => roundIntegral (c.mode p.round) x }
  | .fscale p d a b => some { p := p, d := d, a := a, b := b, result := fun c a b _ => (
      let r := match c.fval a with
        | .fin n m e => f32.round (c.mode p.round) c.ftz n m (e + b.toInt) false
        | x => f32.encodeVal .rne false x
      (word r.1, r.2)) }
  | .frcp p d a => some { p := p, d := d, a := a, result := fun c a _ _ => onOne c a fun x => Special.rcp.apply c.ftz x }
  | .frsq p d a => some { p := p, d := d, a := a, result := fun c a _ _ => onOne c a fun x => Special.rsq.apply c.ftz x }
  | .fsqrt p d a => some { p := p, d := d, a := a, result := fun c a _ _ => onOne c a fun x => Special.sqrt.apply c.ftz x }
  | .fexp2 p d a => some { p := p, d := d, a := a, result := fun c a _ _ => onOne c a fun x => Special.exp2.apply c.ftz x }
  | .flog2 p d a => some { p := p, d := d, a := a, result := fun c a _ _ => onOne c a fun x => Special.log2.apply c.ftz x }
  | .fsin p d a => some { p := p, d := d, a := a, result := fun c a _ _ => onOne c a fun x => Special.sin.apply c.ftz x }
  | .fcos p d a => some { p := p, d := d, a := a, result := fun c a _ _ => onOne c a fun x => Special.cos.apply c.ftz x }
  | .ftanh p d a => some { p := p, d := d, a := a, result := fun c a _ _ => onOne c a fun x => Special.tanh.apply c.ftz x }
  | .fdot2 p fp16 d a b => some { p := p, d := d, a := a, b := b, takesC := true, result := fun c a b x => (
      let f := if fp16 then f16 else bf16
      let r := f32.fma (c.mode p.round) c.ftz
        [(c.hval f a false, c.hval f b false), (c.hval f a true, c.hval f b true)] [c.fval x]
      (word r.1, r.2)) }
  | .cvtFF p d a dst src e => some { p := p, d := d, a := a, result := fun c a _ _ => (
      let x := (fmtOf src).decode c.daz (element a (fmtOf src).width e)
      let r := convertFF (fmtOf dst) (c.mode p.round) c.ftz x
      (word r.1, r.2 ||| sigFlag [x])) }
  | .cvtFI p d a src e dst => some { p := p, d := d, a := a, result := fun c a _ _ => (
      let r := convertFI dst (c.mode p.round) p.sat ((fmtOf src).decode c.daz (element a (fmtOf src).width e))
      (BitVec.ofInt 32 r.1, r.2)) }
  | .cvtIF p d a dst e src => some { p := p, d := d, a := a, result := fun c a _ _ => (
      let x := element a (intType src).2 e
      let r := (fmtOf dst).ofInt (c.mode p.round) c.ftz (if (intType src).1 then signedOf (intType src).2 x else x) 0
      (word r.1, r.2)) }
  | .pack2 p fp16 d a b => some { p := p, d := d, a := a, b := b, result := fun c a b _ => (
      let f := if fp16 then f16 else bf16
      let lo := round16 f (c.mode p.round) c.ftz p.sat (c.fval a)
      let hi := round16 f (c.mode p.round) c.ftz p.sat (c.fval b)
      (word (hi.1 * 65536 + lo.1), lo.2 ||| hi.2 ||| sigFlag [c.fval a, c.fval b])) }
  | _ => none

/-! ## Uniform results -/

/-- A uniform instruction that writes k(d): the registers it reads, and its result. -/
structure UniformForm where
  d : BitVec 8
  reads : List Nat := []
  result : Crew → W32

/-- Signed reading of a uniform operand: A, B. -/
def UniformForm.names (x : UniformForm) : Names := { k := x.d.toNat :: x.reads }

/-- A two-source form. -/
def two (d a b : BitVec 8) (f : W32 → W32 → W32) : Option UniformForm :=
  some { d := d, reads := [a.toNat, b.toNat], result := fun c => f (c.kreg a.toNat) (c.kreg b.toNat) }

/-- Table 6.7, R151 to R153, R156. -/
def uniformForm : Instr → Option UniformForm
  | .kadd d a b => two d a b fun x y => x + y
  | .ksub d a b => two d a b fun x y => x - y
  | .kmul d a b => two d a b fun x y => BitVec.ofNat 32 (x.toNat * y.toNat)
  | .kmulh d a b => two d a b fun x y => (x.signExtend 64 * y.signExtend 64).extractLsb' 32 32
  | .kmad d a b => some { d := d, reads := [a.toNat, b.toNat], result := fun c => (
      c.kreg d.toNat + c.kreg a.toNat * c.kreg b.toNat) }
  | .kmin d a b => two d a b fun x y => if y.toInt < x.toInt then y else x
  | .kmax d a b => two d a b fun x y => if x.toInt < y.toInt then y else x
  | .kand d a b => two d a b fun x y => x &&& y
  | .kor d a b => two d a b fun x y => x ||| y
  | .kxor d a b => two d a b fun x y => x ^^^ y
  | .kshl d a b => two d a b fun x y => BitVec.ofNat 32 (x.toNat * 2 ^ amount y)
  | .kshr d a b => two d a b fun x y => BitVec.ofNat 32 (x.toNat / 2 ^ amount y)
  | .ksar d a b => two d a b fun x y => BitVec.ofInt 32 (x.toInt / 2 ^ amount y)
  | .kbfe d a b => two d a b extracted
  | .kpopc d a => some { d := d, reads := [a.toNat], result := fun c => ones (c.kreg a.toNat) }
  | .kclz d a => some { d := d, reads := [a.toNat], result := fun c => zerosAbove (c.kreg a.toNat) }
  | .kcmp d a b => two d a b fun x y => BitVec.ofInt 32 (if x.toInt < y.toInt then -1 else if y.toInt < x.toInt then 1 else 0)
  | .ksel d a b => some { d := d, reads := [a.toNat, b.toNat], result := fun c => (
      if c.kreg d.toNat = 0#32 then c.kreg b.toNat else c.kreg a.toNat) }
  | .kmov d a => some { d := d, reads := [a.toNat], result := fun c => c.kreg a.toNat }
  | .kmovi d imm => some { d := d, result := fun _ => imm.signExtend 32 }
  | .klit d x => some { d := d, result := fun _ => x }
  | .kaddi d imm => some { d := d, result := fun c => c.kreg d.toNat + imm.signExtend 32 }
  | .mtok d m => some { d := d, result := fun c => c.mreg m.toNat }
  | _ => none

/-! ## Convergent results -/

/-- Lane x's vote or source, when x is in the member set; otherwise lane l's own (R133). -/
def memberOr (c : Crew) (a : Src) (m : W32) (l x : Nat) : W32 := if x < 32 ∧ m.getLsbD x = true then c.src a x else c.src a l

/-- The members of a mask that a test accepts. -/
def membersWhere (m : W32) (p : Nat → Bool) : List Nat := (lanesOf m).filter p

/-- A convergent instruction: its PREFIX, its destination, the registers it names besides, and the value each member gets
from the member set (R127, R133). -/
structure ConvForm where
  p : Prefix
  d : BitVec 7
  reads : Names
  result : Crew → W32 → Nat → W32

def convForm : Instr → Option ConvForm
  | .vote p d a kind => some { p := p, d := d, reads := srcNames a 1, result := fun c m _ => (
      let yes := membersWhere m fun l => c.src a l != 0#32
      match kind with
      | .any => if yes = [] then 0#32 else 1#32
      | .all => if yes.length = (lanesOf m).length then 1#32 else 0#32
      | .ballot => maskOf fun l => yes.contains l
      | .count => BitVec.ofNat 32 yes.length) }
  | .shflIdx p d a b => some { p := p, d := d, reads := (srcNames a 1).add (srcNames b 1), result := fun c m l => (
      memberOr c a m l ((c.src b l).toNat % 32)) }
  | .shflUp p d a b => some { p := p, d := d, reads := (srcNames a 1).add (srcNames b 1), result := fun c m l => (
      if (c.src b l).toNat ≤ l then memberOr c a m l (l - (c.src b l).toNat) else c.src a l) }
  | .shflDn p d a b => some { p := p, d := d, reads := (srcNames a 1).add (srcNames b 1), result := fun c m l => (
      memberOr c a m l (l + (c.src b l).toNat)) }
  | .shflXor p d a b => some { p := p, d := d, reads := (srcNames a 1).add (srcNames b 1), result := fun c m l => (
      memberOr c a m l (l ^^^ ((c.src b l).toNat % 32))) }
  | .matchEq p d a => some { p := p, d := d, reads := srcNames a 1, result := fun c m l => (
      maskOf fun x => m.getLsbD x && c.src a x == c.src a l) }
  | .compact p incl d a => some { p := p, d := d, reads := srcNames a 1, result := fun c m l => (
      BitVec.ofNat 32 (membersWhere m fun x => c.src a x != 0#32 && (if incl then decide (x ≤ l) else decide (x < l))).length) }
  | _ => none

/-! ## Global accesses -/

/-- A global access (R252, R253): its PREFIX, its registers, the bytes that off6 counts, its size, the registers it names
from v(d) and how many of them it writes, what it asks of a page, and the request of each active lane. -/
structure GlobalForm where
  p : Prefix
  d : BitVec 7
  a : Src
  off : BitVec 6
  elem : Nat
  size : Nat
  named : Nat
  dest : Nat := 0
  acc : Access
  kind : ReqKind
  acq : Bool := false
  rel : Bool := false
  data : Crew → Nat → List Byte := fun _ _ => []
  compare : Crew → Nat → List Byte := fun _ _ => []

/-- The address of a lane's access: the pair at a plus the scaled off6, modulo 2^64. -/
def GlobalForm.addr (x : GlobalForm) (c : Crew) (l : Nat) : W64 := c.srcPair x.a l + BitVec.ofNat 64 (x.off.toNat * x.elem)

/-- The low bytes of the registers from v(r), in memory order. -/
def regBytes (r n : Nat) (c : Crew) (l : Nat) : List Byte :=
  (List.range n).map fun j => (c.vreg (r + j / 4) l).extractLsb' (8 * (j % 4)) 8

/-- The acquire and release of an order. -/
def acquires (o : Order) : Bool := match o with | .acq => true | .acqRel => true | _ => false
def releases (o : Order) : Bool := match o with | .rel => true | .acqRel => true | _ => false

def globalForm : Instr → Option GlobalForm
  | .ld p sx d a sz off => some
    { p := p, d := d, a := a, off := off, elem := widthBytes sz, size := widthBytes sz,
      named := widthRegs sz, dest := widthRegs sz, acc := .load, kind := (.load sx), acq := acquires p.order }
  | .ldQ p d a off => some
    { p := p, d := d, a := a, off := off, elem := 8, size := 16, named := 4, dest := 4,
      acc := .load, kind := (.load false), acq := acquires p.order }
  | .st p d a sz off => some
    { p := p, d := d, a := a, off := off, elem := widthBytes sz, size := widthBytes sz,
      named := widthRegs sz, acc := .store, kind := .store, rel := releases p.order,
      data := regBytes d.toNat (widthBytes sz) }
  | .stQ p d a off => some
    { p := p, d := d, a := a, off := off, elem := 8, size := 16, named := 4, acc := .store,
      kind := .store, rel := releases p.order, data := regBytes d.toNat 16 }
  | .atom p d a sz off => some
    { p := p, d := d, a := a, off := off, elem := widthBytes sz, size := widthBytes sz,
      named := widthRegs sz, dest := widthRegs sz, acc := .atomic, kind := (.atom p.c), acq := acquires p.order,
      rel := releases p.order, data := regBytes d.toNat (4 * widthRegs sz) }
  | .atomCas p d a sz off => some
    { p := p, d := d, a := a, off := off, elem := widthBytes sz, size := widthBytes sz,
      named := 2 * widthRegs sz, dest := widthRegs sz, acc := .atomic, kind := .cas, acq := acquires p.order,
      rel := releases p.order, compare := regBytes d.toNat (4 * widthRegs sz),
      data := regBytes (d.toNat + widthRegs sz) (4 * widthRegs sz) }
  | .red p d a sz off => some
    { p := p, d := d, a := a, off := off, elem := widthBytes sz, size := widthBytes sz,
      named := widthRegs sz, acc := .store, kind := (.red p.c), rel := releases p.order,
      data := regBytes d.toNat (4 * widthRegs sz) }
  | _ => none

/-- The requests of an active lane whose access translates to a physical address, but for their numbers: one, or two of 8 bytes
for a 16-byte access (R234). -/
def GlobalForm.requests (x : GlobalForm) (s : State) (pa : Nat) (tr : Treat) (l : Nat) : List Req :=
  let leaf (a : Nat) : Bool := (s.leafRegion a).isSome
  let r : Req :=
    { id := 0, unit := s.nextId, team := s.cur.team, crew := s.cur.crew, core := s.crew.core, lane := l,
      thread := some (s.crew.lane l).tid, kind := x.kind, pa := pa, va := x.addr s.crew l, size := x.size, treat := tr,
      scope := globalScope x.p.scope, acq := x.acq, rel := x.rel, remote := x.p.remote, data := x.data s.crew l,
      compare := x.compare s.crew l, dest := x.d.toNat, regs := x.dest, leaf := leaf pa, pc := s.cur.pc, words := s.cur.words,
      handler := (s.crew.lane l).inHandler, run := 1#32 <<< l, units := s.crew.units }
  if x.size = 16 then
    [{ r with size := 8, data := r.data.take 8, regs := x.dest / 2 },
     { r with size := 8, data := r.data.drop 8, regs := x.dest / 2, dest := x.d.toNat + x.dest / 2, pa := pa + 8,
              leaf := leaf (pa + 8) }]
  else [r]

/-! ## Engine commands -/

/-- An asynchronous command (R46, R143): its kind, its token, its first descriptor register, the length of its descriptor,
and its imm8. -/
structure CommandForm where
  kind : CmdKind
  t : BitVec 8
  q : BitVec 8
  n : Nat
  imm : BitVec 8 := 0#8

/-- A bit as a number. -/
def bit (b : Bool) : Nat := if b then 1 else 0

/-- The commands of the UE format (Tables 12.4, 13.6, 14.2, 14.3 and R188, R211, R226, R230, R325, R365). -/
def commandForm : Instr → Option CommandForm
  | .aggOpen t q pin => some { kind := .aggOpen, t := t, q := q, n := 6, imm := BitVec.ofNat 8 (bit pin) }
  | .cluOpen t q pin => some { kind := .cluOpen, t := t, q := q, n := 9, imm := BitVec.ofNat 8 (bit pin) }
  | .tblLoad t q => some { kind := .tblLoad, t := t, q := q, n := 3 }
  | .walk t q => some { kind := .walk, t := t, q := q, n := 3 }
  | .copy t q dep chain => some { kind := .copy, t := t, q := q, n := 20, imm := BitVec.ofNat 8 (2 * bit dep + bit chain) }
  | .copyG t q dep chain => some { kind := .copyG, t := t, q := q, n := 10, imm := BitVec.ofNat 8 (2 * bit dep + bit chain) }
  | .copyS t q dep chain => some { kind := .copyS, t := t, q := q, n := 10, imm := BitVec.ofNat 8 (2 * bit dep + bit chain) }
  | .copyFill t q dep chain => some { kind := .fill, t := t, q := q, n := 5, imm := BitVec.ofNat 8 (2 * bit dep + bit chain) }
  | .plateLoad t q => some { kind := .plateLoad, t := t, q := q, n := 3 }
  | .mxr t q z ma pl =>
    some { kind := .mxr, t := t, q := q, n := 2, imm := BitVec.ofNat 8 (64 * bit z + 8 * ma.toNat + pl.toNat) }
  | .mxg t q z ma pl =>
    some { kind := .mxg, t := t, q := q, n := 5, imm := BitVec.ofNat 8 (64 * bit z + 8 * ma.toNat + pl.toNat) }
  | .accSt t q clr => some { kind := .accSt, t := t, q := q, n := 4, imm := BitVec.ofNat 8 (bit clr) }
  | .launch t q => some { kind := .launch, t := t, q := q, n := 3 }
  | _ => none

/-- Word j of the descriptor as it stands at issue. -/
def State.descWord (s : State) (x : CommandForm) (j : Nat) : W32 := s.crew.kreg (256 + x.q.toNat + j)

/-- A field of a word: n bits from bit o. -/
def fieldOf (w : W32) (o n : Nat) : Nat := w.toNat / 2 ^ o % 2 ^ n

/-- The command is one of the streamer's (R329). -/
def CommandForm.streams (x : CommandForm) : Bool :=
  match x.kind with | .copy => true | .copyG => true | .copyS => true | .fill => true | .plateLoad => true | _ => false

/-- The CHAIN and DEP bits, and the dependence register DEPK, of a copy or fill (R336 to R338). -/
def CommandForm.chains (x : CommandForm) : Bool := x.streams && x.kind != .plateLoad && x.imm.getLsbD 0
def CommandForm.depends (x : CommandForm) : Bool := x.streams && x.kind != .plateLoad && x.imm.getLsbD 1
def State.depkOf (s : State) (x : CommandForm) : Nat :=
  fieldOf (s.descWord x (match x.kind with | .copy => 19 | .fill => 4 | _ => 9)) 24 8

/-- The vector registers that a matrix operation captures (R219, R220, R226), and the rows it owns of a mapped plate. -/
def State.captured (s : State) (x : CommandForm) : List Nat :=
  let w := s.descWord x 1
  if x.kind = .mxr then ((List.range 8).map fun i => fieldOf w 10 7 + i) ++ [fieldOf w 17 7] else [fieldOf w 10 7]
def State.activationRows (s : State) (x : CommandForm) : Nat :=
  let w := s.descWord x 1
  if x.kind = .mxr then fieldOf w 25 2 + 1 else fieldOf w 17 4 + 1
def State.capturedLanes (s : State) (x : CommandForm) : W32 :=
  if x.kind = .mxr then 0xFFFFFFFF#32 else BitVec.ofNat 32 (2 ^ s.activationRows x - 1)
def State.ownedRows (s : State) (x : CommandForm) : Nat :=
  s.activationRows x * ceilDiv ((fieldOf (s.descWord x 0) 0 6 + 1) * (1024 / 2 ^ fieldOf (s.team.plateFor s.cur.crew (x.imm.toNat % 8)) 20 2)) 512

/-- What a command needs, besides its registers, to be queued at once: the part has its unit (R304), the crew has the streaming
right (R329), its engine has a place (R221, R319, R330), its rows lie in the window and its registers in the budget (R226, R230). -/
def State.commandAllowed (s : State) (x : CommandForm) : Prop :=
  match x.kind with
  | .walk => s.part = .lx960 ∧ s.engineFull s.crew.core 2 = false
  | .cluOpen => s.part = .lx960
  | .accSt =>
    let first := fieldOf (s.descWord x 2) 0 10
    let count := fieldOf (s.descWord x 2) 10 11
    s.engineFull s.crew.core 1 = false ∧ (count = 0 ∨ s.crew.window.1 ≤ first ∧ first + count ≤ s.crew.window.2)
  | .mxr | .mxg =>
    let row := fieldOf (s.descWord x 1) 0 10
    s.engineFull s.crew.core 1 = false ∧ (∀ r ∈ s.captured x, r < s.team.vBudget) ∧
      s.pendingV (s.captured x) (s.capturedLanes x) = false ∧
      s.crew.heldWrites (s.captured x) (s.capturedLanes x) s.cur.run = false ∧
      ((s.team.plateFor s.cur.crew (x.imm.toNat % 8)).getLsbD 31 = true →
        s.crew.window.1 ≤ row ∧ row + s.ownedRows x ≤ s.crew.window.2)
  | .copy | .copyG | .copyS | .fill | .plateLoad =>
    s.team.producer = some s.cur.crew ∧ s.engineFull s.crew.core 0 = false ∧
      (x.depends = true → s.pendingK [s.depkOf x] = false)
  | _ => True

/-! ## Elements of the streamer's commands -/

/-- Where an element stands (R333): in scratchpad or in global memory, the allocation offset or the virtual address of its first byte,
its lowest bit there, its width in bits, and its exact address. -/
structure Place where
  spad : Bool
  first : Nat
  low : Nat
  width : Nat
  whole : Int
  deriving DecidableEq, Repr

/-- Element x of a side (R333). -/
def elementAt (alloc : Nat) (spad : Bool) (base : W64) (width : Nat) (x : Int) : Place :=
  let a : Int := (base.toNat : Int) + x * width / 8
  { spad := spad, first := if spad then spadWrap alloc (a % 2 ^ 32).toNat (max (width / 8) 1) else (a % 2 ^ 52).toNat,
    low := (x * width % 8).toNat, width := width, whole := a }

/-- The bytes of an element, and where they begin, given the physical address of a virtual one. -/
def Place.bytes (p : Place) : Nat := max (p.width / 8) 1
def Place.start (p : Place) (pa : Nat → Nat) : Nat := if p.spad then p.first else pa p.first

/-- The value of an element. -/
def Place.value (p : Place) (pa : Nat → Nat) (spad mem : Sparse 8) : Nat :=
  bytesNat (readBytes (if p.spad then spad else mem) (p.start pa) p.bytes) / 2 ^ p.low % 2 ^ p.width

/-- An element takes a byte, or one bit of it, of scratchpad or of global memory. -/
def Place.takes (p : Place) (pa : Nat → Nat) (spad : Bool) (a : Nat) : Prop :=
  p.spad = spad ∧ p.start pa ≤ a ∧ a < p.start pa + p.bytes
def Place.takesBit (p : Place) (pa : Nat → Nat) (spad : Bool) (a b : Nat) : Prop :=
  p.takes pa spad a ∧ (p.width < 8 → p.low ≤ b ∧ b < p.low + p.width)

/-- The descriptor of COPY (Table 14.2, R336): its counts, and the index of element n on the side whose strides begin at a word. -/
def Cmd.times (x : Cmd) (j : Nat) : Nat := fieldOf (x.word (4 + j / 2)) (16 * (j % 2)) 16 + 1
def Cmd.inner (x : Cmd) (j : Nat) : Nat := ((List.range j).map x.times).foldl (· * ·) 1
def Cmd.affine (x : Cmd) (first n : Nat) : Int :=
  ((List.range 6).map fun j => ((n / x.inner j % x.times j : Nat) : Int) * (x.word (first + j)).toInt).foldl (· + ·) 0

/-- The length of a row of COPY.G and COPY.S, and entry e of their index list (Table 14.3). -/
def Cmd.rowLength (x : Cmd) : Nat := fieldOf (x.word 8) 0 16 + 1
def Cmd.listAt (x : Cmd) (alloc e : Nat) : Place := elementAt alloc ((x.word 9).getLsbD 5) (x.word 5 ++ x.word 4) 32 e

/-- The elements of a copy or fill. -/
def Cmd.moveCount (x : Cmd) : Nat :=
  match x.kind with
  | .copy => x.inner 6
  | .fill => (x.word 2).toNat
  | _ => (x.word 6).toNat * x.rowLength

/-- Element n of a copy or fill, given its index list (R336 to R338): where its value stands, or the value, and where it goes. -/
def Cmd.move (x : Cmd) (alloc : Nat) (index : Nat → W32) (n : Nat) : Option ((Place ⊕ Nat) × Place) :=
  let side (word bit lo width : Nat) : Int → Place := elementAt alloc ((x.word word).getLsbD bit) (x.word (lo + 1) ++ x.word lo) width
  let width (word : Nat) : Nat := 2 * 2 ^ fieldOf (x.word word) 0 3
  let row : W32 := index (n / x.rowLength)
  let indexed : Place := side 9 3 0 (width 9) ((row.toNat * (x.word 7).toNat + n % x.rowLength : Nat))
  let contiguous : Place := side 9 4 2 (width 9) n
  match x.kind with
  | .copy => some (.inl (side 19 3 0 (width 19) (x.affine 7 n)), side 19 4 2 (width 19) (x.affine 13 n))
  | .copyG => some (if row = 0xFFFFFFFF#32 then .inr 0 else .inl indexed, contiguous)
  | .copyS => if row = 0xFFFFFFFF#32 then none else some (.inl contiguous, indexed)
  | _ => some (.inr (fieldOf (x.word 3) (8 * (n % 4)) 8), side 4 4 0 8 n)

/-- A command of a core may reach an element in global memory for an access, at device memory that no region claims and no line of
which its core's L1 holds dirty, and none of the bytes `written` holds an entry of its page table. -/
def State.reaches (s : State) (x : Cmd) (pa : Nat → Nat) (a : Access) (written : Nat → Prop) (p : Place) : Prop :=
  p.spad = false →
    ((0 ≤ p.whole ∧ p.whole < 2 ^ 51) ∨ (2 ^ 64 - 2 ^ 51 ≤ p.whole ∧ p.whole < 2 ^ 64)) ∧
    (∃ tr, tr ≠ .s ∧ s.Translates p.first (some a) (pa p.first) tr) ∧ rangeOf s.part (pa p.first) = some .device ∧
    (∀ o, o < p.bytes → s.leafRegion (pa p.first + o) = none ∧ s.shadowRegion (pa p.first + o) = none) ∧
    s.badAt (pa p.first) = false ∧ s.unmetered x = true ∧ s.ctx.l2host = [] ∧ (∀ y ∈ (s.coreSt x.core).l1, y.dirty = 0#64) ∧
    ∀ slot ∈ s.walkSlots p.first 3 s.ctx.ptRoot, ∀ i, i < 8 → ¬written (slot + i)

/-! ## Region reads -/

/-- A range load or CLU.NODE (R300, R326): the registers it writes, whether it reads a cluster region, the kind it needs of an
aggregate (Table 12.9), and the request of each active lane. -/
structure RegionForm where
  p : Prefix
  d : BitVec 7
  a : Src
  rg : BitVec 8
  dest : Nat
  cluster : Bool := false
  needs : Nat := 0
  kind : Crew → Nat → ReqKind

/-- The start, the end and the search operand of a lane's range load. -/
def rangeOfLane (which : Nat) (arg : Bool) (d : BitVec 7) (a : Src) (c : Crew) (l : Nat) : ReqKind :=
  .range which arg (c.src a l) (c.srcNext a 1 l) (c.vreg (d.toNat + 1) l ++ c.vreg d.toNat l)

def regionForm : Instr → Option RegionForm
  | .ldaSum p i64 d a rg => some { p := p, d := d, a := a, rg := rg, dest := if i64 then 2 else 1,
                                   needs := if i64 then 3 else 0, kind := rangeOfLane 0 i64 d a }
  | .ldaMax p arg d a rg => some { p := p, d := d, a := a, rg := rg, dest := if arg then 2 else 1,
                                   needs := if arg then 4 else 1, kind := rangeOfLane 1 arg d a }
  | .ldaMin p d a rg => some { p := p, d := d, a := a, rg := rg, dest := 1, needs := 2, kind := rangeOfLane 2 false d a }
  | .ldaFind p i64 d a rg => some { p := p, d := d, a := a, rg := rg, dest := 2, needs := if i64 then 3 else 0,
                                    kind := rangeOfLane 3 i64 d a }
  | .ldaPick p i64 d a rg => some { p := p, d := d, a := a, rg := rg, dest := 2, needs := if i64 then 3 else 0,
                                    kind := rangeOfLane 4 i64 d a }
  | .cluNode p quad d a rg => some { p := p, d := d, a := a, rg := rg, dest := if quad then 4 else 1, cluster := true,
                                     kind := fun c l => .node quad (c.src a l) (c.srcNext a 1 l) }
  | _ => none

/-! ## Atomic operations -/

/-- The new value of `n` bits from old o and operand v under an operation code (Table 10.8, and Table 8.5 for ATOMS). -/
def opValue (code : BitVec 8) (n : Nat) (o v : Nat) : Nat :=
  let x := BitVec.ofNat n o
  let y := BitVec.ofNat n v
  let f (z : Nat × W32) : Nat := z.1 % 2 ^ 32
  match code.toNat with
  | 0 => v
  | 1 => (x + y).toNat
  | 2 => (x &&& y).toNat
  | 3 => (x ||| y).toNat
  | 4 => (x ^^^ y).toNat
  | 5 => if x.toInt ≤ y.toInt then o else v
  | 6 => if x.toInt ≤ y.toInt then v else o
  | 7 => min o v
  | 8 => max o v
  | 9 => f (f32.sum .rne false [f32.decode false (o % 2 ^ 32), f32.decode false (v % 2 ^ 32)])
  | 10 => f (f32.minMax false false (o % 2 ^ 32) (v % 2 ^ 32))
  | _ => f (f32.minMax false true (o % 2 ^ 32) (v % 2 ^ 32))

/-! ## Units and the registers they name -/

/-- A lane-set unit under a PREFIX whose active lanes alone have an effect (R33, R41, R53, R55): the registers it names, what
zeroing clears in an inactive lane (`cleared` registers from v(d), or its bit of a mask), and whether it needs the walker. -/
structure GatedForm where
  p : Prefix
  names : Names
  d : BitVec 7 := 0#7
  cleared : Nat := 0
  mask : Option (BitVec 3) := none
  walker : Bool := false

/-- A unit that names the source a and n registers from v(d), the first `dest` of which it writes. -/
def gated (p : Prefix) (a : Names) (d : BitVec 7) (n dest : Nat) : Option GatedForm :=
  some { p := p, names := a.add (destNames d n), d := d, cleared := dest }

/-- Every lane-set unit under a PREFIX but SEL, which makes every lane active, and the convergent ones. -/
def gatedForm (i : Instr) : Option GatedForm :=
  match i with
  | .icmp p _ _ md a b => some { p := p, names := (srcNames a 1).add (srcNames b 1), mask := some md }
  | .fcmp p _ _ md a b => some { p := p, names := (srcNames a 1).add (srcNames b 1), mask := some md }
  | .elect p d => some { p := p, names := destNames d 1, d := d, cleared := 1 }
  | .sreg p d _ => some { p := p, names := destNames d 1, d := d, cleared := 1 }
  | .lut p d a _ _ => gated p (srcNames a 1) d 1 1
  | .bfpqM p d a _ _ => gated p (srcNames a 1) d 1 1
  | .bfpqE p d a _ _ _ => gated p (srcNames a 1) d 1 0
  | .lds p _ d a sz _ => gated p (srcNames a 1) d (widthRegs sz) (widthRegs sz)
  | .sts p d a sz _ => gated p (srcNames a 1) d (widthRegs sz) 0
  | .ldsQ p d a _ => gated p (srcNames a 1) d 4 4
  | .stsQ p d a _ => gated p (srcNames a 1) d 4 0
  | .atoms p d a sz _ => gated p (srcNames a 1) d (widthRegs sz) (widthRegs sz)
  | .atomsCas p d a sz _ => gated p (srcNames a 1) d (2 * widthRegs sz) (widthRegs sz)
  | .accRd p _ d a => gated p (srcNames a 1) d 1 1
  | .accWr p d a => gated p (srcNames a 1) d 1 0
  | .accAdd p d a => gated p (srcNames a 1) d 1 0
  | .pref p _ a _ => some { p := p, names := srcNames a 2 }
  | i =>
    match laneForm i with
    | some x => some { p := x.p, names := x.names, d := x.d, cleared := 1 }
    | none =>
    match floatForm i with
    | some x => some { p := x.p, names := x.names, d := x.d, cleared := 1 }
    | none =>
    match globalForm i with
    | some x => gated x.p (srcNames x.a 2) x.d x.named x.dest
    | none =>
    match regionForm i with
    | some x =>
      some { p := x.p, names := (srcNames x.a 2).add (destNames x.d x.dest), d := x.d, cleared := x.dest, walker := x.cluster }
    | none => none

/-- A uniform unit that names k registers (R33, R54, R142): the names, and whether it needs a privileged context (R379) or the
walker (R304). -/
structure NamedForm where
  names : Names
  privileged : Bool := false
  walker : Bool := false

def namedForm (i : Instr) : Option NamedForm :=
  match i with
  | .khiRd d q => some { names := { k := [d.toNat, 256 + q.toNat] } }
  | .khiWr a q => some { names := { k := [a.toNat, 256 + q.toNat] } }
  | .vtok d r _ _ => some { names := { k := [d.toNat], v := [r.toNat] } }
  | .ktom _ a => some { names := { k := [a.toNat] } }
  | .ksreg d _ => some { names := { k := [d.toNat] } }
  | .kbra _ a _ => some { names := { k := [a.toNat] } }
  | .kld d a _ => some { names := { k := [d.toNat, a.toNat, a.toNat + 1] } }
  | .barArr _ b => some { names := { k := [b.toNat] } }
  | .barSync _ b => some { names := { k := [b.toNat] } }
  | .rgxSet a => some { names := { k := [a.toNat] } }
  | .cwb a b => some { names := { k := if b = 0#8 then [] else [a.toNat, a.toNat + 1, b.toNat] } }
  | .cinv a b => some { names := { k := if b = 0#8 then [] else [a.toNat, a.toNat + 1, b.toNat] } }
  | .accWin d a b => some { names := { k := [d.toNat, a.toNat, b.toNat] } }
  | .accClr a b => some { names := { k := [a.toNat, b.toNat] } }
  | .plateMap d _ b => some { names := { k := [d.toNat, b.toNat] } }
  | .plateInfo d _ => some { names := { k := [d.toNat] } }
  | .aggInfo d _ _ => some { names := { k := [d.toNat] } }
  | .cluGrow d _ b => some { names := { k := [d.toNat, b.toNat] }, walker := true }
  | .walkSet t q => some { names := { k := [t.toNat], quiet := [256 + q.toNat + 2] }, walker := true }
  | .ringInit _ a b => some { names := { k := [a.toNat, b.toNat] } }
  | .ringAcq d _ => some { names := { k := [d.toNat] } }
  | .ringWait d _ b => some { names := { k := [d.toNat, d.toNat + 1, b.toNat] } }
  | .ringRel _ b => some { names := { k := [b.toNat] } }
  | .twait a b => some { names := { k := [a.toNat, b.toNat] } }
  | .toktest d a => some { names := { k := [d.toNat], quiet := [a.toNat] } }
  | .csrr d _ => some { names := { k := [d.toNat] }, privileged := true }
  | .csrw a _ => some { names := { k := [a.toNat] }, privileged := true }
  | .fpflagsRead d => some { names := { k := [d.toNat] } }
  | .fpflagsWrite a => some { names := { k := [a.toNat] } }
  | .tbldataRead d => some { names := { k := [d.toNat] }, privileged := true }
  | .tbldataWrite a => some { names := { k := [a.toNat] }, privileged := true }
  | .saveAreaWrite _ a => some { names := { k := [a.toNat] }, privileged := true }
  | .parkPc _ a b => some { names := { k := [a.toNat, b.toNat] } }
  | .parkMask a => some { names := { k := [a.toNat] } }
  | .brkt d a => some { names := { k := [d.toNat, a.toNat] } }
  | .time d => some { names := { k := [d.toNat, d.toNat + 1] } }
  | .expoRd d _ _ => some { names := { k := [d.toNat] } }
  | i =>
    match uniformForm i with
    | some x => some { names := x.names }
    | none =>
    match commandForm i with
    | some x =>
      some { names := { k := [x.t.toNat], quiet := [256 + x.q.toNat + (x.n - 1)] },
             walker := match x.kind with | .walk => true | .cluOpen => true | _ => false }
    | none => none

/-! ## Special registers -/

/-- The index of lane l at a level whose domain is given (R17, R351): lane, crew, logical core, logical twin, logical quad, die, or 0. -/
def State.domainIndex (s : State) (domain l : Nat) : Nat :=
  let core := s.crew.core
  let phys (n : Nat) : Nat := s.ctx.cores.getD n 0
  let whole (q : Nat) : Bool := [0, 1, 2, 3].all fun i => s.ctx.cores.contains (4 * q + i)
  match domain with
  | 0 => l
  | 1 => s.cur.crew
  | 2 => core
  | 3 => if core / 2 < s.ctx.twins then core / 2 else 2 ^ 32 - 1
  | 4 => if whole (phys core / 4) then ((List.range (phys core / 4)).filter whole).length else 2 ^ 32 - 1
  | 5 => phys core / 48
  | _ => 0

/-- The index of lane l at a level of the launch's table; 0 where the table declares no such level. -/
def State.levelIndex (s : State) (n l : Nat) : Nat :=
  match s.team.levels[n]? with
  | some e => s.domainIndex e.1 l
  | none => 0

/-- Table 5.4: what lane l reads of each special register. -/
def State.tableSpecial (s : State) (n : BitVec 4) (l : Nat) : W32 :=
  BitVec.ofNat 32 (match n.toNat with
    | 0 => (s.crew.lane l).tid
    | 1 => l
    | 2 => s.cur.crew
    | 3 => s.team.idx
    | 4 => s.levelIndex 2 l
    | 5 => s.levelIndex 3 l
    | 6 => s.levelIndex 4 l
    | 7 => s.levelIndex 5 l
    | 8 => s.levelIndex 6 l
    | 9 => s.levelIndex 7 l
    | 10 => s.crew.core
    | 11 => s.domainIndex 5 l
    | 12 => s.cur.run.toNat
    | 13 => s.ctx.clock
    | 14 => s.levelIndex 0 l
    | _ => s.levelIndex 1 l)

/-! ## Control and status registers -/

/-- Bit l of PARKMASK: the lane is of the open episode, and PARK.MASK has not removed it (Table 16.3). -/
def Crew.masked (c : Crew) (l : Nat) : Bool :=
  match c.episode with
  | none => false
  | some e => e.lanes.getLsbD l && !(c.lane l).removed

/-- A trap CSR of the open episode; 0 without one (R375). -/
def Crew.episodeWord (c : Crew) (f : Episode → W32) : W32 := match c.episode with | none => 0#32 | some e => f e

/-- Word j of the cause vector: four bits for each of eight lanes, 0 for a lane that PARKMASK does not hold (Table 16.3). -/
def Crew.causeVector (c : Crew) (j : Nat) : W32 :=
  c.episodeWord fun e => BitVec.ofNat 32 (((List.range 8).map fun i =>
    if c.masked (8 * j + i) then 16 ^ i * (e.causes.getD (8 * j + i) 0#4).toNat else 0).foldl (· + ·) 0)

/-- Bits and fields of a word, as places and values. -/
def wordOf (fields : List (Nat × Nat)) : W32 := BitVec.ofNat 32 ((fields.map fun e => e.2 * 2 ^ e.1).foldl (· + ·) 0)

/-- What CSRR reads of the defined numbers (Tables 1.7 to 1.9, 7.2, 15.5, 16.2, 16.3, 16.7, 17.4), but for the clock values and for
FPFLAGS and TBLDATA, which have statements of their own. -/
def State.csrTable (s : State) (n : Nat) : W32 :=
  let c := s.crew
  let own := s.ctx.launches.find? fun x => x.id == s.team.launch
  let blocked := s.ctx.teams.filter fun t => match t.phase with | .blocked => true | _ => false
  let sel := s.dev.sersel.toNat
  let ofUnit (cls index : BitVec 8) : Bool := cls.toNat == sel / 256 % 256 && index.toNat == sel % 256
  match n with
  | 0x000 => wordOf [(16, 1), (0, match s.part with | .lx960 => 1 | .lx940 => 0)]
  | 0x001 => s.ctx.ident
  | 0x002 => s.ctx.variant
  | 0x020 => s.team.handler
  | 0x021 => c.episodeWord Episode.trapPc
  | 0x022 => c.episodeWord Episode.trapInfo
  | 0x023 => c.causeVector 0
  | 0x024 => maskOf c.masked
  | 0x027 => c.causeVector 1
  | 0x028 => c.causeVector 2
  | 0x029 => c.causeVector 3
  | 0x02A => c.episodeWord fun e => e.trapAddr.extractLsb' 0 32
  | 0x02B => c.episodeWord fun e => e.trapAddr.extractLsb' 32 32
  | 0x030 => s.ctx.saveArea
  | 0x031 => s.ctx.saveAreaH
  | 0x032 => s.ctx.saveSlots ||| (if blocked = [] then 0#32 else 0x80000000#32)
  | 0x033 => s.ctx.saveStride
  | 0x034 => BitVec.ofNat 32 ((blocked.map Team.recordSize).foldl max 0)
  | 0x040 => c.fpmode
  | 0x050 => s.ctx.shutter
  | 0x051 => s.ctx.exposel
  | 0x052 => ~~~(readKey s.ctx.allowW (8 * fieldOf s.ctx.exposel 0 4 + fieldOf s.ctx.exposel 4 3))
  | 0x070 => wordOf [
      (31, bit s.team.bracket),
      (30, bit (s.dev.throttling || s.dev.throttleEnd.any fun t => decide (s.dev.clocks < t + 1200000))),
      (29, bit (own.any Launch.recording)), (28, bit (own.any Launch.replaying))]
  | 0x080 => s.ctx.xinvLo
  | 0x081 => s.ctx.xinvHi
  | 0x083 => c.tblidx
  | 0x090 => s.dev.sercfg
  | 0x091 => s.dev.sersel
  | 0x092 => wordOf [
      (31, bit ((s.dev.fences ++ s.dev.flashFences).any fun e => ofUnit e.1 e.2)),
      (0, (s.dev.errors.filter fun e => ofUnit e.1 e.2.1 &&
        decide (s.dev.clocks < e.2.2 + fieldOf s.dev.sercfg 0 8 * 4320000000000)).length)]
  | 0x093 => s.dev.pwrcap
  | 0x094 => s.dev.cslo
  | 0x095 => s.dev.cshi
  | 0x096 => s.dev.cssize
  | 0x097 => wordOf [
      (10, bit (s.ctx.launches.any (fun x => x.recording || x.replaying) ||
        s.swapped.any fun o => o.launches.any fun x => x.recording || x.replaying)),
      (9, bit s.dev.csDiverge), (8, bit s.dev.csTrunc), (0, s.dev.csmode.toNat)]
  | 0x098 => s.dev.csused
  | _ => 0#32

/-- The numbers that a table of the spec defines, FPFLAGS, TBLDATA, XINVCMD and the clock values among them. -/
def definedCsrs : List Nat :=
  [0x000, 0x001, 0x002, 0x010, 0x011, 0x020, 0x021, 0x022, 0x023, 0x024, 0x027, 0x028, 0x029, 0x02A, 0x02B, 0x030, 0x031, 0x032,
   0x033, 0x034, 0x040, 0x041, 0x050, 0x051, 0x052, 0x053, 0x070, 0x080, 0x081, 0x082, 0x083, 0x084, 0x090, 0x091, 0x092, 0x093,
   0x094, 0x095, 0x096, 0x097, 0x098]

/-! ## Scratchpad accesses -/

/-- A scratchpad access (R199, R208, Table 8.5): its PREFIX, its registers, the bytes that off6 counts, its size, the registers
it names from v(d) and how many of them it writes, and the access of each active lane. -/
structure SpadForm where
  p : Prefix
  d : BitVec 7
  a : Src
  off : BitVec 6
  elem : Nat
  size : Nat
  named : Nat
  dest : Nat := 0
  kind : ReqKind
  scope : Scope := .dev
  acq : Bool := false
  rel : Bool := false
  data : Crew → Nat → List Byte := fun _ _ => []
  compare : Crew → Nat → List Byte := fun _ _ => []

def spadForm : Instr → Option SpadForm
  | .lds p sx d a sz off => some
    { p := p, d := d, a := a, off := off, elem := widthBytes sz, size := widthBytes sz, named := widthRegs sz,
      dest := widthRegs sz, kind := .spadLoad sx }
  | .ldsQ p d a off => some
    { p := p, d := d, a := a, off := off, elem := 8, size := 16, named := 4, dest := 4, kind := .spadLoad false }
  | .sts p d a sz off => some
    { p := p, d := d, a := a, off := off, elem := widthBytes sz, size := widthBytes sz, named := widthRegs sz,
      kind := .spadStore, data := regBytes d.toNat (widthBytes sz) }
  | .stsQ p d a off => some
    { p := p, d := d, a := a, off := off, elem := 8, size := 16, named := 4, kind := .spadStore,
      data := regBytes d.toNat 16 }
  | .atoms p d a sz off => some
    { p := p, d := d, a := a, off := off, elem := widthBytes sz, size := widthBytes sz, named := widthRegs sz,
      dest := widthRegs sz, kind := .spadAtom p.c, scope := p.scope, acq := acquires p.order, rel := releases p.order,
      data := regBytes d.toNat (4 * widthRegs sz) }
  | .atomsCas p d a sz off => some
    { p := p, d := d, a := a, off := off, elem := widthBytes sz, size := widthBytes sz, named := 2 * widthRegs sz,
      dest := widthRegs sz, kind := .spadCas, scope := p.scope, acq := acquires p.order, rel := releases p.order,
      compare := regBytes d.toNat (4 * widthRegs sz), data := regBytes (d.toNat + widthRegs sz) (4 * widthRegs sz) }
  | _ => none

/-! ## Direct accumulator accesses -/

/-- A direct accumulator access (R231): its PREFIX, its registers, how many of them it writes, and its kind. -/
structure AccForm where
  p : Prefix
  d : BitVec 7
  a : Src
  dest : Nat := 0
  kind : ReqKind

def accForm : Instr → Option AccForm
  | .accRd p clr d a => some { p := p, d := d, a := a, dest := 1, kind := .accRd clr }
  | .accWr p d a => some { p := p, d := d, a := a, kind := .accWr }
  | .accAdd p d a => some { p := p, d := d, a := a, kind := .accAdd }
  | _ => none

end Sys2Proof.Machine
end

