-- ==== Sys2Proof/Certificates/Slice0/Obligations.lean ====
section
/-!
DEFINITION. The statements: what the rules of the spec say of each instruction, step and kind of state.
-/

open Sys2Proof Sys2Proof.Machine

/-- R166 to R168, R172, R182 to R184: an integer, logic, shift, bit-field, immediate or byte instruction that is ready completes,
writes its result in v(d) of each active lane, and changes no other register, flag or byte. -/
def Obligations.LaneUnitsWriteTheirResults : Prop :=
  ∀ (i : Instr) (x : LaneForm) (s : State), laneForm i = some x →
    s.LaneReady (s.activeLanes x.p) x.p.zeroing x.names →
    ∃ t, exec i s = .next t ∧ s.Completed t { s.crew with v := t.crew.v } ∧
      ∀ r l, l < 32 → t.crew.vreg r l =
        s.laneWritten (s.activeLanes x.p) x.p.zeroing x.d.toNat (x.value s.crew) r l

/-- R93, R161, R164, R172 to R180: a floating-point or conversion instruction, or MOV, that is ready completes, writes its result in v(d) of
each active lane, adds the flags of its active lanes to FPFLAGS, and changes nothing else. -/
def Obligations.FloatUnitsWriteResultsAndFlags : Prop :=
  ∀ (i : Instr) (x : FloatForm) (s : State), floatForm i = some x →
    s.LaneReady (s.activeLanes x.p) x.p.zeroing x.names →
    ∃ t, exec i s = .next t ∧ s.Completed t { s.crew with v := t.crew.v, fpflags := t.crew.fpflags } ∧
      addsFlags s.crew.fpflags t.crew.fpflags (s.activeLanes x.p) (fun l => (x.value s.crew l).2) ∧
      ∀ r l, l < 32 → t.crew.vreg r l =
        s.laneWritten (s.activeLanes x.p) x.p.zeroing x.d.toNat (fun l => (x.value s.crew l).1) r l

/-- R169, R170, R175: a compare that is ready completes and writes only mask md, and of it only the bits of the run: an active
lane gets its condition, ANDed with its old bit when V = 1, and an inactive lane 0 when zeroing is 1. FCMP adds NV for a
signaling NaN. -/
def Obligations.ComparesWriteOneMask : Prop :=
  ∀ (p : Prefix) (andOld : Bool) (md : BitVec 3) (a b : Src) (s : State), md ≠ 0#3 →
    s.LaneReady (s.activeLanes p) p.zeroing ((srcNames a 1).add (srcNames b 1)) →
    (∀ cc : IntCond, ∃ t, exec (.icmp p andOld cc md a b) s = .next t ∧ s.Completed t { s.crew with m := t.crew.m } ∧
      (∀ n, n ≠ 0 → n ≠ md.toNat → t.crew.mreg n = s.crew.mreg n) ∧
      ∀ l, l < 32 → (t.crew.mreg md.toNat).getLsbD l =
        if (s.activeLanes p).getLsbD l then
          intCond cc (s.crew.src a l) (s.crew.src b l) && (!andOld || (s.crew.mreg md.toNat).getLsbD l)
        else (s.crew.mreg md.toNat).getLsbD l && !(p.zeroing && s.cur.run.getLsbD l)) ∧
    ∀ cc : FpCond, ∃ t, exec (.fcmp p andOld cc md a b) s = .next t ∧
      s.Completed t { s.crew with m := t.crew.m, fpflags := t.crew.fpflags } ∧
      addsFlags s.crew.fpflags t.crew.fpflags (s.activeLanes p)
        (fun l => sigFlag [s.crew.fval (s.crew.src a l), s.crew.fval (s.crew.src b l)]) ∧
      (∀ n, n ≠ 0 → n ≠ md.toNat → t.crew.mreg n = s.crew.mreg n) ∧
      ∀ l, l < 32 → (t.crew.mreg md.toNat).getLsbD l =
        if (s.activeLanes p).getLsbD l then
          fpCond cc (s.crew.fval (s.crew.src a l)) (s.crew.fval (s.crew.src b l)) &&
            (!andOld || (s.crew.mreg md.toNat).getLsbD l)
        else (s.crew.mreg md.toNat).getLsbD l && !(p.zeroing && s.cur.run.getLsbD l)

/-- R93, R133, R171, R187: SEL chooses a or b for every lane of the run by the PREFIX mask and inv; ELECT writes 1 to the lowest
active lane and 0 to the other active lanes; a LUT in raw mode writes the entry that bits 8:0 of a select, and sets no flag, and
in linear mode writes the interpolation and adds its flags. DAZ acts on the operands of SEL and of the raw mode, as R93 names them
(log 89), and an exact zero of the linear mode has the sign of the sum (log 20). -/
def Obligations.SelectElectAndTableReads : Prop :=
  (∀ (p : Prefix) (d : BitVec 7) (a b : Src) (s : State),
    s.LaneReady s.cur.run false (((srcNames a 1).add (srcNames b 1)).add (destNames d 1)) →
    ∃ t, exec (.sel p d a b) s = .next t ∧ s.Completed t { s.crew with v := t.crew.v } ∧
      ∀ r l, l < 32 → t.crew.vreg r l = s.laneWritten s.cur.run false d.toNat (fun l =>
        dazWord s.crew (if (s.crew.mreg p.mask.toNat).getLsbD l != p.inv then s.crew.src a l else s.crew.src b l)) r l) ∧
  (∀ (p : Prefix) (d : BitVec 7) (s : State), s.LaneReady (s.activeLanes p) p.zeroing (destNames d 1) →
    ∃ t, exec (.elect p d) s = .next t ∧ s.Completed t { s.crew with v := t.crew.v } ∧
      ∀ r l, l < 32 → t.crew.vreg r l = s.laneWritten (s.activeLanes p) p.zeroing d.toNat
        (fun l => if ∀ j ∈ lanesOf (s.activeLanes p), l ≤ j then 1#32 else 0#32) r l) ∧
  (∀ (p : Prefix) (d : BitVec 7) (a : Src) (k : BitVec 2) (s : State),
    s.LaneReady (s.activeLanes p) p.zeroing ((srcNames a 1).add (destNames d 1)) →
    let e := (s.coreSt s.crew.core).entry k.toNat
    (∃ t, exec (.lut p d a .raw k) s = .next t ∧ s.Completed t { s.crew with v := t.crew.v } ∧
      ∀ r l, l < 32 → t.crew.vreg r l = s.laneWritten (s.activeLanes p) p.zeroing d.toNat
        (fun l => e ((dazWord s.crew (s.crew.src a l)).toNat % 512)) r l) ∧
    ∃ t, exec (.lut p d a .linear k) s = .next t ∧
      s.Completed t { s.crew with v := t.crew.v, fpflags := t.crew.fpflags } ∧
      addsFlags s.crew.fpflags t.crew.fpflags (s.activeLanes p)
        (fun l => (lutResult s.crew.ftz e (s.crew.fval (s.crew.src a l))).2) ∧
      ∀ r l, l < 32 → t.crew.vreg r l = s.laneWritten (s.activeLanes p) p.zeroing d.toNat
        (fun l => BitVec.ofNat 32 (lutResult s.crew.ftz e (s.crew.fval (s.crew.src a l))).1) r l)

/-- R185: XPOSE that is ready completes and writes four registers of each lane of the run: the 4 × 4 transposition of words within
each slice, once no load and no held unit is to write a word that it reads in another lane, or of bytes within each lane. -/
def Obligations.TranspositionsWriteFourRegisters : Prop :=
  ∀ (d r : BitVec 7) (s : State), s.LaneReady s.cur.run false ((srcNames (.v r) 4).add (destNames d 4)) →
    ((∀ j, j < 4 →
        let lanes := maskOf fun l => (List.range 4).any fun k => k == j && s.cur.run.getLsbD (4 * (l / 4) + k)
        s.pendingV [r.toNat + j] lanes = false ∧ s.crew.heldWrites [r.toNat + j] lanes s.cur.run = false) →
      ∃ t, exec (.xpose d (.v r) false) s = .next t ∧ s.Completed t { s.crew with v := t.crew.v } ∧
      ∀ q l, l < 32 → t.crew.vreg q l = s.lanesWritten s.cur.run false d.toNat 4
        (fun i l => s.crew.vreg (r.toNat + l % 4) (4 * (l / 4) + i)) q l) ∧
    ∃ t, exec (.xpose d (.v r) true) s = .next t ∧ s.Completed t { s.crew with v := t.crew.v } ∧
      ∀ q l, l < 32 → ∀ j, j < 4 → (t.crew.vreg q l).extractLsb' (8 * j) 8 =
        if d.toNat ≤ q ∧ q < d.toNat + 4 ∧ s.cur.run.getLsbD l = true then
          (s.crew.vreg (r.toNat + j) l).extractLsb' (8 * (q - d.toNat)) 8
        else (s.crew.vreg q l).extractLsb' (8 * j) 8

/-- R100, R181: BFPQ completes when it is ready. The mantissa form replaces byte r of v(d) in each active lane by the
mantissa of its block's quantization and adds the flags of the blocks with an active lane; the exponent form replaces byte r of
v(d) in lane 2j + h + 16 pick by the exponent of block h, for each block with an active lane, and sets no flag. The model's own
reading (log 88) of R93: FTZ flushes a nonzero quantized value below the normal range of FP32. -/
def Obligations.BlockQuantizationWritesBytes : Prop :=
  ∀ (p : Prefix) (d : BitVec 7) (a : Src) (r : BitVec 2) (s : State),
    s.LaneReady (s.activeLanes p) p.zeroing ((srcNames a 1).add (destNames d 1)) →
    (∀ m : BitVec 4, ∃ t, exec (.bfpqM p d a r m) s = .next t ∧
      s.Completed t { s.crew with v := t.crew.v, fpflags := t.crew.fpflags } ∧
      addsFlags s.crew.fpflags t.crew.fpflags (s.activeLanes p) (fun l =>
        (quantize m.toNat (s.crew.mode p.round) s.crew.ftz (s.crew.blockVals a (s.activeLanes p) (l / 16))).2.2) ∧
      (∀ l, l < 32 → (s.activeLanes p).getLsbD l = true → ∀ j : BitVec 2,
        (t.crew.vreg d.toNat l).extractLsb' (8 * j.toNat) 8 =
          if j = r then BitVec.ofInt 8 ((quantize m.toNat (s.crew.mode p.round) s.crew.ftz
            (s.crew.blockVals a (s.activeLanes p) (l / 16))).2.1.getD (l % 16) 0)
          else (s.crew.vreg d.toNat l).extractLsb' (8 * j.toNat) 8) ∧
      ∀ q l, l < 32 → ¬(q = d.toNat ∧ (s.activeLanes p).getLsbD l = true) → t.crew.vreg q l =
        s.laneWritten (s.activeLanes p) p.zeroing d.toNat (fun _ => 0#32) q l) ∧
    ∀ (pick : Bool) (j : BitVec 3), p.zeroing = false →
      (∀ h, h < 2 → blockActive (s.activeLanes p) h = true →
        let lane := 1#32 <<< (2 * j.toNat + h + (if pick then 16 else 0))
        s.pendingV [d.toNat] lane = false ∧ s.crew.heldWrites [d.toNat] lane s.cur.run = false) →
      ∃ t, exec (.bfpqE p d a pick r j) s = .next t ∧ s.Completed t { s.crew with v := t.crew.v } ∧
      (∀ h, h < 2 → blockActive (s.activeLanes p) h = true → ∀ k : BitVec 2,
        let l := 2 * j.toNat + h + (if pick then 16 else 0)
        (t.crew.vreg d.toNat l).extractLsb' (8 * k.toNat) 8 =
          if k = r then BitVec.ofNat 8 (quantize 8 .rne false (s.crew.blockVals a (s.activeLanes p) h)).1
          else (s.crew.vreg d.toNat l).extractLsb' (8 * k.toNat) 8) ∧
      ∀ q l, l < 32 → ¬(q = d.toNat ∧ ∃ h, h < 2 ∧ blockActive (s.activeLanes p) h = true ∧
          l = 2 * j.toNat + h + (if pick then 16 else 0)) → t.crew.vreg q l = s.crew.vreg q l

/-- R33, R41, R53, R55, R118, R142: a lane-set unit under a PREFIX without an active lane has no effect but zeroing, and its run
moves past it; one that names a register outside the budgets parks its active lanes with BUDGET, and its other lanes move past it;
one that names a register that a load will still write does not issue; and one that names a busy token waits for it at the unit.
R33, R54, R142, R256: a uniform unit that names k registers parks its whole run with BUDGET, does not issue, or waits, in the same
cases; with R3 and R304, the walker's instructions park their lanes with ABSENT on an LX940. None of these has any other effect. -/
def Obligations.UnitsThatDoNotTakeEffect : Prop :=
  let stays (s : State) (i : Instr) (p : State → Prop) : Prop :=
    ∃ t, exec i s = .next t ∧ s.Keeps t ∧ t.crew.regs = s.crew.regs ∧ p t
  let parks (s : State) (lanes : W32) (c : Cause) (t : State) : Prop := ∀ l ∈ lanesOf lanes,
    (t.crew.lane l).st = .parked ∧ (t.crew.lane l).cause = c ∧ (t.crew.lane l).saved = s.cur.pc
  let waits (s : State) (regs : List Nat) (t : State) : Prop := ∀ l ∈ lanesOf s.cur.run,
    t.crew.lane l = { s.crew.lane l with st := .waiting (.tokens regs) }
  let noHandler (s : State) : Prop := ∀ l ∈ lanesOf s.cur.run, (s.crew.lane l).inHandler = false
  (∀ (i : Instr) (x : GatedForm) (s : State), gatedForm i = some x → s.AtUnit → (x.walker = true → s.part = .lx960) →
    let act := s.activeLanes x.p
    let pending := s.pendingV x.names.v (if x.p.zeroing then s.cur.run else act)
    (act = 0#32 → s.team.budgetOk x.names = true → pending = false →
      ∃ t, exec i s = .next t ∧ s.Completed t { s.crew with v := t.crew.v, m := t.crew.m } ∧
        (∀ r l, l < 32 → t.crew.vreg r l =
          if x.d.toNat ≤ r ∧ r < x.d.toNat + x.cleared ∧ x.p.zeroing = true ∧ s.cur.run.getLsbD l = true then 0#32
          else s.crew.vreg r l) ∧
        ∀ n l, n ≠ 0 → l < 32 → (t.crew.mreg n).getLsbD l = ((s.crew.mreg n).getLsbD l &&
          !(decide (x.mask.map BitVec.toNat = some n) && x.p.zeroing && s.cur.run.getLsbD l))) ∧
    (act ≠ 0#32 → noHandler s → s.team.budgetOk x.names = false → stays s i fun t => parks s act .budget t ∧
      ∀ l ∈ lanesOf s.cur.run, act.getLsbD l = false →
        (t.crew.lane l).st = .runnable ∧ (t.crew.lane l).pc = pcAfter s.cur.pc s.cur.words) ∧
    (act ≠ 0#32 → s.team.budgetOk x.names = true → (pending = true ∨ s.pendingK x.names.k = true) →
      stays s i fun t => t.crew.lanes = s.crew.lanes) ∧
    (act ≠ 0#32 → s.team.budgetOk x.names = true → pending = false → s.pendingK x.names.k = false →
      s.busyAmong x.names.k ≠ [] → stays s i (waits s (s.busyAmong x.names.k)))) ∧
  (∀ (i : Instr) (x : NamedForm) (s : State), namedForm i = some x → s.AtUnit → (x.walker = true → s.part = .lx960) →
    (x.privileged = true → s.ctx.privileged = true) →
    (noHandler s → s.team.budgetOk x.names = false → stays s i (parks s s.cur.run .budget)) ∧
    (s.team.budgetOk x.names = true → s.busyAmong x.names.k ≠ [] → stays s i (waits s (s.busyAmong x.names.k))) ∧
    (s.team.budgetOk x.names = true → s.busyAmong x.names.k = [] → s.pendingK (x.names.k ++ x.names.quiet) = true →
      stays s i fun t => t.crew.lanes = s.crew.lanes)) ∧
  ∀ s : State, s.part = .lx940 → s.AtUnit → noHandler s →
    (∀ (i : Instr) (a b c : BitVec 8) (all : Bool), i = .cluOpen a b all ∨ i = .cluClose a ∨ i = .cluGrow a b c ∨
      i = .cluFence a all ∨ i = .walkSet a b ∨ i = .walk a b → stays s i (parks s s.cur.run .absent)) ∧
    ∀ (p : Prefix) (q : Bool) (d : BitVec 7) (a : Src) (rg : BitVec 8), s.activeLanes p ≠ 0#32 →
      stays s (.cluNode p q d a rg) (parks s (s.activeLanes p) .absent)

/-- R150 to R153, R156, R136: a uniform instruction that is ready completes and writes its result in k(d); k0 stays 0, and no
other register changes. -/
def Obligations.UniformUnitsWriteTheirResult : Prop :=
  ∀ (i : Instr) (x : UniformForm) (s : State), uniformForm i = some x → s.UniformReady x.names →
    ∃ t, exec i s = .next t ∧ s.Completed t { s.crew with k := t.crew.k } ∧
      ∀ r, t.crew.kreg r = if r = 0 then 0#32 else if r = x.d.toNat then x.result s.crew else s.crew.kreg r

/-- R136: k0 reads 0 and a write to it is discarded, m0 reads the live lanes and cannot be written, and every other register holds
the last value written to it. R154 to R157: KHI.RD and KHI.WR move between k(d) and k(256 + q), VTOK reads one lane's register, KTOM and MLOG write one
mask register: each completes when it is ready, and changes no other register. -/
def Obligations.MovesBetweenRegisterClasses : Prop :=
  (∀ (c : Crew) (x : W32),
    (c.kreg 0 = 0#32 ∧ c.setK 0 x = c) ∧
    (∀ l, l < 32 → ((c.mreg 0).getLsbD l = true ↔ (c.lane l).st ≠ .exited)) ∧ c.setM 0 x = c ∧
    (∀ r q, r ≠ 0 → (c.setK r x).kreg q = if q = r then x else c.kreg q) ∧
    (∀ n m, n ≠ 0 → (c.setM n x).mreg m = if m = n then x else c.mreg m) ∧
    ∀ r l q j, l < 32 → j < 32 → (c.setV r l x).vreg q j = if q = r ∧ j = l then x else c.vreg q j) ∧
  (∀ (d q : BitVec 8) (s : State), s.UniformReady { k := [d.toNat, 256 + q.toNat] } →
    (∃ t, exec (.khiRd d q) s = .next t ∧ s.Completed t { s.crew with k := t.crew.k } ∧
      ∀ r, t.crew.kreg r = if r = 0 then 0#32 else if r = d.toNat then s.crew.kreg (256 + q.toNat) else s.crew.kreg r) ∧
    ∃ t, exec (.khiWr d q) s = .next t ∧ s.Completed t { s.crew with k := t.crew.k } ∧
      ∀ r, t.crew.kreg r = if r = 256 + q.toNat then s.crew.kreg d.toNat else s.crew.kreg r) ∧
  (∀ (d : BitVec 8) (r : BitVec 7) (first : Bool) (l : BitVec 5) (s : State),
    s.UniformReady { k := [d.toNat], v := [r.toNat] } →
    let lane := if first then (lanesOf s.cur.run).headD 0 else l.toNat
    s.pendingV [r.toNat] (1#32 <<< lane) = false → s.crew.heldWrites [r.toNat] (1#32 <<< lane) s.cur.run = false →
    ∃ t, exec (.vtok d r first l) s = .next t ∧ s.Completed t { s.crew with k := t.crew.k } ∧
      ∀ q, t.crew.kreg q = if q = 0 then 0#32 else if q = d.toNat then
          s.crew.vreg r.toNat lane
        else s.crew.kreg q) ∧
  (∀ (m : BitVec 3) (a : BitVec 8) (s : State), m ≠ 0#3 → s.UniformReady { k := [a.toNat] } →
    ∃ t, exec (.ktom m a) s = .next t ∧ s.Completed t { s.crew with m := t.crew.m } ∧
      ∀ n, n ≠ 0 → t.crew.mreg n = if n = m.toNat then s.crew.kreg a.toNat else s.crew.mreg n) ∧
  ∀ (f : MlogOp) (md ma mb : BitVec 3) (s : State), md ≠ 0#3 → s.UniformReady {} →
    ∃ t, exec (.mlog f md ma mb) s = .next t ∧ s.Completed t { s.crew with m := t.crew.m } ∧
      (∀ n, n ≠ 0 → n ≠ md.toNat → t.crew.mreg n = s.crew.mreg n) ∧
      ∀ l, l < 32 → (t.crew.mreg md.toNat).getLsbD l =
        let a := (s.crew.mreg ma.toNat).getLsbD l
        let b := (s.crew.mreg mb.toNat).getLsbD l
        match f with
        | .and => a && b
        | .or => a || b
        | .xor => a != b
        | .andn => a && !b
        | .not => !a
        | .mov => a

/-- R35, R45, R50, R133, R149: NOP and KNOP change nothing and the run moves past them; BRA moves the lanes whose bit of the
mask XOR inv is 1 to its target and the others past it; CALL writes the link, the sign-extended address after it, into v0 and v1
of each lane and moves to its target; KBRA moves the whole run to its target when its condition holds, and past it otherwise. -/
def Obligations.BranchesMoveTheirLanes : Prop :=
  (∀ (imm : BitVec 16) (s : State), s.LaneReady s.cur.run false {} →
    ∃ t, exec (.nop imm) s = .next t ∧ s.Completed t s.crew) ∧
  (∀ s : State, s.UniformReady {} → ∃ t, exec .knop s = .next t ∧ s.Completed t s.crew) ∧
  (∀ (m : BitVec 3) (inv : Bool) (off : BitVec 20) (s : State), s.LaneReady s.cur.run false {} →
    ∃ t, exec (.bra m inv off) s = .next t ∧ s.Keeps t ∧ t.crew.regs = s.crew.regs ∧ s.MovesTo t fun l =>
      if (s.crew.mreg m.toNat).getLsbD l != inv then s.branchTo off else pcAfter s.cur.pc 1) ∧
  (∀ (off : BitVec 20) (s : State), s.LaneReady s.cur.run false (destNames 0#7 2) →
    ∃ t, exec (.call off) s = .next t ∧ s.Keeps t ∧ t.crew.regs = { s.crew.regs with v := t.crew.v } ∧
      (s.MovesTo t fun _ => s.branchTo off) ∧
      ∀ r l, l < 32 → t.crew.vreg r l = s.lanesWritten s.cur.run false 0 2
        (fun i _ => ((pcAfter s.cur.pc 1).signExtend 64).extractLsb' (32 * i) 32) r l) ∧
  ∀ (cc : BraCond) (a : BitVec 8) (off : BitVec 14) (s : State), s.UniformReady { k := [a.toNat] } → s.cur.words = 1 →
    ∃ t, exec (.kbra cc a off) s = .next t ∧ s.Keeps t ∧ t.crew.regs = s.crew.regs ∧ s.MovesTo t fun _ =>
      if (match cc with
        | .always => true
        | .zero => s.crew.kreg a.toNat == 0#32
        | .nonzero => s.crew.kreg a.toNat != 0#32
        | .neg => decide ((s.crew.kreg a.toNat).toInt < 0)) then s.branchTo off else pcAfter s.cur.pc 1

/-- R59, R133: BRX and RET move each lane to the address in its register pair. A lane whose address is not a multiple of 4 parks
with ALIGN, and one whose address is not canonical with PROT, at the unit and with the address as its trap address. -/
def Obligations.IndirectBranchesCheckTheirTargets : Prop :=
  ∀ (a : Src) (i : Instr) (s : State), i = .brx a ∨ i = .ret a → s.LaneReady s.cur.run false (srcNames a 2) →
    (∀ l ∈ lanesOf s.cur.run, (s.crew.lane l).inHandler = false) →
    ∃ t, exec i s = .next t ∧ s.Keeps t ∧ t.crew.regs = s.crew.regs ∧ ∀ l ∈ lanesOf s.cur.run,
      let x := s.crew.srcPair a l
      if x.toNat % 4 ≠ 0 then
        (t.crew.lane l).st = .parked ∧ (t.crew.lane l).cause = .align ∧ (t.crew.lane l).saved = s.cur.pc ∧
          (t.crew.lane l).trapAddr = x
      else if canonical x = false then
        (t.crew.lane l).st = .parked ∧ (t.crew.lane l).cause = .prot ∧ (t.crew.lane l).saved = s.cur.pc ∧
          (t.crew.lane l).trapAddr = x
      else t.crew.lane l = { s.crew.lane l with pc := x.setWidth 52, age := 0 }

/-- R51, R133: CALLX of lanes whose targets are aligned and canonical, each with a readable word before its target: a lane whose word
is a budget word that asks for no more registers than the team's budgets gets the link in v(d) and v(d + 1) and moves to its target,
and every other lane parks with BUDGET at the CALLX, its registers as they were. -/
def Obligations.CallxChecksTheBudgetWord : Prop :=
  ∀ (d : BitVec 7) (a : Src) (pa : Nat → Nat) (tr : Nat → Treat) (w : Nat → W32) (s : State),
    s.LaneReady s.cur.run false ((srcNames a 2).add (destNames d 2)) → (s.coreSt s.crew.core).oldCode = [] →
    let x (l : Nat) : W64 := s.crew.srcPair a l
    (∀ l ∈ lanesOf s.cur.run, (s.crew.lane l).inHandler = false ∧ (x l).toNat % 4 = 0 ∧ canonical (x l) = true ∧
      s.Translates (((x l).setWidth 52 : Addr) - 4#52).toNat (some .fetch) (pa l) (tr l) ∧
      s.homeRead (tr l) (pa l) 4 = w32Bytes (w l)) →
    let passes (l : Nat) : Prop := ∃ v k, budgetWord? (w l) = some (v, k) ∧ v ≤ s.team.vBudget ∧ k ≤ s.team.kBudget
    ∃ t, exec (.callx d a) s = .next t ∧ t.mem = s.mem ∧ t.dev = s.dev ∧ t.crew.regs = { s.crew.regs with v := t.crew.v } ∧
      (∀ l ∈ lanesOf s.cur.run,
        (passes l → t.crew.lane l = { s.crew.lane l with pc := (x l).setWidth 52, age := 0 }) ∧
        (¬passes l → (t.crew.lane l).st = .parked ∧ (t.crew.lane l).cause = .budget ∧ (t.crew.lane l).saved = s.cur.pc)) ∧
      ∀ r q, q < 32 → (passes q → t.crew.vreg r q = s.lanesWritten s.cur.run false d.toNat 2
          (fun i _ => ((pcAfter s.cur.pc 1).signExtend 64).extractLsb' (32 * i) 32) r q) ∧
        (¬passes q → t.crew.vreg r q = s.crew.vreg r q)

/-- R124, R126: at a JOIN whose crew has no hold open, the run is released past the JOIN at once when no counting lane of the
crew stands below it, inside a split region when SPLIT is set and the launch is not of the replay class; while a counting lane
outside the run stands below, and is itself not held, the run's lanes are held at the JOIN. -/
def Obligations.JoinHoldsUntilNoLaneIsBehind : Prop :=
  ∀ (split : Bool) (s : State), s.LaneReady s.cur.run false {} → s.crew.holds = [] →
    ((∀ l, l < 32 → (s.crew.lane l).counts = true → ¬((s.crew.lane l).place < s.cur.pc)) →
      (∃ l ∈ lanesOf s.cur.run, (s.crew.lane l).counts = true) →
      ∃ t, exec (.join split) s = .next t ∧ s.Keeps t ∧ t.crew.regs = s.crew.regs ∧ t.crew.holds = [] ∧
        ∀ l ∈ lanesOf s.cur.run, (t.crew.lane l).st = .runnable ∧ (t.crew.lane l).pc = pcAfter s.cur.pc 1 ∧
          (t.crew.lane l).split = (split && !s.team.replay)) ∧
    ((∃ l, l < 32 ∧ l ∉ lanesOf s.cur.run ∧ (s.crew.lane l).counts = true ∧ (s.crew.lane l).st ≠ .held ∧
        (s.crew.lane l).place < s.cur.pc) →
      ∃ t, exec (.join split) s = .next t ∧ s.Keeps t ∧ t.crew.regs = s.crew.regs ∧
        (∃ h ∈ t.crew.holds, h.pc = s.cur.pc) ∧
        ∀ l ∈ lanesOf s.cur.run, (t.crew.lane l).st = .held ∧ (t.crew.lane l).pc = s.cur.pc)

/-- R113: EXIT makes the lanes of the run dead, in a crew with no hold and no episode open and a team with no REGROUP waiting;
no register changes, and the other lanes stay as they are. -/
def Obligations.ExitEndsTheLanesOfTheRun : Prop :=
  ∀ s : State, s.LaneReady s.cur.run false {} → s.crew.holds = [] → s.crew.episode = none →
    (∀ x ∈ s.team.crews, x.regroupHold = none) →
    ∃ t, exec .exit s = .next t ∧ s.Keeps t ∧
      t.crew.regs = s.crew.regs ∧ (∀ l ∈ lanesOf s.cur.run, (t.crew.lane l).live = false) ∧
      ∀ l, l < 32 → l ∉ lanesOf s.cur.run → (s.crew.lane l).st ≠ .held → (t.crew.lane l).st = (s.crew.lane l).st ∧ (t.crew.lane l).pc = (s.crew.lane l).pc

/-- R127, R133: a convergent instruction whose whole member set arrives in one run, in a crew with no hold open and no lane in the
handler and a team with no REGROUP waiting, is performed at once: each member gets its value in v(d), and the run moves past it. -/
def Obligations.ConvergentUnitsActOnTheMemberSet : Prop :=
  ∀ (i : Instr) (x : ConvForm) (s : State), convForm i = some x →
    let members := s.crew.lanesWhere Lane.counts &&& (s.crew.mreg x.p.mask.toNat ^^^ (if x.p.inv then 0xFFFFFFFF#32 else 0#32))
    s.LaneReady (s.cur.run &&& members) x.p.zeroing (x.reads.add (destNames x.d 1)) →
    s.cur.run &&& members = members → s.crew.holds = [] → (∀ l, l < 32 → (s.crew.lane l).inHandler = false) →
    (∀ x ∈ s.team.crews, x.regroupHold = none) →
    ∃ t, exec i s = .next t ∧ s.Keeps t ∧
      t.crew.regs = { s.crew.regs with v := t.crew.v } ∧ t.crew.holds = [] ∧
      (∀ l ∈ lanesOf s.cur.run, (t.crew.lane l).st = .runnable ∧ (t.crew.lane l).pc = pcAfter s.cur.pc s.cur.words) ∧
      ∀ r l, l < 32 → t.crew.vreg r l =
        s.laneWritten members x.p.zeroing x.d.toNat (x.result s.crew members) r l

/-- The threads of some crews, with their crew, its REGROUP's destination and key, and their lane, in the order REGROUP deals
them: by key, then by crew, and by lane within a crew (R133). -/
def regroupOrder (crews : List (Crew × BitVec 7 × Src)) : List (Crew × BitVec 7 × Src × Nat) :=
  (List.range 16).flatMap fun k => crews.flatMap fun x =>
    ((lanesOf (x.1.lanesWhere Lane.counts)).filter fun l => (x.1.src x.2.2 l).toNat % 16 == k).map fun l => (x.1, x.2.1, x.2.2, l)

/-- The key of a thread of that list. -/
def regroupKey (x : Crew × BitVec 7 × Src × Nat) : Nat := (x.1.src x.2.2.1 x.2.2.2).toNat % 16

/-- R129, R133, R141: REGROUP of a crew whose whole live set arrives in one run with no load out, where the crews of its team that
stand at a REGROUP have its regroup mask and are named by it. While a crew that the mask names has neither arrived nor retired, the
run is held. Otherwise, with no key register of an arrived crew busy or awaiting a load (the keys are read at the deal, log 39), the
threads of the arrived crews are dealt 32 a crew, in crew order, to lanes 0, 1, …, by key, then crew, then
lane: each comes with its vector registers, its bits of m1 to m7 and its thread number, v(d) of its old crew's REGROUP is its rank
among the threads of its key, and it goes on after the new crew's REGROUP; the lanes left over exit. Other crews do not change. -/
def Obligations.RegroupDealsThreadsByKey : Prop :=
  ∀ (d : BitVec 7) (a : Src) (s : State), s.LaneReady s.cur.run false ((srcNames a 1).add (destNames d 1)) →
    s.cur.run = s.crew.lanesWhere Lane.counts → (∀ l ∈ lanesOf s.cur.run, (s.crew.lane l).inHandler = false) →
    s.loadsOut s.cur.run = false → s.crew.holds = [] → (∀ (j : Nat) (x : Crew), s.team.crews[j]? = some x → x.idx = j) →
    s.crew.rgx.getLsbD (s.team.position s.cur.crew % 8) = true →
    let named := ((s.team.group s.cur.crew).filter fun e => s.crew.rgx.getLsbD e.1).map Prod.snd
    (∀ x ∈ s.team.crews, x.regroupHold ≠ none → x ∈ named ∧ x.rgx = s.crew.rgx) →
    (∀ x ∈ named, ∀ h, x.regroupHold = some h → s.kReady s.cur.team x (srcNames h.2.2 1).k = true) →
    ((∃ x : Crew, x ∈ named ∧ x.idx ≠ s.cur.crew ∧ x.retired = false ∧ x.regroupHold = none) →
      ∃ t, exec (.regroup d a) s = .next t ∧ s.Keeps t ∧ t.crew.regs = s.crew.regs ∧
        ∀ l ∈ lanesOf s.cur.run, (t.crew.lane l).st = .held ∧ (t.crew.lane l).pc = s.cur.pc) ∧
    ((∀ x : Crew, x ∈ named → x.idx = s.cur.crew ∨ x.retired = true ∨ x.regroupHold ≠ none) →
      let arrived := named.filterMap fun (x : Crew) =>
        if x.idx = s.cur.crew then some (x, s.cur.pc, d, a) else x.regroupHold.map fun h => (x, h.1.pc, h.2.1, h.2.2)
      let order := regroupOrder (arrived.map fun (x : Crew × Addr × BitVec 7 × Src) => (x.1, x.2.2))
      ∃ t, exec (.regroup d a) s = .next t ∧ t.mem = s.mem ∧ t.dev = s.dev ∧
        (∀ i, (∀ x ∈ arrived, x.1.idx ≠ i) →
          (t.crewOf s.cur.team i).placeless = (s.crewOf s.cur.team i).placeless) ∧
        ∀ i x, arrived[i]? = some x → ∀ j, j < 32 →
          let c := t.crewOf s.cur.team x.1.idx
          match order[32 * i + j]? with
          | none => (c.lane j).live = false
          | some y => (c.lane j).st = .runnable ∧ (c.lane j).pc = pcAfter x.2.1 1 ∧ (c.lane j).tid = (y.1.lane y.2.2.2).tid ∧
              (c.vreg y.2.1.toNat j).toNat =
                ((order.take (32 * i + j)).filter fun z => regroupKey z == regroupKey y).length ∧
              (∀ r, r < s.team.vBudget → r ≠ y.2.1.toNat → c.vreg r j = y.1.vreg r y.2.2.2) ∧
              ∀ n, 1 ≤ n → n ≤ 7 → (c.mreg n).getLsbD j = (y.1.mreg n).getLsbD y.2.2.2)

/-- R130: one arrival with a count value on a barrier: the first of a phase sets the target, 0 meaning the crews not retired,
and the arrival that reaches it completes the phase. -/
def arrived (b : Barrier) (n staying : Nat) : Barrier :=
  let target := b.target.getD n
  if (if target = 0 then staying else target) ≤ b.count + 1 then { phase := b.phase + 1, count := 0, target := none }
  else { phase := b.phase, count := b.count + 1, target := some target }

/-- R130, R131, R133: BAR.ARR adds one arrival to the barrier once the accesses of the run's threads are performed, or are updates
sent from the core, and its run moves on; BAR.SYNC arrives in the same way and then waits for the phase, moving on at once when its arrival completed it; BAR.WAIT
moves on at once when the phase it names has completed, and otherwise its run waits for that phase. A count above the team's crews
parks the run with ILLEGAL and adds no arrival. In a team on a twin an arrival makes its core's dirty bytes performed at home, so
that the signature is empty, and the end of a wait leaves only dirty bytes in the core's L1. -/
def Obligations.BarriersCountArrivals : Prop :=
  let twinReleased (s t : State) : Prop := if s.team.twin = true then (t.coreSt s.crew.core).sig = [] else t.mem = s.mem ∧ t.dev = s.dev
  let twinAcquired (s t : State) : Prop :=
    s.team.twin = true → ∀ x ∈ (t.coreSt s.crew.core).l1, x.valid = x.dirty
  (∀ (bar : BitVec 4) (b : BitVec 8) (s : State), s.UniformReady { k := [b.toNat] } →
    (s.team.ncrews < (s.crew.kreg b.toNat).toNat → (∀ l ∈ lanesOf s.cur.run, (s.crew.lane l).inHandler = false) →
      ∀ i : Instr, i = .barArr bar b ∨ i = .barSync bar b → ∃ t, exec i s = .next t ∧ s.Keeps t ∧ t.crew.regs = s.crew.regs ∧
        ∀ l ∈ lanesOf s.cur.run, (t.crew.lane l).st = .parked ∧ (t.crew.lane l).cause = .illegal) ∧
    ((s.crew.kreg b.toNat).toNat ≤ s.team.ncrews → s.settledReqs true s.runReqs = false →
      ∀ i : Instr, i = .barArr bar b ∨ i = .barSync bar b → ∃ t, exec i s = .next t ∧ s.Keeps t ∧ t.crew.regs = s.crew.regs ∧
        ∀ l ∈ lanesOf s.cur.run, t.crew.lane l = { s.crew.lane l with st := .waiting (.sent s.runReqs) }) ∧
    ((s.crew.kreg b.toNat).toNat ≤ s.team.ncrews → s.settledReqs true s.runReqs = true → bar.toNat < s.team.bars.length →
      let old := s.team.bars.getD bar.toNat {}
      let new := arrived old (s.crew.kreg b.toNat).toNat s.team.staying
      (∃ t, exec (.barArr bar b) s = .next t ∧ s.MovesPast t ∧ t.team.bars.getD bar.toNat {} = new ∧
        (∀ j, j ≠ bar.toNat → t.team.bars.getD j {} = s.team.bars.getD j {}) ∧ twinReleased s t ∧
        t.crew.arrival bar.toNat = some old.phase ∧ t.crew.regs = { s.crew.regs with arrivals := t.crew.arrivals }) ∧
      (new.phase ≠ old.phase → ∃ t, exec (.barSync bar b) s = .next t ∧ s.MovesPast t ∧
        t.team.bars.getD bar.toNat {} = new ∧ t.crew.arrival bar.toNat = none ∧ twinReleased s t ∧ twinAcquired s t) ∧
      (new.phase = old.phase → ∃ t, exec (.barSync bar b) s = .next t ∧
        t.team.bars.getD bar.toNat {} = new ∧ twinReleased s t ∧
        ∀ l ∈ lanesOf s.cur.run, (t.crew.lane l).st = .waiting (.barrier bar.toNat old.phase) ∧
          (t.crew.lane l).pc = s.cur.pc))) ∧
  ∀ (bar : BitVec 4) (s : State), s.UniformReady {} →
    let phase := (s.crew.arrival bar.toNat).getD (s.team.bars.getD bar.toNat {}).phase
    (phase < (s.team.bars.getD bar.toNat {}).phase → ∃ t, exec (.barWait bar) s = .next t ∧ s.MovesPast t ∧
      (s.team.twin = false → s.Keeps t) ∧ t.mem = s.mem ∧ twinAcquired s t ∧
      t.crew.regs = { s.crew.regs with arrivals := t.crew.arrivals, unseen := t.crew.unseen } ∧
      t.crew.arrival bar.toNat = none) ∧
    (¬(phase < (s.team.bars.getD bar.toNat {}).phase) → ∃ t, exec (.barWait bar) s = .next t ∧ s.Keeps t ∧
      t.crew.regs = { s.crew.regs with arrivals := t.crew.arrivals } ∧
      ∀ l ∈ lanesOf s.cur.run, (t.crew.lane l).st = .waiting (.barWait bar.toNat phase (s.crew.arrival bar.toNat).isSome) ∧
        (t.crew.lane l).pc = s.cur.pc)

/-- R17, R132, R351, Table 5.4: SREG and KSREG read a special register: each active lane its own value, the crew that of the lowest
lane of the run. CLOCK is the context's clock modulo 2^32 where no contact sheet records or replays it. -/
def Obligations.SpecialRegistersAreRead : Prop :=
  ∀ (n : BitVec 4) (s : State), (∀ x, s.launch? s.team.launch = some x → x.recording = false ∧ x.replaying = false) →
    (∀ (p : Prefix) (d : BitVec 7), s.LaneReady (s.activeLanes p) p.zeroing (destNames d 1) →
      ∃ t, exec (.sreg p d n) s = .next t ∧ s.Completed t { s.crew with v := t.crew.v } ∧
        ∀ r l, l < 32 → t.crew.vreg r l =
          s.laneWritten (s.activeLanes p) p.zeroing d.toNat (fun l => s.tableSpecial n l) r l) ∧
    ∀ d : BitVec 8, n ≠ 0#4 → n ≠ 1#4 → s.UniformReady { k := [d.toNat] } →
      ∃ t, exec (.ksreg d n) s = .next t ∧ s.Completed t { s.crew with k := t.crew.k } ∧
        ∀ r, t.crew.kreg r = if r = 0 then 0#32 else if r = d.toNat then s.tableSpecial n ((lanesOf s.cur.run).headD 0)
          else s.crew.kreg r

/-- R116, R129, R133: YIELD ends its run's streak, unless it is issued ahead of a stalled run (the model's choice, log 99); RGX.SET sets the regroup mask when the value names the crew itself, only
crews of its group and nothing above bit 7, and parks its run with ILLEGAL otherwise; SLEEP of n clocks makes its run wait until
the clock has gone on by n, and moves on at once for 0. -/
def Obligations.YieldRegroupMaskAndSleep : Prop :=
  ∀ s : State,
    (s.UniformReady {} → ∃ t, exec .yieldRun s = .next t ∧ s.Completed t s.crew ∧ (s.cur.ahead = none → t.crew.streak = 64)) ∧
    (∀ a : BitVec 8, s.UniformReady { k := [a.toNat] } →
      let x := s.crew.kreg a.toNat
      let ok := x.toNat < 256 ∧ x.getLsbD (s.team.position s.cur.crew % 8) = true ∧
        ∀ i, i < 8 → x.getLsbD i = true → ∃ e ∈ s.team.group s.cur.crew, e.1 = i
      (ok → ∃ t, exec (.rgxSet a) s = .next t ∧ s.Completed t { s.crew with rgx := BitVec.ofNat 8 x.toNat }) ∧
      (¬ok → (∀ l ∈ lanesOf s.cur.run, (s.crew.lane l).inHandler = false) →
        ∃ t, exec (.rgxSet a) s = .next t ∧ s.Keeps t ∧ t.crew.regs = s.crew.regs ∧
        ∀ l ∈ lanesOf s.cur.run, (t.crew.lane l).st = .parked ∧ (t.crew.lane l).cause = .illegal)) ∧
    ∀ imm : BitVec 16, s.UniformReady {} →
      (imm = 0#16 → ∃ t, exec (.sleep imm) s = .next t ∧ s.Completed t s.crew) ∧
      (imm ≠ 0#16 → ∃ t, exec (.sleep imm) s = .next t ∧ s.Keeps t ∧ t.crew.regs = s.crew.regs ∧
        ∀ l ∈ lanesOf s.cur.run, t.crew.lane l = { s.crew.lane l with st := .waiting (.sleep (s.ctx.clock + imm.toNat)), age := 0 })

/-- The value a scratchpad or global load of some bytes gives register i of its destination: zero- or sign-extended to 32 bits
when it is of 4 bytes or fewer (R208, R253). -/
def loadedWord (sx : Bool) (bytes : List Byte) (i : Nat) : W32 :=
  if bytes.length ≤ 4 then
    (if sx then BitVec.ofInt 32 (signedOf (8 * bytes.length) (bytesNat bytes)) else BitVec.ofNat 32 (bytesNat bytes))
  else BitVec.ofNat 32 (bytesNat ((bytes.drop (4 * i)).take 4))

/-- A scratchpad unit that is ready completes: one access for each active lane joins the outstanding ones, in lane order, at the
lane's wrapped, size-aligned offset, and no register changes but those that zeroing clears. -/
def spadIssues (i : Instr) (x : SpadForm) (s : State) : Prop :=
  ∃ t rs, exec i s = .next t ∧ s.MovesPast t ∧ s.SendsOnly t ∧ t.dev = s.dev ∧ t.ctx.cmds = s.ctx.cmds ∧
    t.ctx.reqs = s.ctx.reqs ++ rs ∧ rs.map Req.lane = lanesOf (s.activeLanes x.p) ∧
    (∀ r ∈ rs, r =
      { id := r.id, unit := s.nextId, team := s.cur.team, crew := s.cur.crew, core := s.crew.core, lane := r.lane,
        thread := some (s.crew.lane r.lane).tid, kind := x.kind, pa := s.laneOffset x.a r.lane x.off x.elem x.size,
        size := x.size, scope := x.scope, acq := x.acq, rel := x.rel, data := x.data s.crew r.lane,
        compare := x.compare s.crew r.lane, handler := (s.crew.lane r.lane).inHandler, dest := x.d.toNat, regs := x.dest, pc := s.cur.pc, words := s.cur.words,
        run := 1#32 <<< r.lane, units := s.crew.units }) ∧
    t.crew.regs = { s.crew.regs with v := t.crew.v } ∧
    s.destsCleared t x.p x.d x.dest

/-- An outstanding access to the scratchpad or the accumulators that may be performed (R198, R222), in a team with no ring stage
whose contents are unspecified (R317). -/
structure NearRequest (s : State) (r : Req) : Prop where
  found : s.req? r.id = some r
  ready : s.reqReady r = true
  crew : s.hasCrew r.team r.crew
  whole : ∀ g ∈ (s.teamOf r).rings, g.spoilt = []

/-- A team without its scratchpad, its accumulators, and what orders its accesses and the view of its plates; its crews without
their vector registers. -/
def shell (t : Team) : Team :=
  { t with spad := [], openSpad := [], acc0 := [], acc1 := [], openAcc0 := [], openAcc1 := [], owed := [],
           crews := t.crews.map fun c => { c with v := [], unseen := [] } }

/-- The frame of an access performed: it is outstanding no more, and no other access changes but for its mark that it was passed
(R199); of the rest only its team's scratchpad, accumulators and vector
registers may change, and matrix operations in flight may be spoiled by it (R206). -/
def nearFrame (s t : State) (r : Req) : Prop :=
  t = { s with ctx := { s.ctx with teams := t.ctx.teams, cmds := t.ctx.cmds, reqs := t.ctx.reqs } } ∧
    ((t.ctx.reqs.map fun q => { q with jumped := false }) =
      ((s.ctx.reqs.filter fun q => q.id != r.id).map fun q => { q with jumped := false })) ∧ t.ctx.teams.map shell = s.ctx.teams.map shell ∧
    (t.ctx.cmds.map fun x => { x with tainted := false }) = (s.ctx.cmds.map fun x => { x with tainted := false }) ∧
    (∀ id, id ≠ r.team → t.team? id = s.team? id) ∧
    ∀ i, i ≠ r.crew → (t.crewOf r.team i).v = (s.crewOf r.team i).v

/-- R194, R197, R208, R209: LDS and LDS.Q that are ready send a load for each active lane to its wrapped, size-aligned offset. A load
that is performed gives the registers of its lane, whose thread is still there, the bytes of the allocation at its place; the
scratchpad and everything else stay as they are. -/
def Obligations.ScratchpadLoadsReadTheAllocation : Prop :=
  (∀ (i : Instr) (x : SpadForm) (s : State), spadForm i = some x → (∃ sx, x.kind = .spadLoad sx) →
    s.LaneReady (s.activeLanes x.p) x.p.zeroing ((srcNames x.a 1).add (destNames x.d x.named)) → spadIssues i x s) ∧
  ∀ (r : Req) (sx : Bool) (s : State), NearRequest s r → r.kind = .spadLoad sx → r.lane < 32 →
    ((s.crewOf r.team r.crew).lane r.lane).live = true → r.thread = some ((s.crewOf r.team r.crew).lane r.lane).tid →
    (r.size ≤ 4 → r.regs = 1) →
    ∃ t, exec (.loadDataReturn r.id) s = .next t ∧ nearFrame s t r ∧
      { t.teamOf r with crews := [] } = { s.teamOf r with crews := [] } ∧
      ∀ q l, l < 32 → (t.crewOf r.team r.crew).vreg q l =
        if l = r.lane ∧ r.dest ≤ q ∧ q < r.dest + r.regs then loadedWord sx (readBytes (s.teamOf r).spad r.pa r.size) (q - r.dest)
        else (s.crewOf r.team r.crew).vreg q l

/-- R194, R197, R208: STS and STS.Q that are ready send a store of the bytes of each active lane's registers to its wrapped,
size-aligned offset. A store that is performed leaves its bytes in the allocation at its place; every other byte of the allocation
is as it was, and no register changes. -/
def Obligations.ScratchpadStoresWriteTheAllocation : Prop :=
  (∀ (i : Instr) (x : SpadForm) (s : State), spadForm i = some x → x.kind = .spadStore →
    s.LaneReady (s.activeLanes x.p) x.p.zeroing ((srcNames x.a 1).add (destNames x.d x.named)) → spadIssues i x s) ∧
  ∀ (r : Req) (s : State), NearRequest s r → r.kind = .spadStore →
    ∃ t, exec (.requestPerformed r.id) s = .next t ∧ nearFrame s t r ∧
      (t.crewOf r.team r.crew).v = (s.crewOf r.team r.crew).v ∧
      (t.teamOf r).acc0 = (s.teamOf r).acc0 ∧ (t.teamOf r).acc1 = (s.teamOf r).acc1 ∧
      ∀ o, readKey (t.teamOf r).spad o =
        if r.pa ≤ o ∧ o < r.pa + r.data.length then r.data.getD (o - r.pa) 0#8 else readKey (s.teamOf r).spad o

/-- R199, R208, Tables 8.5 and 10.8: ATOMS and ATOMS.CAS that are ready send an atomic for each active lane. One that is performed
gives the registers of its lane, whose thread is still there, the old value; ATOMS leaves the new value of its operation code at its
place, and ATOMS.CAS its new value where the old value equals its compare value. Other bytes are as they were. -/
def Obligations.ScratchpadAtomicsReadModifyWrite : Prop :=
  (∀ (i : Instr) (x : SpadForm) (s : State), spadForm i = some x →
    ((∃ code, x.kind = .spadAtom code) ∨ x.kind = .spadCas) →
    s.LaneReady (s.activeLanes x.p) x.p.zeroing ((srcNames x.a 1).add (destNames x.d x.named)) → spadIssues i x s) ∧
  ∀ (r : Req) (s : State), NearRequest s r → r.lane < 32 →
    ((s.crewOf r.team r.crew).lane r.lane).live = true → r.thread = some ((s.crewOf r.team r.crew).lane r.lane).tid →
    r.size = 4 * r.regs → (r.size = 4 ∨ r.size = 8) → r.data.length = r.size →
    let old := readBytes (s.teamOf r).spad r.pa r.size
    let leaves (ys : List Byte) : Prop := ∃ t, exec (.requestPerformed r.id) s = .next t ∧ nearFrame s t r ∧
      (t.teamOf r).acc0 = (s.teamOf r).acc0 ∧ (t.teamOf r).acc1 = (s.teamOf r).acc1 ∧
      (∀ q l, l < 32 → (t.crewOf r.team r.crew).vreg q l =
        if l = r.lane ∧ r.dest ≤ q ∧ q < r.dest + r.regs then loadedWord false old (q - r.dest)
        else (s.crewOf r.team r.crew).vreg q l) ∧
      ∀ o, readKey (t.teamOf r).spad o =
        if r.pa ≤ o ∧ o < r.pa + ys.length then ys.getD (o - r.pa) 0#8 else readKey (s.teamOf r).spad o
    (∀ code : BitVec 8, r.kind = .spadAtom code →
      leaves (natBytes (opValue code (8 * r.size) (bytesNat old) (bytesNat r.data)) r.size)) ∧
    (r.kind = .spadCas → leaves (if old = r.compare then r.data else []))

/-- R213, R214, R222, R231: a direct accumulator unit that is ready sends one access for each active lane whose row lies inside its
crew's window, and its other active lanes park with ACCWIN. An access that is performed to a row that no command has owned: ACC.RD
gives its lane the entry, and with CLR leaves 0 in it; ACC.WR and ACC.ADD leave v(d), or the FP32 sum rounded once, in the entry;
ACC.CLR leaves 0 in every entry of its rows. Other entries do not change. -/
def Obligations.DirectAccumulatorUnits : Prop :=
  (∀ (i : Instr) (x : AccForm) (s : State), accForm i = some x →
    s.LaneReady (s.activeLanes x.p) x.p.zeroing ((srcNames x.a 1).add (destNames x.d 1)) →
    let row (l : Nat) : Nat := (s.crew.src x.a l).toNat / 2 ^ 9 % 2 ^ 10
    let col (l : Nat) : Nat := (s.crew.src x.a l).toNat % 2 ^ 9
    let inside (l : Nat) : Bool := decide (s.crew.window.1 ≤ row l) && decide (row l < s.crew.window.2)
    (∀ l ∈ lanesOf (s.activeLanes x.p), inside l = true ∨ ∀ q ∈ lanesOf s.cur.run, (s.crew.lane q).inHandler = false) →
    ∃ t rs, exec i s = .next t ∧ s.SendsOnly t ∧ t.dev = s.dev ∧ t.ctx.cmds = s.ctx.cmds ∧ t.ctx.reqs = s.ctx.reqs ++ rs ∧
      rs.map Req.lane = (lanesOf (s.activeLanes x.p)).filter inside ∧
      (∀ r ∈ rs, r =
        { id := r.id, unit := s.nextId, team := s.cur.team, crew := s.cur.crew, core := s.crew.core, lane := r.lane,
          thread := some (s.crew.lane r.lane).tid, kind := x.kind, pa := 512 * row r.lane + col r.lane, size := 1,
          dest := x.d.toNat, regs := x.dest, handler := (s.crew.lane r.lane).inHandler,
          owned := if s.owners s.cur.team s.crew.core (row r.lane) = [] then [] else [row r.lane],
          data := regBytes x.d.toNat 4 s.crew r.lane, pc := s.cur.pc, words := s.cur.words, run := 1#32 <<< r.lane,
          units := s.crew.units }) ∧
      t.crew.regs = { s.crew.regs with v := t.crew.v } ∧ s.destsCleared t x.p x.d x.dest ∧
      ∀ l ∈ lanesOf s.cur.run,
        if (s.activeLanes x.p).getLsbD l = true ∧ inside l = false then
          (t.crew.lane l).st = .parked ∧ (t.crew.lane l).cause = .accwin ∧ (t.crew.lane l).saved = s.cur.pc
        else t.crew.lane l = { s.crew.lane l with pc := pcAfter s.cur.pc s.cur.words, age := 0 }) ∧
  ∀ (r : Req) (s : State), NearRequest s r → r.owned = [] →
    (∀ row, r.pa / 512 ≤ row → row < r.pa / 512 + (r.size + 511) / 512 → s.owners r.team r.core row = []) →
    let acc (s : State) : Sparse 32 := (s.teamOf r).acc r.core
    let leaves (i : Instr) (delivers : Bool) (new : Nat → W32) : Prop := ∃ t, exec i s = .next t ∧ nearFrame s t r ∧
      (t.teamOf r).spad = (s.teamOf r).spad ∧ (∀ c, (c == (s.teamOf r).core) ≠ (r.core == (s.teamOf r).core) →
        (s.teamOf r).twin = true → (t.teamOf r).acc c = (s.teamOf r).acc c) ∧
      (∀ e, readKey (acc t) e = if r.pa ≤ e ∧ e < r.pa + r.size then new e else readKey (acc s) e) ∧
      ∀ q l, l < 32 → (t.crewOf r.team r.crew).vreg q l =
        if delivers = true ∧ l = r.lane ∧ q = r.dest then readKey (acc s) r.pa else (s.crewOf r.team r.crew).vreg q l
    (∀ clr : Bool, r.kind = .accRd clr → r.size = 1 → r.regs = 1 → r.lane < 32 →
      ((s.crewOf r.team r.crew).lane r.lane).live = true → r.thread = some ((s.crewOf r.team r.crew).lane r.lane).tid →
      leaves (.loadDataReturn r.id) true fun e => if clr then 0#32 else readKey (acc s) e) ∧
    (r.size = 1 → r.data.length = 4 →
      (r.kind = .accWr → leaves (.requestPerformed r.id) false fun _ => BitVec.ofNat 32 (bytesNat r.data)) ∧
      (r.kind = .accAdd → leaves (.requestPerformed r.id) false fun e =>
        BitVec.ofNat 32 (opValue 9#8 32 (readKey (acc s) e).toNat (bytesNat r.data)))) ∧
    (r.kind = .accClr → r.pa % 512 = 0 → leaves (.requestPerformed r.id) false fun _ => 0#32)

/-- R215, R228, R229: ACC.WIN issued by crew 0 sets a crew's window; it holds for crew 0 at once, and another crew's units are
checked against the window as that crew still sees it. ACC.CLR sends a clear of rows inside its crew's window, and completes at once
for no row. Each parks its run with ACCWIN when its operands are out of range. -/
def Obligations.AccumulatorWindowsAndClears : Prop :=
  ∀ (d a b : BitVec 8) (s : State), (∀ l ∈ lanesOf s.cur.run, (s.crew.lane l).inHandler = false) →
    (s.UniformReady { k := [d.toNat, a.toNat, b.toNat] } →
      let target := (s.crew.kreg d.toNat).toNat
      let base := (s.crew.kreg a.toNat).toNat
      let limit := (s.crew.kreg b.toNat).toNat
      let ok := s.cur.crew = 0 ∧ target < s.team.ncrews ∧ base ≤ limit ∧ limit ≤ s.team.accRows
      (ok → s.hasCrew s.cur.team target → (∀ (j : Nat) (x : Crew), s.team.crews[j]? = some x → x.idx = j) →
        ∃ t, exec (.accWin d a b) s = .next t ∧ s.MovesPast t ∧
        (t.crewOf s.cur.team target).winBase = base ∧ (t.crewOf s.cur.team target).winLimit = limit ∧
        (t.crewOf s.cur.team target).window = (if target = 0 then (base, limit) else (s.crewOf s.cur.team target).window) ∧
        (∀ id i, ¬(id = s.cur.team ∧ i = target) →
          (t.crewOf id i).regs = { (s.crewOf id i).regs with unseen := (t.crewOf id i).unseen }) ∧
        t = { s with nextId := t.nextId, ctx := { s.ctx with teams := t.ctx.teams } } ∧
        t.ctx.teams.map Team.bare = s.ctx.teams.map Team.bare) ∧
      (¬ok → ∃ t, exec (.accWin d a b) s = .next t ∧ s.Keeps t ∧ t.crew.regs = s.crew.regs ∧
        ∀ l ∈ lanesOf s.cur.run, (t.crew.lane l).st = .parked ∧ (t.crew.lane l).cause = .accwin)) ∧
    (s.UniformReady { k := [a.toNat, b.toNat] } →
      let first := (s.crew.kreg a.toNat).toNat
      let count := (s.crew.kreg b.toNat).toNat
      (count = 0 → ∃ t, exec (.accClr a b) s = .next t ∧ s.Completed t s.crew) ∧
      (count ≠ 0 → s.crew.window.1 ≤ first → first + count ≤ s.crew.window.2 →
        ∃ t r, exec (.accClr a b) s = .next t ∧ s.MovesPast t ∧ s.SendsOnly t ∧ t.crew.regs = s.crew.regs ∧
          t.ctx.reqs = s.ctx.reqs ++ [r] ∧ r.kind = .accClr ∧ r.team = s.cur.team ∧ r.crew = s.cur.crew ∧
          r.core = s.crew.core ∧ r.pa = 512 * first ∧ r.size = 512 * count) ∧
      (count ≠ 0 → ¬(s.crew.window.1 ≤ first ∧ first + count ≤ s.crew.window.2) →
        ∃ t, exec (.accClr a b) s = .next t ∧ s.Keeps t ∧ t.crew.regs = s.crew.regs ∧
          ∀ l ∈ lanesOf s.cur.run, (t.crew.lane l).st = .parked ∧ (t.crew.lane l).cause = .accwin))

/-- R204, R205, R210, Table 8.4: PLATE.MAP writes a status in k(d) and, when it is 0, sets the descriptor to the control word with
MAPPED; PLATE.UNMAP with no operation of the team on the plate in flight clears the descriptor. The issuing crew sees the change at
once, and the team's other crews the descriptor that they saw before. PLATE.INFO returns the descriptor as its crew sees it. -/
def Obligations.PlatesAreMappedAndUnmapped : Prop :=
  let sees (s t : State) (pl : Nat) (w : W32) : Prop :=
    (∀ j, t.team.plate j = if j = pl then w else s.team.plate j) ∧
    ∀ i, i < s.team.crews.length → ∀ j, t.team.plateFor i j =
      if i = s.cur.crew ∧ j = pl then w else s.team.plateFor i j
  let indexed (s : State) : Prop := ∀ (j : Nat) (x : Crew), s.team.crews[j]? = some x → x.idx = j
  (∀ (d : BitVec 8) (pl : BitVec 3) (b : BitVec 8) (s : State), s.UniformReady { k := [d.toNat, b.toNat] } →
    pl.toNat < s.team.plates.length → indexed s →
    let w := s.crew.kreg b.toNat
    let first := w.toNat % 2 ^ 6
    let count := w.toNat / 2 ^ 6 % 2 ^ 7
    let kt := w.toNat / 2 ^ 13 % 2 ^ 7
    let macros := (List.range count).map fun i => first + i
    let fields := w.toNat < 2 ^ 22 ∧ w.toNat / 2 ^ 20 % 4 ≠ 3 ∧ 1 ≤ kt ∧ 1 ≤ count ∧ count % kt = 0 ∧ first + count ≤ 64
    let status : W32 :=
      if ¬fields then 1#32
      else if ¬∀ j ∈ macros, s.team.macroInside j = true then 2#32
      else if ∃ j ∈ macros, s.team.macroTaken pl.toNat j = true then 3#32
      else if (s.team.plate pl.toNat).getLsbD 31 = true then 4#32
      else 0#32
    ∃ t, exec (.plateMap d pl b) s = .next t ∧ s.MovesPast t ∧ t.mem = s.mem ∧ t.dev = s.dev ∧
      t.crew.regs = { s.crew.regs with k := t.crew.k, unseen := t.crew.unseen } ∧
      (∀ r, t.crew.kreg r = if r = 0 then 0#32 else if r = d.toNat then status else s.crew.kreg r) ∧
      if status = 0#32 then sees s t pl.toNat (w ||| 0x80000000#32)
      else t.team.plates = s.team.plates ∧ ∀ i j, t.team.plateFor i j = s.team.plateFor i j) ∧
  (∀ (pl : BitVec 3) (s : State), s.UniformReady {} → s.waitDone s.team s.crew (.plate pl.toNat) = true →
    indexed s → ∃ t, exec (.plateUnmap pl) s = .next t ∧ s.MovesPast t ∧ t.mem = s.mem ∧
      t.crew.regs = { s.crew.regs with unseen := t.crew.unseen } ∧ sees s t pl.toNat 0#32) ∧
  ∀ (d : BitVec 8) (pl : BitVec 3) (s : State), s.UniformReady { k := [d.toNat] } →
    ∃ t, exec (.plateInfo d pl) s = .next t ∧ s.Completed t { s.crew with k := t.crew.k } ∧
      ∀ r, t.crew.kreg r = if r = 0 then 0#32 else if r = d.toNat then s.team.plateFor s.cur.crew pl.toNat
        else s.crew.kreg r


/-- R234, R238, R249, R252, R253: a global access that is ready, and whose active lanes' addresses are canonical, aligned, mapped
with the right it needs and reachable, completes: one request for each active lane, or two of 8 bytes for a 16-byte access, joins the
outstanding ones, in lane order, with the lane's address, physical address, treatment, order, scope and data; no register changes
but those that zeroing clears. -/
def Obligations.GlobalUnitsIssueTheirRequests : Prop :=
  ∀ (i : Instr) (x : GlobalForm) (pa : Nat → Nat) (tr : Nat → Treat) (s : State), globalForm i = some x →
    s.LaneReady (s.activeLanes x.p) x.p.zeroing ((srcNames x.a 2).add (destNames x.d x.named)) → s.MayIssue →
    (∀ l ∈ lanesOf (s.activeLanes x.p), canonical (x.addr s.crew l) = true ∧ (x.addr s.crew l).toNat % x.size = 0 ∧
      s.Translates ((x.addr s.crew l).toNat % 2 ^ 52) (some x.acc) (pa l) (tr l) ∧ s.reachable (pa l)) →
    ∃ t rs, exec i s = .next t ∧ s.MovesPast t ∧ s.SendsOnly t ∧ t.ctx.cmds = s.ctx.cmds ∧
      t.ctx.reqs = s.ctx.reqs ++ rs ∧
      (rs.map fun r => { r with id := 0, number := none }) =
        (lanesOf (s.activeLanes x.p)).flatMap (fun l => x.requests s (pa l) (tr l) l) ∧
      t.crew.regs = { s.crew.regs with v := t.crew.v } ∧ s.destsCleared t x.p x.d x.dest

/-- R233, R237, R238, R239, R370: an active lane whose address is not canonical meets PROT, and one whose address is canonical and
not a multiple of the access size ALIGN. The lanes that a unit parks park at one moment: at once when every active lane meets such a
cause; and where another active lane makes a request, whose data may bring a cause too, they wait at the unit, each with its cause
and its trap address kept in a failed request, while the others move past it. The one active lane of a unit whose page no kept
translation covers parks with the cause that the walk gives, XLATE also reporting the page. A trap address is bits 51:0 of the lane's
address, sign-extended. -/
def Obligations.GlobalAccessesParkWithTheirCause : Prop :=
  ∀ (i : Instr) (x : GlobalForm) (s : State), globalForm i = some x →
    s.LaneReady (s.activeLanes x.p) x.p.zeroing ((srcNames x.a 2).add (destNames x.d x.named)) → s.MayIssue →
    (∀ l ∈ lanesOf s.cur.run, (s.crew.lane l).inHandler = false) →
    let trap (l : Nat) : W64 := ((x.addr s.crew l).setWidth 52).signExtend 64
    let cause (l : Nat) : Option Cause :=
      if canonical (x.addr s.crew l) = false then some .prot
      else if (x.addr s.crew l).toNat % x.size ≠ 0 then some .align else none
    let parks (t : State) (l : Nat) (c : Cause) : Prop :=
      (t.crew.lane l).st = .parked ∧ (t.crew.lane l).cause = c ∧ (t.crew.lane l).saved = s.cur.pc ∧
        (t.crew.lane l).trapAddr = trap l
    ((∀ l ∈ lanesOf (s.activeLanes x.p), cause l ≠ none) →
      ∃ t, exec i s = .next t ∧ t.mem = s.mem ∧ t.ctx.reqs = s.ctx.reqs ∧
        ∀ l ∈ lanesOf (s.activeLanes x.p), ∀ c, cause l = some c → parks t l c) ∧
    (∀ (q pa : Nat) (tr : Treat), q ∈ lanesOf (s.activeLanes x.p) → cause q = none →
      s.Translates ((x.addr s.crew q).toNat % 2 ^ 52) (some x.acc) pa tr → s.reachable pa →
      ∃ t, exec i s = .next t ∧ t.mem = s.mem ∧ (t.crew.lane q).st = .runnable ∧
        (t.crew.lane q).pc = pcAfter s.cur.pc s.cur.words ∧
        ∀ l ∈ lanesOf (s.activeLanes x.p), ∀ c, cause l = some c →
          (t.crew.lane l).st = .waiting .unit ∧ (t.crew.lane l).pc = s.cur.pc ∧
          ∃ r ∈ t.ctx.reqs, r.unit = s.nextId ∧ r.lane = l ∧ r.failed = some c ∧ r.va = trap l ∧ r.size = 0 ∧ r.regs = 0) ∧
    ∀ (l : Nat) (c : Cause), lanesOf (s.activeLanes x.p) = [l] → cause l = none →
      let va := (x.addr s.crew l).toNat % 2 ^ 52
      (∀ k ∈ s.ctx.tlb, k.page ≠ va / 65536) → (s.walk va).apply va (some x.acc) = .fail c →
      ∃ t, exec i s = .next t ∧ t.mem = s.mem ∧ t.ctx.reqs = s.ctx.reqs ∧ parks t l c ∧
        (c = .xlate → va / 65536 ∈ t.ctx.reported)

/-- R254, R256: KLD that is ready sends one request for the word at its address, for k(d), and its run moves past it without
waiting; a misaligned or non-canonical address parks its run. PREF raises nothing, and changes no register and no byte of
memory. -/
def Obligations.UniformLoadsAndPrefetch : Prop :=
  (∀ (d a b : BitVec 8) (pa : Nat) (tr : Treat) (s : State), s.UniformReady { k := [d.toNat, a.toNat, a.toNat + 1] } →
    s.MayIssue →
    let x := (s.crew.kreg (a.toNat + 1) ++ s.crew.kreg a.toNat) + BitVec.ofNat 64 (4 * b.toNat)
    (canonical x = true → x.toNat % 4 = 0 → s.Translates (x.toNat % 2 ^ 52) (some .load) pa tr → s.reachable pa →
      ∃ t r, exec (.kld d a b) s = .next t ∧ s.MovesPast t ∧ s.SendsOnly t ∧ t.crew.regs = s.crew.regs ∧
        t.ctx.reqs = s.ctx.reqs ++ [r] ∧ r.kind = .load false ∧ r.team = s.cur.team ∧ r.crew = s.cur.crew ∧
        r.lane = 32 ∧ r.pa = pa ∧ r.treat = tr ∧ r.size = 4 ∧ r.dest = d.toNat ∧ r.regs = 1 ∧ r.scope = .dev ∧
        r.acq = false) ∧
    ((canonical x = false ∨ x.toNat % 4 ≠ 0) → (∀ l ∈ lanesOf s.cur.run, (s.crew.lane l).inHandler = false) →
      ∃ t, exec (.kld d a b) s = .next t ∧ s.Keeps t ∧ t.crew.regs = s.crew.regs ∧
        ∀ l ∈ lanesOf s.cur.run, (t.crew.lane l).st = .parked ∧
          (t.crew.lane l).cause = if canonical x = false then .prot else .align)) ∧
  ∀ (p : Prefix) (l2 : Bool) (a : Src) (off : BitVec 6) (s : State),
    s.LaneReady (s.activeLanes p) p.zeroing (srcNames a 2) →
    ∃ t, exec (.pref p l2 a off) s = .next t ∧ s.MovesPast t ∧ s.SendsOnly t ∧ t.crew.regs = s.crew.regs ∧
      t.ctx.reqs = s.ctx.reqs ∧ t.ctx.cmds = s.ctx.cmds ∧ t.ctx.reported = s.ctx.reported

/-- A request that may be performed now, with no region, sheet, promotion or release to attend to. -/
structure PlainRequest (s : State) (r : Req) : Prop where
  found : s.req? r.id = some r
  ready : s.reqReady r = true
  leaf : s.leafRegion r.pa = none
  sent : r.leaf = false
  shadow : s.shadowRegion r.pa = none
  remote : r.remote = false
  rel : r.rel = false
  host : s.ctx.l2host = []
  crew : s.hasCrew r.team r.crew
  sheet : s.noSheet

/-- R113, R249, R250, R253, R255, R256, R264, Table 10.8: a load of a D or U page that is performed, where its core holds no copy of the
line, gives its registers the bytes at its place, extended, and changes nothing in memory; a store writes its bytes there, and an
atomic or a reduction the new value of its operation code, while an atomic's registers get the old value. The value of a lane whose
thread is no longer there is discarded. The request's entry is freed, and no byte outside the access changes. Data with an
uncorrectable error fails the request and writes no register; and of a 16-byte load the first half that is back is kept until the other
is back too, when both are written (R255). -/
def Obligations.RequestsArePerformedAtHome : Prop :=
  ∀ (r : Req) (s : State), PlainRequest s r → r.treat ≠ .s → lineIn (s.coreSt r.core).l1 (r.pa / 64) = none →
    let bytes := readBytes s.mem r.pa r.size
    let c := s.crewOf r.team r.crew
    let here := (c.lane r.lane).live = true ∧ r.thread = some (c.lane r.lane).tid
    let freed (t : State) : Prop := t.ctx.reqs = s.ctx.reqs.filter fun q => q.id != r.id
    let stored (t : State) (ys : List Byte) : Prop := ∀ a, readKey t.mem a =
      if r.pa ≤ a ∧ a < r.pa + ys.length then ys.getD (a - r.pa) 0#8 else readKey s.mem a
    let changed (code : BitVec 8) : List Byte :=
      natBytes (opValue code (8 * r.size) (bytesNat bytes) (bytesNat r.data)) r.size
    let received (t : State) (sx : Bool) : Prop :=
      (t.crewOf r.team r.crew).regs = { c.regs with v := (t.crewOf r.team r.crew).v, k := (t.crewOf r.team r.crew).k } ∧
      (∀ q l, l < 32 → (t.crewOf r.team r.crew).vreg q l =
        if here ∧ l = r.lane ∧ r.dest ≤ q ∧ q < r.dest + r.regs then loadedWord sx bytes (q - r.dest) else c.vreg q l)
    let extended (sx : Bool) : List Byte := (List.range r.regs).flatMap fun i => w32Bytes (loadedWord sx bytes i)
    (∀ sx : Bool, r.kind = .load sx → s.badAt r.pa = true → ∃ t, exec (.loadDataReturn r.id) s = .next t ∧ t.mem = s.mem ∧
      (t.crewOf r.team r.crew).regs = c.regs ∧ ∃ x ∈ t.ctx.reqs, x.id = r.id ∧ x.failed = some .ecc ∧ x.bound = none) ∧
    (∀ (sx : Bool) (q : Req), r.kind = .load sx → s.badAt r.pa = false → s.half r = some q →
      (r.size ≤ 4 → r.regs = 1) → (4 < r.size → r.size = 4 * r.regs) →
      (q.bound = none → q.failed = none → ∃ t, exec (.loadDataReturn r.id) s = .next t ∧ t.mem = s.mem ∧
        (t.crewOf r.team r.crew).regs = c.regs ∧ ∃ x ∈ t.ctx.reqs, x.id = r.id ∧ x.bound = some (extended sx)) ∧
      ∀ ys : List Byte, q.bound = some ys → q.team = r.team → q.crew = r.crew → q.thread = r.thread → r.lane < 32 →
        (q.dest + q.regs ≤ r.dest ∨ r.dest + r.regs ≤ q.dest) →
        ∃ t, exec (.loadDataReturn r.id) s = .next t ∧ t.mem = s.mem ∧
          (∀ x ∈ t.ctx.reqs, x.id ≠ r.id ∧ x.id ≠ q.id) ∧
          ∀ y l, l < 32 → (t.crewOf r.team r.crew).vreg y l =
            if here ∧ l = r.lane ∧ r.dest ≤ y ∧ y < r.dest + r.regs then loadedWord sx bytes (y - r.dest)
            else if here ∧ l = r.lane ∧ q.dest ≤ y ∧ y < q.dest + q.regs then
              BitVec.ofNat 32 (bytesNat ((ys.drop (4 * (y - q.dest))).take 4))
            else c.vreg y l) ∧
    (∀ sx : Bool, r.kind = .load sx → s.badAt r.pa = false → s.half r = none → (r.size ≤ 4 → r.regs = 1) →
      ∃ t, exec (.loadDataReturn r.id) s = .next t ∧ freed t ∧ t.mem = s.mem ∧
        (r.lane < 32 → received t sx ∧ ∀ q, (t.crewOf r.team r.crew).kreg q = c.kreg q) ∧
        (r.lane = 32 → r.size = 4 → ∀ q, (t.crewOf r.team r.crew).kreg q =
          if q = 0 then 0#32 else if q = r.dest then BitVec.ofNat 32 (bytesNat bytes) else c.kreg q)) ∧
    (r.kind = .store → ∃ t, exec (.requestPerformed r.id) s = .next t ∧ freed t ∧ stored t r.data ∧
      (t.crewOf r.team r.crew).regs = c.regs) ∧
    (∀ code, r.kind = .red code → ∃ t, exec (.requestPerformed r.id) s = .next t ∧ freed t ∧ stored t (changed code) ∧
      (t.crewOf r.team r.crew).regs = c.regs) ∧
    (r.lane < 32 → r.size = 4 * r.regs → (r.size = 4 ∨ r.size = 8) →
      (∀ code, r.kind = .atom code → ∃ t, exec (.requestPerformed r.id) s = .next t ∧ freed t ∧ received t false ∧
        stored t (changed code)) ∧
      (r.kind = .cas → ∃ t, exec (.requestPerformed r.id) s = .next t ∧ freed t ∧ received t false ∧
        stored t (if bytesNat bytes = bytesNat r.compare then natBytes (bytesNat r.data) r.size else []))) ∧
    (r.kind = .bitmapOr → ∃ t, exec (.requestPerformed r.id) s = .next t ∧ freed t ∧
      stored t [readKey s.mem r.pa ||| r.data.headD 0#8])

/-- R242, R243, R265: a store to an S page that is not a wide release stays in its core's L1: home does not change, the core itself
reads the new bytes, and no other core does. S_LINE_WRITEBACK writes the dirty bytes of a line home, and only those, and the
line leaves the L1. -/
def Obligations.SLinesStayUntilWrittenBack : Prop :=
  (∀ (r : Req) (s : State), PlainRequest s r → r.treat = .s → r.kind = .store → r.data ≠ [] →
    r.pa % 64 + r.data.length ≤ 64 → (∀ x ∈ (s.coreSt r.core).l1, x.data.length = 64) →
    ∃ t, exec (.requestPerformed r.id) s = .next t ∧ t.mem = s.mem ∧
      (t.ctx.reqs = s.ctx.reqs.filter fun q => q.id != r.id) ∧
      (t.coreRead r.core r.who .s r.pa r.data.length false).2 = r.data ∧
      r.pa / 64 ∈ (t.coreSt r.core).sig ∧ ∀ c, c ≠ r.core → t.coreSt c = s.coreSt c) ∧
  ∀ (core line : Nat) (s : State), s.noSheet → rangeOf s.part (64 * line) = some .device →
    ∃ t, exec (.sLineWriteback core line) s = .next t ∧ lineIn (t.coreSt core).l1 line = none ∧
      (t.coreSt core).sig = (s.coreSt core).sig ∧
      t.ctx.teams = s.ctx.teams ∧ t.ctx.reqs = s.ctx.reqs ∧
      ∀ a, readKey t.mem a = match lineIn (s.coreSt core).l1 line with
        | some x => if a / 64 = line ∧ x.dirty.getLsbD (a % 64) = true ∧ a % 64 < x.data.length
            then x.data.getD (a % 64) 0#8 else readKey s.mem a
        | none => readKey s.mem a

/-- R278, R399: while the device runs, a host read of device memory changes nothing, and a host write leaves exactly its bytes at
its addresses, changing no register of any team. The model's own choice (log 7): an address below the control window and outside the
device memory of the part faults; and (log 53) the control window stands at address 2^52. R360, R407: a word that the host writes to a
doorbell slot stands there, and 48 bytes to the nonce stand there. R401: a command of a peer is performed once, in device memory: a load
answers with its bytes, a store leaves its bytes, an atomic and a compare-and-swap answer with the old bytes; the response is kept, and
a repeat of its number changes nothing. -/
def Obligations.HostsAndPeersAccessDeviceMemory : Prop :=
  ∀ (pa : Nat) (s : State), s.dev.boot = .running → pa < 2 ^ 52 →
    let stored (t : State) (ys : List Byte) : Prop := t.ctx.teams = s.ctx.teams ∧ ∀ a, readKey t.mem a =
      if pa ≤ a ∧ a < pa + ys.length then ys.getD (a - pa) 0#8 else readKey s.mem a
    (pa + 1 ≤ deviceBytes s.part → exec (.hostMemAccess pa none) s = .next s) ∧
    (deviceBytes s.part < pa + 1 → exec (.hostMemAccess pa none) s = .fault .noDeviceMemory) ∧
    (∀ ys : List Byte, pa + max 1 ys.length ≤ deviceBytes s.part →
      ∃ t, exec (.hostMemAccess pa (some ys)) s = .next t ∧ t.dev = s.dev ∧ stored t ys) ∧
    (∀ ys : List Byte, deviceBytes s.part < pa + max 1 ys.length →
      exec (.hostMemAccess pa (some ys)) s = .fault .noDeviceMemory) ∧
    (0x100000 ≤ s.dev.window →
      (∀ (k : Nat) (v : W32), k < 1024 →
        ∃ t, exec (.hostMemAccess (2 ^ 52 + 0x1000 + 4 * k) (some (w32Bytes v))) s = .next t ∧
          t = { s with dev := { s.dev with dbSlots := t.dev.dbSlots } } ∧
          ∀ j, readKey t.dev.dbSlots j = if j = k then v else readKey s.dev.dbSlots j) ∧
      ∀ ys : List Byte, ys.length = 48 →
        exec (.hostMemAccess (2 ^ 52 + 0x90000) (some ys)) s = .next { s with dev := { s.dev with nonce := ys } }) ∧
    ∀ (source n : Nat) (number : W32), pa + n ≤ deviceBytes s.part →
      let old := readBytes s.mem pa n
      let performs (op : RemoteOp) (data ys : List Byte) : Prop :=
        ∃ t, exec (.remoteCommand source number op) s = .next t ∧ stored t ys ∧
          ({ source := source, number := number, data := data } : KeptResponse) ∈ t.dev.kept ∧
          t.dev = { s.dev with kept := t.dev.kept }
      ((∃ k ∈ s.dev.kept, k.source = source ∧ k.number = number) → ∀ op, exec (.remoteCommand source number op) s = .next s) ∧
      ((∀ k ∈ s.dev.kept, k.source = source → k.number ≠ number) →
        performs (.load pa n) old [] ∧
        (∀ ys : List Byte, ys.length = n → performs (.store pa ys) [] ys) ∧
        (∀ (code : BitVec 8) (v : W64), performs (.atomic code pa n v) old
          (natBytes (opValue code (8 * n) (bytesNat old) (v.toNat % 2 ^ (8 * n))) n)) ∧
        ∀ c v : W64, performs (.cas pa n c v) old
          (if bytesNat old = c.toNat % 2 ^ (8 * n) then natBytes v.toNat n else []))

/-- R237, R239, R240, R371, R372, R373: PAGE_WALK of a page with a leaf keeps the translation (the model's choice, log 11: R240 allows
it). XINV_PAGE drops the kept translations of the page that holds the address named when the invalidation was asked for, and XINV_ALL
every one, ending the invalidation; neither acts while a translated access to that address's GiB, or any, is outstanding (the
model's choice of what an invalidation waits for, log 11). XLATE_SERVICE with an entry writes it, ends the report of the page and
makes the lanes parked on the page runnable at their units; without one, those lanes join the handler's queue with their cause, in
the order of parking, run by run (log 80). -/
def Obligations.TranslationsAreKeptDroppedAndServiced : Prop :=
  (∀ (va : W64) (e : W64) (level : Nat) (s : State), s.walk (va.toNat % 2 ^ 52) = .leaf e level →
    (∀ k ∈ s.ctx.tlb, k.page ≠ va.toNat % 2 ^ 52 / 65536) →
    exec (.pageWalk va) s = .next { s with ctx := { s.ctx with tlb := s.ctx.tlb ++
      [{ page := va.toNat % 2 ^ 52 / 65536, entry := e, level := level }] } }) ∧
  (∀ s : State, s.ctx.xinvCmd = 1 →
    let far (r : Req) : Prop := r.kind.near = true ∨ r.size = 0
    let gib (x : Nat) : Nat := x / 2 ^ 30
    ((∀ r ∈ s.ctx.reqs, far r ∨ gib (r.va.toNat % 2 ^ 52) ≠ gib s.ctx.xinvAt) →
      ∃ kept, exec .xinvPage s = .next { s with ctx := { s.ctx with xinvCmd := 0, tlb := kept } } ∧
        ∀ k, k ∈ kept ↔ k ∈ s.ctx.tlb ∧ k.page * 65536 / leafBytes k.level ≠ s.ctx.xinvAt / leafBytes k.level) ∧
    ((∃ r ∈ s.ctx.reqs, ¬far r ∧ gib (r.va.toNat % 2 ^ 52) = gib s.ctx.xinvAt) → exec .xinvPage s = .next s)) ∧
  (∀ s : State, s.ctx.xinvCmd = 2 → (∀ r ∈ s.ctx.reqs, r.kind.near = true ∨ r.size = 0) →
    exec .xinvAll s = .next { s with ctx := { s.ctx with xinvCmd := 0, tlb := [] } }) ∧
  ∀ (page : Nat) (s : State), page ∈ s.ctx.reported → (∀ x ∈ s.ctx.launches, s.launchOver x = false) →
    (∀ t ∈ s.ctx.teams, t.phase = .running) → (∀ id i l, ((s.crewOf id i).lane l).inHandler = false) →
    (∀ x ∈ s.ctx.saved, ∀ c ∈ x.team.crews, ∀ l, (c.lane l).inHandler = false) →
    (∀ (slot : Nat) (e : W64), ∃ t, exec (.xlateService page (some (slot, e))) s = .next t ∧ page ∉ t.ctx.reported ∧
      (∀ a, readKey t.mem a = if slot ≤ a ∧ a < slot + 8 then e.extractLsb' (8 * (a - slot)) 8 else readKey s.mem a) ∧
      ∀ id i r l, r ∈ (s.crewOf id i).atMaelner → r.lanes.getLsbD l = true → l < 32 → l < (s.crewOf id i).lanes.length →
        ((s.crewOf id i).lane l).faultPage = page →
        ((t.crewOf id i).lane l).st = .runnable ∧ ((t.crewOf id i).lane l).pc = ((s.crewOf id i).lane l).pc) ∧
    ∃ t, exec (.xlateService page none) s = .next t ∧ page ∉ t.ctx.reported ∧ t.mem = s.mem ∧
      ∀ id i,
        (∀ r, r ∈ (s.crewOf id i).atMaelner → (s.crewOf id i).onPage r page ≠ 0#32 →
          { r with lanes := (s.crewOf id i).onPage r page } ∈ (t.crewOf id i).queue) ∧
        let ordered (c : Crew) : Prop := c.queue.Pairwise fun a b => a.stamp ≤ b.stamp
        (ordered (s.crewOf id i) → ordered (t.crewOf id i))

/-- R199, R257, R262, R268, R269: a request does not perform while an earlier one of its thread that touches one of its bytes, or is
an acquire of global memory by an earlier unit, is outstanding, with no value bound and no cause; nor an access to the scratchpad while
an earlier acquire of its crew there of a scope above the crew is, which is not of core scope in a team on two cores; nor a global request while a FENCE that its crew issued before it has not ended. A uniform load
belongs to every thread of its crew (the model's choice, log 35). R243, R244, R266, Table 11.2: a FENCE whose accesses are
performed, or are updates sent from the core where its scope is crew, core or twin, completes at once while no release has passed an
update that is still on its way, and it waits otherwise. No register changes. A release of twin scope or wider empties the core's signature; an acquire of
such a scope leaves only dirty bytes in the core's L1; without remote scope the only bytes of memory that change are dirty bytes of the
core's L1. R258: the same holds for CWB and CINV of a crew with no write outstanding, which complete: CWB of the whole cache leaves no
dirty byte, and CINV nothing at all; over a range within a page, exactly the lines that the range touches are written back, and for
CINV dropped. -/
def Obligations.EarlierRequestsFencesAndCacheMaintenance : Prop :=
  (∀ (r : Req) (s : State), s.req? r.id = some r →
    ((∃ q ∈ earlier r s.ctx.reqs, q.failed = none ∧ q.bound = none ∧
        ((sameThread q r = true ∧ (overlap q r = true ∨ (q.acq = true ∧ q.kind.near = false ∧ q.unit ≠ r.unit))) ∨
          (q.team = r.team ∧ q.crew = r.crew ∧ q.kind.spad = true ∧ r.kind.spad = true ∧ q.acq = true ∧ q.scope ≠ .crew ∧
            s.coreOnly q = false))) ∨
      (r.kind.near = false ∧ s.hasCrew r.team r.crew ∧ ∃ l, l < 32 ∧ ∃ ids upto sc a b c,
        ((s.crewOf r.team r.crew).lane l).st = .waiting (.fence ids upto sc a b c) ∧ upto ≤ r.id)) →
    exec (.loadDataReturn r.id) s = .next s ∧ exec (.requestPerformed r.id) s = .next s) ∧
  ∀ s : State, s.ctx.l2host = [] →
    let core := s.crew.core
    let quiet (t : State) : Prop := ∀ a,
      (∀ x ∈ (s.coreSt core).l1, ¬(x.line = a / 64 ∧ x.dirty.getLsbD (a % 64) = true)) → readKey t.mem a = readKey s.mem a
    (∀ (scope : Scope) (remote : Bool) (order : Order), s.UniformReady {} →
      let ids := s.fenceReqs s.cur.team s.cur.crew scope (releases order)
      ((∀ r ∈ s.ctx.reqs, r.passed = false ∧
          (r.id ∈ ids → releases order = true ∧ scopeNarrow scope = true ∧ r.passable = true)) → ∃ t, exec (.fence scope remote order) s = .next t ∧ s.MovesPast t ∧ t.crew.regs = s.crew.regs ∧
        (remote = false → quiet t) ∧
        (releases order = true → scopeWide scope = true → (t.coreSt core).sig = []) ∧
        (acquires order = true → scopeWide scope = true → ∀ x ∈ (t.coreSt core).l1, x.valid = x.dirty)) ∧
      ((∃ r ∈ s.ctx.reqs, r.id ∈ ids ∧ ¬(releases order = true ∧ scopeNarrow scope = true ∧ r.passable = true)) →
        ∃ t, exec (.fence scope remote order) s = .next t ∧ t.mem = s.mem ∧ t.dev = s.dev ∧
        t.crew.regs = s.crew.regs ∧ t.ctx.reqs = s.ctx.reqs ∧
        ∀ l ∈ lanesOf s.cur.run, ∃ upto, (t.crew.lane l).st =
            .waiting (.fence ids upto scope (releases order) (acquires order) remote) ∧ (t.crew.lane l).pc = s.cur.pc)) ∧
    ∀ (a b : BitVec 8) (inv : Bool), let i : Instr := if inv then .cinv a b else .cwb a b
      s.UniformReady { k := if b = 0#8 then [] else [a.toNat, a.toNat + 1, b.toNat] } →
      (∀ r ∈ s.ctx.reqs, ¬(r.team = s.cur.team ∧ r.crew = s.cur.crew ∧ r.kind.writes = true)) →
      ∃ t, exec i s = .next t ∧ s.MovesPast t ∧ t.crew.regs = s.crew.regs ∧ quiet t ∧ t.ctx.reqs = s.ctx.reqs ∧
        (((s.coreSt core).l1.map Line.line).Nodup →
          (b = 0#8 → (∀ x ∈ (t.coreSt core).l1, x.dirty = 0#64) ∧ (inv = true → (t.coreSt core).l1 = [])) ∧
          ∀ (pa : Nat) (tr : Treat), b ≠ 0#8 →
            let va := (s.crew.kreg (a.toNat + 1) ++ s.crew.kreg a.toNat).toNat
            let n := (s.crew.kreg b.toNat).toNat
            s.Translates (va % 2 ^ 52) none pa tr → va % 65536 + n ≤ 65536 → ∀ line,
              lineIn (t.coreSt core).l1 line =
                if 0 < n ∧ pa < 64 * line + 64 ∧ 64 * line < pa + n then
                  (if inv then none else (lineIn (s.coreSt core).l1 line).map fun x => { x with dirty := 0#64, seen := [] })
                else lineIn (s.coreSt core).l1 line)


/-- R46, R142, R143, R331: an engine command that is ready and allowed completes at issue: it joins the commands in flight with
its kind, its crew, its token and the descriptor as it stands; its token is busy until the command ends; a LAUNCH also queues its
record. A copy depends on its chain and on its register, a matrix operation on the conditions of MXFENCE, which it uses up. No
register and no byte changes. The plate and the window are those that the crew sees (R205, R215). -/
def Obligations.EngineCommandsAreQueued : Prop :=
  ∀ (i : Instr) (x : CommandForm) (s : State), commandForm i = some x →
    s.UniformReady { k := [x.t.toNat], quiet := [256 + x.q.toNat + (x.n - 1)] } →
    s.commandAllowed x →
    ∃ t y, exec i s = .next t ∧ s.MovesPast t ∧ s.SendsOnly t ∧ t.ctx.reqs = s.ctx.reqs ∧
      t.ctx.cmds = s.ctx.cmds ++ [y] ∧ y.id = s.nextId ∧ y.kind = x.kind ∧ y.team = s.cur.team ∧ y.crew = s.cur.crew ∧
      y.core = s.crew.core ∧ y.token = x.t.toNat ∧ y.imm = x.imm ∧ y.units = s.crew.units ∧
      y.desc = ((List.range x.n).map fun j => s.descWord x j) ∧ y.started = false ∧
      t.crew.busy = s.crew.busy ++ [(x.t.toNat, s.nextId)] ∧
      t.crew.regs = { s.crew.regs with busy := t.crew.busy, chain := t.crew.chain, mxCmds := t.crew.mxCmds,
                                       mxFailed := t.crew.mxFailed, mxPhases := t.crew.mxPhases } ∧
      t.crew.chain = (if x.streams then (if x.chains then some (.inl s.nextId) else none) else s.crew.chain) ∧
      (x.streams = true → x.depends = false → s.crew.chain = none → y.deps = []) ∧
      (x.streams = true → ∀ id, s.crew.chain = some (.inl id) → .cmd id ∈ y.deps) ∧
      (x.depends = true → s.depkOf x ≠ 0 → ∀ id, s.crew.busy = [(s.depkOf x, id)] → .cmd id ∈ y.deps) ∧
      ((x.kind = .mxr ∨ x.kind = .mxg) → t.crew.mxCmds = [] ∧ t.crew.mxFailed = false ∧ t.crew.mxPhases = [] ∧
        y.regs = ((s.captured x).flatMap fun r =>
          (List.range (if x.kind = .mxr then 32 else fieldOf (s.descWord x 1) 17 4 + 1)).map fun l => s.crew.vreg r l) ∧
        (∀ id ∈ s.crew.mxCmds, .cmd id ∈ y.deps) ∧ (s.crew.mxFailed = true → .failed ∈ y.deps) ∧
        ((s.team.plateFor s.cur.crew (x.imm.toNat % 8)).getLsbD 31 = true →
          y.ownBase = fieldOf (s.descWord x 1) 0 10 ∧ y.ownCount = s.ownedRows x)) ∧
      (x.kind = .plateLoad → y.regs = [s.team.plateFor s.cur.crew (fieldOf (s.descWord x 2) 0 3)]) ∧
      (x.kind = .walk → y.theta = s.crew.theta ∧ y.walkMode = s.crew.walkMode ∧ y.mincount = s.crew.mincount) ∧
      (x.kind = .launch → ∃ r : Incoming, t.ctx.incoming = s.ctx.incoming ++ [r] ∧ r.cmd = some s.nextId ∧
        r.record = s.descWord x 1 ++ s.descWord x 0 ∧
        r.die = if fieldOf (s.descWord x 2) 0 3 = 7 then s.dieOf s.crew.core else fieldOf (s.descWord x 2) 0 3) ∧
      (x.kind ≠ .launch → t.ctx.incoming = s.ctx.incoming)

/-- R290, R300, R301, R304, R326: a range load or CLU.NODE that is ready sends one request for each active lane and moves on, whatever
region its number names: whether that is open and of its kind is seen at each request's position; Table 12.9 gives the kind. On the LX940, CLU.NODE parks its
active lanes with ABSENT. -/
def Obligations.RegionReadsAreSent : Prop :=
  ∀ (i : Instr) (x : RegionForm) (s : State), regionForm i = some x →
    s.LaneReady (s.activeLanes x.p) x.p.zeroing ((srcNames x.a 2).add (destNames x.d x.dest)) → s.MayIssue →
    ((x.cluster = true → s.part = .lx960) →
      ∃ t rs, exec i s = .next t ∧ s.MovesPast t ∧ s.SendsOnly t ∧ t.ctx.reqs = s.ctx.reqs ++ rs ∧
        rs.map Req.lane = lanesOf (s.activeLanes x.p) ∧
        (∀ r ∈ rs, r.team = s.cur.team ∧ r.crew = s.cur.crew ∧ r.thread = some (s.crew.lane r.lane).tid ∧
          r.kind = x.kind s.crew r.lane ∧ r.region = x.rg.toNat ∧ r.dest = x.d.toNat ∧ r.regs = x.dest ∧
          r.scope = globalScope x.p.scope ∧ r.acq = acquires x.p.order ∧ r.remote = x.p.remote ∧ r.pc = s.cur.pc ∧
          r.unit = s.nextId) ∧
        t.crew.regs = { s.crew.regs with v := t.crew.v } ∧ s.destsCleared t x.p x.d x.dest) ∧
    (∀ l which arg start stop operand, x.kind s.crew l = .range which arg start stop operand → rangeKind which arg = x.needs) ∧
    (x.cluster = true → s.part = .lx940 → (∀ l ∈ lanesOf s.cur.run, (s.crew.lane l).inHandler = false) →
      ∃ t, exec i s = .next t ∧ s.Keeps t ∧ ∀ l ∈ lanesOf (s.activeLanes x.p),
        (t.crew.lane l).st = .parked ∧ (t.crew.lane l).cause = .absent ∧ (t.crew.lane l).saved = s.cur.pc)

/-- R290, R292, R295, R299, R311, R312, R323: AGG.INFO, AGG.REFRESH and CLU.GROW that are ready send one request to their region and
move on; AGG.CLOSE and CLU.CLOSE send one and wait until it is performed; of these, all but AGG.INFO park their run with REGION
when no region is open under the number, and, by the model's own choice (log 36), when the one that is open is of the other kind. AGG.FENCE and CLU.FENCE move on when the crew has no update of those
regions outstanding, and wait for them otherwise. -/
def Obligations.RegionControlsAreSent : Prop :=
  ∀ (d rg b : BitVec 8) (pick : BitVec 3) (all : Bool) (s : State),
    let agg := (s.aggRegion rg.toNat).isSome
    let clu := (s.cluRegion rg.toNat).isSome
    let sends (i : Instr) (k : ReqKind) (dest regs : Nat) : Prop := s.MayIssue →
      ∃ t r, exec i s = .next t ∧ s.MovesPast t ∧ s.SendsOnly t ∧ t.crew.regs = s.crew.regs ∧
        t.ctx.reqs = s.ctx.reqs ++ [r] ∧ r.kind = k ∧ r.region = rg.toNat ∧ r.lane = 32 ∧ r.team = s.cur.team ∧
        r.crew = s.cur.crew ∧ r.dest = dest ∧ r.regs = regs
    let waits (i : Instr) (k : ReqKind) : Prop := s.MayIssue →
      ∃ t r, exec i s = .next t ∧ s.SendsOnly t ∧ t.crew.regs = s.crew.regs ∧
        t.ctx.reqs = s.ctx.reqs ++ [r] ∧ r.kind = k ∧ r.region = rg.toNat ∧ r.team = s.cur.team ∧ r.crew = s.cur.crew ∧
        ∀ l ∈ lanesOf s.cur.run, t.crew.lane l = { s.crew.lane l with st := .waiting (.closed [r.id]), age := 0 }
    let parks (i : Instr) : Prop := (∀ l ∈ lanesOf s.cur.run, (s.crew.lane l).inHandler = false) →
      ∃ t, exec i s = .next t ∧ s.Keeps t ∧ t.crew.regs = s.crew.regs ∧
        ∀ l ∈ lanesOf s.cur.run, (t.crew.lane l).st = .parked ∧ (t.crew.lane l).cause = .region
    let fences (i : Instr) (of_ : Bool) : Prop :=
      let ids := (s.ctx.reqs.filter fun r => r.team == s.cur.team && r.crew == s.cur.crew && r.failed.isNone &&
        (match r.kind with | .aggRefresh => true | .cluGrow _ => true | k => k.writes) &&
        match (s.reqRegion r).bind s.region with
        | some g => g.isAgg == of_ && (all || g.num == rg.toNat)
        | none => false).map Req.id
      (ids = [] → ∃ t, exec i s = .next t ∧ s.Completed t s.crew) ∧
      (ids ≠ [] → ∃ t, exec i s = .next t ∧ s.Keeps t ∧ t.crew.regs = s.crew.regs ∧
        ∀ l ∈ lanesOf s.cur.run, t.crew.lane l = { s.crew.lane l with st := .waiting (.closed ids), age := 0 })
    (s.UniformReady { k := [d.toNat] } → sends (.aggInfo d rg pick) (.aggInfo pick) d.toNat 1) ∧
    (s.UniformReady {} →
      (agg = true → sends (.aggRefresh rg) .aggRefresh 0 0 ∧ waits (.aggClose rg) .aggClose) ∧
      (agg = false → parks (.aggRefresh rg) ∧ parks (.aggClose rg)) ∧
      fences (.aggFence rg all) true ∧
      (s.part = .lx960 → (clu = true → waits (.cluClose rg) .cluClose) ∧ (clu = false → parks (.cluClose rg)) ∧
        fences (.cluFence rg all) false)) ∧
    (s.part = .lx960 → s.UniformReady { k := [d.toNat, b.toNat] } →
      (clu = true → sends (.cluGrow d rg b) (.cluGrow (s.crew.kreg b.toNat)) d.toNat 1) ∧
      (clu = false → parks (.cluGrow d rg b)))

/-- R225, R313, R324, R346: MXFENCE puts its conditions on the crew's next matrix operation; WALK.SET replaces the crew's walk
parameters and writes 0, or leaves them and writes 1 for a reserved bit of MODE and 2 for a THETA that is a NaN, an infinity or
below zero; TWAIT goes on once its registers are not busy, and writes nothing; TOKTEST never waits for the register it tests, and
writes whether it is busy. -/
def Obligations.TokensConditionsAndWalkParameters : Prop :=
  ∀ s : State,
    (∀ (a : BitVec 8) (on : Bool) (bar : BitVec 4), s.UniformReady { quiet := [a.toNat] } →
      ∃ t, exec (.mxfence a on bar) s = .next t ∧ s.Completed t { s.crew with
          mxCmds := t.crew.mxCmds, mxFailed := t.crew.mxFailed, mxPhases := t.crew.mxPhases } ∧
        (s.crew.isBusy a.toNat = false → t.crew.mxCmds = s.crew.mxCmds ∧
          t.crew.mxFailed = (s.crew.mxFailed || (let v := (s.crew.kreg a.toNat).toNat
            decide (0x80000001 ≤ v) && decide (v ≤ 0x80000004)))) ∧
        (∀ id, s.crew.busy = [(a.toNat, id)] → t.crew.mxCmds = s.crew.mxCmds ++ [id] ∧
          t.crew.mxFailed = s.crew.mxFailed) ∧
        t.crew.mxPhases = s.crew.mxPhases ++ (if on then [(bar.toNat,
          (s.crew.arrival bar.toNat).getD (s.team.bars.getD bar.toNat {}).phase)] else [])) ∧
    (∀ t8 q : BitVec 8, s.part = .lx960 → s.UniformReady { k := [t8.toNat], quiet := [256 + q.toNat + 2] } →
      let theta := s.crew.kreg (256 + q.toNat)
      let mode := s.crew.kreg (257 + q.toNat)
      let v := f32.decode false theta.toNat
      let status : W32 := if 2 ≤ mode.toNat then 1#32
        else if v.isNan = true ∨ v.isInf = true ∨ v.lt (.fin false 0 0) = true then 2#32 else 0#32
      ∃ t, exec (.walkSet t8 q) s = .next t ∧ s.Completed t { s.crew with
          k := t.crew.k
          theta := if status = 0#32 then theta else s.crew.theta
          walkMode := if status = 0#32 then mode.getLsbD 0 else s.crew.walkMode
          mincount := if status = 0#32 then s.crew.kreg (258 + q.toNat) else s.crew.mincount } ∧
        ∀ r, t.crew.kreg r = if r = 0 then 0#32 else if r = t8.toNat then status else s.crew.kreg r) ∧
    (∀ a b : BitVec 8, s.UniformReady { k := [a.toNat, b.toNat] } →
      ∃ t, exec (.twait a b) s = .next t ∧ s.Completed t s.crew) ∧
    ∀ d a : BitVec 8, s.UniformReady { k := [d.toNat], quiet := [a.toNat] } →
      ∃ t, exec (.toktest d a) s = .next t ∧ s.Completed t { s.crew with k := t.crew.k } ∧
        ∀ r, t.crew.kreg r = if r = 0 then 0#32
          else if r = d.toNat then (if s.crew.busy.any (fun e => e.1 == a.toNat) then 1#32 else 0#32) else s.crew.kreg r

/-- A request for a region that may be performed now, with no sheet and no promotion to attend to. -/
structure RegionRequest (s : State) (r : Req) : Prop where
  found : s.req? r.id = some r
  ready : s.reqReady r = true
  remote : r.remote = false
  crew : s.hasCrew r.team r.crew
  sheet : s.noSheet

/-- The words that a request's registers receive: one lane's v registers, or a k register of a uniform request. -/
def regionReceived (s t : State) (r : Req) (words : Nat → W32) : Prop :=
  (r.lane < 32 → (∀ q l, l < 32 → (t.crewOf r.team r.crew).vreg q l =
      if l = r.lane ∧ r.dest ≤ q ∧ q < r.dest + r.regs then words (q - r.dest) else (s.crewOf r.team r.crew).vreg q l) ∧
    ∀ q, (t.crewOf r.team r.crew).kreg q = (s.crewOf r.team r.crew).kreg q) ∧
  (r.lane = 32 → ∀ q, (t.crewOf r.team r.crew).kreg q =
    if q = 0 then 0#32 else if q = r.dest then words 0 else (s.crewOf r.team r.crew).kreg q)

/-- R289, R290, R292, R294, R299 to R302, R311, R326, R328, R370: the requests of a region are performed whole. A range load gives its
registers the result over the leaves and nodes as they stand, AGG.INFO its value (0 for a number that is not open), CLU.NODE the
record's words and CLU.GROW the new row count, and unspecified values of the same size once a translation of the region has changed;
AGG.REFRESH leaves every entry of the tree recomputed; a close ends the region and writes its shadow. A range load, CLU.GROW or
CLU.NODE whose region has closed, or, for a range load, is of another kind than it needs, fails with REGION, and a range load or CLU.NODE that meets an uncorrectable error with ECC. A failed
request that is the last of its unit parks its lane at the unit. The model's own readings: which lines of a region an answer reads,
each of which stays bad once it is bad (log 37), and the moment of a late park (log 22). -/
def Obligations.RegionRequestsArePerformed : Prop :=
  (∀ (r : Req) (s : State), RegionRequest s r →
    let c := s.crewOf r.team r.crew
    let live := (r.lane < 32 ∧ (c.lane r.lane).live = true ∧ r.thread = some (c.lane r.lane).tid) ∨ r.lane = 32
    let freed (t : State) : Prop := t.ctx.reqs = s.ctx.reqs.filter fun q => q.id != r.id
    let still (t : State) : Prop := t.mem = s.mem ∧ t.ctx.regions = s.ctx.regions
    let received (t : State) (g : Region) (words : Nat → W32) : Prop :=
      ∃ got : Nat → W32, regionReceived s t r got ∧ (g.remapped = false → ∀ j, j < r.regs → got j = words j)
    let fails (i : Instr) (cause : Cause) : Prop := ∃ t, exec i s = .next t ∧ still t ∧ t.ctx.teams = s.ctx.teams ∧
      t.req? r.id = some { r with failed := some cause } ∧ t.ctx.reqs.map Req.id = s.ctx.reqs.map Req.id
    (∀ which arg start stop operand, r.kind = .range which arg start stop operand →
      (∀ g, s.aggRegion r.region = some g → g.agg.1 = rangeKind which arg →
        (live → r.regs ≤ 2 → (∀ l, s.badAt (64 * l) = false) →
          ∃ t, exec (.rangeLoadPerform r.id) s = .next t ∧ freed t ∧ still t ∧ received t g fun j =>
            (g.rangeResult s.mem which arg start stop operand).extractLsb' (32 * j) 32) ∧
        ((∃ e ∈ g.rangeReads s.mem which arg start stop operand, s.badAt (g.entryPa e.1 e.2) = true) →
          fails (.rangeLoadPerform r.id) .ecc)) ∧
      (∀ g, s.aggRegion r.region = some g → g.agg.1 ≠ rangeKind which arg → fails (.rangeLoadPerform r.id) .region) ∧
      (s.aggRegion r.region = none → fails (.rangeLoadPerform r.id) .region)) ∧
    (∀ pick, r.kind = .aggInfo pick → r.lane = 32 →
      (s.aggRegion r.region = none → ∃ t, exec (.regionControlPerform r.id) s = .next t ∧ freed t ∧ still t ∧
        regionReceived s t r fun _ => 0#32) ∧
      ∀ g, s.aggRegion r.region = some g → r.regs = 1 → ∃ t, exec (.regionControlPerform r.id) s = .next t ∧ freed t ∧ still t ∧
        received t g fun _ => s.aggInfoValue r.region pick.toNat) ∧
    (r.kind = .aggRefresh → ∀ g, s.aggRegion r.region = some g →
      ∃ t, exec (.regionControlPerform r.id) s = .next t ∧ freed t ∧ t.mem = s.mem ∧
        t.region r.region = some (g.rebuild s.mem) ∧ ∀ n, n ≠ r.region → t.region n = s.region n) ∧
    (∀ g, (r.kind = .aggClose ∧ s.aggRegion r.region = some g) ∨ (r.kind = .cluClose ∧ s.cluRegion r.region = some g) →
      (∀ o u, o < g.bytes.length → u < g.bytes.length → g.shadow.pa o = g.shadow.pa u → o = u) →
      ∃ t, exec (.regionControlPerform r.id) s = .next t ∧ freed t ∧ t.region r.region = none ∧
        (∀ n, n ≠ r.region → (t.region n).map Region.settled = (s.region n).map Region.settled) ∧
        (∀ o, o < g.bytes.length → readKey t.mem (g.shadow.pa o) = g.bytes.getD o 0#8) ∧
        ∀ a, (∀ o, o < g.bytes.length → g.shadow.pa o ≠ a) → readKey t.mem a = readKey s.mem a) ∧
    (∀ rows, r.kind = .cluGrow rows → r.lane = 32 →
      (s.cluRegion r.region = none → fails (.regionControlPerform r.id) .region) ∧
      ∀ g d dv cap m, s.cluRegion r.region = some g → g.kind = .clu d dv cap m → r.regs = 1 →
        ∃ t, exec (.regionControlPerform r.id) s = .next t ∧ freed t ∧ t.mem = s.mem ∧
          t.region r.region = some (g.grow s.mem rows.toNat) ∧
          (g.grow s.mem rows.toNat).kind = .clu d dv cap (min (m + rows.toNat) cap) ∧
          received t g fun _ => BitVec.ofNat 32 (min (m + rows.toNat) cap)) ∧
    ∀ quad node word, r.kind = .node quad node word →
      (s.cluRegion r.region = none → fails (.regionControlPerform r.id) .region) ∧
      ∀ g, s.cluRegion r.region = some g →
        (live → r.regs = (if quad then 4 else 1) → (∀ l, s.badAt (64 * l) = false) →
          ∃ t, exec (.regionControlPerform r.id) s = .next t ∧ freed t ∧ still t ∧
            received t g fun j => s.nodeWord g node (word.toNat + j)) ∧
        ((∃ w, word.toNat ≤ w ∧ w < word.toNat + (if quad then 4 else 1) ∧ w < cluStride g.clu.1 g.clu.2.1 ∧
            node.toNat < cluNodes g.clu.2.2.1 ∧
            s.badAt (g.shadow.pa (4 * (node.toNat * cluStride g.clu.1 g.clu.2.1 + w))) = true) →
          fails (.regionControlPerform r.id) .ecc)) ∧
  ∀ (r : Req) (cause : Cause) (s : State), s.failedUnit = some r → r.failed = some cause →
    (∀ q ∈ s.ctx.reqs, q.unit = r.unit → q = r) → s.hasCrew r.team r.crew → r.lane < 32 → r.run = 1#32 <<< r.lane →
    r.handler = false →
    let x := (s.crewOf r.team r.crew).lane r.lane
    r.thread = some x.tid → x.st ≠ .parked → x.st ≠ .exited → x.inHandler = false →
    let t := s.parkFailed 1
    t.ctx.reqs = (s.ctx.reqs.filter fun q => q.unit != r.unit) ∧ t.mem = s.mem ∧
      ((t.crewOf r.team r.crew).lane r.lane).st = .parked ∧ ((t.crewOf r.team r.crew).lane r.lane).cause = cause ∧
      ((t.crewOf r.team r.crew).lane r.lane).saved = r.pc

/-- R289, R291, R310: a store of one word to leaf i of an open aggregate region leaves the word in memory and the path from the leaf up
recomputed; an ATOM or RED on a leaf leaves the new value there, an ATOM's register with the old one, and the delta in each ancestor
when it adds to a leaf of a SUM region (Table 12.2), or else the path recomputed; a store of one word to key or value row i of a
cluster region leaves the row's block and its ancestors recomputed, and the tree as it was when the region has no such row yet. Other
regions do not change, but that a region a page-table entry of whose arrays the access changes is remapped from then on: which entries
those are, and that an update of such a region still goes to the pages that the open has captured, is the model's reading (log 94). -/
def Obligations.LeafAndRowUpdatesKeepTheTree : Prop :=
  ∀ (r : Req) (g : Region) (s : State), RegionRequest s r → r.rel = false → s.ctx.l2host = [] → s.shadowRegion r.pa = none →
    r.treat ≠ .s → s.leafRegion r.pa = some g → s.region g.num = some g → lineIn (s.coreSt r.core).l1 (r.pa / 64) = none →
    let moved (ys : List Byte) (g : Region) : Region :=
      if (g.slots.any fun a => (List.range ys.length).any fun i => decide (a ≤ r.pa + i) && decide (r.pa + i < a + 8) &&
          readKey s.mem (r.pa + i) != ys.getD i 0#8) then { g with remapped := true } else g
    let leaves (t : State) (ys : List Byte) (new : Region → Region) : Prop :=
      (t.ctx.reqs = s.ctx.reqs.filter fun q => q.id != r.id) ∧
      (∀ a, readKey t.mem a = if r.pa ≤ a ∧ a < r.pa + ys.length then ys.getD (a - r.pa) 0#8 else readKey s.mem a) ∧
      t.region g.num = some (new (moved ys g)) ∧ ∀ n, n ≠ g.num → t.region n = (s.region n).map (moved ys)
    (∀ k n o, g.kind = .agg k n → g.leaf.offset? r.pa = some o → o % 4 = 0 → o / 4 < n → r.data.length = 4 →
      (r.kind = .store → ∃ t, exec (.leafUpdate r.id) s = .next t ∧ leaves t r.data fun g => g.recomputePath t.mem (o / 4)) ∧
      (∀ code : BitVec 8, r.kind = .red code ∨ r.kind = .atom code → r.size = 4 →
        let old := readBytes s.mem r.pa 4
        ∃ t, exec (.leafUpdate r.id) s = .next t ∧
          leaves t (natBytes (opValue code 32 (bytesNat old) (bytesNat r.data)) 4) (fun g =>
            if (k = 0 ∧ code = 9#8) ∨ (k = 3 ∧ code = 1#8) then g.delta (o / 4) (BitVec.ofNat 32 (bytesNat r.data))
            else g.recomputePath t.mem (o / 4)) ∧
          (r.kind = .atom code → r.regs = 1 → r.lane < 32 → ((s.crewOf r.team r.crew).lane r.lane).live = true →
            r.thread = some ((s.crewOf r.team r.crew).lane r.lane).tid →
            regionReceived s t r fun _ => BitVec.ofNat 32 (bytesNat old)))) ∧
    ∀ d dv cap m o w, g.kind = .clu d dv cap m → o % 4 = 0 → r.kind = .store → r.data.length = 4 → 0 < w →
      (w = d ∧ g.leaf.offset? r.pa = some o ∧ g.value.offset? r.pa = none) ∨
        (w = dv ∧ g.value.offset? r.pa = some o ∧ g.leaf.offset? r.pa = none) →
      ∃ t, exec (.rowUpdate r.id) s = .next t ∧ leaves t r.data fun g =>
        if o / (4 * w) < m then g.recomputeBlocks t.mem [o / (4 * w) / 16] else g

/-- R281, R287, R288, Table 12.5, R322: an AGG.OPEN or CLU.OPEN whose number is already open writes status 2, and one whose kind,
shape or reserved bits are out of range status 3, opening nothing. One whose arrays translate and share no byte, and meet no
error, opens the region with its tree built, pinned when the home slice's summary store takes the shadow, and writes 0 when it
is pinned and 1 when it is not; with PIN it writes 6 instead and opens nothing. By the model's own choice (log 41), the release that
orders an open after its crew's stores writes the core's dirty bytes back once, in the first step that may complete the command. -/
def Obligations.RegionsOpenWithTheirTree : Prop :=
  ∀ (x : Cmd) (s : State), s.cmd? x.id = some x → s.openAfter x = true → x.stuck = none →
    s.hasCrew x.team x.crew →
    let s1 := if x.started then s else s.releaseS x.core false
    let opens (i : Instr) (num : Nat) (bad : Prop) (arrays : List (W64 × Nat)) (mk : List Span → Region) : Prop :=
      ((s.region num).isSome = true → ∃ t, exec i s = .next t ∧ s.TokenWritten t x 2#32 ∧
        t.ctx.regions = s1.ctx.regions) ∧
      ((s.region num).isSome = false → bad → ∃ t, exec i s = .next t ∧ s.TokenWritten t x 3#32 ∧
        t.ctx.regions = s1.ctx.regions) ∧
      ((s.region num).isSome = false → ¬bad → ∀ s2 spans, s1.spansAt x.unserviced arrays = (s2, .inr spans) →
        let r := { mk spans with opening := s.nextId, slots := s1.spanSlots (mk spans) }
        let fits := decide (s2.pinnedAt num + r.shadowBytes ≤ 393216)
        s2.spansClash r = false → s2.spanBad r.leaf = false → s2.spanBad r.value = false → r.lost = false →
        (fits = true ∨ x.imm.getLsbD 0 = false → ∃ t, exec i s = .next t ∧
          s.TokenWritten t x (if fits then 0#32 else 1#32) ∧ t.mem = s1.mem ∧
          t.ctx.regions = s1.ctx.regions ++ [if r.isAgg then { r with pinned := fits }.rebuild s1.mem
            else { r with pinned := fits }.buildClu s1.mem]) ∧
        (fits = false → x.imm.getLsbD 0 = true → ∃ t, exec i s = .next t ∧ s.TokenWritten t x 6#32 ∧
          t.ctx.regions = s1.ctx.regions))
    let w := x.word
    (x.kind = .aggOpen → opens (.aggOpenComplete x.id) (fieldOf (w 5) 0 8)
      (5 ≤ fieldOf (w 5) 8 3 ∨ fieldOf (w 5) 11 21 ≠ 0)
      [(w 1 ++ w 0, 4 * ((w 4).toNat + 1)), (w 3 ++ w 2, aggShadow (fieldOf (w 5) 8 3) ((w 4).toNat + 1))]
      fun spans => { num := fieldOf (w 5) 0 8, kind := .agg (fieldOf (w 5) 8 3) ((w 4).toNat + 1), pinned := false,
                     leaf := spans.getD 0 ⟨0, 0, []⟩, value := ⟨0, 0, []⟩, shadow := spans.getD 1 ⟨0, 0, []⟩ }) ∧
    (x.kind = .cluOpen →
      let d := 16 * (fieldOf (w 8) 8 4 + 1)
      let dv := 16 * fieldOf (w 8) 16 5
      let cap := (w 6).toNat + 1
      opens (.cluOpenComplete x.id) (fieldOf (w 8) 0 8)
        (2 ^ 31 < cap ∨ cap < (w 7).toNat ∨ 16 < fieldOf (w 8) 16 5 ∨ fieldOf (w 8) 12 4 ≠ 0 ∨ fieldOf (w 8) 21 11 ≠ 0)
        [(w 1 ++ w 0, 4 * d * cap), (w 3 ++ w 2, 4 * dv * cap), (w 5 ++ w 4, cluShadow d dv cap)]
        fun spans => { num := fieldOf (w 8) 0 8, kind := .clu d dv cap (w 7).toNat, pinned := false,
                       leaf := spans.getD 0 ⟨0, 0, []⟩, value := spans.getD 1 ⟨0, 0, []⟩,
                       shadow := spans.getD 2 ⟨0, 0, []⟩ })

/-- A ring of the cursor's team has changed, and with it nothing but the crew of the unit, the choice of its slot, and which sent
updates a release has counted as performed: the rest is as in `base`. -/
structure RingChanged (base t : State) (rg : Nat) (g : Ring) : Prop where
  outside : t = { base with ctx := { base.ctx with teams := t.ctx.teams, reqs := t.ctx.reqs } }
  reqs : (t.ctx.reqs.map fun r => { r with passed := false }) = base.ctx.reqs.map fun r => { r with passed := false }
  teams : (t.ctx.teams.map fun x => { x.bare with rings := [] }) = base.ctx.teams.map fun x => { x.bare with rings := [] }
  others : ∀ id i, ¬(id = base.cur.team ∧ i = base.cur.crew) → (t.crewOf id i).placeless = (base.crewOf id i).placeless
  elsewhere : ∀ id, id ≠ base.cur.team → (t.team? id).map Team.rings = (base.team? id).map Team.rings
  rings : ∀ j, t.team.rings.getD j {} = if j = rg then g else base.team.rings.getD j {}

/-- R342 to R345, Table 14.5: RING.INIT of a quiet ring sets its base, stage size, stage count and consumers and zeroes its counts, and
parks with ILLEGAL for a geometry outside R343; RING.ACQ gives the next stage's offset, or waits while every stage is in use;
RING.COMMIT commits the oldest acquired stage without a commit, at once with Done or when its token's command ends, behind the
commits before it, RING_COMMIT_EFFECT taking a commit into effect; RING.WAIT gives a committed stage's offset and status; RING.REL
adds one release, and the stages released often enough are freed in order. On an uninitialized ring each parks its run with ILLEGAL.
By the model's own choice an unconditional RING.COMMIT and a RING.REL wait until the outstanding accesses of the run's threads are
performed, or are updates sent from the core, and a commit that waits for a token waits for them too (log 30). Also by its own choice
(log 33), in a twin team a release writes back the dirty S bytes and an acquire drops the S copies of a core, in the form `barRelease`,
`barAcquire` and `ringRelease` give it. Nothing else changes. -/
def Obligations.RingsMoveTheirStages : Prop :=
  ∀ (rg : BitVec 4) (d a b : BitVec 8) (s : State), s.hasCrew s.cur.team s.cur.crew → rg.toNat < s.team.rings.length →
    (∀ l ∈ lanesOf s.cur.run, (s.crew.lane l).inHandler = false) →
    let g := s.team.rings.getD rg.toNat {}
    let walked := ∃ x ∈ s.ctx.cmds, x.kind = .walk ∧ x.team = s.cur.team ∧ fieldOf (x.word 1) 8 4 = rg.toNat
    let offset (n : Nat) : W32 := g.base + BitVec.ofNat 32 (n % g.scount * g.ssize)
    let after (base t : State) (g' : Ring) : Prop := RingChanged base t rg.toNat g'
    let parks (i : Instr) : Prop := ∃ t, exec i s = .next t ∧ s.Keeps t ∧ t.crew.regs = s.crew.regs ∧
      ∀ l ∈ lanesOf s.cur.run, (t.crew.lane l).st = .parked ∧ (t.crew.lane l).cause = .illegal
    let waits (i : Instr) (w : Wait) : Prop := ∃ t, exec i s = .next t ∧ s.Keeps t ∧ t.crew.regs = s.crew.regs ∧
      ∀ l ∈ lanesOf s.cur.run, t.crew.lane l = { s.crew.lane l with st := .waiting w }
    let commits (i : Instr) (x : Commit) : Prop := ∃ t, exec i s = .next t ∧ s.MovesPast t ∧ t.crew.regs = s.crew.regs ∧
      if g.commits = [] ∧ x.cmd = none ∧ s.settledReqs true x.reqs = true then
        after (s.ringRelease s.team) t { g with c := g.c + 1, stages := g.stages ++ [(x.status, 0)] }
      else after s t { g with commits := g.commits ++ [x] }
    (s.UniformReady { k := [a.toNat, b.toNat] } →
      let geom := s.crew.kreg b.toNat
      let ok := fieldOf geom 0 16 ≠ 0 ∧ fieldOf geom 0 16 % 4 = 0 ∧ fieldOf geom 24 8 ≠ 0
      (ok → ¬walked → s.team.id = s.cur.team → (∀ x ∈ g.commits, x.cmd = none) →
        ∃ t, exec (.ringInit rg a b) s = .next t ∧ s.MovesPast t ∧
          t.crew.regs = s.crew.regs ∧ after s t { init := true, base := s.crew.kreg a.toNat, ssize := fieldOf geom 0 16,
                                                  scount := fieldOf geom 16 8 + 1, ncons := fieldOf geom 24 8 }) ∧
      (ok → s.team.id = s.cur.team → (walked ∨ ∃ x ∈ g.commits, x.cmd ≠ none) → waits (.ringInit rg a b) (.ringInit rg.toNat)) ∧
      (¬ok → parks (.ringInit rg a b))) ∧
    (s.UniformReady { k := [d.toNat] } → (g.init = false → parks (.ringAcq d rg)) ∧ (g.init = true →
      (g.a = g.f + g.scount → waits (.ringAcq d rg) (.ringAcq rg.toNat)) ∧
      (g.a ≠ g.f + g.scount → ¬walked → ∃ t, exec (.ringAcq d rg) s = .next t ∧ s.MovesPast t ∧
        t.crew.regs = { s.crew.regs with k := t.crew.k } ∧ after s.barAcquire t { g with a := g.a + 1 } ∧
        ∀ r, t.crew.kreg r = if r = 0 then 0#32 else if r = d.toNat then offset g.a else s.crew.kreg r))) ∧
    (s.UniformReady { quiet := [b.toNat] } → (g.init = false → parks (.ringCommit rg b)) ∧ (g.init = true →
      (g.a ≤ g.c + g.commits.length → parks (.ringCommit rg b)) ∧
      (g.c + g.commits.length < g.a → ¬walked →
        (b = 0#8 → s.settledReqs true s.runReqs = false → waits (.ringCommit rg b) (.sent s.runReqs)) ∧
        (b = 0#8 → s.settledReqs true s.runReqs = true → commits (.ringCommit rg b) { reqs := s.runReqs }) ∧
        (b ≠ 0#8 → s.crew.isBusy b.toNat = false →
          let v := s.crew.kreg b.toNat
          commits (.ringCommit rg b)
            { status := if 0x80000001 ≤ v.toNat ∧ v.toNat ≤ 0x80000004 then v else 0#32, reqs := s.runReqs }) ∧
        (∀ id, b ≠ 0#8 → (b.toNat, id) ∈ s.crew.busy → (∀ e ∈ s.crew.busy, e.1 = b.toNat → e.2 = id) →
          commits (.ringCommit rg b) { cmd := some id, reqs := s.runReqs })))) ∧
    (∀ x rest, g.commits = x :: rest → x.cmd = none → s.settledReqs true x.reqs = true →
      (∀ y, rest.head? = some y → y.cmd ≠ none) → ¬walked →
      ∃ t, exec (.ringCommitEffect s.cur.team rg.toNat) s = .next t ∧ (∀ id i, t.crewOf id i = s.crewOf id i) ∧
        after (s.ringRelease s.team) t { g with c := g.c + 1, stages := g.stages ++ [(x.status, 0)], commits := rest }) ∧
    (s.UniformReady { k := [d.toNat, d.toNat + 1, b.toNat] } → (g.init = false → parks (.ringWait d rg b)) ∧
      (g.init = true → ∀ n : Nat, g.f ≤ n + 2 ^ 31 → n < g.f + 2 ^ 31 → BitVec.ofNat 32 n = s.crew.kreg b.toNat →
        let gives (base t : State) (status : W32) (place : W32 → Prop) : Prop :=
          s.MovesPast t ∧ t.crew.regs = { s.crew.regs with k := t.crew.k } ∧ after base t g ∧ ∃ v, place v ∧
            ∀ r, t.crew.kreg r = if r = 0 then 0#32 else if r = d.toNat + 1 then status else if r = d.toNat then v else s.crew.kreg r
        (n < g.f → ∃ t, exec (.ringWait d rg b) s = .next t ∧ gives { s with fresh := t.fresh } t 0x80000001#32 fun _ => True) ∧
        (g.f ≤ n → g.c ≤ n → waits (.ringWait d rg b) (.ringWait rg.toNat n)) ∧
        (g.f ≤ n → n < g.c → ∃ t, exec (.ringWait d rg b) s = .next t ∧
          gives s.barAcquire t (g.stages.getD (n - g.f) (0#32, 0)).1 fun v => v = offset n))) ∧
    (s.UniformReady { k := [b.toNat] } → (g.init = false → parks (.ringRel rg b)) ∧
      (g.init = true → ∀ n : Nat, g.f ≤ n + 2 ^ 31 → n < g.f + 2 ^ 31 → BitVec.ofNat 32 n = s.crew.kreg b.toNat →
        (n < g.f ∨ g.c ≤ n → parks (.ringRel rg b)) ∧
        (g.f ≤ n → n < g.c → s.settledReqs true s.runReqs = false → waits (.ringRel rg b) (.sent s.runReqs)) ∧
        (g.f ≤ n → n < g.c → s.settledReqs true s.runReqs = true → g.stages.length ≤ g.scount →
          let counts := mapFrom (fun i e => (e.1, if i = n - g.f then e.2 + 1 else e.2)) 0 g.stages
          let freed := (counts.takeWhile fun e => decide (g.ncons ≤ e.2)).length
          ∃ t, exec (.ringRel rg b) s = .next t ∧ s.MovesPast t ∧ t.crew.regs = s.crew.regs ∧
            after s.barRelease t { g with
              f := g.f + freed, stages := counts.drop freed, spoilt := g.spoilt.filter fun k => !(decide (g.f ≤ k) && decide (k < g.f + freed)) })))

/-- A command that has ended leaves every request and every other team as it was, and its own team but for its scratchpad, its side
array, its accumulators and the commits that waited for it; its crews keep every register but the token of its own crew, and what
waits for the token (R142, R225, R339, R343). -/
structure CommandFrame (s t : State) (x : Cmd) : Prop where
  reqs : t.ctx.reqs = s.ctx.reqs
  elsewhere : ∀ id, id ≠ x.team → t.team? id = s.team? id
  team : let a := (s.team? x.team).getD Team.missing
    let b := (t.team? x.team).getD Team.missing
    b.bare = { a.bare with spad := b.spad, side := b.side, openSpad := b.openSpad, openSide := b.openSide, acc0 := b.acc0,
                           acc1 := b.acc1, openAcc0 := b.openAcc0, openAcc1 := b.openAcc1, rings := b.rings }
  crews : ∀ i, (t.crewOf x.team i).regs = { (s.crewOf x.team i).regs with
    k := (t.crewOf x.team i).k, busy := (t.crewOf x.team i).busy, mxCmds := (t.crewOf x.team i).mxCmds,
    mxFailed := (t.crewOf x.team i).mxFailed, chain := (t.crewOf x.team i).chain }
  uniform : ∀ i, i ≠ x.crew → (t.crewOf x.team i).k = (s.crewOf x.team i).k

/-- R274, R332 to R341, R362, R363, Tables 14.2 and 14.3: a streamer command whose dependences are settled writes Poisoned when one of
them failed and Fault when a start check fails, with nothing moved, and otherwise starts. A COPY, COPY.G, COPY.S or COPY.FILL of any
element width, each side in scratchpad or in device memory that is not treated as S, none of whose accesses has gone ahead, writes Done
and gives each element that no later one overwrites the value of its source, where no earlier element writes what it reads: zeros for
a row that a gather skips, nothing for one that a scatter skips, and the later row where a scatter repeats an index. No other bit of
the scratchpad or of memory changes. With the class's count spent they pause and change nothing. -/
def Obligations.StreamerCommandsMoveTheirElements : Prop :=
  ∀ (x : Cmd) (s : State), s.cmd? x.id = some x → s.hasCrew x.team x.crew → s.noSheet → x.stuck = none → x.untouched →
    let spad (t : State) : Sparse 8 := ((t.team? x.team).getD Team.missing).spad
    let team := (s.team? x.team).getD Team.missing
    (Cmd.engine x.kind = 0 → x.started = false → s.depsSettled x = true → s.cmdAfter x = true →
      (x.poisoned = true → ∃ t, exec (.streamCommandStart x.id) s = .next t ∧ s.TokenWritten t x 0x80000002#32 ∧
        CommandFrame s t x ∧ t.mem = s.mem ∧ spad t = spad s) ∧
      (x.poisoned = false → x.startOk = false → ∃ t, exec (.streamCommandStart x.id) s = .next t ∧
        s.TokenWritten t x 0x80000001#32 ∧ CommandFrame s t x ∧ t.mem = s.mem ∧ spad t = spad s) ∧
      (x.poisoned = false → x.startOk = true → ∃ t, exec (.streamCommandStart x.id) s = .next t ∧
        t.ctx.teams = s.ctx.teams ∧ t.mem = s.mem ∧ t.cmd? x.id = some { x with started := true })) ∧
    (x.started = true → x.copies = true → x.startOk = true → x.pos = 0 → s.allowance team.cls 0 = 0xFFFFFFFF#32 →
      (∀ g ∈ team.rings, g.spoilt = []) → ∀ pa : Nat → Nat,
      let alloc := team.spadBytes
      let indexed : Prop := x.kind = .copyG ∨ x.kind = .copyS
      let index (e : Nat) : W32 := BitVec.ofNat 32 ((x.listAt alloc e).value pa (spad s) s.mem)
      let moves (n : Nat) (from_ : Place ⊕ Nat) (dst : Place) : Prop := n < x.moveCount ∧ x.move alloc index n = some (from_, dst)
      let written (a : Nat) : Prop := ∃ n from_ dst, moves n from_ dst ∧ dst.takes pa false a
      (indexed → ∀ n, n < x.moveCount → s.reaches x pa .load written (x.listAt alloc (n / x.rowLength))) →
      (∀ n from_ dst, moves n from_ dst → s.reaches x pa .store written dst ∧ ∀ p, from_ = .inl p → s.reaches x pa .load written p) →
      (indexed → ∀ e m from_ dst, m < e * x.rowLength → e * x.rowLength < x.moveCount → moves m from_ dst → ∀ a,
        ¬(dst.takes pa dst.spad a ∧ (x.listAt alloc e).takes pa dst.spad a)) →
      (∀ n m p from_ dst dest, m < n → moves n (.inl p) dest → moves m from_ dst → ∀ a, ¬(dst.takes pa dst.spad a ∧ p.takes pa dst.spad a)) →
      ∃ t, exec (.streamCommandDone x.id) s = .next t ∧ s.TokenWritten t x 0#32 ∧ CommandFrame s t x ∧
        (∀ n from_ dst, moves n from_ dst →
          (∀ m other dest, n < m → moves m other dest → ∀ a b, b < 8 →
            ¬(dst.takesBit pa dst.spad a b ∧ dest.takesBit pa dst.spad a b)) →
          dst.value pa (spad t) t.mem = match from_ with | .inl p => p.value pa (spad s) s.mem | .inr v => v) ∧
        ∀ a b, b < 8 →
          ((∀ n from_ dst, moves n from_ dst → ¬dst.takesBit pa true a b) → (readKey (spad t) a).getLsbD b = (readKey (spad s) a).getLsbD b) ∧
          ((∀ n from_ dst, moves n from_ dst → ¬dst.takesBit pa false a b) → (readKey t.mem a).getLsbD b = (readKey s.mem a).getLsbD b)) ∧
    (x.started = true → x.copies = true → x.pos < x.elements → s.expoSpent x.core team.cls 0 = true →
      team.replay = false → ∃ t y, exec (.streamCommandDone x.id) s = .next t ∧ t.ctx.teams = s.ctx.teams ∧
        t.mem = s.mem ∧ t.cmd? x.id = some y ∧ y.pos = x.pos ∧ y.bytes = x.bytes)

/-- R186, R188, R189, R207, R211, R390: when the bytes of its image can be read, and no single access has gone ahead, a PLATE.LOAD writes
each macro of the plate and its side array from the image and a TBL.LOAD the 512 entries of its table, on both cores of a bracketed
pair, and each writes Done; a TBL.LOAD with a misaligned or non-canonical address or a reserved bit writes Fault and changes no table.
Nothing outside the plate or the table changes: no other byte of the scratchpad or the side array, no accumulator, no vector
register, no other team and no other core. -/
def Obligations.ImagesFillPlatesAndTables : Prop :=
  ∀ (x : Cmd) (s s' : State) (img : List Byte), s.cmd? x.id = some x → s.hasCrew x.team x.crew → s.noSheet →
    x.stuck = none → x.untouched → x.spoiled = [] → s.unmetered x = true →
    let team (t : State) : Team := (t.team? x.team).getD Team.missing
    let keeps (t : State) : Prop := CommandFrame s t x ∧ (team t).acc0 = (team s).acc0 ∧ (team t).acc1 = (team s).acc1
    let spad (t : State) : Prop := (team t).spad = (team s).spad ∧ (team t).side = (team s).side
    (∀ g ∈ (team s).rings, g.spoilt = []) →
    (let w := x.regs.headD 0#32
      let base := fieldOf w 0 6
      let count := fieldOf w 6 7
      x.kind = .plateLoad → x.started = true → s.allowance (team s).cls 0 = 0xFFFFFFFF#32 → x.bytes ≤ imageBytes w →
      s.engReadAll x (x.word 1 ++ x.word 0) (imageBytes w) = (s', .inr img) →
      ∃ t, exec (.plateLoadDone x.id) s = .next t ∧ s.TokenWritten t x 0#32 ∧ keeps t ∧ t.mem = s'.mem ∧
        t.ctx.coreSts = s'.ctx.coreSts ∧
        (∀ j k y, j < count → k < 256 → y < 256 →
          readKey (team t).spad (65536 * (base + j) + 256 * k + y) = imageMacroByte w img j k y) ∧
        (∀ j o, j < count → o < 16 * plateNm w →
          readKey (team t).side (16384 * (base + j) + o) = imageSideByte w img j o) ∧
        (∀ o, o < 65536 * base ∨ 65536 * (base + count) ≤ o → readKey (team t).spad o = readKey (team s).spad o) ∧
        ∀ o, (∀ j, j < count → o < 16384 * (base + j) ∨ 16384 * (base + j) + 16 * plateNm w ≤ o) →
          readKey (team t).side o = readKey (team s).side o) ∧
    (x.kind = .tblLoad → s.cmdAfter x = true → (∀ y ∈ s.ctx.cmds, y.id < x.id → ∀ k, ¬(s.fillsTables y k = true ∧ s.fillsTables x k = true)) →
      let va := x.word 1 ++ x.word 0
      let ok := va.toNat % 64 = 0 ∧ canonical va = true ∧ (x.word 2).toNat < 4
      let cores : List Nat := x.core :: (if (team s).bracket = true then (team s).follower.toList else [])
      (ok → s.engReadAll x va 2048 = (s', .inr img) →
        ∃ t, exec (.tblLoadDone x.id) s = .next t ∧ s.TokenWritten t x 0#32 ∧ keeps t ∧ spad t ∧ t.mem = s'.mem ∧
          (∀ c ∈ cores, t.coreSt c = { s'.coreSt c with tables := (t.coreSt c).tables } ∧
            ∀ k e, k < 4 → e < 512 → (t.coreSt c).entry k e =
              if k = (x.word 2).toNat then bytesW32 ((img.drop (4 * e)).take 4) else (s.coreSt c).entry k e) ∧
          ∀ c, c ∉ cores → t.coreSt c = s'.coreSt c) ∧
      (¬ok → ∃ t, exec (.tblLoadDone x.id) s = .next t ∧ s.TokenWritten t x 0x80000001#32 ∧ keeps t ∧ spad t ∧ t.mem = s.mem ∧
        t.ctx.coreSts = s.ctx.coreSts))

/-- R216, R217, R220 to R224, R226, R230: a matrix operation that may start writes Poisoned after a failed condition and Fault after
a failed check, with no entry written, and otherwise starts; when it ends, each entry that its rows and columns own holds the sum
of R102 over its tiles, the bytes that an MXG has not gathered before being read then (the model's own choice, log 98), every other
entry is as it was, and its token is Done. ACC.ST stores each of its rows' 512 values in FP32, BF16 or FP16, row i at its address plus
i × PITCH, a NaN as the canonical NaN by the model's own choice (log 76), and clears the rows when CLR is set; one that fails a check
stores nothing and writes Fault. -/
def Obligations.MatrixOperationsUpdateTheirRows : Prop :=
  ∀ (x : Cmd) (s : State), s.cmd? x.id = some x → s.hasCrew x.team x.crew →
    let team (t : State) : Team := (t.team? x.team).getD Team.missing
    let acc (t : State) : Sparse 32 := (team t).acc x.core
    (x.isMatrix = true → s.mxReady x = true →
      (x.poisoned = true → ∃ t, exec (.mxStart x.id) s = .next t ∧ s.TokenWritten t x 0x80000002#32 ∧
        (x.spoiled = [] → acc t = acc s)) ∧
      (x.poisoned = false → (team s).mxFaults x = true → ∃ t, exec (.mxStart x.id) s = .next t ∧
        s.TokenWritten t x 0x80000001#32 ∧ (x.spoiled = [] → acc t = acc s)) ∧
      (x.poisoned = false → (team s).mxFaults x = false → ∃ t, exec (.mxStart x.id) s = .next t ∧
        t.ctx.teams = s.ctx.teams ∧ t.mem = s.mem ∧
        t.cmd? x.id = some { x with started := true, plateW := (team s).plateFor x.crew x.plate })) ∧
    (x.isMatrix = true → x.started = true → x.tainted = false → x.spoiled = [] →
      let row (r c : Nat) : Nat := 512 * (x.row + r * x.cpr x.nm + c / 512) + c % 512
      ∃ t, exec (.mxDone x.id) s = .next t ∧ s.TokenWritten t x 0#32 ∧ CommandFrame s t x ∧ t.mem = s.mem ∧
        (∀ r c, r < x.ra → c < x.nc x.nm →
          readKey (acc t) (row r c) = (team s).mxEntry ((team s).latch x) (readKey (acc s) (row r c)) r c) ∧
        ∀ e, (∀ r c, r < x.ra → c < x.nc x.nm → row r c ≠ e) → readKey (acc t) e = readKey (acc s) e) ∧
    (x.kind = .accSt → s.cmdAfter x = true → x.stuck = none → x.spoiled = [] →
      (x.accFaults = true → ∃ t, exec (.accStDone x.id) s = .next t ∧ s.TokenWritten t x 0x80000001#32 ∧ t.mem = s.mem ∧
        acc t = acc s) ∧
      (x.accFaults = false → x.spoiledAtIssue = [] → x.pos = 0 → x.untouched → s.noSheet → s.unmetered x = true →
        let first := fieldOf (x.word 2) 0 10
        let count := fieldOf (x.word 2) 10 11
        let fmt := fieldOf (x.word 2) 21 3
        let width := if fmt = 0 then 4 else 2
        let stored (v : Nat) : Nat :=
          if fmt = 0 then (f32.encodeVal .rne false (f32.decode false v)).1
          else if fmt = 1 then (bf16.encodeVal .rne false (f32.decode false v)).1 else (f16.encodeVal .rne false (f32.decode false v)).1
        let addr (i : Nat) : W64 := (x.word 1 ++ x.word 0) + BitVec.ofNat 64 (i * (x.word 3).toNat)
        ∀ (pa : Nat → Nat) (tr : Nat → Treat),
          (∀ i, i < count → canonical (addr i) = true ∧ (addr i).toNat % 65536 + 512 * width ≤ 65536 ∧
            s.Translates ((addr i).toNat % 2 ^ 52) (some .store) (pa i) (tr i) ∧ tr i ≠ .s ∧
            (∀ o, o < 512 * width → s.leafRegion (pa i + o) = none) ∧ rangeOf s.part (pa i) = some .device ∧
            (∀ j, j < count → i ≠ j → pa i + 512 * width ≤ pa j ∨ pa j + 512 * width ≤ pa i) ∧
            ∀ slot ∈ s.walkSlots ((addr i).toNat % 2 ^ 52) 3 s.ctx.ptRoot, ∀ j, j < count →
              slot + 8 ≤ pa j ∨ pa j + 512 * width ≤ slot) →
          (∀ y ∈ (s.coreSt x.core).l1, y.dirty = 0#64) →
          ∃ t, exec (.accStDone x.id) s = .next t ∧ s.TokenWritten t x 0#32 ∧
            (∀ i c, i < count → c < 512 → bytesNat (readBytes t.mem (pa i + width * c) width) =
              stored (readKey (acc s) (512 * (first + i) + c)).toNat % 2 ^ (8 * width)) ∧
            (∀ a, (∀ i, i < count → a < pa i ∨ pa i + 512 * width ≤ a) → readKey t.mem a = readKey s.mem a) ∧
            ∀ e, readKey (acc t) e =
              if x.imm.getLsbD 0 = true ∧ 512 * first ≤ e ∧ e < 512 * (first + count) then 0#32
              else readKey (acc s) e))

/-- R314 to R317, R319, R321, Table 13.4: a walk whose region or ring does not serve it writes Fault. A node test of a walk that goes on
passes over a node with no row, forms an ACCEPT entry for a record that passes the opening test and a LEAF entry with its count
for a block that does not, and else puts the node's present children before the nodes still to test; the walk ends with END and
Fault when the region it started on is no longer open. An entry goes into a free stage of the ring, which the walker acquires, by the
model's own choice (log 81) as two accesses of four bytes, each at a wrapped place of its own. -/
def Obligations.WalksTestNodesAndFillStages : Prop :=
  ∀ (x : Cmd) (s : State), s.cmd? x.id = some x → s.hasCrew x.team x.crew → s.noSheet → x.kind = .walk →
    let team (t : State) : Team := (t.team? x.team).getD Team.missing
    let ring (t : State) : Ring := (team t).rings.getD (fieldOf (x.word 1) 8 4) {}
    (s.walkTurn x = true → x.walk.out = [] → x.walk.ended = none → x.started = false →
      ((s.cluRegion (fieldOf (x.word 1) 0 8)).isNone = true ∨ (ring s).init = false ∨ (ring s).ssize % 8 ≠ 0 ∨
        fieldOf (x.word 1) 12 20 ≠ 0) →
      ∃ t, exec (.walkerNodeTest x.id) s = .next t ∧ s.TokenWritten t x 0x80000001#32 ∧ t.mem = s.mem) ∧
    (s.walkTurn x = true → x.walk.out = [] → x.walk.ended = none → x.started = true →
      ∀ g level j rest, s.cluRegion (fieldOf (x.word 1) 0 8) = some g → x.walk.stack = (level, j) :: rest → rest ≠ [] →
      g.opening = x.walk.opening → g.remapped = false → s.recordBad g (g.nodeNumber level j) 0 (cluStride g.clu.1 g.clu.2.1) = false →
      s.pathBusy x.core g.num = false →
      s.allowance (team s).cls 1 = 0xFFFFFFFF#32 → x.walk.stage = none →
      (ring s).a = (ring s).f + (ring s).scount → x.word 2 = 0#32 →
      let node := g.nodeNumber level j
      let count := (g.recWord node 0).toNat
      let first := (g.recWord node 3).toNat
      let passes := g.passes node x.theta x.walkMode x.mincount x.walk.query (normOf x.walk.query)
      ∃ t y, exec (.walkerNodeTest x.id) s = .next t ∧ t.mem = s.mem ∧ t.ctx.teams = s.ctx.teams ∧
        t.cmd? x.id = some y ∧ y.walk.tests = x.walk.tests + 1 ∧
        if count = 0 then y.walk.out = [] ∧ y.walk.stack = rest
        else if passes = true then y.walk.out = [walkEntry 0 node level 0] ∧ y.walk.stack = rest
        else if level = 0 then y.walk.out = [walkEntry 1 node 0 count] ∧ y.walk.stack = rest
        else y.walk.out = [] ∧ y.walk.stack =
          (((List.range 8).filter fun i => decide (16 * (first + i * 8 ^ (level - 1)) < 16 * first + count)).map
            fun i => (level - 1, 8 * j + i)) ++ rest) ∧
    (s.walkTurn x = true → x.walk.out = [] → x.walk.ended = none → x.started = true → x.walk.stack ≠ [] →
      (∀ g, s.cluRegion (fieldOf (x.word 1) 0 8) = some g → g.opening ≠ x.walk.opening) →
      s.allowance (team s).cls 1 = 0xFFFFFFFF#32 → x.walk.stage = none → (ring s).a = (ring s).f + (ring s).scount →
      ∃ t y, exec (.walkerNodeTest x.id) s = .next t ∧ t.mem = s.mem ∧ t.ctx.teams = s.ctx.teams ∧
        t.cmd? x.id = some y ∧ y.walk.ended = some 0x80000001#32 ∧ y.walk.out = [walkEntry 2 0 0 1]) ∧
    (∀ e, x.walk.out = [e] → x.walk.ended = none → x.walk.stage = none → x.walk.spoilt = false →
      (ring s).a ≠ (ring s).f + (ring s).scount → 16 ≤ (ring s).ssize → 4096 ≤ (team s).spadBytes →
      fieldOf (x.word 1) 8 4 < (team s).rings.length → (∀ g ∈ (team s).rings, g.spoilt = []) →
      (∀ y ∈ s.ctx.cmds, y.walksOn x.team (fieldOf (x.word 1) 8 4) = true → y.id = x.id) →
      let at0 := ((ring s).base + BitVec.ofNat 32 ((ring s).a % (ring s).scount * (ring s).ssize)).toNat
      let place (o : Nat) : Nat := spadWrap (team s).spadBytes ((at0 + o) % 2 ^ 32) 4
      ∃ t y, exec (.walkerStageAcquire x.id) s = .next t ∧ ((team s).twin = false → t.mem = s.mem) ∧ ring t = { ring s with a := (ring s).a + 1 } ∧
        t.cmd? x.id = some y ∧ y.walk.stage = some (ring s).a ∧ y.walk.fill = 8 ∧ y.walk.out = [] ∧
        bytesNat (readBytes (team t).spad (place 0) 4) = (e.extractLsb' 0 32).toNat ∧
        bytesNat (readBytes (team t).spad (place 4) 4) = (e.extractLsb' 32 32).toNat)

/-- R349, R350, R352, R354, R358, R365: a die's engine takes its first waiting record that is ready, after its LAUNCH's release: one with
a bad address only fails its LAUNCH; one that a check rejects has its code written at DONE and fails its LAUNCH too; one that passes
becomes a launch with the fields of Table 15.1, and its LAUNCH's token is Done. TEAM_DISPATCH of a die serves the highest priority
that has a team for a core of the die and starts the launch's next team: 32 threads to a crew,
every lane runnable at ENTRY, k2 and k3 holding ARG, and every other register 0, m1 to m7 among them (R112, R140). The model's own
choices: of the launches of that priority the one accepted or served longest ago has its turn, which keeps R358's bound (log 95),
and ENTRY is bits 51:0 of KENTRY (log 45). -/
def Obligations.LaunchesAreAcceptedAndTeamsStart : Prop :=
  (∀ (i : Incoming) (s : State), s.ctx.live = true → s.ctx.ended = false →
    s.ctx.incoming.find? (fun j => j.die == i.die && s.incomingReady j) = some i →
    (∀ y, i.cmd.bind s.cmd? = some y → s.hasCrew y.team y.crew) →
    let s0 := match i.cmd.bind s.cmd? with
      | some y => if y.started then s else s.releaseS y.core false
      | none => s
    let left (t : State) (status : W32) : Prop := (t.ctx.incoming = s.ctx.incoming.filter fun j => j.no != i.no) ∧
      ∀ y, i.cmd.bind s.cmd? = some y → s.TokenWritten t y status
    ((i.record.toNat % 64 ≠ 0 ∨ canonical i.record = false ∨ dieCount s.part ≤ i.die ∨
        ∃ y, i.cmd.bind s.cmd? = some y ∧ fieldOf (y.word 2) 3 29 ≠ 0) →
      ∃ t, exec (.launchRecordAccept i.die) s = .next t ∧ left t 0x80000001#32 ∧ t.ctx.launches = s.ctx.launches ∧ t.mem = s0.mem) ∧
    ∀ s1 r s2, s0.recordAddrOk i = true → s0.readOnce i 0 i.record 128 = (s1, .inr r) → s1.recordPlace i.record = true →
      (∀ code done, s1.recordCheck i r = (s2, .reject code done) → (done = false ∨ field r 40 8 = 0) →
        ∃ t, exec (.launchRecordAccept i.die) s = .next t ∧ left t 0x80000001#32 ∧ t.ctx.launches = s.ctx.launches ∧ t.mem = s0.mem) ∧
      (∀ code, s1.recordCheck i r = (s2, .reject code true) → field r 40 8 ≠ 0 →
        (∀ y ∈ s.ctx.launches, s.launchOver y = false ∧ y.id < s.nextId) → (∀ u ∈ s.ctx.teams, u.launch < s.nextId) →
        (∀ y ∈ s.ctx.saved, y.team.launch < s.nextId) → ∀ pa tr,
        s2.Translates (field r 40 8 % 2 ^ 52) (some .store) pa tr → tr ≠ .s →
        ∃ t, exec (.launchRecordAccept i.die) s = .next t ∧ left t 0x80000001#32 ∧ t.ctx.launches = s.ctx.launches ∧
          (∀ j, j < 4 → readKey t.mem (pa + j) = (BitVec.ofNat 32 code).extractLsb' (8 * j) 8) ∧
          ∀ a, a < pa ∨ pa + 4 ≤ a → readKey t.mem a = readKey s0.mem a) ∧
      (∀ place dep, s1.recordCheck i r = (s2, .pass place dep) → s2.queueLength i.die (field r 63 1 / 8 % 4) < 64 →
        s.dev.csmode = 0#2 →
        ∃ t x, exec (.launchRecordAccept i.die) s = .next t ∧ left t 0#32 ∧ t.mem = s0.mem ∧
          t.ctx.launches = s.ctx.launches ++ [x] ∧ x.id = s.nextId ∧ x.turn = s.nextId ∧ x.record = i.record ∧ x.die = i.die ∧
          x.entry = BitVec.ofNat 52 (field r 0 8) ∧ x.arg = BitVec.ofNat 64 (field r 8 8) ∧ x.place = place ∧ x.dep = dep ∧
          x.bitmap = BitVec.ofNat 64 (field r 32 8) ∧ x.done = BitVec.ofNat 64 (field r 40 8) ∧ x.teams = field r 48 4 ∧
          x.threads = field r 52 2 ∧ x.vBudget = 8 * (field r 54 1 + 1) ∧ x.kBudget = 16 * (field r 55 1 + 1) ∧
          x.spadBytes = field r 56 4 ∧ x.accRows = field r 60 2 ∧
          x.producer = (if field r 62 1 = 255 then none else some (field r 62 1)) ∧ x.twin = (field r 63 1).testBit 0 ∧
          x.replay = (field r 63 1).testBit 1 ∧ x.bracket = (field r 63 1).testBit 2 ∧ x.prio = field r 63 1 / 8 % 4 ∧
          x.cls = field r 64 1 ∧ x.levels.map Prod.fst = ((List.range (field r 65 1)).map fun j => field r (96 + 4 * j) 1) ∧
          x.next = 0 ∧ x.word = none ∧ x.recording = false ∧ x.replaying = false)) ∧
  ∀ (die : Nat) (x : Launch) (at0 : Nat) (s : State), s.ctx.live = true → s.ctx.ended = false →
    s.serve die = some (x, at0) → s.launch? x.id = some x →
    s.dieOf (if x.twin || x.bracket then 2 * at0 else at0) = die ∧
    (∀ y ∈ s.ctx.launches, x.prio < y.prio → s.placeOn die y = none) ∧
    (∀ y ∈ s.ctx.launches, y.prio = x.prio → s.placeOn die y ≠ none → x.turn ≤ y.turn) ∧
    ∃ t team, exec (.teamDispatch die) s = .next t ∧ t.mem = s.mem ∧ t.ctx.teams = s.ctx.teams ++ [team] ∧
      t.launch? x.id = some { x with next := x.next + 1, turn := s.nextId } ∧ team.launch = x.id ∧ team.idx = x.next ∧
      team.core = (if x.twin || x.bracket then 2 * at0 else at0) ∧
      team.phase = .running ∧ team.handler = 0#32 ∧ team.crews.length = x.threads / 32 ∧
      (∀ r ∈ team.rings, r.init = false) ∧ (∀ w ∈ team.plates, w = 0#32) ∧
      (∀ a, readKey team.spad a = 0#8 ∧ readKey team.side a = 0#8 ∧ readKey team.acc0 a = 0#32 ∧ readKey team.acc1 a = 0#32) ∧
      ∀ i, i < x.threads / 32 →
        let c := team.crews.getD i Crew.missing
        c.idx = i ∧ (∀ l, l < 32 → (c.lane l).st = .runnable ∧ (c.lane l).pc = x.entry ∧ (c.lane l).tid = 32 * i + l ∧
          (c.lane l).split = false) ∧
        (∀ r, c.kreg r = if r = 2 then x.arg.extractLsb' 0 32 else if r = 3 then x.arg.extractLsb' 32 32 else 0#32) ∧
        (∀ r l, c.vreg r l = 0#32) ∧ (∀ r, 1 ≤ r → c.mreg r = 0#32) ∧ c.mreg 0 = 0xFFFFFFFF#32 ∧ c.fpmode = 0#32 ∧
        c.fpflags = 0#32 ∧ c.winBase = 0 ∧ c.winLimit = x.accRows

/-- R113, R121, R122, R130, R133, R356, R361, R362, R366: CREW_RETIRE of a crew that may retire, with others staying, retires it, and barriers
that count the crews not retired are evaluated again; for the last crew the team is removed and its completion bit is set, once the
accesses that its release comes after are performed (R271, R275).
CREW_FORCED_SWAP exchanges the waiting crew and the longest active one of its partition. SLEEP_EXPIRE moves the clock to the end
of the sleep, and its lanes past it. SHUTTER_BOUNDARY puts the written period and allowances into force and carries overruns. DEPSET
with a bitmap sends the OR of its team's bit and waits for it; without one the run goes on. The model's own choices: a completion bit
is set, and DEPSET's page translated, without a check of rights (log 44); the clock reaches the end of a sleep, or the
boundary, in one step (log 64); a barrier's target of 0 counts the crews that are left (log 77). -/
def Obligations.CrewsRetireAndTimeGoesOn : Prop :=
  (∀ (id i : Nat) (s : State), s.hasCrew id i →
    let team := (s.team? id).getD Team.missing
    s.mayRetire team (s.crewOf id i) = true → team.phase = .running →
    (1 < team.staying → (∀ c ∈ team.crews, c.regroupHold = none) →
      ∃ t, exec (.crewRetire id i) s = .next t ∧ t.mem = s.mem ∧ t.dev = s.dev ∧ (t.crewOf id i).retired = true ∧
        (t.crewOf id i).v = (s.crewOf id i).v ∧
        (∀ j, j ≠ i → (t.crewOf id j).placeless = (s.crewOf id j).placeless) ∧
        ((t.team? id).getD Team.missing).bars = team.bars.map fun b => match b.target with
          | none => b
          | some n => if (if n = 0 then team.staying - 1 else n) ≤ b.count then
              { phase := b.phase + 1, count := 0, target := none } else b) ∧
    (team.staying = 1 → s.noSheet → ∀ x, s.launch? team.launch = some x → x.system = false → x.done = 0#64 →
      (∀ y ∈ s.ctx.launches, y = x ∨ (y.word = none ∧ y.next < y.teams) ∨ (∃ u ∈ s.ctx.teams, u.id ≠ id ∧ u.launch = y.id) ∨
        ∃ z ∈ s.ctx.saved, z.team.launch = y.id) → (∀ c ∈ team.allCores, ∀ y ∈ (s.coreSt c).l1, y.dirty = 0#64) →
      ∃ t, exec (.crewRetire id i) s = .next t ∧ (∀ u ∈ t.ctx.teams, u.id ≠ id) ∧
        (x.bitmap = 0#64 → t.mem = s.mem) ∧
        ∀ pa tr, x.bitmap ≠ 0#64 → s.Translates ((x.bitmap.toNat + team.idx / 8) % 2 ^ 52) none pa tr → tr ≠ .s →
          (readKey t.mem pa = readKey s.mem pa ||| BitVec.ofNat 8 (2 ^ (team.idx % 8))) ∧
          ∀ a, a ≠ pa → readKey t.mem a = readKey s.mem a)) ∧
  (∀ (id i : Nat) (e : Team × Crew) (s : State), s.hasCrew id i → s.hasCrew e.1.id e.2.idx →
    s.crewOf e.1.id e.2.idx = e.2 → ¬(e.1.id = id ∧ e.2.idx = i) →
    s.swapDue ((s.team? id).getD Team.missing) (s.crewOf id i) = true → s.longestActive (s.crewOf id i) = some e →
    e.2.active = true ∧ e.2.core = (s.crewOf id i).core ∧ e.2.partn = (s.crewOf id i).partn ∧
    (∀ u ∈ s.ctx.teams, ∀ c ∈ u.crews, c.active = true → c.retired = false → c.core = e.2.core → c.partn = e.2.partn →
      e.2.activeSince ≤ c.activeSince) ∧
    ∃ t, exec (.crewForcedSwap id i) s = .next t ∧
      t.crewOf id i = { s.crewOf id i with
        active := true, slot := e.2.slot, activeSince := s.ctx.clock, readySince := none } ∧
      t.crewOf e.1.id e.2.idx = { e.2 with
        active := false, slot := (s.crewOf id i).slot, activeSince := s.ctx.clock, readySince := none } ∧
      t = { s with ctx := { s.ctx with teams := t.ctx.teams } }) ∧
  (∀ (id i n : Nat) (s : State), s.hasCrew id i → ((s.team? id).getD Team.missing).issues = true → s.ctx.live = true →
    (s.crewOf id i).nextWake = some n →
    (∃ l, ((s.crewOf id i).lane l).st = .waiting (.sleep n)) ∧
    (∀ l m, ((s.crewOf id i).lane l).st = .waiting (.sleep m) → n ≤ m) ∧
    ∃ t, exec (.sleepExpire id i) s = .next t ∧ t.ctx.clock = max s.ctx.clock n ∧
      ∀ l, l < 32 → ((s.crewOf id i).lane l).st = .waiting (.sleep n) →
        ((t.crewOf id i).lane l).st = .runnable ∧ ((t.crewOf id i).lane l).pc = pcAfter ((s.crewOf id i).lane l).pc 1) ∧
  (∀ (sys : Bool) (s : State), s.noSheet → s.UniformReady {} →
      (∀ r ∈ s.ctx.reqs, s.chained s.crew.core (if sys then .sys else .dev) r = false ∧
        r.id ∉ s.fenceReqs s.cur.team s.cur.crew (if sys then .sys else .dev) true) →
      (∀ y ∈ (s.coreSt s.crew.core).l1, y.dirty = 0#64) → s.ctx.l2host = [] →
      let bitmap := ((s.launch? s.team.launch).map Launch.bitmap).getD 0#64
      (bitmap = 0#64 → ∃ t, exec (.depset sys) s = .next t ∧ s.MovesPast t ∧ t.crew.regs = s.crew.regs ∧ t.mem = s.mem) ∧
      ∀ pa tr, bitmap ≠ 0#64 → s.MayIssue → s.Translates ((bitmap.toNat + s.team.idx / 8) % 2 ^ 52) none pa tr →
        ∃ t r, exec (.depset sys) s = .next t ∧ t.crew.regs = s.crew.regs ∧ t.mem = s.mem ∧
          t.ctx.reqs = s.ctx.reqs ++ [r] ∧ r.kind = .bitmapOr ∧ r.pa = pa ∧ r.data = [BitVec.ofNat 8 (2 ^ (s.team.idx % 8))] ∧
          ∀ l ∈ lanesOf s.cur.run, t.crew.lane l = { s.crew.lane l with st := .waiting (.closed [r.id]), age := 0 }) ∧
  ∀ s : State, s.ctx.live = true →
    (∀ e ∈ s.ctx.expo, ∀ f ∈ s.ctx.expo, e.core = f.core → e.cls = f.cls → e.act = f.act → e = f) →
    ∃ t, exec .shutterBoundary s = .next t ∧ t.mem = s.mem ∧ t.ctx.teams = s.ctx.teams ∧
      t.ctx.period = s.ctx.shutter.toNat ∧ t.ctx.boundary = s.ctx.boundary + s.ctx.shutter.toNat ∧
      t.ctx.periodNo = s.ctx.periodNo + 1 ∧ t.ctx.clock = max s.ctx.clock s.ctx.boundary ∧ t.ctx.allow = s.ctx.allowW ∧
      ∀ core cls act, t.allowance cls act ≠ 0xFFFFFFFF#32 →
        t.expoLeft core cls act = (t.allowance cls act).toNat + min 0 (s.expoLeft core cls act)

/-- R352, R359, R382 to R385, R388, Table 16.6: a pre-emption stops a running team; once it has drained, its record is written to the
lowest free slot, at SAVEAREA + slot x SAVESTRIDE, and it leaves its core. No slot takes it when its record is longer than SAVESTRIDE or
each of the COUNT slots holds a record; it then stays stopped when the context asked, and, by the model's own choice (log 60), runs on
when a launch engine asked. A record is as long as R384 gives, and holds every register of its crews, their trap words, and the
scratchpad, accumulators, plates, barriers and rings of the team. A restored team
runs again with what its record in memory gives; what a record keeps for the device alone is, by the model's own choice (log 27), as it
was saved. Ending a launch from outside ends its teams, and its first status word stands. -/
def Obligations.TeamsAreSavedRestoredAndEnded : Prop :=
  (∀ (team : Team) (s : State), s.team? team.id = some team →
    (team.phase = .running → ∃ t sys, exec (.teamPreempt team.id) s = .next t ∧
      t.team? team.id = some { team with phase := .stopping sys } ∧ t.mem = s.mem ∧
      t.ctx.teams.map (fun u => { u with phase := .running }) = s.ctx.teams.map fun u => { u with phase := .running }) ∧
    ∀ sys, team.phase = .stopping sys → s.drained team = true →
      (∀ c ∈ team.crews, ∀ l, ∀ w, (c.lane l).st ≠ .waiting w) →
      let slots := (s.ctx.saveSlots.extractLsb' 0 16).toNat
      (s.saveRoom team = none ↔ s.ctx.saveStride.toNat < team.recordSize ∨ ∀ j, j < slots → ∃ y ∈ s.ctx.saved, y.slot = j) ∧
      (s.saveRoom team = none → ∃ t, exec (.teamPreempt team.id) s = .next t ∧
        t.team? team.id = some { team with phase := if sys then .blocked else .running } ∧ t.mem = s.mem) ∧
      (∀ slot s' p, s.saveRoom team = some slot → s.writeRecord team slot = (s', .page p) →
        ∃ t, exec (.teamPreempt team.id) s = .next t ∧ t.ctx.teams = s.ctx.teams ∧ t.ctx.saved = s.ctx.saved ∧ t.mem = s'.mem) ∧
      ∀ slot s', s.saveRoom team = some slot → s.writeRecord team slot = (s', .ok) →
        slot < slots ∧ team.recordSize ≤ s.ctx.saveStride.toNat ∧ (∀ y ∈ s.ctx.saved, y.slot ≠ slot) ∧
        (∀ j, j < slot → ∃ y ∈ s.ctx.saved, y.slot = j) ∧
        (let at0 : W64 := (s.ctx.saveAreaH ++ s.ctx.saveArea) + BitVec.ofNat 64 (slot * s.ctx.saveStride.toNat)
         ∀ (pa : Nat → Nat) (tr : Nat → Treat),
          (∀ o, o < team.recordSize → s.Translates ((at0 + BitVec.ofNat 64 o).toNat % 2 ^ 52) (some .store) (pa o) (tr o) ∧ tr o ≠ .s) →
          (∀ o u, o < team.recordSize → u < team.recordSize → pa o = pa u → o = u) →
          (∀ o, o < team.recordSize → ∀ x ∈ s.walkSlots ((at0 + BitVec.ofNat 64 o).toNat % 2 ^ 52) 3 s.ctx.ptRoot, ∀ j, j < 8 →
            ∀ u, u < team.recordSize → pa u ≠ x + j) →
          (s.recordBytes team).length = team.recordSize →
          (∀ o, o < team.recordSize → readKey s'.mem (pa o) = (s.recordBytes team).getD o 0#8) ∧
          ∀ a, (∀ o, o < team.recordSize → pa o ≠ a) → readKey s'.mem a = readKey s.mem a) ∧
        ∃ t, exec (.teamPreempt team.id) s = .next t ∧ (∀ u ∈ t.ctx.teams, u.id ≠ team.id) ∧ t.mem = s'.mem ∧
          t.ctx.saved = s.ctx.saved ++ [{ team := team, cmds := s.ctx.cmds.filter fun y => y.team == team.id,
                                          slot := slot, bySystem := sys }]) ∧
  (∀ (team : Team) (s : State), team.crews.length = team.ncrews → (∀ c ∈ team.crews, c.lanes.length = 32) →
    (s.recordBytes team).length = team.recordSize ∧
    (s.recordBytes team).take 8 = natBytes 0x00015341 4 ++ natBytes team.recordSize 4 ∧
    ∀ i, i < team.ncrews →
      let c := (team.ofRecord (s.recordBytes team)).crews.getD i Crew.missing
      let was := team.crews.getD i Crew.missing
      (∀ r, r < team.kBudget → c.kreg r = was.kreg r) ∧ (∀ r l, r < team.vBudget → l < 32 → c.vreg r l = was.vreg r l) ∧
      (∀ r, r < 8 → c.mreg r = was.mreg r) ∧ c.fpmode = was.fpmode ∧ c.fpflags = was.fpflags ∧
      c.trapPcWord = was.trapPcWord ∧ c.trapInfoWord = was.trapInfoWord ∧ c.trapAddrWord = was.trapAddrWord ∧
      ∀ l, (c.lane l).st = (was.lane l).st ∧ (c.lane l).pc = (was.lane l).pc ∧ (c.lane l).saved = (was.lane l).saved) ∧
  (∀ (team : Team) (s : State), team.crews.length = team.ncrews → (∀ c ∈ team.crews, c.lanes.length = 32) →
    let was := team.ofRecord (s.recordBytes team)
    was.handler = team.handler ∧ (∀ a, a < team.spadBytes → readKey was.spad a = readKey team.spad a) ∧
    (∀ a, a < 16384 * team.macroCount → readKey was.side a = readKey team.side a) ∧
    (∀ e, e < 512 * team.accRows → readKey was.acc0 e = readKey team.acc0 e ∧
      (team.twin = true → readKey was.acc1 e = readKey team.acc1 e)) ∧
    (∀ i, i < 8 → was.plate i = team.plate i) ∧
    (team.bars.length = 16 → team.rings.length = 16 → was.bars = team.bars ∧ was.rings = team.rings)) ∧
  (∀ (x : SavedTeam) (ys : List Byte) (s s' : State), s.ctx.saved.find? (fun y => y.team.id == x.team.id) = some x →
    s.mayRestore x = true → x.answers = [] → (∀ u ∈ s.ctx.teams, u.id ≠ x.team.id ∧ u.phase ≠ .blocked) →
    s.readRecord x = (s', some ys) → ys.length = x.team.recordSize → x.team.crews.length = x.team.ncrews →
    ∃ t, exec (.teamRestore x.team.id) s = .next t ∧ t.mem = s'.mem ∧
      (∀ y ∈ t.ctx.saved, y.team.id ≠ x.team.id) ∧ t.ctx.cmds = s.ctx.cmds ++ x.cmds ∧
      ((t.team? x.team.id).getD Team.missing).phase = .running ∧
      ((t.team? x.team.id).getD Team.missing).handler = bytesW32 (sliceBytes ys 24 4) ∧
      ∀ i, i < x.team.crews.length →
        let c := t.crewOf x.team.id i
        let at0 := 256 + i * (640 + 4 * x.team.kBudget + 128 * x.team.vBudget)
        let word_ (o : Nat) : W32 := bytesW32 (sliceBytes ys (at0 + o) 4)
        c.placeless = ((x.team.ofRecord ys).crews.getD i Crew.missing).placeless ∧ c.fpmode = word_ 512 ∧ c.fpflags = word_ 516 ∧
        (∀ r, r < x.team.kBudget → c.kreg r = if r = 0 then 0#32 else word_ (640 + 4 * r)) ∧
        ∀ r l, r < x.team.vBudget → l < 32 → c.vreg r l = word_ (640 + 4 * x.team.kBudget + 128 * r + 4 * l)) ∧
  ∀ (x : Launch) (s : State), s.launch? x.id = some x → (∃ u ∈ s.ctx.teams, u.launch = x.id) →
    (∀ u ∈ s.ctx.teams, u.phase ≠ .blocked) →
    (∀ y ∈ s.ctx.launches, ∃ u ∈ s.ctx.teams, u.launch = y.id) →
    ∃ t, exec (.launchEndedBySystem x.id) s = .next t ∧ t.mem = s.mem ∧
      (∀ y ∈ t.ctx.saved, y.team.launch ≠ x.id) ∧
      t.launch? x.id = some { x with word := some (x.word.getD 6#32) } ∧
      t.ctx.teams = s.ctx.teams.map fun u => if u.launch = x.id then { u with phase := .ending } else u

/-- R17, R24, Tables 1.8 and 1.9, R189, R360, R386: CONTEXT_CREATE makes a live context with no team and no translation, whose logical
cores are those in service, complete twins first; a healthy LX960 reads IDENT 0x4C06_08C0. A context that has no team left and is switched out keeps what it
holds, each open region's tree stands in its shadow, and the cores keep their tables; switched in on cores that run no context, it reads the trees back from the
shadows, and its cores hold the tables that the device's cores then have. TAIL takes bits 7:0 of what is written; a slot taken goes to
its die's engine, or is skipped and counted when its die is not there; one whose record waits for a full priority is taken with the
record as it was read (R358); ERRCNT's bits clear where a 1 is written. That a context goes as a whole once it has no team, and before
that core by core at moments the device chooses, is the model's own choice (log 55). -/
def Obligations.ContextsAndTheDoorbellQueue : Prop :=
  (∀ (privileged : Bool) (root : Nat) (s : State), s.dev.boot = .running → s.ctx.live = false →
    ∃ t, exec (.contextCreate privileged root) s = .next t ∧ t.mem = s.mem ∧ t.dev = { s.dev with left := [] } ∧ t.ctx.live = true ∧
      t.ctx.privileged = privileged ∧ t.ctx.ptRoot = root ∧ t.ctx.teams = [] ∧ t.ctx.tlb = [] ∧ t.ctx.regions = [] ∧
      t.ctx.clock = 0 ∧ t.ctx.boundary = 1200000 ∧
      (∀ p, p ∈ t.ctx.away ↔ p ∈ t.ctx.cores ∧ ∃ c ∈ s.swapped, c.resident = true ∧ c.runs p = true) ∧
      (∀ p, p ∈ t.ctx.cores ↔ p < coreCount s.part ∧ s.dev.fenced 0#8 (BitVec.ofNat 8 p) = false) ∧
      (∀ j, j < t.ctx.twins → ∃ q, t.ctx.cores[2 * j]? = some (2 * q) ∧ t.ctx.cores[2 * j + 1]? = some (2 * q + 1)) ∧
      (s.part = .lx960 → s.dev.fences = [] → s.dev.flashFences = [] →
        t.ctx.ident = 0x4C0608C0#32 ∧ t.ctx.variant = 0x09601080#32)) ∧
  (∀ s : State, s.ctx.live = true → s.ctx.teams = [] → s.ctx.reqs = [] → s.ctx.cmds = [] → s.ctx.l2host = [] →
    s.ctx.openL2 = [] → (∀ x ∈ s.ctx.coreSts, ∀ y ∈ x.l1, y.dirty = 0#64) →
    ∃ t c, exec .contextSwitchOut s = .next t ∧ t.ctx = {} ∧ t.swapped.length = s.swapped.length + 1 ∧
      t.swapped[s.swapped.length]? = some c ∧ (s.ctx.regions = [] → t.swapped = s.swapped ++ [c]) ∧
      t.dev = { s.dev with left := s.dev.left ++ s.ctx.leaves (s.ctx.cores.filter s.ctx.runs) } ∧
      c = { s.ctx with coreSts := c.coreSts, regions := c.regions, away := s.ctx.cores } ∧ c.resident = false ∧
      c.regions.map Region.settled = s.ctx.regions.map Region.settled ∧
      (s.ctx.regions = [] → t.mem = s.mem) ∧
      ∀ g, s.ctx.regions = [g] →
        (∀ o u, o < g.bytes.length → u < g.bytes.length → g.shadow.pa o = g.shadow.pa u → o = u) →
        (∀ o, o < g.bytes.length → readKey t.mem (g.shadow.pa o) = g.bytes.getD o 0#8) ∧
        ∀ a, (∀ o, o < g.bytes.length → g.shadow.pa o ≠ a) → readKey t.mem a = readKey s.mem a) ∧
  (∀ (n : Nat) (c : Context) (s : State), s.ctx.live = false → s.swapped[n]? = some c → c.live = true → c.ended = false →
    c.resident = false → (∀ x ∈ s.swapped, x.live = true → ∀ p ∈ c.cores, x.runs p = false) →
    ∃ t, exec (.contextSwitchIn n) s = .next t ∧ t.mem = s.mem ∧ t.swapped = s.swapped.eraseIdx n ∧
      t.dev = { s.dev with left := s.dev.left.filter fun y => !(c.cores.contains y.core) } ∧
      t.ctx = { c with coreSts := t.ctx.coreSts, regions := t.ctx.regions, away := t.ctx.away,
                       l2host := s.ctx.l2host, openL2 := s.ctx.openL2 } ∧
      (∀ p ∈ c.cores, p ∉ t.ctx.away) ∧
      (t.ctx.regions.map fun g => { g with nodes := [], recs := [] }) =
        (c.regions.map fun g => { g with nodes := [], recs := [] }) ∧
      (∀ x ∈ t.ctx.coreSts, c.phys x.core ∈ c.cores → x.tables = match s.dev.left.find? fun y => y.core == c.phys x.core with
        | some y => y.tables
        | none => []) ∧
      ∀ (j : Nat) (g : Region), c.regions[j]? = some g → ∃ g' : Region, t.ctx.regions[j]? = some g' ∧
        (∀ k m, g.kind = .agg k m → g.shadow.bytes = aggShadow k m → ∀ i, i < aggShadow k m / (64 / fanout k) → readKey g'.nodes i =
          BitVec.ofNat 64 (bytesNat ((List.range (64 / fanout k)).map fun o => readKey s.mem (g.shadow.pa (64 / fanout k * i + o))))) ∧
        (g.isAgg = false → ∀ i, 4 * i + 4 ≤ g.shadow.bytes → readKey g'.recs i =
          BitVec.ofNat 32 (bytesNat ((List.range 4).map fun o => readKey s.mem (g.shadow.pa (4 * i + o)))))) ∧
  (∀ (v : W32) (s : State), s.dev.boot = .running →
    exec (.doorbellTailWrite v) s = .next { s with dev := { s.dev with dbTail := v.extractLsb' 0 8 } } ∧
    ∃ w, exec (.errcntClear v) s = .next { s with dev := { s.dev with dbErr := w } } ∧
      ∀ b, w.getLsbD b = (s.dev.dbErr.getLsbD b && !v.getLsbD b)) ∧
  ∀ s : State, s.slotReady = true →
    let word (i : Nat) : W32 := readKey s.dev.dbSlots (4 * s.dev.dbHead.toNat + i)
    ∃ t, exec .doorbellSlotTake s = .next t ∧ t.dev.dbHead = s.dev.dbHead + 1#8 ∧ t.dev.dbTail = s.dev.dbTail ∧
      (∀ i, s.heldRecord = some i → i.die < dieCount s.part →
        t.dev.dbErr = s.dev.dbErr ∧ t.ctx.incoming = s.ctx.incoming ++ [{ i with held := none }]) ∧
      (s.heldRecord = none → dieCount s.part ≤ (word 2).toNat → t.dev.dbErr = s.dev.dbErr + 1#32 ∧ t.ctx = s.ctx) ∧
      (s.heldRecord = none → (word 2).toNat < dieCount s.part → t.dev.dbErr = s.dev.dbErr ∧ ∃ i : Incoming,
        t.ctx.incoming = s.ctx.incoming ++ [i] ∧ i.record = word 1 ++ word 0 ∧ i.die = (word 2).toNat ∧ i.cmd = none)

/-- R367, R375, R381, R393: EXPO.RD, TIME, BRKT and HALT do not wait, and the run goes on: EXPO.RD writes the remaining count of the
crew's class on its core, or all ones when it is unlimited, the allowance, or the core clocks to the next boundary; TIME writes the
device time in a pair; BRKT writes whether the team is bracketed; and HALT ends every team of the launch with 0x06, and raises PRIV in
an unprivileged context. -/
def Obligations.BudgetsTimeAndEndsOfLaunches : Prop :=
  ∀ s : State, s.noSheet →
    let k1 (i : Instr) (d : Nat) (v : W32) : Prop :=
      ∃ t, exec i s = .next t ∧ s.Completed t { s.crew with k := t.crew.k } ∧
        ∀ r, t.crew.kreg r = if r = 0 then 0#32 else if r = d then v else s.crew.kreg r
    (∀ (d : BitVec 8) (act : BitVec 3), s.UniformReady { k := [d.toNat] } →
      k1 (.expoRd d act 0#2) d.toNat (if s.allowance s.team.cls act.toNat = 0xFFFFFFFF#32 then 0xFFFFFFFF#32
        else BitVec.ofInt 32 (s.expoLeft s.crew.core s.team.cls act.toNat)) ∧
      k1 (.expoRd d act 1#2) d.toNat (s.allowance s.team.cls act.toNat) ∧
      k1 (.expoRd d act 2#2) d.toNat (BitVec.ofNat 32 (s.ctx.boundary - s.ctx.clock))) ∧
    (∀ d : BitVec 8, s.UniformReady { k := [d.toNat, d.toNat + 1] } →
      ∃ t, exec (.time d) s = .next t ∧ s.Completed t { s.crew with k := t.crew.k } ∧
        let ns := s.dev.clocks * 5 / 6
        ∀ r, t.crew.kreg r = if r = 0 then 0#32 else if r = d.toNat + 1 then BitVec.ofNat 32 (ns / 2 ^ 32)
          else if r = d.toNat then BitVec.ofNat 32 ns else s.crew.kreg r) ∧
    (∀ d a : BitVec 8, s.UniformReady { k := [d.toNat, a.toNat] } →
      k1 (.brkt d a) d.toNat (if s.team.bracket then 1#32 else 0#32)) ∧
    (s.UniformReady {} → s.ctx.privileged = true → ∃ t, exec .halt s = .next t ∧ t.mem = s.mem ∧ s.MovesPast t ∧
      t.crew.regs = s.crew.regs ∧
      (∀ u ∈ t.ctx.teams, u.launch = s.team.launch → u.phase = .ending) ∧
      (∀ y ∈ t.ctx.saved, y.team.launch ≠ s.team.launch) ∧
      ∀ x, s.launch? s.team.launch = some x →
        t.launch? s.team.launch = some { x with word := some (x.word.getD 6#32) }) ∧
    (s.AtUnit → s.ctx.privileged = false → (∀ l ∈ lanesOf s.cur.run, (s.crew.lane l).inHandler = false) →
      ∃ t, exec .halt s = .next t ∧ s.Keeps t ∧ t.crew.regs = s.crew.regs ∧
        ∀ l ∈ lanesOf s.cur.run, (t.crew.lane l).st = .parked ∧ (t.crew.lane l).cause = .priv)

/-- R370, R373, R374, R375, R377, R378: TRAP and BKPT park their run with SWTRAP and BKPT, the unit's address saved and the immediate as
trap address, and queue it in the order of parking. Opening an episode takes the oldest parked run: TRAPPC holds the saved PC of the lowest lane with the
primary cause, less ENTRY, and TRAPINFO the lanes, the unit and the cause; the lanes become one run at ENTRY + HANDLER with their
saved PCs kept; with HANDLER 0 the team ends. ERET outside an episode is ILLEGAL; within one it waits for the other lanes, and the last
one returns every lane to its saved PC, those that PARK.MASK removed exiting. -/
def Obligations.TrapsEnterAndLeaveTheHandler : Prop :=
  (∀ (imm : BitVec 16) (s : State), s.UniformReady {} → (∀ l ∈ lanesOf s.cur.run, (s.crew.lane l).inHandler = false) →
    s.crew.queuedLanes &&& s.cur.run = 0#32 →
    ∀ (i : Instr) (c : Cause), (i = .trap imm ∧ c = .swtrap) ∨ (i = .bkpt imm ∧ c = .bkpt) →
      ∃ t, exec i s = .next t ∧ s.Keeps t ∧ t.crew.regs = s.crew.regs ∧
        t.crew.queue = (s.crew.queue.filter fun r => decide (r.stamp ≤ s.crew.parkNo)) ++
          [{ lanes := s.cur.run, ulen := s.cur.words, uniform := true, stamp := s.crew.parkNo }] ++
          (s.crew.queue.filter fun r => decide (s.crew.parkNo < r.stamp)) ∧
        ∀ l ∈ lanesOf s.cur.run, (t.crew.lane l).st = .parked ∧ (t.crew.lane l).cause = c ∧
          (t.crew.lane l).saved = s.cur.pc ∧ (t.crew.lane l).trapAddr = imm.setWidth 64) ∧
  (∀ (id i : Nat) (r : ParkedRun) (rest : List ParkedRun) (low : Nat) (s : State), s.hasCrew id i →
    let team := (s.team? id).getD Team.missing
    let c := s.crewOf id i
    c.queue = r :: rest → c.episode = none → team.issues = true → c.lanes.length = 32 →
    low ∈ lanesOf r.lanes →
    (∀ l ∈ lanesOf r.lanes, (c.lane low).cause.code ≤ (c.lane l).cause.code ∧
      ((c.lane l).cause = (c.lane low).cause → low ≤ l)) →
    (team.handler ≠ 0#32 → ∃ t e, exec (.handlerEpisodeOpen id i) s = .next t ∧ t.mem = s.mem ∧ t.dev = s.dev ∧
      (t.crewOf id i).queue = rest ∧ (t.crewOf id i).episode = some e ∧ e.lanes = r.lanes ∧
      e.trapPc = ((c.lane low).saved - team.entry).extractLsb' 0 32 ∧ e.trapAddr = (c.lane low).trapAddr ∧
      e.trapInfo = BitVec.ofNat 32 (r.ulen * 2 ^ 30 + (if r.uniform then 2 ^ 29 else 0) + (lanesOf r.lanes).length * 2 ^ 16 +
        low * 2 ^ 8 + (c.lane low).cause.code) ∧
      (t.crewOf id i).v = c.v ∧ (t.crewOf id i).k = c.k ∧ (t.crewOf id i).m = c.m ∧
      ∀ l ∈ lanesOf r.lanes, (t.crewOf id i).lane l = { c.lane l with
        st := .runnable, pc := team.entry + team.handler.signExtend 52, inHandler := true, removed := false }) ∧
    (team.handler = 0#32 → ∃ t, exec (.handlerEpisodeOpen id i) s = .next t ∧ t.mem = s.mem ∧
      ((t.team? id).getD Team.missing).phase = .ending ∧ ∀ x, s.launch? team.launch = some x →
        (t.launch? team.launch).map Launch.word = some (some (x.word.getD (BitVec.ofNat 32
          (5 + 256 * (c.lane low).cause.code + 65536 * (team.idx % 65536))))))) ∧
  ∀ s : State, s.UniformReady {} →
    (s.crew.episode = none → (∀ l ∈ lanesOf s.cur.run, (s.crew.lane l).inHandler = false) →
      ∃ t, exec .eret s = .next t ∧ s.Keeps t ∧ t.crew.regs = s.crew.regs ∧
        ∀ l ∈ lanesOf s.cur.run, (t.crew.lane l).st = .parked ∧ (t.crew.lane l).cause = .illegal) ∧
    ∀ e, s.crew.episode = some e → (∀ l ∈ lanesOf s.cur.run, (s.crew.lane l).inHandler = true) → s.crew.holds = [] →
      (∀ l, l < 32 → (s.crew.lane l).st ≠ .held) → (∀ x ∈ s.team.crews, x.regroupHold = none) →
      ((∀ l ∈ lanesOf e.lanes, (s.crew.lane l).removed = true ∨ s.cur.run.getLsbD l = true ∨
          (s.crew.lane l).st = .waiting .eret) →
        (∀ l ∈ lanesOf e.lanes, l < s.crew.lanes.length) →
        ∃ t, exec .eret s = .next t ∧ t.mem = s.mem ∧ t.dev = s.dev ∧ t.crew.episode = none ∧ t.crew.v = s.crew.v ∧
          t.crew.k = s.crew.k ∧ ∀ l ∈ lanesOf e.lanes, (t.crew.lane l).inHandler = false ∧
            if (s.crew.lane l).removed then (t.crew.lane l).st = .exited
            else (t.crew.lane l).st = .runnable ∧ (t.crew.lane l).pc = (s.crew.lane l).saved) ∧
      ((∃ l ∈ lanesOf e.lanes, (s.crew.lane l).removed = false ∧ s.cur.run.getLsbD l = false ∧
          (s.crew.lane l).st ≠ .waiting .eret) →
        ∃ t, exec .eret s = .next t ∧ s.Keeps t ∧ t.crew.episode = s.crew.episode ∧
          ∀ l ∈ lanesOf s.cur.run, (t.crew.lane l).st = .waiting .eret ∧ (t.crew.lane l).pc = s.cur.pc)

/-- R373, R374, R376, R377, R380: in an episode, PARK.PC sets the saved PC of the lanes that k(a) and PARKMASK name, from ENTRY or from the
saved PC, and PARK.MASK takes the lanes that k(a) names out of PARKMASK; the run moves past each, and no register changes. A PARK.MASK
that leaves no lane to come to the ERET at which others stand ends the episode. An offset that is no multiple of 4 is ILLEGAL in the
handler: no lane's saved PC changes, and the team ends with cause 1. Outside an episode the run parks with ILLEGAL. -/
def Obligations.HandlersMoveAndRemoveLanes : Prop :=
  ∀ (abs : Bool) (a b : BitVec 8) (s : State), s.crew.holds = [] → (∀ l, l < 32 → (s.crew.lane l).st ≠ .held) →
    (∀ x ∈ s.team.crews, x.regroupHold = none) → s.crew.lanes.length = 32 →
    (∀ e, s.crew.episode = some e → (∀ l ∈ lanesOf s.cur.run, (s.crew.lane l).inHandler = true) →
      let named (l : Nat) : Prop := (s.crew.kreg a.toNat).getLsbD l = true ∧ e.lanes.getLsbD l = true ∧
        (s.crew.lane l).removed = false
      let v := s.crew.kreg b.toNat
      (s.UniformReady { k := [a.toNat, b.toNat] } → v.toNat % 4 = 0 → ∃ t, exec (.parkPc abs a b) s = .next t ∧ s.Keeps t ∧
        t.crew.regs = s.crew.regs ∧ (∀ l ∈ lanesOf s.cur.run, (t.crew.lane l).pc = pcAfter s.cur.pc s.cur.words) ∧
        ∀ l, l < 32 → (t.crew.lane l).st = (s.crew.lane l).st ∧
          (named l → (t.crew.lane l).saved = (if abs then s.team.entry else (s.crew.lane l).saved) + v.signExtend 52) ∧
          (¬named l → (t.crew.lane l).saved = (s.crew.lane l).saved)) ∧
      (s.UniformReady { k := [a.toNat, b.toNat] } → v.toNat % 4 ≠ 0 → ∃ t, exec (.parkPc abs a b) s = .next t ∧ t.mem = s.mem ∧
        (∀ l, (t.crew.lane l).saved = (s.crew.lane l).saved) ∧ t.team.phase = .ending ∧
        ∀ x, s.launch? s.team.launch = some x → (t.launch? s.team.launch).map Launch.word =
          some (some (x.word.getD (BitVec.ofNat 32 (5 + 256 * 1 + 65536 * (s.team.idx % 65536)))))) ∧
      (s.UniformReady { k := [a.toNat] } →
        let gone (l : Nat) : Prop := named l ∨ (s.crew.lane l).removed = true
        let due := (∃ l, l < 32 ∧ (s.crew.lane l).st = .waiting .eret) ∧
          ∀ l ∈ lanesOf e.lanes, gone l ∨ (s.crew.lane l).st = .waiting .eret
        (¬due → ∃ t, exec (.parkMask a) s = .next t ∧ s.Keeps t ∧
          t.crew.regs = s.crew.regs ∧ (∀ l ∈ lanesOf s.cur.run, (t.crew.lane l).pc = pcAfter s.cur.pc s.cur.words) ∧
          ∀ l, l < 32 → (t.crew.lane l).st = (s.crew.lane l).st ∧ ((t.crew.lane l).removed = true ↔ gone l)) ∧
        (due → ∃ t, exec (.parkMask a) s = .next t ∧ s.Keeps t ∧ t.crew.episode = none ∧ t.crew.k = s.crew.k ∧ t.crew.v = s.crew.v ∧
          ∀ l ∈ lanesOf e.lanes, (t.crew.lane l).inHandler = false ∧ (gone l → (t.crew.lane l).st = .exited) ∧
            (¬gone l → (t.crew.lane l).st = .runnable ∧ (t.crew.lane l).pc = (s.crew.lane l).saved)))) ∧
    ((∀ l ∈ lanesOf s.cur.run, (s.crew.lane l).inHandler = false) → ∀ i : Instr,
      (i = .parkPc abs a b ∧ s.UniformReady { k := [a.toNat, b.toNat] }) ∨
        (i = .parkMask a ∧ s.UniformReady { k := [a.toNat] }) →
      ∃ t, exec i s = .next t ∧ s.Keeps t ∧ t.crew.regs = s.crew.regs ∧
        ∀ l ∈ lanesOf s.cur.run, (t.crew.lane l).st = .parked ∧ (t.crew.lane l).cause = .illegal)

/-- Values that a CSR takes (R379 step 3 and the tables of its fields), for the numbers that hold what is written to them. -/
def csrAccepts (p : Part) (n v : Nat) : Prop :=
  (n = 0x020 ∧ v % 4 = 0) ∨ (n = 0x040 ∧ v < 32 ∧ v % 8 ≤ 4) ∨ (n = 0x050 ∧ 1200 ≤ v ∧ v ≤ 120000000) ∨
    (n = 0x051 ∧ v < 128 ∧ v / 16 ≤ 4) ∨ n = 0x080 ∨ n = 0x081 ∨ (n = 0x083 ∧ v < 4096) ∨
    (n = 0x090 ∧ v < 65536 ∧ v / 256 ≠ 0 ∧ v % 256 ≠ 0) ∨ (n = 0x091 ∧ v < 65536 ∧ v / 256 ≤ 4) ∨
    (n = 0x093 ∧ (v = 0 ∨ 600 ≤ v ∧ v ≤ match p with | .lx960 => 2400 | .lx940 => 1300)) ∨
    (n = 0x094 ∧ v % 64 = 0) ∨ n = 0x095 ∨ (n = 0x096 ∧ v % 64 = 0)

/-- The registers that hold what CSRW puts into them. -/
def heldCsrs : List Nat := [0x020, 0x040, 0x050, 0x051, 0x080, 0x081, 0x083, 0x090, 0x091, 0x093, 0x094, 0x095, 0x096]

/-- R164, R361, R372, R375, R379, R387, R388, R390, R396: CSRR gives the register's value, 0 for a number that is not defined; CSRW puts
an accepted value into its register and no other and parks its run with ILLEGAL for one that is not accepted; CSRW of EXPOALLOW writes
the selected allowance, and of CSCTL arms the sheet; the privileged numbers raise PRIV in an unprivileged context. FPFLAGS reads the
flags and clears those written with 1, TBLDATA reads the entry that TBLIDX selects and writes it on both cores of a bracketed pair, and
waits for a load of the tables; a save register takes its value, and XINVCMD starts the invalidation of the page that XINVLO and XINVHI
then name, which its run waits for. A number that R379 step 1 refuses is ILLEGAL at decode and meets no meaning. By the model's own
choices, SERSEL takes the index of a unit that the part does not have (log 52), and arming a recording clears TRUNC, and arming a
recording or a replay DIVERGE (log 106). -/
def Obligations.ControlRegistersAreReadAndWritten : Prop :=
  ∀ s : State,
    let parks (i : Instr) (c : Cause) : Prop := (∀ l ∈ lanesOf s.cur.run, (s.crew.lane l).inHandler = false) →
      ∃ t, exec i s = .next t ∧ s.Keeps t ∧ t.crew.regs = s.crew.regs ∧
        ∀ l ∈ lanesOf s.cur.run, (t.crew.lane l).st = .parked ∧ (t.crew.lane l).cause = c
    let reads (i : Instr) (d : Nat) (v : W32) : Prop := ∃ t, exec i s = .next t ∧ s.MovesPast t ∧ s.Keeps t ∧
      t.crew.regs = { s.crew.regs with k := t.crew.k, tblidx := t.crew.tblidx } ∧
      ∀ r, t.crew.kreg r = if r = 0 then 0#32 else if r = d then v else s.crew.kreg r
    (∀ (d : BitVec 8) (n : BitVec 12), (Instr.csrr d n).wellFormed = true →
      let priv := (0x030 ≤ n.toNat ∧ n.toNat ≤ 0x034) ∨ (0x080 ≤ n.toNat ∧ n.toNat ≤ 0x0FF)
      (s.AtUnit → priv → s.ctx.privileged = false → parks (.csrr d n) .priv) ∧
      (s.UniformReady { k := [d.toNat] } → (priv → s.ctx.privileged = true) → n ≠ 0x010#12 → n ≠ 0x011#12 → n ≠ 0x053#12 →
        reads (.csrr d n) d.toNat (s.csrTable n.toNat) ∧ (n.toNat ∉ definedCsrs → reads (.csrr d n) d.toNat 0#32)) ∧
      (s.UniformReady { k := [d.toNat] } → s.noSheet →
        reads (.csrr d 0x010#12) d.toNat (BitVec.ofNat 32 (s.dev.clocks * 5 / 6)) ∧
        reads (.csrr d 0x011#12) d.toNat (BitVec.ofNat 32 (s.dev.clocks * 5 / 6 / 2 ^ 32)) ∧
        reads (.csrr d 0x053#12) d.toNat (BitVec.ofNat 32 s.ctx.periodNo))) ∧
    (∀ (src : BitVec 8) (n : BitVec 12), (Instr.csrw src n).wellFormed = true →
      let v := s.crew.kreg src.toNat
      let priv := (0x030 ≤ n.toNat ∧ n.toNat ≤ 0x034) ∨ (0x080 ≤ n.toNat ∧ n.toNat ≤ 0x0FF) ∨
        (0x050 ≤ n.toNat ∧ n.toNat ≤ 0x052)
      (s.AtUnit → priv → s.ctx.privileged = false → parks (.csrw src n) .priv) ∧
      (s.UniformReady { k := [src.toNat] } → (priv → s.ctx.privileged = true) → n.toNat ∈ heldCsrs →
        (csrAccepts s.part n.toNat v.toNat → ∃ t, exec (.csrw src n) s = .next t ∧ s.MovesPast t ∧ t.mem = s.mem ∧
          t.csrTable n.toNat = v ∧ (∀ m ∈ heldCsrs, m ≠ n.toNat → t.csrTable m = s.csrTable m) ∧
          t.crew.regs = { s.crew.regs with fpmode := t.crew.fpmode, tblidx := t.crew.tblidx }) ∧
        (¬csrAccepts s.part n.toNat v.toNat → parks (.csrw src n) .illegal)) ∧
      (s.UniformReady { k := [src.toNat] } → s.ctx.privileged = true →
        let key := 8 * fieldOf s.ctx.exposel 0 4 + fieldOf s.ctx.exposel 4 3
        (∃ t, exec (.csrw src 0x052#12) s = .next t ∧ s.MovesPast t ∧ t.mem = s.mem ∧ t.crew.regs = s.crew.regs ∧
          t.ctx = { s.ctx with allowW := t.ctx.allowW, teams := t.ctx.teams } ∧ t.csrTable 0x052 = v ∧
          ∀ j, j ≠ key → readKey t.ctx.allowW j = readKey s.ctx.allowW j) ∧
        let armed := v.toNat < 2048 ∧ v.toNat / 4 % 64 = 0 ∧ v.toNat % 4 ≠ 3
        (armed → ∃ t, exec (.csrw src 0x097#12) s = .next t ∧ s.MovesPast t ∧ t.mem = s.mem ∧ t.crew.regs = s.crew.regs ∧
          t.dev = { s.dev with csmode := BitVec.ofNat 2 v.toNat, csLaunch := none,
                               csTrunc := if v.toNat % 4 = 1 then false else s.dev.csTrunc,
                               csDiverge := if v.toNat % 4 = 0 then s.dev.csDiverge else false }) ∧
        (¬armed → parks (.csrw src 0x097#12) .illegal)) ∧
      (s.UniformReady { k := [src.toNat] } → s.ctx.privileged = true → s.ctx.xinvCmd = 0 → (v = 1#32 ∨ v = 2#32) →
        ∃ t, exec (.csrw src 0x082#12) s = .next t ∧ t.ctx.xinvCmd = v.toNat ∧
          t.ctx.xinvAt = (s.ctx.xinvHi ++ s.ctx.xinvLo).toNat % 2 ^ 52 ∧ t.mem = s.mem ∧ t.crew.regs = s.crew.regs ∧
          ∀ l ∈ lanesOf s.cur.run, t.crew.lane l = { s.crew.lane l with st := .waiting .xinv, age := 0 })) ∧
    (∀ r : BitVec 8, s.UniformReady { k := [r.toNat] } →
      (∀ q ∈ s.ctx.reqs, ¬(q.team = s.cur.team ∧ q.crew = s.crew.idx)) → s.team.id = s.cur.team →
      reads (.fpflagsRead r) r.toNat s.crew.fpflags ∧
      ((s.crew.kreg r.toNat).toNat < 32 → ∃ t, exec (.fpflagsWrite r) s = .next t ∧
        s.Completed t { s.crew with fpflags := s.crew.fpflags &&& ~~~(s.crew.kreg r.toNat) }) ∧
      (32 ≤ (s.crew.kreg r.toNat).toNat → parks (.fpflagsWrite r) .illegal)) ∧
    (∀ r : BitVec 8, s.UniformReady { k := [r.toNat] } → s.ctx.privileged = true →
      ((∃ x ∈ s.ctx.cmds, s.fillsTables x s.crew.core = true) → ∀ i : Instr, i = .tbldataRead r ∨ i = .tbldataWrite r →
        ∃ t, exec i s = .next t ∧ s.Keeps t ∧ t.crew.regs = s.crew.regs ∧
          ∀ l ∈ lanesOf s.cur.run, t.crew.lane l = { s.crew.lane l with st := .waiting .tables }) ∧
      ((∀ x ∈ s.ctx.cmds, s.fillsTables x s.crew.core = false) →
      let cores : List Nat := s.crew.core :: (if s.team.bracket = true then s.team.follower.toList else [])
      let table := (s.crew.tblidx.toNat / 512) % 4
      let entry := s.crew.tblidx.toNat % 512
      let next : W32 := if s.crew.tblidx.getLsbD 11 then
        BitVec.ofNat 32 (s.crew.tblidx.toNat / 512 * 512 + (entry + 1) % 512) else s.crew.tblidx
      reads (.tbldataRead r) r.toNat ((s.coreSt s.crew.core).entry table entry) ∧
      (∃ t, exec (.tbldataRead r) s = .next t ∧ t.crew.tblidx = next) ∧
      ∃ t, exec (.tbldataWrite r) s = .next t ∧ s.MovesPast t ∧ t.mem = s.mem ∧ t.crew.tblidx = next ∧
        t.crew.regs = { s.crew.regs with tblidx := next } ∧
        (∀ c ∈ cores, ∀ k e, k < 4 → e < 512 → (t.coreSt c).entry k e =
          if k = table ∧ e = entry then s.crew.kreg r.toNat else (s.coreSt c).entry k e) ∧
        ∀ c, c ∉ cores → t.coreSt c = s.coreSt c)) ∧
    (∀ (n : BitVec 2) (r : BitVec 8), s.UniformReady { k := [r.toNat] } → s.ctx.privileged = true →
      (∀ u ∈ s.ctx.teams, u.phase ≠ .blocked) →
      let v := s.crew.kreg r.toNat
      let ok := (n = 0#2 → v.toNat % 64 = 0) ∧ (n = 2#2 → v.toNat / 65536 % 32768 = 0) ∧ (n = 3#2 → v.toNat % 65536 = 0)
      (ok → ∃ t, exec (.saveAreaWrite n r) s = .next t ∧ s.MovesPast t ∧ t.mem = s.mem ∧ t.crew.regs = s.crew.regs ∧
        t.ctx.saveArea = (if n = 0#2 then v else s.ctx.saveArea) ∧
        t.ctx.saveAreaH = (if n = 1#2 then v else s.ctx.saveAreaH) ∧
        t.ctx.saveSlots = (if n = 2#2 then v &&& 0x7FFFFFFF#32 else s.ctx.saveSlots) ∧
        t.ctx.saveStride = (if n = 3#2 then v else s.ctx.saveStride)) ∧
      (¬ok → parks (.saveAreaWrite n r) .illegal)) ∧
    (∃ t, exec .csRecord s = .next t ∧ t.dev.csmode = 1#2 ∧ t.dev.csTrunc = false ∧ t.ctx = s.ctx ∧ t.mem = s.mem) ∧
    ∃ t, exec .csReplay s = .next t ∧ t.dev.csmode = 2#2 ∧ t.dev.csDiverge = false ∧ t.ctx = s.ctx ∧ t.mem = s.mem

/-- R394, R395, R400 to R403, R408: a unit's corrected errors count one each and an uncorrectable one THRESH, and a unit whose count
reaches THRESH within the window is fenced, now and after a reset, a context that uses it ending; no other unit is. A flit with a good
CRC and the expected SEQ is taken, with its acknowledgement; any other asks for a NAK, which the port sends next; after a NAK it sends
again every flit not acknowledged. A port that goes down carries nothing, every request outstanding toward a peer that it cut off fails
with REMOTE, and the peer is reported lost. A critical link and the thermal stop end every context at once, with 0x06 for its launches;
another link is fenced, and a link that failed is reported. Throttling begins and ends. By the model's own choices, a bad line stays
bad (log 37), the words of the launches are written at a fatal stop (log 48), a slice with no region and no host line of a context
may hold other data of it (log 49), a flit of a port's own takes the next SEQ, is kept until it is acknowledged and carries the
number before the one expected as ACK, a NAK among them (log 96), and a port that owes neither may send a flit of its own (log 110). -/
def Obligations.ErrorsLinksAndPower : Prop :=
  (∀ (cls index : BitVec 8) (line : Option Nat) (s : State),
    let thresh := s.dev.sercfg.toNat / 256 % 256
    let after (i : Instr) (n : Nat) (lines : List Nat) : Prop := ∃ t, exec i s = .next t ∧ t.dev.badLines = s.dev.badLines ++ lines ∧
      (s.dev.sercfg.toNat % 256 ≠ 0 → t.dev.errorCount cls index = s.dev.errorCount cls index + n ∧
        (∀ c x, ¬(c = cls ∧ x = index) → t.dev.errorCount c x = s.dev.errorCount c x ∧ t.dev.fenced c x = s.dev.fenced c x) ∧
        (s.dev.errorCount cls index + n < thresh → t.dev.fenced cls index = s.dev.fenced cls index ∧ t.mem = s.mem ∧ t.ctx = s.ctx) ∧
        (thresh ≤ s.dev.errorCount cls index + n → t.dev.fenced cls index = true ∧
          (s.dev.fenced cls index = false → (cls, index) ∈ t.dev.flashFences ∧
            (s.ctx.live = true → s.ctx.uses cls index false = true → t.ctx.ended = true ∧
              ∀ u ∈ t.ctx.teams, (∃ x ∈ s.ctx.launches, x.id = u.launch) → u.phase = .ending) ∧
            (s.ctx.uses cls index true = false → t.ctx.ended = s.ctx.ended ∧ t.ctx.launches = s.ctx.launches))))
    after (.correctedSoftError cls index) 1 [] ∧ after (.uncorrectableError cls index line) thresh line.toList) ∧
  (∀ (port : Nat) (f : List Byte) (s : State), f.length = 256 →
    let num (o n : Nat) : Nat := bytesNat ((f.drop o).take n)
    ∃ t, exec (.flitReceive port f) s = .next t ∧ t = { s with dev := { s.dev with ports := t.dev.ports } } ∧
      t.dev.ports.length = s.dev.ports.length ∧
      ∀ (i : Nat) (p q : Port), s.dev.ports[i]? = some p → t.dev.ports[i]? = some q →
        (¬(p.index = port ∧ p.up = true) → q = p) ∧
        (p.index = port → p.up = true →
          ((Config.crc32 (f.take 252)).toNat ≠ num 252 4 ∨ num 0 3 ≠ p.expect.toNat → q = { p with nak := true }) ∧
          ((Config.crc32 (f.take 252)).toNat = num 252 4 → num 0 3 = p.expect.toNat →
            q = { p with expect := p.expect + 1#24, acked := BitVec.ofNat 24 (num 3 3), unacked := q.unacked,
                         resend := p.resend || decide (num 6 1 = 3) } ∧
            ((∀ g ∈ p.unacked, bytesNat (g.take 3) ≠ num 3 3) → q.unacked = p.unacked) ∧
            ∀ before g rest, p.unacked = before ++ g :: rest → bytesNat (g.take 3) = num 3 3 →
              (∀ h ∈ before, bytesNat (h.take 3) ≠ num 3 3) → q.unacked = rest))) ∧
  (∀ (port : Nat) (s : State) (i : Nat) (p q : Port), s.dev.ports[i]? = some p → (s.portSend port).dev.ports[i]? = some q →
    (¬(p.index = port ∧ p.up = true) → q = p) ∧
    (p.index = port → p.up = true → p.nak = true → ∃ f,
      q = { p with nak := false, out := p.out ++ [f], unacked := p.unacked ++ [f], nextSeq := p.nextSeq + 1#24 } ∧
      f.length = 256 ∧ f.take 6 = natBytes p.nextSeq.toNat 3 ++ natBytes (p.expect - 1#24).toNat 3 ∧
      f[6]? = some 3#8 ∧ bytesNat (f.drop 252) = (Config.crc32 (f.take 252)).toNat) ∧
    (p.index = port → p.up = true → p.nak = false → p.resend = true → q = { p with out := p.out ++ p.unacked, resend := false }) ∧
    (p.index = port → p.up = true → p.nak = false → p.resend = false → ∃ f k,
      q = { p with out := p.out ++ [f], unacked := p.unacked ++ [f], nextSeq := p.nextSeq + 1#24 } ∧ f.length = 256 ∧
      f.take 6 = natBytes p.nextSeq.toNat 3 ++ natBytes (p.expect - 1#24).toNat 3 ∧ f[6]? = some k ∧ k.toNat < 3 ∧
      bytesNat (f.drop 252) = (Config.crc32 (f.take 252)).toNat)) ∧
  (∀ (port : Nat) (s : State),
    let toward (r : Req) (p : Nat) : Prop := rangeOf s.part r.pa = some (.peer p) ∧ 0 < r.size
    ∃ t lost, exec (.portDown port) s = .next t ∧
      t.dev = { s.dev with ports := s.dev.ports.map fun p => if p.index = port then { p with up := false } else p,
                           lostPeers := s.dev.lostPeers ++ lost } ∧
      (∀ p, p ∈ lost ↔ s.dev.cut p = false ∧ t.dev.cut p = true) ∧
      ((∀ q ∈ s.ctx.reqs, q.bound = none) → t.ctx.reqs.map Req.id = s.ctx.reqs.map Req.id ∧
        ∀ r ∈ s.ctx.reqs, (∀ q ∈ s.ctx.reqs, q.id = r.id → q = r) → ∃ x ∈ t.ctx.reqs,
          ((∃ p, toward r p ∧ t.dev.cut p = true ∧ r.failed = none) →
            { x with passed := r.passed, bound := r.bound } = { r with failed := some .remote }) ∧
          (¬(∃ p, toward r p ∧ t.dev.cut p = true ∧ r.failed = none) → { x with passed := r.passed } = r)) ∧
      ((∀ c ∈ s.swapped, c.resident = false) →
        ((∀ r ∈ s.ctx.reqs, r.kind.writes = true → ∀ p, toward r p → t.dev.cut p = false) → t.mem = s.mem) ∧
        ((∀ r ∈ s.ctx.reqs, ∀ p, ¬toward r p) → t.ctx = s.ctx))) ∧
  (∀ (link : Nat) (i : Instr) (s : State), (i = .dieLinkFailure link true ∨ i = .thermalStop) →
    let gone (c : Context) : Prop := c.ended = true ∧ c.teams = [] ∧ c.saved = [] ∧ c.reqs = [] ∧ c.cmds = []
    ∃ t, exec i s = .next t ∧
      t.dev = { s.dev with boot := .stopped, lostLinks := s.dev.lostLinks ++ (if i = .thermalStop then [] else [link]),
                           lostWords := t.dev.lostWords } ∧
      gone t.ctx ∧ (∀ c ∈ t.swapped, gone c) ∧ t.swapped.length = s.swapped.length ∧
      (∀ x ∈ t.ctx.launches, ∃ y ∈ s.ctx.launches, x = { y with word := some (y.word.getD 6#32) }) ∧
      ((∀ c ∈ s.ctx :: s.swapped, ∀ x ∈ c.launches, x.done = 0#64) → t.mem = s.mem ∧ t.ctx.launches = []) ∧
      ∀ x pa tr, s.ctx.launches = [x] → s.swapped = [] → x.done ≠ 0#64 → s.ctx.l2host = [] → tr ≠ .s →
        s.Translates (x.done.toNat % 2 ^ 52) (some .store) pa tr →
        t.mem = writeBytes s.mem pa (natBytes (x.word.getD 6#32).toNat 4) ∧ t.ctx.launches = []) ∧
  (∀ (link : Nat) (s : State), ∃ t, exec (.dieLinkFailure link false) s = .next t ∧
    t.dev.fenced 4#8 (BitVec.ofNat 8 link) = true ∧ t.dev.boot = s.dev.boot ∧ t.dev.lostLinks = s.dev.lostLinks ++ [link]) ∧
  ∀ s : State, exec .powerThrottle s = .next { s with dev := { s.dev with throttling := true } } ∧
    (s.dev.throttling = true → exec .powerThrottleEnd s = .next { s with dev := { s.dev with
      throttling := false, throttleEnd := some s.dev.clocks } }) ∧
    (s.dev.throttling = false → exec .powerThrottleEnd s = .next s)

/-- R395, R404 to R407: a reset keeps flash, fuses, recorded fences and memory, and boots the image in flash when its key, its rollback
number and its signature are good; without one the part waits in recovery, and the doorbell there boots a buffered image that is good.
The booted image is what IMAGE_FLASH_WRITE leaves in flash. A mailbox request is taken unless one is being served; it completes with
a report that holds the request's nonce and is signed over its first 216 bytes, with the certificate, or with a failure. In recovery
mode no port is up and the control window has 1 GiB, which it keeps over the boot from the buffer; it has 64 MiB otherwise. By the
model's own choices, after a reset device time begins at 0 and no response is kept (log 4), MAGIC and the reserved bytes of an image are
not checked (log 56), device memory keeps its bytes over a reset (log
57), a request may complete either way (log 63), and a reset drops every context without ending its launches (log 74). -/
def Obligations.ResetImagesAndAttestation : Prop :=
  let good (d : Device) (x : List Byte) : Prop :=
    let body := bytesNat ((x.drop 8).take 8)
    let key := (x.drop 160).take 96
    256 + body ≤ x.length ∧ body ≤ 2 ^ 29 - 256 ∧ Config.sha384 key = d.fuseHash ∧
      d.fuseRollback.toNat ≤ bytesNat ((x.drop 16).take 4) ∧
      Config.ecdsaVerify key ((x.drop 64).take 96) (x.take 64 ++ (x.drop 256).take body) = true
  let boots (s t : State) (x : List Byte) : Prop := t.dev.boot = .running ∧
    t.dev.image = x.take (256 + bytesNat ((x.drop 8).take 8)) ∧ t.dev.fences = s.dev.flashFences ∧
    ∀ i, i < portCount s.part → ∃ p, t.dev.ports[i]? = some p ∧ p.index = i ∧
      (p.up = true ↔ (3#8, BitVec.ofNat 8 i) ∉ s.dev.flashFences)
  (∀ s : State, ∃ t, exec .deviceReset s = .next t ∧ t.mem = s.mem ∧ t.ctx = {} ∧ t.swapped = [] ∧ t.dev.flash = s.dev.flash ∧
    t.dev.fuseHash = s.dev.fuseHash ∧ t.dev.fuseRollback = s.dev.fuseRollback ∧ t.dev.flashFences = s.dev.flashFences ∧
    t.dev.clocks = 0 ∧ t.dev.sercfg = 0x0418#32 ∧ t.dev.pwrcap = 0#32 ∧ t.dev.csmode = 0#2 ∧ t.dev.kept = [] ∧
    (good s.dev s.dev.flash → boots s t s.dev.flash ∧ t.dev.window = 2 ^ 26) ∧
    (¬good s.dev s.dev.flash → t.dev.boot = .recovery ∧ t.dev.ports = [] ∧ t.dev.window = 2 ^ 30)) ∧
  (∀ s : State, (s.dev.boot = .recovery → good s.dev s.dev.recovery →
      ∃ t, exec .recoveryDoorbell s = .next t ∧ t.mem = s.mem ∧ t.ctx = s.ctx ∧ boots s t s.dev.recovery ∧
        t.dev.window = s.dev.window ∧ t.dev.flash = s.dev.flash) ∧
    (s.dev.boot ≠ .recovery ∨ ¬good s.dev s.dev.recovery → exec .recoveryDoorbell s = .next s)) ∧
  (∀ s : State, s.dev.boot = .running → ∃ f, exec .imageFlashWrite s = .next { s with dev := { s.dev with flash := f } } ∧
    f.take s.dev.image.length = s.dev.image ∧ f.drop s.dev.image.length = s.dev.flash.drop s.dev.image.length) ∧
  (∀ s : State, s.dev.boot = .running →
    (s.dev.mbStatus ≠ 1#32 →
      exec .attestReport s = .next { s with dev := { s.dev with mbStatus := 1#32, mbCmd := 1, mbNonce := s.dev.nonce } } ∧
      exec .attestCertificate s = .next { s with dev := { s.dev with mbStatus := 1#32, mbCmd := 2, mbNonce := s.dev.nonce } }) ∧
    (s.dev.mbStatus = 1#32 → exec .attestReport s = .next s ∧ exec .attestCertificate s = .next s ∧
      exec (.mailboxComplete false) s = .next { s with dev := { s.dev with mbStatus := 4#32 } } ∧
      (s.dev.mbCmd = 1 → ∃ t d, exec (.mailboxComplete true) s = .next t ∧
        t.dev = { s.dev with mbStatus := 2#32, mbLength := 312#32, mbData := d } ∧ t.ctx = s.ctx ∧ t.mem = s.mem ∧
        d.length = 312 ∧ d.take 8 = natBytes 0x00015452 4 ++ natBytes 1 4 ∧
        (s.dev.mbNonce.length = 48 → (d.drop 8).take 48 = s.dev.mbNonce) ∧
        ((d.drop 72).take 48).reverse = natBytes (Config.sha384 s.dev.image).toNat 48 ∧
        ((Config.identitySign (d.take 216) s.fresh).length = 96 → d.drop 216 = Config.identitySign (d.take 216) s.fresh)) ∧
      (s.dev.mbCmd ≠ 1 → exec (.mailboxComplete true) s = .next { s with dev := { s.dev with
        mbStatus := 3#32, mbLength := BitVec.ofNat 32 Config.identityCert.length, mbData := Config.identityCert } })))

/-- R28, R52 to R57, R115, R390: when a crew's turn to issue has come, its run's lanes are the runnable lanes at its PC, and the step is
the instruction that the words there decode to, on the state with the unit's length noted: what the fetch adds is that translations are
kept, and that the free-value counter moves. An ill-formed unit parks with ILLEGAL every lane of the run for a uniform word, and for a
lane-set word the active ones, the others moving past it. An event's turn is the event. Around it a step only lets the other core of
each bracketed pair whose cores differ make the same move: with no such pair, it adds nothing. By the model's own reading (log 97), a step
that would write back an update ahead of its turn in a replay does not happen, but for the time that goes by. -/
def Obligations.StepRunsTheDecodedUnit : Prop :=
  ∀ (s s1 : State) (m : Move), s.dev.boot ≠ .stopped → s.pick = (some m, s1) →
    let both (o : Host.Outcome State Fault Refusal) : Host.Outcome State Fault Refusal :=
      match o with | .next t => .next (s.lockstep exec t) | .fault f => .fault f | .refused r => .refused r
    ((∀ u ∈ s.ctx.teams, s.apart u = false) → ∀ t : State, t.backsHeld = false → both (.next t) = .next t) ∧
    (∀ t : State, t.backsHeld = true → both (.next t) = .next s1) ∧ (∀ t : State, t.noSheet → t.backsHeld = false) ∧
    (∀ i : Instr, m = .event i → step s = both (exec i (s1.take i))) ∧
    ∀ s2, s1.runOf m = some s2 →
      (∀ id i, m = .issue id i → s2.cur.team = id ∧ s2.cur.crew = i ∧ s2.cur.run = s2.crew.runAt s2.cur.pc ∧ s2.mem = s1.mem) ∧
      ∀ (pa : Nat → Nat) (tr : Nat → Treat),
        let w (j : Nat) : W32 := BitVec.ofNat 32 (bytesNat (readBytes s2.mem (pa j) 4))
        let d := decodeUnit (w 0) (w 1) (w 2)
        (∀ j, j < d.words → tr j ≠ .s ∧ s2.Translates (pcAfter s2.cur.pc j).toNat (some .fetch) (pa j) (tr j)) →
        (s2.coreSt s2.crew.core).oldCode = [] →
        ∃ s3, s3 = { s2 with cur := { s2.cur with words := d.words }, fresh := s3.fresh, ctx := { s2.ctx with tlb := s3.ctx.tlb } } ∧
          (∀ x, d.instr = some x → step s = both (exec x s3)) ∧
          (d.instr = none → s3.AtUnit → (∀ l ∈ lanesOf s3.cur.run, (s3.crew.lane l).inHandler = false) →
            ∃ t, step s = both (.next t) ∧ s3.Keeps t ∧ t.crew.regs = s3.crew.regs ∧ ∀ l ∈ lanesOf s3.cur.run,
              if d.uniform = true ∨ ((s3.crew.mreg d.mask.toNat).getLsbD l != d.inv) = true then
                (t.crew.lane l).st = .parked ∧ (t.crew.lane l).cause = .illegal ∧ (t.crew.lane l).saved = s3.cur.pc
              else t.crew.lane l = { s3.crew.lane l with pc := pcAfter s3.cur.pc d.words, age := 0 })

/-- Table 2.15: the worked encodings decode to the instructions they stand for, and R39, R40, R52: a reserved PREFIX value, a PREFIX
before a uniform word and a reserved major decode to none. -/
def Obligations.WorkedEncodingsDecode : Prop :=
  (decodeUnit 0x14030185#32 0#32 0#32).instr = some (.iadd .zero false 3#7 (.v 1#7) (.k 5#7)) ∧
  (decodeUnit 0x7F034101#32 0x330A0102#32 0#32).instr =
    some (.ffma ⟨3#8, 2#3, false, false, .rtz, false, .dflt, .plain, false, true⟩ false 10#7 (.v 1#7) (.v 2#7)) ∧
  (decodeUnit 0x01200005#32 0#32 0#32).instr = some (.bra 1#3 false 5#20) ∧
  (decodeUnit 0x68080283#32 0#32 0#32).instr = some (.ld .zero false 8#7 (.v 2#7) .b32 3#6) ∧
  (decodeUnit 0x2E040000#32 0x3F800000#32 0#32).instr = some (.lit .zero 4#7 0x3F800000#32) ∧
  (decodeUnit 0x000098C0#32 0#32 0#32).instr = some (.nop 0x98C0#16) ∧
  (decodeUnit 0x81070304#32 0#32 0#32).instr = some (.kadd 7#8 3#8 4#8) ∧
  (decodeUnit 0xA0827FFD#32 0#32 0#32).instr = some (.kbra .nonzero 9#8 0x3FFD#14) ∧
  (decodeUnit 0xF2050000#32 0#32 0#32).instr = some (.csrr 5#8 0x000#12) ∧
  (decodeUnit 0xD80C1000#32 0#32 0#32).instr = some (.copy 12#8 0x10#8 false false) ∧
  (decodeUnit 0x7F006600#32 0x30010102#32 0#32).instr = none ∧
  (decodeUnit 0x7F006000#32 0x81070304#32 0#32).instr = none ∧
  (decodeUnit 0x12000000#32 0#32 0#32).instr = none

/-- R140, R404, Tables 16.3, 17.2 and 17.4: after reset the part is in its ROM, SERCFG is 0x0418, PWRCAP, SERSEL, CSMODE and CSSIZE are
0, no context is live, a context's SHUTTER is 1,200,000 clocks and its allowances unlimited, and the ROM's check is the first step.
Memory lists nothing and has its canonical form, and a byte written reads back while every other byte stays (the model's choices of
log 3 and log 4: unwritten memory reads 0, and device time begins at 0). -/
def Obligations.ResetLeavesTheStatedValues : Prop :=
  Memory.wf State.reset.mem = true ∧ State.reset.mem = [] ∧ State.reset.dev.boot = .rom ∧
  State.reset.dev.sercfg = 0x0418#32 ∧ State.reset.dev.pwrcap = 0#32 ∧ State.reset.dev.sersel = 0#32 ∧
  State.reset.dev.csmode = 0#2 ∧ State.reset.dev.cssize = 0#32 ∧ State.reset.ctx.live = false ∧ State.reset.swapped = [] ∧
  State.reset.ctx.shutter = 1200000#32 ∧ (∀ cls act, State.reset.allowance cls act = 0xFFFFFFFF#32) ∧
  State.reset.timeNs = 0#64 ∧ (∀ a, readKey State.reset.mem a = 0#8) ∧
  (∀ (m : Sparse 8) (a b : Nat) (x : Byte), Memory.wf m = true → Memory.wf (writeKey m a x) = true ∧
    readKey (writeKey m a x) b = if b = a then x else readKey m b) ∧
  ∃ t, step State.reset = .next t ∧ (t.dev.boot = .running ∨ t.dev.boot = .recovery) ∧ t.mem = []

/-- R26 to R48, R52: for every well-formed instruction that has a word, what the encoder writes decodes to that instruction and its
number of words, whatever words follow it; and whatever the decoder answers is well formed. -/
def Obligations.EncodedUnitsDecodeBack : Prop :=
  (∀ i : Instr, i.wellFormed = true → encodeWord i ≠ none → ∀ a b : W32,
    (decodeWords (encode i ++ [a, b])).instr = some i ∧ (decodeWords (encode i ++ [a, b])).words = (encode i).length) ∧
  ∀ (w0 w1 w2 : W32) (i : Instr), (decodeUnit w0 w1 w2).instr = some i → i.wellFormed = true

/-- Every step keeps the canonical form of memory: from any state whose memory has it, an instruction, an event, a walk of the
device's own and the passing of time leave a memory that has it. -/
def Obligations.EveryStepKeepsMemoryCanonical : Prop :=
  ∀ s t : State, Memory.wf s.mem = true → step s = .next t → Memory.wf t.mem = true
end

