-- ==== Sys2Proof/Laws/Store.lean ====
section
/-!
SUPPORT. The laws of stores: a read after a write, the canonical form, and lists of bytes and of elements by place.
-/

namespace Sys2Proof.Machine

/-! ## Reads after writes -/

@[simp] theorem readKey_nil {w : Nat} (a : Nat) : readKey ([] : Sparse w) a = 0#w := rfl

theorem readKey_eraseKey {w : Nat} (m : Sparse w) (a b : Nat) :
    readKey (eraseKey m a) b = if b = a then 0#w else readKey m b := by
  induction m with
  | nil => simp [eraseKey]
  | cons e rest ih =>
    obtain ⟨c, y⟩ := e
    by_cases h : c = a
    · subst h
      have : eraseKey ((c, y) :: rest) c = eraseKey rest c := by simp [eraseKey]
      rw [this, ih]
      by_cases hb : b = c <;> simp [readKey, hb]
    · have : eraseKey ((c, y) :: rest) a = (c, y) :: eraseKey rest a := by simp [eraseKey, h]
      rw [this]
      simp only [readKey, ih]
      by_cases hb : b = c
      · subst hb; simp [h]
      · simp [hb]

/-- A read after a write: the value written at its key, and what was there at every other key. -/
theorem readKey_writeKey {w : Nat} (m : Sparse w) (a b : Nat) (x : BitVec w) :
    readKey (writeKey m a x) b = if b = a then x else readKey m b := by
  induction m with
  | nil =>
    by_cases hx : x = 0#w
    · simp [writeKey, hx]
    · by_cases hb : b = a <;> simp [writeKey, readKey, hx, hb]
  | cons e rest ih =>
    obtain ⟨c, y⟩ := e
    simp only [writeKey]
    split
    · rename_i h
      simp only [readKey, ih]
      by_cases hb : b = c
      · subst hb; simp [Nat.ne_of_lt h]
      · simp [hb]
    · split
      · rename_i hx; rw [readKey_eraseKey, hx]
      · simp only [readKey, readKey_eraseKey]
        by_cases hb : b = a <;> simp [hb]

@[simp] theorem readKey_writeKey_self {w : Nat} (m : Sparse w) (a : Nat) (x : BitVec w) :
    readKey (writeKey m a x) a = x := by simp [readKey_writeKey]

theorem readKey_writeKey_ne {w : Nat} (m : Sparse w) {a b : Nat} (x : BitVec w) (h : b ≠ a) :
    readKey (writeKey m a x) b = readKey m b := by simp [readKey_writeKey, h]

/-- A byte after bytes are written from an address up. -/
theorem readKey_writeBytes (m : Sparse 8) (a : Nat) (xs : List Byte) (b : Nat) :
    readKey (writeBytes m a xs) b = if a ≤ b ∧ b < a + xs.length then xs.getD (b - a) 0#8 else readKey m b := by
  induction xs generalizing m a with
  | nil =>
    have : ¬(a ≤ b ∧ b < a + ([] : List Byte).length) := by simp
    simp only [writeBytes, this, if_false]
  | cons x xs ih =>
    simp only [writeBytes, ih, readKey_writeKey, List.length_cons]
    by_cases h1 : b = a
    · subst h1; simp
    · by_cases h2 : a + 1 ≤ b ∧ b < a + 1 + xs.length
      · have h3 : a ≤ b ∧ b < a + (xs.length + 1) := by omega
        obtain ⟨k, rfl⟩ : ∃ k, b = a + 1 + k := ⟨b - (a + 1), by omega⟩
        have h4 : a + 1 + k - a = k + 1 := by omega
        have h5 : a + 1 + k - (a + 1) = k := by omega
        rw [if_pos h2, if_pos h3, h4, h5, List.getD_cons_succ]
      · have h3 : ¬(a ≤ b ∧ b < a + (xs.length + 1)) := by omega
        rw [if_neg h2, if_neg h1, if_neg h3]

theorem readBytes_length (m : Sparse 8) (a n : Nat) : (readBytes m a n).length = n := by
  induction n generalizing a with
  | zero => rfl
  | succ n ih => simp [readBytes, ih]

theorem readBytes_getD (m : Sparse 8) (a n i : Nat) (h : i < n) : (readBytes m a n).getD i 0#8 = readKey m (a + i) := by
  induction n generalizing a i with
  | zero => omega
  | succ n ih =>
    cases i with
    | zero => simp [readBytes]
    | succ i =>
      rw [readBytes, List.getD_cons_succ, ih (a + 1) i (by omega)]
      congr 1; omega

/-- The bytes read where bytes were just written are those bytes. -/
theorem readBytes_writeBytes (m : Sparse 8) (a : Nat) (xs : List Byte) :
    readBytes (writeBytes m a xs) a xs.length = xs := by
  apply List.ext_getElem
  · simp [readBytes_length]
  · intro i h1 h2
    have hi : i < xs.length := h2
    have := readBytes_getD (writeBytes m a xs) a xs.length i hi
    rw [readKey_writeBytes] at this
    simp only [Nat.le_add_right, Nat.add_lt_add_left hi, and_self, if_true, Nat.add_sub_cancel_left] at this
    rw [List.getD_eq_getElem _ _ h1, List.getD_eq_getElem _ _ hi] at this
    exact this

/-! ## The canonical form -/

theorem storeWf_cons {w : Nat} (a : Nat) (x : BitVec w) (m : Sparse w) :
    storeWf ((a, x) :: m) = true ↔ x ≠ 0#w ∧ (∀ e ∈ m, a < e.1) ∧ storeWf m = true := by
  induction m generalizing a x with
  | nil => simp [storeWf]
  | cons e rest ih =>
    obtain ⟨b, y⟩ := e
    simp only [storeWf, Bool.and_eq_true, bne_iff_ne, ne_eq, decide_eq_true_eq]
    constructor
    · rintro ⟨⟨hx, hab⟩, hr⟩
      refine ⟨hx, ?_, hr⟩
      intro e he
      rcases List.mem_cons.1 he with rfl | he
      · exact hab
      · exact Nat.lt_trans hab (((ih b y).1 hr).2.1 e he)
    · rintro ⟨hx, hall, hr⟩
      exact ⟨⟨hx, hall (b, y) (by simp)⟩, hr⟩

theorem storeWf_filter {w : Nat} (m : Sparse w) (p : Nat × BitVec w → Bool) (h : storeWf m = true) :
    storeWf (m.filter p) = true := by
  induction m with
  | nil => rfl
  | cons e rest ih =>
    obtain ⟨a, x⟩ := e
    obtain ⟨hx, hall, hr⟩ := (storeWf_cons a x rest).1 h
    rw [List.filter_cons]
    split
    · exact (storeWf_cons _ _ _).2 ⟨hx, fun e he => hall e (List.mem_of_mem_filter he), ih hr⟩
    · exact ih hr

theorem mem_writeKey {w : Nat} (m : Sparse w) (a : Nat) (x : BitVec w) (e : Nat × BitVec w)
    (h : e ∈ writeKey m a x) : e.1 = a ∨ e ∈ m := by
  induction m with
  | nil =>
    by_cases hx : x = 0#w
    · simp [writeKey, hx] at h
    · simp [writeKey, hx] at h; exact .inl (by rw [h])
  | cons f rest ih =>
    obtain ⟨b, y⟩ := f
    simp only [writeKey] at h
    split at h
    · rcases List.mem_cons.1 h with rfl | h
      · exact .inr (by simp)
      · rcases ih h with h | h
        · exact .inl h
        · exact .inr (List.mem_cons_of_mem _ h)
    · split at h
      · exact .inr (List.mem_of_mem_filter h)
      · rcases List.mem_cons.1 h with rfl | h
        · exact .inl rfl
        · exact .inr (List.mem_of_mem_filter h)

/-- A write keeps the canonical form. -/
theorem storeWf_writeKey {w : Nat} (m : Sparse w) (a : Nat) (x : BitVec w) (h : storeWf m = true) :
    storeWf (writeKey m a x) = true := by
  induction m with
  | nil =>
    by_cases hx : x = 0#w
    · simp [writeKey, hx, storeWf]
    · simp [writeKey, hx, storeWf]
  | cons f rest ih =>
    obtain ⟨b, y⟩ := f
    obtain ⟨hy, hall, hr⟩ := (storeWf_cons b y rest).1 h
    simp only [writeKey]
    split
    · rename_i hba
      refine (storeWf_cons _ _ _).2 ⟨hy, fun e he => ?_, ih hr⟩
      rcases mem_writeKey _ _ _ _ he with h | h
      · rw [h]; exact hba
      · exact hall e h
    · rename_i hba
      split
      · exact storeWf_filter _ _ h
      · rename_i hx
        refine (storeWf_cons _ _ _).2 ⟨hx, fun e he => ?_, storeWf_filter _ _ h⟩
        obtain ⟨he, hne⟩ := List.mem_filter.1 he
        have hne : e.1 ≠ a := by simpa using hne
        rcases List.mem_cons.1 he with rfl | he
        · have : b ≠ a := hne
          show a < b; omega
        · have := hall e he; omega

/-- Writing bytes keeps the canonical form. -/
theorem storeWf_writeBytes (m : Sparse 8) (a : Nat) (xs : List Byte) (h : storeWf m = true) :
    storeWf (writeBytes m a xs) = true := by
  induction xs generalizing m a with
  | nil => exact h
  | cons x xs ih => exact ih _ _ (storeWf_writeKey m a x h)

theorem Memory.wf_writeBytes (m : Sparse 8) (a : Nat) (xs : List Byte) (h : Memory.wf m = true) :
    Memory.wf (writeBytes m a xs) = true := storeWf_writeBytes m a xs h

theorem storeWf_clearKeys {w : Nat} (m : Sparse w) (a b : Nat) (h : storeWf m = true) :
    storeWf (clearKeys m a b) = true := storeWf_filter _ _ h

theorem readKey_clearKeys {w : Nat} (m : Sparse w) (a b c : Nat) :
    readKey (clearKeys m a b) c = if a ≤ c ∧ c < b then 0#w else readKey m c := by
  induction m with
  | nil => simp [clearKeys]
  | cons e rest ih =>
    obtain ⟨k, y⟩ := e
    by_cases h : a ≤ k ∧ k < b
    · have hf : clearKeys ((k, y) :: rest) a b = clearKeys rest a b := by
        simp only [clearKeys, List.filter_cons]
        rw [if_neg]; simp; omega
      rw [hf, ih]
      by_cases hc : c = k
      · subst hc; simp [h]
      · simp [readKey, hc]
    · have hf : clearKeys ((k, y) :: rest) a b = (k, y) :: clearKeys rest a b := by
        simp only [clearKeys, List.filter_cons]
        rw [if_pos]; simp; omega
      rw [hf]
      simp only [readKey, ih]
      by_cases hc : c = k
      · subst hc; simp [h]
      · simp [hc]

/-- Equal reads make canonical stores equal. -/
theorem store_ext {w : Nat} (m n : Sparse w) (hm : storeWf m = true) (hn : storeWf n = true)
    (h : ∀ a, readKey m a = readKey n a) : m = n := by
  have absent : ∀ (m : Sparse w) (a : Nat), (∀ e ∈ m, a < e.1) → readKey m a = 0#w := by
    intro m a ha
    induction m with
    | nil => rfl
    | cons e rest ih =>
      have h1 := ha e (by simp)
      simp only [readKey]
      rw [if_neg (by omega)]
      exact ih fun e he => ha e (List.mem_cons_of_mem _ he)
  induction m generalizing n with
  | nil =>
    cases n with
    | nil => rfl
    | cons e rest =>
      have := h e.1
      simp [readKey] at this
      exact absurd this.symm ((storeWf_cons e.1 e.2 rest).1 hn).1
  | cons e rest ih =>
    obtain ⟨a, x⟩ := e
    obtain ⟨hx, hall, hr⟩ := (storeWf_cons a x rest).1 hm
    cases n with
    | nil =>
      have := h a
      simp [readKey] at this
      exact absurd this hx
    | cons f rest' =>
      obtain ⟨b, y⟩ := f
      obtain ⟨hy, hall', hr'⟩ := (storeWf_cons b y rest').1 hn
      have hab : a = b := by
        rcases Nat.lt_trichotomy a b with hlt | heq | hgt
        · have h1 := h a
          have h2 : readKey ((b, y) :: rest') a = 0#w := absent _ a fun e he => by
            rcases List.mem_cons.1 he with rfl | he
            · exact hlt
            · exact Nat.lt_trans hlt (hall' e he)
          rw [h2] at h1; simp [readKey] at h1; exact absurd h1 hx
        · exact heq
        · have h1 := h b
          have h2 : readKey ((a, x) :: rest) b = 0#w := absent _ b fun e he => by
            rcases List.mem_cons.1 he with rfl | he
            · exact hgt
            · exact Nat.lt_trans hgt (hall e he)
          rw [h2] at h1; simp [readKey] at h1; exact absurd h1.symm hy
      subst hab
      have hxy : x = y := by simpa [readKey] using h a
      subst hxy
      congr 1
      refine ih rest' hr hr' fun c => ?_
      by_cases hc : c = a
      · subst hc
        rw [absent rest c hall, absent rest' c hall']
      · simpa [readKey, hc] using h c

/-! ## Lists by place -/

@[simp] theorem mapFrom_length {α β : Type} (f : Nat → α → β) (i : Nat) (xs : List α) :
    (mapFrom f i xs).length = xs.length := by
  induction xs generalizing i with
  | nil => rfl
  | cons x xs ih => simp [mapFrom, ih]

theorem mapFrom_getElem? {α β : Type} (f : Nat → α → β) (i : Nat) (xs : List α) (n : Nat) :
    (mapFrom f i xs)[n]? = xs[n]?.map (f (i + n)) := by
  induction xs generalizing i n with
  | nil => simp [mapFrom]
  | cons x xs ih =>
    cases n with
    | zero => simp [mapFrom]
    | succ n =>
      simp only [mapFrom, List.getElem?_cons_succ, ih]
      have : i + 1 + n = i + (n + 1) := by omega
      rw [this]

@[simp] theorem updateAt_length {α : Type} (f : α → α) (n : Nat) (xs : List α) :
    (updateAt f n xs).length = xs.length := by
  induction xs generalizing n with
  | nil => cases n <;> rfl
  | cons x xs ih => cases n <;> simp [updateAt, ih]

theorem updateAt_getElem? {α : Type} (f : α → α) (n : Nat) (xs : List α) (i : Nat) :
    (updateAt f n xs)[i]? = if i = n then xs[i]?.map f else xs[i]? := by
  induction xs generalizing n i with
  | nil => cases n <;> simp [updateAt]
  | cons x xs ih =>
    cases n with
    | zero => cases i <;> simp [updateAt]
    | succ n => cases i <;> simp [updateAt, ih]

/-- The first accepted element after an update that keeps the test. -/
theorem find?_updateFirst {α : Type} (p q : α → Bool) (f : α → α) (hq : ∀ x, q (f x) = q x)
    (xs : List α) (h : ∀ x, p x = true → q x = true ∨ ∀ y, p y = true → q y = false) :
    (updateFirst p f xs).find? q = (xs.find? q).map fun x => if p x then f x else x := by
  induction xs with
  | nil => rfl
  | cons x xs ih =>
    simp only [updateFirst]
    by_cases hx : p x = true
    · rw [if_pos hx]
      simp only [List.find?_cons, hq]
      cases hqx : q x with
      | true => simp [hx]
      | false =>
        have hno : ∀ y, p y = true → q y = false := by
          rcases h x hx with h1 | h1
          · rw [hqx] at h1; cases h1
          · exact h1
        cases hf : xs.find? q with
        | none => rfl
        | some y =>
          have hqy : q y = true := by simpa using List.find?_some hf
          have : p y = false := by
            cases hpy : p y with
            | false => rfl
            | true => rw [hno y hpy] at hqy; cases hqy
          simp [this]
    · rw [if_neg hx]
      simp only [List.find?_cons]
      cases hqx : q x with
      | true => simp [hx]
      | false => exact ih

theorem map_updateFirst {α β : Type} (p : α → Bool) (f : α → α) (g : α → β) (h : ∀ x, g (f x) = g x) (xs : List α) :
    (updateFirst p f xs).map g = xs.map g := by
  induction xs with
  | nil => rfl
  | cons x xs ih =>
    simp only [updateFirst]
    split <;> simp [h, ih]

end Sys2Proof.Machine
end

