-- ==== Sys2Proof/Laws/State.lean ====
section
/-!
SUPPORT. What each named update of the state, of a context and of a crew leaves as it was, one lemma per field.
-/

namespace Sys2Proof.Machine

variable (s : State) (c : Crew)

/-! ## withTeams -/

@[simp] theorem State.withTeams_part (ts : List Team) : (s.withTeams ts).part = s.part := rfl
@[simp] theorem State.withTeams_dev (ts : List Team) : (s.withTeams ts).dev = s.dev := rfl
@[simp] theorem State.withTeams_mem (ts : List Team) : (s.withTeams ts).mem = s.mem := rfl
@[simp] theorem State.withTeams_openMem (ts : List Team) : (s.withTeams ts).openMem = s.openMem := rfl
@[simp] theorem State.withTeams_swapped (ts : List Team) : (s.withTeams ts).swapped = s.swapped := rfl
@[simp] theorem State.withTeams_choices (ts : List Team) : (s.withTeams ts).choices = s.choices := rfl
@[simp] theorem State.withTeams_fresh (ts : List Team) : (s.withTeams ts).fresh = s.fresh := rfl
@[simp] theorem State.withTeams_inputs (ts : List Team) : (s.withTeams ts).inputs = s.inputs := rfl
@[simp] theorem State.withTeams_cur (ts : List Team) : (s.withTeams ts).cur = s.cur := rfl
@[simp] theorem State.withTeams_nextId (ts : List Team) : (s.withTeams ts).nextId = s.nextId := rfl
@[simp] theorem State.withTeams_ctx_live (ts : List Team) : (s.withTeams ts).ctx.live = s.ctx.live := rfl
@[simp] theorem State.withTeams_ctx_ended (ts : List Team) : (s.withTeams ts).ctx.ended = s.ctx.ended := rfl
@[simp] theorem State.withTeams_ctx_id (ts : List Team) : (s.withTeams ts).ctx.id = s.ctx.id := rfl
@[simp] theorem State.withTeams_ctx_privileged (ts : List Team) : (s.withTeams ts).ctx.privileged = s.ctx.privileged := rfl
@[simp] theorem State.withTeams_ctx_ptRoot (ts : List Team) : (s.withTeams ts).ctx.ptRoot = s.ctx.ptRoot := rfl
@[simp] theorem State.withTeams_ctx_cores (ts : List Team) : (s.withTeams ts).ctx.cores = s.ctx.cores := rfl
@[simp] theorem State.withTeams_ctx_away (ts : List Team) : (s.withTeams ts).ctx.away = s.ctx.away := rfl
@[simp] theorem State.withTeams_ctx_twins (ts : List Team) : (s.withTeams ts).ctx.twins = s.ctx.twins := rfl
@[simp] theorem State.withTeams_ctx_ident (ts : List Team) : (s.withTeams ts).ctx.ident = s.ctx.ident := rfl
@[simp] theorem State.withTeams_ctx_variant (ts : List Team) : (s.withTeams ts).ctx.variant = s.ctx.variant := rfl
@[simp] theorem State.withTeams_ctx_slices (ts : List Team) : (s.withTeams ts).ctx.slices = s.ctx.slices := rfl
@[simp] theorem State.withTeams_ctx_clock (ts : List Team) : (s.withTeams ts).ctx.clock = s.ctx.clock := rfl
@[simp] theorem State.withTeams_ctx_saved (ts : List Team) : (s.withTeams ts).ctx.saved = s.ctx.saved := rfl
@[simp] theorem State.withTeams_ctx_cmds (ts : List Team) : (s.withTeams ts).ctx.cmds = s.ctx.cmds := rfl
@[simp] theorem State.withTeams_ctx_reqs (ts : List Team) : (s.withTeams ts).ctx.reqs = s.ctx.reqs := rfl
@[simp] theorem State.withTeams_ctx_coreSts (ts : List Team) : (s.withTeams ts).ctx.coreSts = s.ctx.coreSts := rfl
@[simp] theorem State.withTeams_ctx_l2host (ts : List Team) : (s.withTeams ts).ctx.l2host = s.ctx.l2host := rfl
@[simp] theorem State.withTeams_ctx_openL2 (ts : List Team) : (s.withTeams ts).ctx.openL2 = s.ctx.openL2 := rfl
@[simp] theorem State.withTeams_ctx_backs (ts : List Team) : (s.withTeams ts).ctx.backs = s.ctx.backs := rfl
@[simp] theorem State.withTeams_ctx_tlb (ts : List Team) : (s.withTeams ts).ctx.tlb = s.ctx.tlb := rfl
@[simp] theorem State.withTeams_ctx_reported (ts : List Team) : (s.withTeams ts).ctx.reported = s.ctx.reported := rfl
@[simp] theorem State.withTeams_ctx_regions (ts : List Team) : (s.withTeams ts).ctx.regions = s.ctx.regions := rfl
@[simp] theorem State.withTeams_ctx_launches (ts : List Team) : (s.withTeams ts).ctx.launches = s.ctx.launches := rfl
@[simp] theorem State.withTeams_ctx_incoming (ts : List Team) : (s.withTeams ts).ctx.incoming = s.ctx.incoming := rfl
@[simp] theorem State.withTeams_ctx_xinvLo (ts : List Team) : (s.withTeams ts).ctx.xinvLo = s.ctx.xinvLo := rfl
@[simp] theorem State.withTeams_ctx_xinvHi (ts : List Team) : (s.withTeams ts).ctx.xinvHi = s.ctx.xinvHi := rfl
@[simp] theorem State.withTeams_ctx_xinvCmd (ts : List Team) : (s.withTeams ts).ctx.xinvCmd = s.ctx.xinvCmd := rfl
@[simp] theorem State.withTeams_ctx_xinvAt (ts : List Team) : (s.withTeams ts).ctx.xinvAt = s.ctx.xinvAt := rfl
@[simp] theorem State.withTeams_ctx_saveArea (ts : List Team) : (s.withTeams ts).ctx.saveArea = s.ctx.saveArea := rfl
@[simp] theorem State.withTeams_ctx_saveAreaH (ts : List Team) : (s.withTeams ts).ctx.saveAreaH = s.ctx.saveAreaH := rfl
@[simp] theorem State.withTeams_ctx_saveSlots (ts : List Team) : (s.withTeams ts).ctx.saveSlots = s.ctx.saveSlots := rfl
@[simp] theorem State.withTeams_ctx_saveStride (ts : List Team) : (s.withTeams ts).ctx.saveStride = s.ctx.saveStride := rfl
@[simp] theorem State.withTeams_ctx_shutter (ts : List Team) : (s.withTeams ts).ctx.shutter = s.ctx.shutter := rfl
@[simp] theorem State.withTeams_ctx_period (ts : List Team) : (s.withTeams ts).ctx.period = s.ctx.period := rfl
@[simp] theorem State.withTeams_ctx_boundary (ts : List Team) : (s.withTeams ts).ctx.boundary = s.ctx.boundary := rfl
@[simp] theorem State.withTeams_ctx_exposel (ts : List Team) : (s.withTeams ts).ctx.exposel = s.ctx.exposel := rfl
@[simp] theorem State.withTeams_ctx_allowW (ts : List Team) : (s.withTeams ts).ctx.allowW = s.ctx.allowW := rfl
@[simp] theorem State.withTeams_ctx_allow (ts : List Team) : (s.withTeams ts).ctx.allow = s.ctx.allow := rfl
@[simp] theorem State.withTeams_ctx_periodNo (ts : List Team) : (s.withTeams ts).ctx.periodNo = s.ctx.periodNo := rfl
@[simp] theorem State.withTeams_ctx_expo (ts : List Team) : (s.withTeams ts).ctx.expo = s.ctx.expo := rfl

/-! ## updTeamId -/

@[simp] theorem State.updTeamId_part (id : Nat) (f : Team → Team) : (s.updTeamId id f).part = s.part := rfl
@[simp] theorem State.updTeamId_dev (id : Nat) (f : Team → Team) : (s.updTeamId id f).dev = s.dev := rfl
@[simp] theorem State.updTeamId_mem (id : Nat) (f : Team → Team) : (s.updTeamId id f).mem = s.mem := rfl
@[simp] theorem State.updTeamId_openMem (id : Nat) (f : Team → Team) : (s.updTeamId id f).openMem = s.openMem := rfl
@[simp] theorem State.updTeamId_swapped (id : Nat) (f : Team → Team) : (s.updTeamId id f).swapped = s.swapped := rfl
@[simp] theorem State.updTeamId_choices (id : Nat) (f : Team → Team) : (s.updTeamId id f).choices = s.choices := rfl
@[simp] theorem State.updTeamId_fresh (id : Nat) (f : Team → Team) : (s.updTeamId id f).fresh = s.fresh := rfl
@[simp] theorem State.updTeamId_inputs (id : Nat) (f : Team → Team) : (s.updTeamId id f).inputs = s.inputs := rfl
@[simp] theorem State.updTeamId_cur (id : Nat) (f : Team → Team) : (s.updTeamId id f).cur = s.cur := rfl
@[simp] theorem State.updTeamId_nextId (id : Nat) (f : Team → Team) : (s.updTeamId id f).nextId = s.nextId := rfl
@[simp] theorem State.updTeamId_ctx_live (id : Nat) (f : Team → Team) : (s.updTeamId id f).ctx.live = s.ctx.live := rfl
@[simp] theorem State.updTeamId_ctx_ended (id : Nat) (f : Team → Team) : (s.updTeamId id f).ctx.ended = s.ctx.ended := rfl
@[simp] theorem State.updTeamId_ctx_id (id : Nat) (f : Team → Team) : (s.updTeamId id f).ctx.id = s.ctx.id := rfl
@[simp] theorem State.updTeamId_ctx_privileged (id : Nat) (f : Team → Team) : (s.updTeamId id f).ctx.privileged = s.ctx.privileged := rfl
@[simp] theorem State.updTeamId_ctx_ptRoot (id : Nat) (f : Team → Team) : (s.updTeamId id f).ctx.ptRoot = s.ctx.ptRoot := rfl
@[simp] theorem State.updTeamId_ctx_cores (id : Nat) (f : Team → Team) : (s.updTeamId id f).ctx.cores = s.ctx.cores := rfl
@[simp] theorem State.updTeamId_ctx_away (id : Nat) (f : Team → Team) : (s.updTeamId id f).ctx.away = s.ctx.away := rfl
@[simp] theorem State.updTeamId_ctx_twins (id : Nat) (f : Team → Team) : (s.updTeamId id f).ctx.twins = s.ctx.twins := rfl
@[simp] theorem State.updTeamId_ctx_ident (id : Nat) (f : Team → Team) : (s.updTeamId id f).ctx.ident = s.ctx.ident := rfl
@[simp] theorem State.updTeamId_ctx_variant (id : Nat) (f : Team → Team) : (s.updTeamId id f).ctx.variant = s.ctx.variant := rfl
@[simp] theorem State.updTeamId_ctx_slices (id : Nat) (f : Team → Team) : (s.updTeamId id f).ctx.slices = s.ctx.slices := rfl
@[simp] theorem State.updTeamId_ctx_clock (id : Nat) (f : Team → Team) : (s.updTeamId id f).ctx.clock = s.ctx.clock := rfl
@[simp] theorem State.updTeamId_ctx_saved (id : Nat) (f : Team → Team) : (s.updTeamId id f).ctx.saved = s.ctx.saved := rfl
@[simp] theorem State.updTeamId_ctx_cmds (id : Nat) (f : Team → Team) : (s.updTeamId id f).ctx.cmds = s.ctx.cmds := rfl
@[simp] theorem State.updTeamId_ctx_reqs (id : Nat) (f : Team → Team) : (s.updTeamId id f).ctx.reqs = s.ctx.reqs := rfl
@[simp] theorem State.updTeamId_ctx_coreSts (id : Nat) (f : Team → Team) : (s.updTeamId id f).ctx.coreSts = s.ctx.coreSts := rfl
@[simp] theorem State.updTeamId_ctx_l2host (id : Nat) (f : Team → Team) : (s.updTeamId id f).ctx.l2host = s.ctx.l2host := rfl
@[simp] theorem State.updTeamId_ctx_openL2 (id : Nat) (f : Team → Team) : (s.updTeamId id f).ctx.openL2 = s.ctx.openL2 := rfl
@[simp] theorem State.updTeamId_ctx_backs (id : Nat) (f : Team → Team) : (s.updTeamId id f).ctx.backs = s.ctx.backs := rfl
@[simp] theorem State.updTeamId_ctx_tlb (id : Nat) (f : Team → Team) : (s.updTeamId id f).ctx.tlb = s.ctx.tlb := rfl
@[simp] theorem State.updTeamId_ctx_reported (id : Nat) (f : Team → Team) : (s.updTeamId id f).ctx.reported = s.ctx.reported := rfl
@[simp] theorem State.updTeamId_ctx_regions (id : Nat) (f : Team → Team) : (s.updTeamId id f).ctx.regions = s.ctx.regions := rfl
@[simp] theorem State.updTeamId_ctx_launches (id : Nat) (f : Team → Team) : (s.updTeamId id f).ctx.launches = s.ctx.launches := rfl
@[simp] theorem State.updTeamId_ctx_incoming (id : Nat) (f : Team → Team) : (s.updTeamId id f).ctx.incoming = s.ctx.incoming := rfl
@[simp] theorem State.updTeamId_ctx_xinvLo (id : Nat) (f : Team → Team) : (s.updTeamId id f).ctx.xinvLo = s.ctx.xinvLo := rfl
@[simp] theorem State.updTeamId_ctx_xinvHi (id : Nat) (f : Team → Team) : (s.updTeamId id f).ctx.xinvHi = s.ctx.xinvHi := rfl
@[simp] theorem State.updTeamId_ctx_xinvCmd (id : Nat) (f : Team → Team) : (s.updTeamId id f).ctx.xinvCmd = s.ctx.xinvCmd := rfl
@[simp] theorem State.updTeamId_ctx_xinvAt (id : Nat) (f : Team → Team) : (s.updTeamId id f).ctx.xinvAt = s.ctx.xinvAt := rfl
@[simp] theorem State.updTeamId_ctx_saveArea (id : Nat) (f : Team → Team) : (s.updTeamId id f).ctx.saveArea = s.ctx.saveArea := rfl
@[simp] theorem State.updTeamId_ctx_saveAreaH (id : Nat) (f : Team → Team) : (s.updTeamId id f).ctx.saveAreaH = s.ctx.saveAreaH := rfl
@[simp] theorem State.updTeamId_ctx_saveSlots (id : Nat) (f : Team → Team) : (s.updTeamId id f).ctx.saveSlots = s.ctx.saveSlots := rfl
@[simp] theorem State.updTeamId_ctx_saveStride (id : Nat) (f : Team → Team) : (s.updTeamId id f).ctx.saveStride = s.ctx.saveStride := rfl
@[simp] theorem State.updTeamId_ctx_shutter (id : Nat) (f : Team → Team) : (s.updTeamId id f).ctx.shutter = s.ctx.shutter := rfl
@[simp] theorem State.updTeamId_ctx_period (id : Nat) (f : Team → Team) : (s.updTeamId id f).ctx.period = s.ctx.period := rfl
@[simp] theorem State.updTeamId_ctx_boundary (id : Nat) (f : Team → Team) : (s.updTeamId id f).ctx.boundary = s.ctx.boundary := rfl
@[simp] theorem State.updTeamId_ctx_exposel (id : Nat) (f : Team → Team) : (s.updTeamId id f).ctx.exposel = s.ctx.exposel := rfl
@[simp] theorem State.updTeamId_ctx_allowW (id : Nat) (f : Team → Team) : (s.updTeamId id f).ctx.allowW = s.ctx.allowW := rfl
@[simp] theorem State.updTeamId_ctx_allow (id : Nat) (f : Team → Team) : (s.updTeamId id f).ctx.allow = s.ctx.allow := rfl
@[simp] theorem State.updTeamId_ctx_periodNo (id : Nat) (f : Team → Team) : (s.updTeamId id f).ctx.periodNo = s.ctx.periodNo := rfl
@[simp] theorem State.updTeamId_ctx_expo (id : Nat) (f : Team → Team) : (s.updTeamId id f).ctx.expo = s.ctx.expo := rfl

/-! ## updCrewOf -/

@[simp] theorem State.updCrewOf_part (id i : Nat) (f : Crew → Crew) : (s.updCrewOf id i f).part = s.part := rfl
@[simp] theorem State.updCrewOf_dev (id i : Nat) (f : Crew → Crew) : (s.updCrewOf id i f).dev = s.dev := rfl
@[simp] theorem State.updCrewOf_mem (id i : Nat) (f : Crew → Crew) : (s.updCrewOf id i f).mem = s.mem := rfl
@[simp] theorem State.updCrewOf_openMem (id i : Nat) (f : Crew → Crew) : (s.updCrewOf id i f).openMem = s.openMem := rfl
@[simp] theorem State.updCrewOf_swapped (id i : Nat) (f : Crew → Crew) : (s.updCrewOf id i f).swapped = s.swapped := rfl
@[simp] theorem State.updCrewOf_choices (id i : Nat) (f : Crew → Crew) : (s.updCrewOf id i f).choices = s.choices := rfl
@[simp] theorem State.updCrewOf_fresh (id i : Nat) (f : Crew → Crew) : (s.updCrewOf id i f).fresh = s.fresh := rfl
@[simp] theorem State.updCrewOf_inputs (id i : Nat) (f : Crew → Crew) : (s.updCrewOf id i f).inputs = s.inputs := rfl
@[simp] theorem State.updCrewOf_cur (id i : Nat) (f : Crew → Crew) : (s.updCrewOf id i f).cur = s.cur := rfl
@[simp] theorem State.updCrewOf_nextId (id i : Nat) (f : Crew → Crew) : (s.updCrewOf id i f).nextId = s.nextId := rfl
@[simp] theorem State.updCrewOf_ctx_live (id i : Nat) (f : Crew → Crew) : (s.updCrewOf id i f).ctx.live = s.ctx.live := rfl
@[simp] theorem State.updCrewOf_ctx_ended (id i : Nat) (f : Crew → Crew) : (s.updCrewOf id i f).ctx.ended = s.ctx.ended := rfl
@[simp] theorem State.updCrewOf_ctx_id (id i : Nat) (f : Crew → Crew) : (s.updCrewOf id i f).ctx.id = s.ctx.id := rfl
@[simp] theorem State.updCrewOf_ctx_privileged (id i : Nat) (f : Crew → Crew) : (s.updCrewOf id i f).ctx.privileged = s.ctx.privileged := rfl
@[simp] theorem State.updCrewOf_ctx_ptRoot (id i : Nat) (f : Crew → Crew) : (s.updCrewOf id i f).ctx.ptRoot = s.ctx.ptRoot := rfl
@[simp] theorem State.updCrewOf_ctx_cores (id i : Nat) (f : Crew → Crew) : (s.updCrewOf id i f).ctx.cores = s.ctx.cores := rfl
@[simp] theorem State.updCrewOf_ctx_away (id i : Nat) (f : Crew → Crew) : (s.updCrewOf id i f).ctx.away = s.ctx.away := rfl
@[simp] theorem State.updCrewOf_ctx_twins (id i : Nat) (f : Crew → Crew) : (s.updCrewOf id i f).ctx.twins = s.ctx.twins := rfl
@[simp] theorem State.updCrewOf_ctx_ident (id i : Nat) (f : Crew → Crew) : (s.updCrewOf id i f).ctx.ident = s.ctx.ident := rfl
@[simp] theorem State.updCrewOf_ctx_variant (id i : Nat) (f : Crew → Crew) : (s.updCrewOf id i f).ctx.variant = s.ctx.variant := rfl
@[simp] theorem State.updCrewOf_ctx_slices (id i : Nat) (f : Crew → Crew) : (s.updCrewOf id i f).ctx.slices = s.ctx.slices := rfl
@[simp] theorem State.updCrewOf_ctx_clock (id i : Nat) (f : Crew → Crew) : (s.updCrewOf id i f).ctx.clock = s.ctx.clock := rfl
@[simp] theorem State.updCrewOf_ctx_saved (id i : Nat) (f : Crew → Crew) : (s.updCrewOf id i f).ctx.saved = s.ctx.saved := rfl
@[simp] theorem State.updCrewOf_ctx_cmds (id i : Nat) (f : Crew → Crew) : (s.updCrewOf id i f).ctx.cmds = s.ctx.cmds := rfl
@[simp] theorem State.updCrewOf_ctx_reqs (id i : Nat) (f : Crew → Crew) : (s.updCrewOf id i f).ctx.reqs = s.ctx.reqs := rfl
@[simp] theorem State.updCrewOf_ctx_coreSts (id i : Nat) (f : Crew → Crew) : (s.updCrewOf id i f).ctx.coreSts = s.ctx.coreSts := rfl
@[simp] theorem State.updCrewOf_ctx_l2host (id i : Nat) (f : Crew → Crew) : (s.updCrewOf id i f).ctx.l2host = s.ctx.l2host := rfl
@[simp] theorem State.updCrewOf_ctx_openL2 (id i : Nat) (f : Crew → Crew) : (s.updCrewOf id i f).ctx.openL2 = s.ctx.openL2 := rfl
@[simp] theorem State.updCrewOf_ctx_backs (id i : Nat) (f : Crew → Crew) : (s.updCrewOf id i f).ctx.backs = s.ctx.backs := rfl
@[simp] theorem State.updCrewOf_ctx_tlb (id i : Nat) (f : Crew → Crew) : (s.updCrewOf id i f).ctx.tlb = s.ctx.tlb := rfl
@[simp] theorem State.updCrewOf_ctx_reported (id i : Nat) (f : Crew → Crew) : (s.updCrewOf id i f).ctx.reported = s.ctx.reported := rfl
@[simp] theorem State.updCrewOf_ctx_regions (id i : Nat) (f : Crew → Crew) : (s.updCrewOf id i f).ctx.regions = s.ctx.regions := rfl
@[simp] theorem State.updCrewOf_ctx_launches (id i : Nat) (f : Crew → Crew) : (s.updCrewOf id i f).ctx.launches = s.ctx.launches := rfl
@[simp] theorem State.updCrewOf_ctx_incoming (id i : Nat) (f : Crew → Crew) : (s.updCrewOf id i f).ctx.incoming = s.ctx.incoming := rfl
@[simp] theorem State.updCrewOf_ctx_xinvLo (id i : Nat) (f : Crew → Crew) : (s.updCrewOf id i f).ctx.xinvLo = s.ctx.xinvLo := rfl
@[simp] theorem State.updCrewOf_ctx_xinvHi (id i : Nat) (f : Crew → Crew) : (s.updCrewOf id i f).ctx.xinvHi = s.ctx.xinvHi := rfl
@[simp] theorem State.updCrewOf_ctx_xinvCmd (id i : Nat) (f : Crew → Crew) : (s.updCrewOf id i f).ctx.xinvCmd = s.ctx.xinvCmd := rfl
@[simp] theorem State.updCrewOf_ctx_xinvAt (id i : Nat) (f : Crew → Crew) : (s.updCrewOf id i f).ctx.xinvAt = s.ctx.xinvAt := rfl
@[simp] theorem State.updCrewOf_ctx_saveArea (id i : Nat) (f : Crew → Crew) : (s.updCrewOf id i f).ctx.saveArea = s.ctx.saveArea := rfl
@[simp] theorem State.updCrewOf_ctx_saveAreaH (id i : Nat) (f : Crew → Crew) : (s.updCrewOf id i f).ctx.saveAreaH = s.ctx.saveAreaH := rfl
@[simp] theorem State.updCrewOf_ctx_saveSlots (id i : Nat) (f : Crew → Crew) : (s.updCrewOf id i f).ctx.saveSlots = s.ctx.saveSlots := rfl
@[simp] theorem State.updCrewOf_ctx_saveStride (id i : Nat) (f : Crew → Crew) : (s.updCrewOf id i f).ctx.saveStride = s.ctx.saveStride := rfl
@[simp] theorem State.updCrewOf_ctx_shutter (id i : Nat) (f : Crew → Crew) : (s.updCrewOf id i f).ctx.shutter = s.ctx.shutter := rfl
@[simp] theorem State.updCrewOf_ctx_period (id i : Nat) (f : Crew → Crew) : (s.updCrewOf id i f).ctx.period = s.ctx.period := rfl
@[simp] theorem State.updCrewOf_ctx_boundary (id i : Nat) (f : Crew → Crew) : (s.updCrewOf id i f).ctx.boundary = s.ctx.boundary := rfl
@[simp] theorem State.updCrewOf_ctx_exposel (id i : Nat) (f : Crew → Crew) : (s.updCrewOf id i f).ctx.exposel = s.ctx.exposel := rfl
@[simp] theorem State.updCrewOf_ctx_allowW (id i : Nat) (f : Crew → Crew) : (s.updCrewOf id i f).ctx.allowW = s.ctx.allowW := rfl
@[simp] theorem State.updCrewOf_ctx_allow (id i : Nat) (f : Crew → Crew) : (s.updCrewOf id i f).ctx.allow = s.ctx.allow := rfl
@[simp] theorem State.updCrewOf_ctx_periodNo (id i : Nat) (f : Crew → Crew) : (s.updCrewOf id i f).ctx.periodNo = s.ctx.periodNo := rfl
@[simp] theorem State.updCrewOf_ctx_expo (id i : Nat) (f : Crew → Crew) : (s.updCrewOf id i f).ctx.expo = s.ctx.expo := rfl

/-! ## updTeam -/

@[simp] theorem State.updTeam_part (f : Team → Team) : (s.updTeam f).part = s.part := rfl
@[simp] theorem State.updTeam_dev (f : Team → Team) : (s.updTeam f).dev = s.dev := rfl
@[simp] theorem State.updTeam_mem (f : Team → Team) : (s.updTeam f).mem = s.mem := rfl
@[simp] theorem State.updTeam_openMem (f : Team → Team) : (s.updTeam f).openMem = s.openMem := rfl
@[simp] theorem State.updTeam_swapped (f : Team → Team) : (s.updTeam f).swapped = s.swapped := rfl
@[simp] theorem State.updTeam_choices (f : Team → Team) : (s.updTeam f).choices = s.choices := rfl
@[simp] theorem State.updTeam_fresh (f : Team → Team) : (s.updTeam f).fresh = s.fresh := rfl
@[simp] theorem State.updTeam_inputs (f : Team → Team) : (s.updTeam f).inputs = s.inputs := rfl
@[simp] theorem State.updTeam_cur (f : Team → Team) : (s.updTeam f).cur = s.cur := rfl
@[simp] theorem State.updTeam_nextId (f : Team → Team) : (s.updTeam f).nextId = s.nextId := rfl
@[simp] theorem State.updTeam_ctx_live (f : Team → Team) : (s.updTeam f).ctx.live = s.ctx.live := rfl
@[simp] theorem State.updTeam_ctx_ended (f : Team → Team) : (s.updTeam f).ctx.ended = s.ctx.ended := rfl
@[simp] theorem State.updTeam_ctx_id (f : Team → Team) : (s.updTeam f).ctx.id = s.ctx.id := rfl
@[simp] theorem State.updTeam_ctx_privileged (f : Team → Team) : (s.updTeam f).ctx.privileged = s.ctx.privileged := rfl
@[simp] theorem State.updTeam_ctx_ptRoot (f : Team → Team) : (s.updTeam f).ctx.ptRoot = s.ctx.ptRoot := rfl
@[simp] theorem State.updTeam_ctx_cores (f : Team → Team) : (s.updTeam f).ctx.cores = s.ctx.cores := rfl
@[simp] theorem State.updTeam_ctx_away (f : Team → Team) : (s.updTeam f).ctx.away = s.ctx.away := rfl
@[simp] theorem State.updTeam_ctx_twins (f : Team → Team) : (s.updTeam f).ctx.twins = s.ctx.twins := rfl
@[simp] theorem State.updTeam_ctx_ident (f : Team → Team) : (s.updTeam f).ctx.ident = s.ctx.ident := rfl
@[simp] theorem State.updTeam_ctx_variant (f : Team → Team) : (s.updTeam f).ctx.variant = s.ctx.variant := rfl
@[simp] theorem State.updTeam_ctx_slices (f : Team → Team) : (s.updTeam f).ctx.slices = s.ctx.slices := rfl
@[simp] theorem State.updTeam_ctx_clock (f : Team → Team) : (s.updTeam f).ctx.clock = s.ctx.clock := rfl
@[simp] theorem State.updTeam_ctx_saved (f : Team → Team) : (s.updTeam f).ctx.saved = s.ctx.saved := rfl
@[simp] theorem State.updTeam_ctx_cmds (f : Team → Team) : (s.updTeam f).ctx.cmds = s.ctx.cmds := rfl
@[simp] theorem State.updTeam_ctx_reqs (f : Team → Team) : (s.updTeam f).ctx.reqs = s.ctx.reqs := rfl
@[simp] theorem State.updTeam_ctx_coreSts (f : Team → Team) : (s.updTeam f).ctx.coreSts = s.ctx.coreSts := rfl
@[simp] theorem State.updTeam_ctx_l2host (f : Team → Team) : (s.updTeam f).ctx.l2host = s.ctx.l2host := rfl
@[simp] theorem State.updTeam_ctx_openL2 (f : Team → Team) : (s.updTeam f).ctx.openL2 = s.ctx.openL2 := rfl
@[simp] theorem State.updTeam_ctx_backs (f : Team → Team) : (s.updTeam f).ctx.backs = s.ctx.backs := rfl
@[simp] theorem State.updTeam_ctx_tlb (f : Team → Team) : (s.updTeam f).ctx.tlb = s.ctx.tlb := rfl
@[simp] theorem State.updTeam_ctx_reported (f : Team → Team) : (s.updTeam f).ctx.reported = s.ctx.reported := rfl
@[simp] theorem State.updTeam_ctx_regions (f : Team → Team) : (s.updTeam f).ctx.regions = s.ctx.regions := rfl
@[simp] theorem State.updTeam_ctx_launches (f : Team → Team) : (s.updTeam f).ctx.launches = s.ctx.launches := rfl
@[simp] theorem State.updTeam_ctx_incoming (f : Team → Team) : (s.updTeam f).ctx.incoming = s.ctx.incoming := rfl
@[simp] theorem State.updTeam_ctx_xinvLo (f : Team → Team) : (s.updTeam f).ctx.xinvLo = s.ctx.xinvLo := rfl
@[simp] theorem State.updTeam_ctx_xinvHi (f : Team → Team) : (s.updTeam f).ctx.xinvHi = s.ctx.xinvHi := rfl
@[simp] theorem State.updTeam_ctx_xinvCmd (f : Team → Team) : (s.updTeam f).ctx.xinvCmd = s.ctx.xinvCmd := rfl
@[simp] theorem State.updTeam_ctx_xinvAt (f : Team → Team) : (s.updTeam f).ctx.xinvAt = s.ctx.xinvAt := rfl
@[simp] theorem State.updTeam_ctx_saveArea (f : Team → Team) : (s.updTeam f).ctx.saveArea = s.ctx.saveArea := rfl
@[simp] theorem State.updTeam_ctx_saveAreaH (f : Team → Team) : (s.updTeam f).ctx.saveAreaH = s.ctx.saveAreaH := rfl
@[simp] theorem State.updTeam_ctx_saveSlots (f : Team → Team) : (s.updTeam f).ctx.saveSlots = s.ctx.saveSlots := rfl
@[simp] theorem State.updTeam_ctx_saveStride (f : Team → Team) : (s.updTeam f).ctx.saveStride = s.ctx.saveStride := rfl
@[simp] theorem State.updTeam_ctx_shutter (f : Team → Team) : (s.updTeam f).ctx.shutter = s.ctx.shutter := rfl
@[simp] theorem State.updTeam_ctx_period (f : Team → Team) : (s.updTeam f).ctx.period = s.ctx.period := rfl
@[simp] theorem State.updTeam_ctx_boundary (f : Team → Team) : (s.updTeam f).ctx.boundary = s.ctx.boundary := rfl
@[simp] theorem State.updTeam_ctx_exposel (f : Team → Team) : (s.updTeam f).ctx.exposel = s.ctx.exposel := rfl
@[simp] theorem State.updTeam_ctx_allowW (f : Team → Team) : (s.updTeam f).ctx.allowW = s.ctx.allowW := rfl
@[simp] theorem State.updTeam_ctx_allow (f : Team → Team) : (s.updTeam f).ctx.allow = s.ctx.allow := rfl
@[simp] theorem State.updTeam_ctx_periodNo (f : Team → Team) : (s.updTeam f).ctx.periodNo = s.ctx.periodNo := rfl
@[simp] theorem State.updTeam_ctx_expo (f : Team → Team) : (s.updTeam f).ctx.expo = s.ctx.expo := rfl

/-! ## updCrew -/

@[simp] theorem State.updCrew_part (f : Crew → Crew) : (s.updCrew f).part = s.part := rfl
@[simp] theorem State.updCrew_dev (f : Crew → Crew) : (s.updCrew f).dev = s.dev := rfl
@[simp] theorem State.updCrew_mem (f : Crew → Crew) : (s.updCrew f).mem = s.mem := rfl
@[simp] theorem State.updCrew_openMem (f : Crew → Crew) : (s.updCrew f).openMem = s.openMem := rfl
@[simp] theorem State.updCrew_swapped (f : Crew → Crew) : (s.updCrew f).swapped = s.swapped := rfl
@[simp] theorem State.updCrew_choices (f : Crew → Crew) : (s.updCrew f).choices = s.choices := rfl
@[simp] theorem State.updCrew_fresh (f : Crew → Crew) : (s.updCrew f).fresh = s.fresh := rfl
@[simp] theorem State.updCrew_inputs (f : Crew → Crew) : (s.updCrew f).inputs = s.inputs := rfl
@[simp] theorem State.updCrew_cur (f : Crew → Crew) : (s.updCrew f).cur = s.cur := rfl
@[simp] theorem State.updCrew_nextId (f : Crew → Crew) : (s.updCrew f).nextId = s.nextId := rfl
@[simp] theorem State.updCrew_ctx_live (f : Crew → Crew) : (s.updCrew f).ctx.live = s.ctx.live := rfl
@[simp] theorem State.updCrew_ctx_ended (f : Crew → Crew) : (s.updCrew f).ctx.ended = s.ctx.ended := rfl
@[simp] theorem State.updCrew_ctx_id (f : Crew → Crew) : (s.updCrew f).ctx.id = s.ctx.id := rfl
@[simp] theorem State.updCrew_ctx_privileged (f : Crew → Crew) : (s.updCrew f).ctx.privileged = s.ctx.privileged := rfl
@[simp] theorem State.updCrew_ctx_ptRoot (f : Crew → Crew) : (s.updCrew f).ctx.ptRoot = s.ctx.ptRoot := rfl
@[simp] theorem State.updCrew_ctx_cores (f : Crew → Crew) : (s.updCrew f).ctx.cores = s.ctx.cores := rfl
@[simp] theorem State.updCrew_ctx_away (f : Crew → Crew) : (s.updCrew f).ctx.away = s.ctx.away := rfl
@[simp] theorem State.updCrew_ctx_twins (f : Crew → Crew) : (s.updCrew f).ctx.twins = s.ctx.twins := rfl
@[simp] theorem State.updCrew_ctx_ident (f : Crew → Crew) : (s.updCrew f).ctx.ident = s.ctx.ident := rfl
@[simp] theorem State.updCrew_ctx_variant (f : Crew → Crew) : (s.updCrew f).ctx.variant = s.ctx.variant := rfl
@[simp] theorem State.updCrew_ctx_slices (f : Crew → Crew) : (s.updCrew f).ctx.slices = s.ctx.slices := rfl
@[simp] theorem State.updCrew_ctx_clock (f : Crew → Crew) : (s.updCrew f).ctx.clock = s.ctx.clock := rfl
@[simp] theorem State.updCrew_ctx_saved (f : Crew → Crew) : (s.updCrew f).ctx.saved = s.ctx.saved := rfl
@[simp] theorem State.updCrew_ctx_cmds (f : Crew → Crew) : (s.updCrew f).ctx.cmds = s.ctx.cmds := rfl
@[simp] theorem State.updCrew_ctx_reqs (f : Crew → Crew) : (s.updCrew f).ctx.reqs = s.ctx.reqs := rfl
@[simp] theorem State.updCrew_ctx_coreSts (f : Crew → Crew) : (s.updCrew f).ctx.coreSts = s.ctx.coreSts := rfl
@[simp] theorem State.updCrew_ctx_l2host (f : Crew → Crew) : (s.updCrew f).ctx.l2host = s.ctx.l2host := rfl
@[simp] theorem State.updCrew_ctx_openL2 (f : Crew → Crew) : (s.updCrew f).ctx.openL2 = s.ctx.openL2 := rfl
@[simp] theorem State.updCrew_ctx_backs (f : Crew → Crew) : (s.updCrew f).ctx.backs = s.ctx.backs := rfl
@[simp] theorem State.updCrew_ctx_tlb (f : Crew → Crew) : (s.updCrew f).ctx.tlb = s.ctx.tlb := rfl
@[simp] theorem State.updCrew_ctx_reported (f : Crew → Crew) : (s.updCrew f).ctx.reported = s.ctx.reported := rfl
@[simp] theorem State.updCrew_ctx_regions (f : Crew → Crew) : (s.updCrew f).ctx.regions = s.ctx.regions := rfl
@[simp] theorem State.updCrew_ctx_launches (f : Crew → Crew) : (s.updCrew f).ctx.launches = s.ctx.launches := rfl
@[simp] theorem State.updCrew_ctx_incoming (f : Crew → Crew) : (s.updCrew f).ctx.incoming = s.ctx.incoming := rfl
@[simp] theorem State.updCrew_ctx_xinvLo (f : Crew → Crew) : (s.updCrew f).ctx.xinvLo = s.ctx.xinvLo := rfl
@[simp] theorem State.updCrew_ctx_xinvHi (f : Crew → Crew) : (s.updCrew f).ctx.xinvHi = s.ctx.xinvHi := rfl
@[simp] theorem State.updCrew_ctx_xinvCmd (f : Crew → Crew) : (s.updCrew f).ctx.xinvCmd = s.ctx.xinvCmd := rfl
@[simp] theorem State.updCrew_ctx_xinvAt (f : Crew → Crew) : (s.updCrew f).ctx.xinvAt = s.ctx.xinvAt := rfl
@[simp] theorem State.updCrew_ctx_saveArea (f : Crew → Crew) : (s.updCrew f).ctx.saveArea = s.ctx.saveArea := rfl
@[simp] theorem State.updCrew_ctx_saveAreaH (f : Crew → Crew) : (s.updCrew f).ctx.saveAreaH = s.ctx.saveAreaH := rfl
@[simp] theorem State.updCrew_ctx_saveSlots (f : Crew → Crew) : (s.updCrew f).ctx.saveSlots = s.ctx.saveSlots := rfl
@[simp] theorem State.updCrew_ctx_saveStride (f : Crew → Crew) : (s.updCrew f).ctx.saveStride = s.ctx.saveStride := rfl
@[simp] theorem State.updCrew_ctx_shutter (f : Crew → Crew) : (s.updCrew f).ctx.shutter = s.ctx.shutter := rfl
@[simp] theorem State.updCrew_ctx_period (f : Crew → Crew) : (s.updCrew f).ctx.period = s.ctx.period := rfl
@[simp] theorem State.updCrew_ctx_boundary (f : Crew → Crew) : (s.updCrew f).ctx.boundary = s.ctx.boundary := rfl
@[simp] theorem State.updCrew_ctx_exposel (f : Crew → Crew) : (s.updCrew f).ctx.exposel = s.ctx.exposel := rfl
@[simp] theorem State.updCrew_ctx_allowW (f : Crew → Crew) : (s.updCrew f).ctx.allowW = s.ctx.allowW := rfl
@[simp] theorem State.updCrew_ctx_allow (f : Crew → Crew) : (s.updCrew f).ctx.allow = s.ctx.allow := rfl
@[simp] theorem State.updCrew_ctx_periodNo (f : Crew → Crew) : (s.updCrew f).ctx.periodNo = s.ctx.periodNo := rfl
@[simp] theorem State.updCrew_ctx_expo (f : Crew → Crew) : (s.updCrew f).ctx.expo = s.ctx.expo := rfl

/-! ## updLaunch -/

@[simp] theorem State.updLaunch_part (id : Nat) (f : Launch → Launch) : (s.updLaunch id f).part = s.part := rfl
@[simp] theorem State.updLaunch_dev (id : Nat) (f : Launch → Launch) : (s.updLaunch id f).dev = s.dev := rfl
@[simp] theorem State.updLaunch_mem (id : Nat) (f : Launch → Launch) : (s.updLaunch id f).mem = s.mem := rfl
@[simp] theorem State.updLaunch_openMem (id : Nat) (f : Launch → Launch) : (s.updLaunch id f).openMem = s.openMem := rfl
@[simp] theorem State.updLaunch_swapped (id : Nat) (f : Launch → Launch) : (s.updLaunch id f).swapped = s.swapped := rfl
@[simp] theorem State.updLaunch_choices (id : Nat) (f : Launch → Launch) : (s.updLaunch id f).choices = s.choices := rfl
@[simp] theorem State.updLaunch_fresh (id : Nat) (f : Launch → Launch) : (s.updLaunch id f).fresh = s.fresh := rfl
@[simp] theorem State.updLaunch_inputs (id : Nat) (f : Launch → Launch) : (s.updLaunch id f).inputs = s.inputs := rfl
@[simp] theorem State.updLaunch_cur (id : Nat) (f : Launch → Launch) : (s.updLaunch id f).cur = s.cur := rfl
@[simp] theorem State.updLaunch_nextId (id : Nat) (f : Launch → Launch) : (s.updLaunch id f).nextId = s.nextId := rfl
@[simp] theorem State.updLaunch_ctx_live (id : Nat) (f : Launch → Launch) : (s.updLaunch id f).ctx.live = s.ctx.live := rfl
@[simp] theorem State.updLaunch_ctx_ended (id : Nat) (f : Launch → Launch) : (s.updLaunch id f).ctx.ended = s.ctx.ended := rfl
@[simp] theorem State.updLaunch_ctx_id (id : Nat) (f : Launch → Launch) : (s.updLaunch id f).ctx.id = s.ctx.id := rfl
@[simp] theorem State.updLaunch_ctx_privileged (id : Nat) (f : Launch → Launch) : (s.updLaunch id f).ctx.privileged = s.ctx.privileged := rfl
@[simp] theorem State.updLaunch_ctx_ptRoot (id : Nat) (f : Launch → Launch) : (s.updLaunch id f).ctx.ptRoot = s.ctx.ptRoot := rfl
@[simp] theorem State.updLaunch_ctx_cores (id : Nat) (f : Launch → Launch) : (s.updLaunch id f).ctx.cores = s.ctx.cores := rfl
@[simp] theorem State.updLaunch_ctx_away (id : Nat) (f : Launch → Launch) : (s.updLaunch id f).ctx.away = s.ctx.away := rfl
@[simp] theorem State.updLaunch_ctx_twins (id : Nat) (f : Launch → Launch) : (s.updLaunch id f).ctx.twins = s.ctx.twins := rfl
@[simp] theorem State.updLaunch_ctx_ident (id : Nat) (f : Launch → Launch) : (s.updLaunch id f).ctx.ident = s.ctx.ident := rfl
@[simp] theorem State.updLaunch_ctx_variant (id : Nat) (f : Launch → Launch) : (s.updLaunch id f).ctx.variant = s.ctx.variant := rfl
@[simp] theorem State.updLaunch_ctx_slices (id : Nat) (f : Launch → Launch) : (s.updLaunch id f).ctx.slices = s.ctx.slices := rfl
@[simp] theorem State.updLaunch_ctx_clock (id : Nat) (f : Launch → Launch) : (s.updLaunch id f).ctx.clock = s.ctx.clock := rfl
@[simp] theorem State.updLaunch_ctx_teams (id : Nat) (f : Launch → Launch) : (s.updLaunch id f).ctx.teams = s.ctx.teams := rfl
@[simp] theorem State.updLaunch_ctx_saved (id : Nat) (f : Launch → Launch) : (s.updLaunch id f).ctx.saved = s.ctx.saved := rfl
@[simp] theorem State.updLaunch_ctx_cmds (id : Nat) (f : Launch → Launch) : (s.updLaunch id f).ctx.cmds = s.ctx.cmds := rfl
@[simp] theorem State.updLaunch_ctx_reqs (id : Nat) (f : Launch → Launch) : (s.updLaunch id f).ctx.reqs = s.ctx.reqs := rfl
@[simp] theorem State.updLaunch_ctx_coreSts (id : Nat) (f : Launch → Launch) : (s.updLaunch id f).ctx.coreSts = s.ctx.coreSts := rfl
@[simp] theorem State.updLaunch_ctx_l2host (id : Nat) (f : Launch → Launch) : (s.updLaunch id f).ctx.l2host = s.ctx.l2host := rfl
@[simp] theorem State.updLaunch_ctx_openL2 (id : Nat) (f : Launch → Launch) : (s.updLaunch id f).ctx.openL2 = s.ctx.openL2 := rfl
@[simp] theorem State.updLaunch_ctx_backs (id : Nat) (f : Launch → Launch) : (s.updLaunch id f).ctx.backs = s.ctx.backs := rfl
@[simp] theorem State.updLaunch_ctx_tlb (id : Nat) (f : Launch → Launch) : (s.updLaunch id f).ctx.tlb = s.ctx.tlb := rfl
@[simp] theorem State.updLaunch_ctx_reported (id : Nat) (f : Launch → Launch) : (s.updLaunch id f).ctx.reported = s.ctx.reported := rfl
@[simp] theorem State.updLaunch_ctx_regions (id : Nat) (f : Launch → Launch) : (s.updLaunch id f).ctx.regions = s.ctx.regions := rfl
@[simp] theorem State.updLaunch_ctx_incoming (id : Nat) (f : Launch → Launch) : (s.updLaunch id f).ctx.incoming = s.ctx.incoming := rfl
@[simp] theorem State.updLaunch_ctx_xinvLo (id : Nat) (f : Launch → Launch) : (s.updLaunch id f).ctx.xinvLo = s.ctx.xinvLo := rfl
@[simp] theorem State.updLaunch_ctx_xinvHi (id : Nat) (f : Launch → Launch) : (s.updLaunch id f).ctx.xinvHi = s.ctx.xinvHi := rfl
@[simp] theorem State.updLaunch_ctx_xinvCmd (id : Nat) (f : Launch → Launch) : (s.updLaunch id f).ctx.xinvCmd = s.ctx.xinvCmd := rfl
@[simp] theorem State.updLaunch_ctx_xinvAt (id : Nat) (f : Launch → Launch) : (s.updLaunch id f).ctx.xinvAt = s.ctx.xinvAt := rfl
@[simp] theorem State.updLaunch_ctx_saveArea (id : Nat) (f : Launch → Launch) : (s.updLaunch id f).ctx.saveArea = s.ctx.saveArea := rfl
@[simp] theorem State.updLaunch_ctx_saveAreaH (id : Nat) (f : Launch → Launch) : (s.updLaunch id f).ctx.saveAreaH = s.ctx.saveAreaH := rfl
@[simp] theorem State.updLaunch_ctx_saveSlots (id : Nat) (f : Launch → Launch) : (s.updLaunch id f).ctx.saveSlots = s.ctx.saveSlots := rfl
@[simp] theorem State.updLaunch_ctx_saveStride (id : Nat) (f : Launch → Launch) : (s.updLaunch id f).ctx.saveStride = s.ctx.saveStride := rfl
@[simp] theorem State.updLaunch_ctx_shutter (id : Nat) (f : Launch → Launch) : (s.updLaunch id f).ctx.shutter = s.ctx.shutter := rfl
@[simp] theorem State.updLaunch_ctx_period (id : Nat) (f : Launch → Launch) : (s.updLaunch id f).ctx.period = s.ctx.period := rfl
@[simp] theorem State.updLaunch_ctx_boundary (id : Nat) (f : Launch → Launch) : (s.updLaunch id f).ctx.boundary = s.ctx.boundary := rfl
@[simp] theorem State.updLaunch_ctx_exposel (id : Nat) (f : Launch → Launch) : (s.updLaunch id f).ctx.exposel = s.ctx.exposel := rfl
@[simp] theorem State.updLaunch_ctx_allowW (id : Nat) (f : Launch → Launch) : (s.updLaunch id f).ctx.allowW = s.ctx.allowW := rfl
@[simp] theorem State.updLaunch_ctx_allow (id : Nat) (f : Launch → Launch) : (s.updLaunch id f).ctx.allow = s.ctx.allow := rfl
@[simp] theorem State.updLaunch_ctx_periodNo (id : Nat) (f : Launch → Launch) : (s.updLaunch id f).ctx.periodNo = s.ctx.periodNo := rfl
@[simp] theorem State.updLaunch_ctx_expo (id : Nat) (f : Launch → Launch) : (s.updLaunch id f).ctx.expo = s.ctx.expo := rfl

/-! ## endLaunch -/

@[simp] theorem State.endLaunch_part (id : Nat) (w : W32) : (s.endLaunch id w).part = s.part := rfl
@[simp] theorem State.endLaunch_dev (id : Nat) (w : W32) : (s.endLaunch id w).dev = s.dev := rfl
@[simp] theorem State.endLaunch_mem (id : Nat) (w : W32) : (s.endLaunch id w).mem = s.mem := rfl
@[simp] theorem State.endLaunch_openMem (id : Nat) (w : W32) : (s.endLaunch id w).openMem = s.openMem := rfl
@[simp] theorem State.endLaunch_swapped (id : Nat) (w : W32) : (s.endLaunch id w).swapped = s.swapped := rfl
@[simp] theorem State.endLaunch_choices (id : Nat) (w : W32) : (s.endLaunch id w).choices = s.choices := rfl
@[simp] theorem State.endLaunch_fresh (id : Nat) (w : W32) : (s.endLaunch id w).fresh = s.fresh := rfl
@[simp] theorem State.endLaunch_inputs (id : Nat) (w : W32) : (s.endLaunch id w).inputs = s.inputs := rfl
@[simp] theorem State.endLaunch_cur (id : Nat) (w : W32) : (s.endLaunch id w).cur = s.cur := rfl
@[simp] theorem State.endLaunch_nextId (id : Nat) (w : W32) : (s.endLaunch id w).nextId = s.nextId := rfl
@[simp] theorem State.endLaunch_ctx_live (id : Nat) (w : W32) : (s.endLaunch id w).ctx.live = s.ctx.live := rfl
@[simp] theorem State.endLaunch_ctx_ended (id : Nat) (w : W32) : (s.endLaunch id w).ctx.ended = s.ctx.ended := rfl
@[simp] theorem State.endLaunch_ctx_id (id : Nat) (w : W32) : (s.endLaunch id w).ctx.id = s.ctx.id := rfl
@[simp] theorem State.endLaunch_ctx_privileged (id : Nat) (w : W32) : (s.endLaunch id w).ctx.privileged = s.ctx.privileged := rfl
@[simp] theorem State.endLaunch_ctx_ptRoot (id : Nat) (w : W32) : (s.endLaunch id w).ctx.ptRoot = s.ctx.ptRoot := rfl
@[simp] theorem State.endLaunch_ctx_cores (id : Nat) (w : W32) : (s.endLaunch id w).ctx.cores = s.ctx.cores := rfl
@[simp] theorem State.endLaunch_ctx_away (id : Nat) (w : W32) : (s.endLaunch id w).ctx.away = s.ctx.away := rfl
@[simp] theorem State.endLaunch_ctx_twins (id : Nat) (w : W32) : (s.endLaunch id w).ctx.twins = s.ctx.twins := rfl
@[simp] theorem State.endLaunch_ctx_ident (id : Nat) (w : W32) : (s.endLaunch id w).ctx.ident = s.ctx.ident := rfl
@[simp] theorem State.endLaunch_ctx_variant (id : Nat) (w : W32) : (s.endLaunch id w).ctx.variant = s.ctx.variant := rfl
@[simp] theorem State.endLaunch_ctx_slices (id : Nat) (w : W32) : (s.endLaunch id w).ctx.slices = s.ctx.slices := rfl
@[simp] theorem State.endLaunch_ctx_clock (id : Nat) (w : W32) : (s.endLaunch id w).ctx.clock = s.ctx.clock := rfl
@[simp] theorem State.endLaunch_ctx_teams (id : Nat) (w : W32) : (s.endLaunch id w).ctx.teams = s.ctx.teams := rfl
@[simp] theorem State.endLaunch_ctx_saved (id : Nat) (w : W32) : (s.endLaunch id w).ctx.saved = s.ctx.saved := rfl
@[simp] theorem State.endLaunch_ctx_cmds (id : Nat) (w : W32) : (s.endLaunch id w).ctx.cmds = s.ctx.cmds := rfl
@[simp] theorem State.endLaunch_ctx_reqs (id : Nat) (w : W32) : (s.endLaunch id w).ctx.reqs = s.ctx.reqs := rfl
@[simp] theorem State.endLaunch_ctx_coreSts (id : Nat) (w : W32) : (s.endLaunch id w).ctx.coreSts = s.ctx.coreSts := rfl
@[simp] theorem State.endLaunch_ctx_l2host (id : Nat) (w : W32) : (s.endLaunch id w).ctx.l2host = s.ctx.l2host := rfl
@[simp] theorem State.endLaunch_ctx_openL2 (id : Nat) (w : W32) : (s.endLaunch id w).ctx.openL2 = s.ctx.openL2 := rfl
@[simp] theorem State.endLaunch_ctx_backs (id : Nat) (w : W32) : (s.endLaunch id w).ctx.backs = s.ctx.backs := rfl
@[simp] theorem State.endLaunch_ctx_tlb (id : Nat) (w : W32) : (s.endLaunch id w).ctx.tlb = s.ctx.tlb := rfl
@[simp] theorem State.endLaunch_ctx_reported (id : Nat) (w : W32) : (s.endLaunch id w).ctx.reported = s.ctx.reported := rfl
@[simp] theorem State.endLaunch_ctx_regions (id : Nat) (w : W32) : (s.endLaunch id w).ctx.regions = s.ctx.regions := rfl
@[simp] theorem State.endLaunch_ctx_incoming (id : Nat) (w : W32) : (s.endLaunch id w).ctx.incoming = s.ctx.incoming := rfl
@[simp] theorem State.endLaunch_ctx_xinvLo (id : Nat) (w : W32) : (s.endLaunch id w).ctx.xinvLo = s.ctx.xinvLo := rfl
@[simp] theorem State.endLaunch_ctx_xinvHi (id : Nat) (w : W32) : (s.endLaunch id w).ctx.xinvHi = s.ctx.xinvHi := rfl
@[simp] theorem State.endLaunch_ctx_xinvCmd (id : Nat) (w : W32) : (s.endLaunch id w).ctx.xinvCmd = s.ctx.xinvCmd := rfl
@[simp] theorem State.endLaunch_ctx_xinvAt (id : Nat) (w : W32) : (s.endLaunch id w).ctx.xinvAt = s.ctx.xinvAt := rfl
@[simp] theorem State.endLaunch_ctx_saveArea (id : Nat) (w : W32) : (s.endLaunch id w).ctx.saveArea = s.ctx.saveArea := rfl
@[simp] theorem State.endLaunch_ctx_saveAreaH (id : Nat) (w : W32) : (s.endLaunch id w).ctx.saveAreaH = s.ctx.saveAreaH := rfl
@[simp] theorem State.endLaunch_ctx_saveSlots (id : Nat) (w : W32) : (s.endLaunch id w).ctx.saveSlots = s.ctx.saveSlots := rfl
@[simp] theorem State.endLaunch_ctx_saveStride (id : Nat) (w : W32) : (s.endLaunch id w).ctx.saveStride = s.ctx.saveStride := rfl
@[simp] theorem State.endLaunch_ctx_shutter (id : Nat) (w : W32) : (s.endLaunch id w).ctx.shutter = s.ctx.shutter := rfl
@[simp] theorem State.endLaunch_ctx_period (id : Nat) (w : W32) : (s.endLaunch id w).ctx.period = s.ctx.period := rfl
@[simp] theorem State.endLaunch_ctx_boundary (id : Nat) (w : W32) : (s.endLaunch id w).ctx.boundary = s.ctx.boundary := rfl
@[simp] theorem State.endLaunch_ctx_exposel (id : Nat) (w : W32) : (s.endLaunch id w).ctx.exposel = s.ctx.exposel := rfl
@[simp] theorem State.endLaunch_ctx_allowW (id : Nat) (w : W32) : (s.endLaunch id w).ctx.allowW = s.ctx.allowW := rfl
@[simp] theorem State.endLaunch_ctx_allow (id : Nat) (w : W32) : (s.endLaunch id w).ctx.allow = s.ctx.allow := rfl
@[simp] theorem State.endLaunch_ctx_periodNo (id : Nat) (w : W32) : (s.endLaunch id w).ctx.periodNo = s.ctx.periodNo := rfl
@[simp] theorem State.endLaunch_ctx_expo (id : Nat) (w : W32) : (s.endLaunch id w).ctx.expo = s.ctx.expo := rfl

/-! ## updCore -/

@[simp] theorem State.updCore_part (n : Nat) (f : CoreSt → CoreSt) : (s.updCore n f).part = s.part := rfl
@[simp] theorem State.updCore_dev (n : Nat) (f : CoreSt → CoreSt) : (s.updCore n f).dev = s.dev := rfl
@[simp] theorem State.updCore_mem (n : Nat) (f : CoreSt → CoreSt) : (s.updCore n f).mem = s.mem := rfl
@[simp] theorem State.updCore_openMem (n : Nat) (f : CoreSt → CoreSt) : (s.updCore n f).openMem = s.openMem := rfl
@[simp] theorem State.updCore_swapped (n : Nat) (f : CoreSt → CoreSt) : (s.updCore n f).swapped = s.swapped := rfl
@[simp] theorem State.updCore_choices (n : Nat) (f : CoreSt → CoreSt) : (s.updCore n f).choices = s.choices := rfl
@[simp] theorem State.updCore_fresh (n : Nat) (f : CoreSt → CoreSt) : (s.updCore n f).fresh = s.fresh := rfl
@[simp] theorem State.updCore_inputs (n : Nat) (f : CoreSt → CoreSt) : (s.updCore n f).inputs = s.inputs := rfl
@[simp] theorem State.updCore_cur (n : Nat) (f : CoreSt → CoreSt) : (s.updCore n f).cur = s.cur := rfl
@[simp] theorem State.updCore_nextId (n : Nat) (f : CoreSt → CoreSt) : (s.updCore n f).nextId = s.nextId := rfl
@[simp] theorem State.updCore_ctx_live (n : Nat) (f : CoreSt → CoreSt) : (s.updCore n f).ctx.live = s.ctx.live := rfl
@[simp] theorem State.updCore_ctx_ended (n : Nat) (f : CoreSt → CoreSt) : (s.updCore n f).ctx.ended = s.ctx.ended := rfl
@[simp] theorem State.updCore_ctx_id (n : Nat) (f : CoreSt → CoreSt) : (s.updCore n f).ctx.id = s.ctx.id := rfl
@[simp] theorem State.updCore_ctx_privileged (n : Nat) (f : CoreSt → CoreSt) : (s.updCore n f).ctx.privileged = s.ctx.privileged := rfl
@[simp] theorem State.updCore_ctx_ptRoot (n : Nat) (f : CoreSt → CoreSt) : (s.updCore n f).ctx.ptRoot = s.ctx.ptRoot := rfl
@[simp] theorem State.updCore_ctx_cores (n : Nat) (f : CoreSt → CoreSt) : (s.updCore n f).ctx.cores = s.ctx.cores := rfl
@[simp] theorem State.updCore_ctx_away (n : Nat) (f : CoreSt → CoreSt) : (s.updCore n f).ctx.away = s.ctx.away := rfl
@[simp] theorem State.updCore_ctx_twins (n : Nat) (f : CoreSt → CoreSt) : (s.updCore n f).ctx.twins = s.ctx.twins := rfl
@[simp] theorem State.updCore_ctx_ident (n : Nat) (f : CoreSt → CoreSt) : (s.updCore n f).ctx.ident = s.ctx.ident := rfl
@[simp] theorem State.updCore_ctx_variant (n : Nat) (f : CoreSt → CoreSt) : (s.updCore n f).ctx.variant = s.ctx.variant := rfl
@[simp] theorem State.updCore_ctx_slices (n : Nat) (f : CoreSt → CoreSt) : (s.updCore n f).ctx.slices = s.ctx.slices := rfl
@[simp] theorem State.updCore_ctx_clock (n : Nat) (f : CoreSt → CoreSt) : (s.updCore n f).ctx.clock = s.ctx.clock := rfl
@[simp] theorem State.updCore_ctx_teams (n : Nat) (f : CoreSt → CoreSt) : (s.updCore n f).ctx.teams = s.ctx.teams := rfl
@[simp] theorem State.updCore_ctx_saved (n : Nat) (f : CoreSt → CoreSt) : (s.updCore n f).ctx.saved = s.ctx.saved := rfl
@[simp] theorem State.updCore_ctx_cmds (n : Nat) (f : CoreSt → CoreSt) : (s.updCore n f).ctx.cmds = s.ctx.cmds := rfl
@[simp] theorem State.updCore_ctx_reqs (n : Nat) (f : CoreSt → CoreSt) : (s.updCore n f).ctx.reqs = s.ctx.reqs := rfl
@[simp] theorem State.updCore_ctx_l2host (n : Nat) (f : CoreSt → CoreSt) : (s.updCore n f).ctx.l2host = s.ctx.l2host := rfl
@[simp] theorem State.updCore_ctx_openL2 (n : Nat) (f : CoreSt → CoreSt) : (s.updCore n f).ctx.openL2 = s.ctx.openL2 := rfl
@[simp] theorem State.updCore_ctx_backs (n : Nat) (f : CoreSt → CoreSt) : (s.updCore n f).ctx.backs = s.ctx.backs := rfl
@[simp] theorem State.updCore_ctx_tlb (n : Nat) (f : CoreSt → CoreSt) : (s.updCore n f).ctx.tlb = s.ctx.tlb := rfl
@[simp] theorem State.updCore_ctx_reported (n : Nat) (f : CoreSt → CoreSt) : (s.updCore n f).ctx.reported = s.ctx.reported := rfl
@[simp] theorem State.updCore_ctx_regions (n : Nat) (f : CoreSt → CoreSt) : (s.updCore n f).ctx.regions = s.ctx.regions := rfl
@[simp] theorem State.updCore_ctx_launches (n : Nat) (f : CoreSt → CoreSt) : (s.updCore n f).ctx.launches = s.ctx.launches := rfl
@[simp] theorem State.updCore_ctx_incoming (n : Nat) (f : CoreSt → CoreSt) : (s.updCore n f).ctx.incoming = s.ctx.incoming := rfl
@[simp] theorem State.updCore_ctx_xinvLo (n : Nat) (f : CoreSt → CoreSt) : (s.updCore n f).ctx.xinvLo = s.ctx.xinvLo := rfl
@[simp] theorem State.updCore_ctx_xinvHi (n : Nat) (f : CoreSt → CoreSt) : (s.updCore n f).ctx.xinvHi = s.ctx.xinvHi := rfl
@[simp] theorem State.updCore_ctx_xinvCmd (n : Nat) (f : CoreSt → CoreSt) : (s.updCore n f).ctx.xinvCmd = s.ctx.xinvCmd := rfl
@[simp] theorem State.updCore_ctx_xinvAt (n : Nat) (f : CoreSt → CoreSt) : (s.updCore n f).ctx.xinvAt = s.ctx.xinvAt := rfl
@[simp] theorem State.updCore_ctx_saveArea (n : Nat) (f : CoreSt → CoreSt) : (s.updCore n f).ctx.saveArea = s.ctx.saveArea := rfl
@[simp] theorem State.updCore_ctx_saveAreaH (n : Nat) (f : CoreSt → CoreSt) : (s.updCore n f).ctx.saveAreaH = s.ctx.saveAreaH := rfl
@[simp] theorem State.updCore_ctx_saveSlots (n : Nat) (f : CoreSt → CoreSt) : (s.updCore n f).ctx.saveSlots = s.ctx.saveSlots := rfl
@[simp] theorem State.updCore_ctx_saveStride (n : Nat) (f : CoreSt → CoreSt) : (s.updCore n f).ctx.saveStride = s.ctx.saveStride := rfl
@[simp] theorem State.updCore_ctx_shutter (n : Nat) (f : CoreSt → CoreSt) : (s.updCore n f).ctx.shutter = s.ctx.shutter := rfl
@[simp] theorem State.updCore_ctx_period (n : Nat) (f : CoreSt → CoreSt) : (s.updCore n f).ctx.period = s.ctx.period := rfl
@[simp] theorem State.updCore_ctx_boundary (n : Nat) (f : CoreSt → CoreSt) : (s.updCore n f).ctx.boundary = s.ctx.boundary := rfl
@[simp] theorem State.updCore_ctx_exposel (n : Nat) (f : CoreSt → CoreSt) : (s.updCore n f).ctx.exposel = s.ctx.exposel := rfl
@[simp] theorem State.updCore_ctx_allowW (n : Nat) (f : CoreSt → CoreSt) : (s.updCore n f).ctx.allowW = s.ctx.allowW := rfl
@[simp] theorem State.updCore_ctx_allow (n : Nat) (f : CoreSt → CoreSt) : (s.updCore n f).ctx.allow = s.ctx.allow := rfl
@[simp] theorem State.updCore_ctx_periodNo (n : Nat) (f : CoreSt → CoreSt) : (s.updCore n f).ctx.periodNo = s.ctx.periodNo := rfl
@[simp] theorem State.updCore_ctx_expo (n : Nat) (f : CoreSt → CoreSt) : (s.updCore n f).ctx.expo = s.ctx.expo := rfl

/-! ## updRegion -/

@[simp] theorem State.updRegion_part (n : Nat) (f : Region → Region) : (s.updRegion n f).part = s.part := rfl
@[simp] theorem State.updRegion_dev (n : Nat) (f : Region → Region) : (s.updRegion n f).dev = s.dev := rfl
@[simp] theorem State.updRegion_mem (n : Nat) (f : Region → Region) : (s.updRegion n f).mem = s.mem := rfl
@[simp] theorem State.updRegion_openMem (n : Nat) (f : Region → Region) : (s.updRegion n f).openMem = s.openMem := rfl
@[simp] theorem State.updRegion_swapped (n : Nat) (f : Region → Region) : (s.updRegion n f).swapped = s.swapped := rfl
@[simp] theorem State.updRegion_choices (n : Nat) (f : Region → Region) : (s.updRegion n f).choices = s.choices := rfl
@[simp] theorem State.updRegion_fresh (n : Nat) (f : Region → Region) : (s.updRegion n f).fresh = s.fresh := rfl
@[simp] theorem State.updRegion_inputs (n : Nat) (f : Region → Region) : (s.updRegion n f).inputs = s.inputs := rfl
@[simp] theorem State.updRegion_cur (n : Nat) (f : Region → Region) : (s.updRegion n f).cur = s.cur := rfl
@[simp] theorem State.updRegion_nextId (n : Nat) (f : Region → Region) : (s.updRegion n f).nextId = s.nextId := rfl
@[simp] theorem State.updRegion_ctx_live (n : Nat) (f : Region → Region) : (s.updRegion n f).ctx.live = s.ctx.live := rfl
@[simp] theorem State.updRegion_ctx_ended (n : Nat) (f : Region → Region) : (s.updRegion n f).ctx.ended = s.ctx.ended := rfl
@[simp] theorem State.updRegion_ctx_id (n : Nat) (f : Region → Region) : (s.updRegion n f).ctx.id = s.ctx.id := rfl
@[simp] theorem State.updRegion_ctx_privileged (n : Nat) (f : Region → Region) : (s.updRegion n f).ctx.privileged = s.ctx.privileged := rfl
@[simp] theorem State.updRegion_ctx_ptRoot (n : Nat) (f : Region → Region) : (s.updRegion n f).ctx.ptRoot = s.ctx.ptRoot := rfl
@[simp] theorem State.updRegion_ctx_cores (n : Nat) (f : Region → Region) : (s.updRegion n f).ctx.cores = s.ctx.cores := rfl
@[simp] theorem State.updRegion_ctx_away (n : Nat) (f : Region → Region) : (s.updRegion n f).ctx.away = s.ctx.away := rfl
@[simp] theorem State.updRegion_ctx_twins (n : Nat) (f : Region → Region) : (s.updRegion n f).ctx.twins = s.ctx.twins := rfl
@[simp] theorem State.updRegion_ctx_ident (n : Nat) (f : Region → Region) : (s.updRegion n f).ctx.ident = s.ctx.ident := rfl
@[simp] theorem State.updRegion_ctx_variant (n : Nat) (f : Region → Region) : (s.updRegion n f).ctx.variant = s.ctx.variant := rfl
@[simp] theorem State.updRegion_ctx_slices (n : Nat) (f : Region → Region) : (s.updRegion n f).ctx.slices = s.ctx.slices := rfl
@[simp] theorem State.updRegion_ctx_clock (n : Nat) (f : Region → Region) : (s.updRegion n f).ctx.clock = s.ctx.clock := rfl
@[simp] theorem State.updRegion_ctx_teams (n : Nat) (f : Region → Region) : (s.updRegion n f).ctx.teams = s.ctx.teams := rfl
@[simp] theorem State.updRegion_ctx_saved (n : Nat) (f : Region → Region) : (s.updRegion n f).ctx.saved = s.ctx.saved := rfl
@[simp] theorem State.updRegion_ctx_cmds (n : Nat) (f : Region → Region) : (s.updRegion n f).ctx.cmds = s.ctx.cmds := rfl
@[simp] theorem State.updRegion_ctx_reqs (n : Nat) (f : Region → Region) : (s.updRegion n f).ctx.reqs = s.ctx.reqs := rfl
@[simp] theorem State.updRegion_ctx_coreSts (n : Nat) (f : Region → Region) : (s.updRegion n f).ctx.coreSts = s.ctx.coreSts := rfl
@[simp] theorem State.updRegion_ctx_l2host (n : Nat) (f : Region → Region) : (s.updRegion n f).ctx.l2host = s.ctx.l2host := rfl
@[simp] theorem State.updRegion_ctx_openL2 (n : Nat) (f : Region → Region) : (s.updRegion n f).ctx.openL2 = s.ctx.openL2 := rfl
@[simp] theorem State.updRegion_ctx_backs (n : Nat) (f : Region → Region) : (s.updRegion n f).ctx.backs = s.ctx.backs := rfl
@[simp] theorem State.updRegion_ctx_tlb (n : Nat) (f : Region → Region) : (s.updRegion n f).ctx.tlb = s.ctx.tlb := rfl
@[simp] theorem State.updRegion_ctx_reported (n : Nat) (f : Region → Region) : (s.updRegion n f).ctx.reported = s.ctx.reported := rfl
@[simp] theorem State.updRegion_ctx_launches (n : Nat) (f : Region → Region) : (s.updRegion n f).ctx.launches = s.ctx.launches := rfl
@[simp] theorem State.updRegion_ctx_incoming (n : Nat) (f : Region → Region) : (s.updRegion n f).ctx.incoming = s.ctx.incoming := rfl
@[simp] theorem State.updRegion_ctx_xinvLo (n : Nat) (f : Region → Region) : (s.updRegion n f).ctx.xinvLo = s.ctx.xinvLo := rfl
@[simp] theorem State.updRegion_ctx_xinvHi (n : Nat) (f : Region → Region) : (s.updRegion n f).ctx.xinvHi = s.ctx.xinvHi := rfl
@[simp] theorem State.updRegion_ctx_xinvCmd (n : Nat) (f : Region → Region) : (s.updRegion n f).ctx.xinvCmd = s.ctx.xinvCmd := rfl
@[simp] theorem State.updRegion_ctx_xinvAt (n : Nat) (f : Region → Region) : (s.updRegion n f).ctx.xinvAt = s.ctx.xinvAt := rfl
@[simp] theorem State.updRegion_ctx_saveArea (n : Nat) (f : Region → Region) : (s.updRegion n f).ctx.saveArea = s.ctx.saveArea := rfl
@[simp] theorem State.updRegion_ctx_saveAreaH (n : Nat) (f : Region → Region) : (s.updRegion n f).ctx.saveAreaH = s.ctx.saveAreaH := rfl
@[simp] theorem State.updRegion_ctx_saveSlots (n : Nat) (f : Region → Region) : (s.updRegion n f).ctx.saveSlots = s.ctx.saveSlots := rfl
@[simp] theorem State.updRegion_ctx_saveStride (n : Nat) (f : Region → Region) : (s.updRegion n f).ctx.saveStride = s.ctx.saveStride := rfl
@[simp] theorem State.updRegion_ctx_shutter (n : Nat) (f : Region → Region) : (s.updRegion n f).ctx.shutter = s.ctx.shutter := rfl
@[simp] theorem State.updRegion_ctx_period (n : Nat) (f : Region → Region) : (s.updRegion n f).ctx.period = s.ctx.period := rfl
@[simp] theorem State.updRegion_ctx_boundary (n : Nat) (f : Region → Region) : (s.updRegion n f).ctx.boundary = s.ctx.boundary := rfl
@[simp] theorem State.updRegion_ctx_exposel (n : Nat) (f : Region → Region) : (s.updRegion n f).ctx.exposel = s.ctx.exposel := rfl
@[simp] theorem State.updRegion_ctx_allowW (n : Nat) (f : Region → Region) : (s.updRegion n f).ctx.allowW = s.ctx.allowW := rfl
@[simp] theorem State.updRegion_ctx_allow (n : Nat) (f : Region → Region) : (s.updRegion n f).ctx.allow = s.ctx.allow := rfl
@[simp] theorem State.updRegion_ctx_periodNo (n : Nat) (f : Region → Region) : (s.updRegion n f).ctx.periodNo = s.ctx.periodNo := rfl
@[simp] theorem State.updRegion_ctx_expo (n : Nat) (f : Region → Region) : (s.updRegion n f).ctx.expo = s.ctx.expo := rfl

/-! ## bump -/

@[simp] theorem State.bump_part (n : Nat) : (s.bump n).part = s.part := rfl
@[simp] theorem State.bump_dev (n : Nat) : (s.bump n).dev = s.dev := rfl
@[simp] theorem State.bump_mem (n : Nat) : (s.bump n).mem = s.mem := rfl
@[simp] theorem State.bump_openMem (n : Nat) : (s.bump n).openMem = s.openMem := rfl
@[simp] theorem State.bump_ctx (n : Nat) : (s.bump n).ctx = s.ctx := rfl
@[simp] theorem State.bump_swapped (n : Nat) : (s.bump n).swapped = s.swapped := rfl
@[simp] theorem State.bump_choices (n : Nat) : (s.bump n).choices = s.choices := rfl
@[simp] theorem State.bump_inputs (n : Nat) : (s.bump n).inputs = s.inputs := rfl
@[simp] theorem State.bump_cur (n : Nat) : (s.bump n).cur = s.cur := rfl
@[simp] theorem State.bump_nextId (n : Nat) : (s.bump n).nextId = s.nextId := rfl
@[simp] theorem State.bump_fresh (n : Nat) : (s.bump n).fresh = s.fresh + n := rfl

/-! ## Crew.setV -/

@[simp] theorem Crew.setV_idx (r l : Nat) (x : W32) : (c.setV r l x).idx = c.idx := rfl
@[simp] theorem Crew.setV_core (r l : Nat) (x : W32) : (c.setV r l x).core = c.core := rfl
@[simp] theorem Crew.setV_partn (r l : Nat) (x : W32) : (c.setV r l x).partn = c.partn := rfl
@[simp] theorem Crew.setV_slot (r l : Nat) (x : W32) : (c.setV r l x).slot = c.slot := rfl
@[simp] theorem Crew.setV_active (r l : Nat) (x : W32) : (c.setV r l x).active = c.active := rfl
@[simp] theorem Crew.setV_readySince (r l : Nat) (x : W32) : (c.setV r l x).readySince = c.readySince := rfl
@[simp] theorem Crew.setV_activeSince (r l : Nat) (x : W32) : (c.setV r l x).activeSince = c.activeSince := rfl
@[simp] theorem Crew.setV_lanes (r l : Nat) (x : W32) : (c.setV r l x).lanes = c.lanes := rfl
@[simp] theorem Crew.setV_k (r l : Nat) (x : W32) : (c.setV r l x).k = c.k := rfl
@[simp] theorem Crew.setV_m (r l : Nat) (x : W32) : (c.setV r l x).m = c.m := rfl
@[simp] theorem Crew.setV_fpmode (r l : Nat) (x : W32) : (c.setV r l x).fpmode = c.fpmode := rfl
@[simp] theorem Crew.setV_fpflags (r l : Nat) (x : W32) : (c.setV r l x).fpflags = c.fpflags := rfl
@[simp] theorem Crew.setV_theta (r l : Nat) (x : W32) : (c.setV r l x).theta = c.theta := rfl
@[simp] theorem Crew.setV_walkMode (r l : Nat) (x : W32) : (c.setV r l x).walkMode = c.walkMode := rfl
@[simp] theorem Crew.setV_mincount (r l : Nat) (x : W32) : (c.setV r l x).mincount = c.mincount := rfl
@[simp] theorem Crew.setV_rgx (r l : Nat) (x : W32) : (c.setV r l x).rgx = c.rgx := rfl
@[simp] theorem Crew.setV_winBase (r l : Nat) (x : W32) : (c.setV r l x).winBase = c.winBase := rfl
@[simp] theorem Crew.setV_winLimit (r l : Nat) (x : W32) : (c.setV r l x).winLimit = c.winLimit := rfl
@[simp] theorem Crew.setV_unseen (r l : Nat) (x : W32) : (c.setV r l x).unseen = c.unseen := rfl
@[simp] theorem Crew.setV_tblidx (r l : Nat) (x : W32) : (c.setV r l x).tblidx = c.tblidx := rfl
@[simp] theorem Crew.setV_rot (r l : Nat) (x : W32) : (c.setV r l x).rot = c.rot := rfl
@[simp] theorem Crew.setV_streak (r l : Nat) (x : W32) : (c.setV r l x).streak = c.streak := rfl
@[simp] theorem Crew.setV_pos (r l : Nat) (x : W32) : (c.setV r l x).pos = c.pos := rfl
@[simp] theorem Crew.setV_last (r l : Nat) (x : W32) : (c.setV r l x).last = c.last := rfl
@[simp] theorem Crew.setV_stall (r l : Nat) (x : W32) : (c.setV r l x).stall = c.stall := rfl
@[simp] theorem Crew.setV_holds (r l : Nat) (x : W32) : (c.setV r l x).holds = c.holds := rfl
@[simp] theorem Crew.setV_episode (r l : Nat) (x : W32) : (c.setV r l x).episode = c.episode := rfl
@[simp] theorem Crew.setV_queue (r l : Nat) (x : W32) : (c.setV r l x).queue = c.queue := rfl
@[simp] theorem Crew.setV_atMaelner (r l : Nat) (x : W32) : (c.setV r l x).atMaelner = c.atMaelner := rfl
@[simp] theorem Crew.setV_parkNo (r l : Nat) (x : W32) : (c.setV r l x).parkNo = c.parkNo := rfl
@[simp] theorem Crew.setV_busy (r l : Nat) (x : W32) : (c.setV r l x).busy = c.busy := rfl
@[simp] theorem Crew.setV_mxCmds (r l : Nat) (x : W32) : (c.setV r l x).mxCmds = c.mxCmds := rfl
@[simp] theorem Crew.setV_mxFailed (r l : Nat) (x : W32) : (c.setV r l x).mxFailed = c.mxFailed := rfl
@[simp] theorem Crew.setV_mxPhases (r l : Nat) (x : W32) : (c.setV r l x).mxPhases = c.mxPhases := rfl
@[simp] theorem Crew.setV_chain (r l : Nat) (x : W32) : (c.setV r l x).chain = c.chain := rfl
@[simp] theorem Crew.setV_arrivals (r l : Nat) (x : W32) : (c.setV r l x).arrivals = c.arrivals := rfl
@[simp] theorem Crew.setV_retired (r l : Nat) (x : W32) : (c.setV r l x).retired = c.retired := rfl
@[simp] theorem Crew.setV_units (r l : Nat) (x : W32) : (c.setV r l x).units = c.units := rfl

/-! ## Crew.setK -/

@[simp] theorem Crew.setK_idx (r : Nat) (x : W32) : (c.setK r x).idx = c.idx := by unfold Crew.setK; split <;> rfl
@[simp] theorem Crew.setK_core (r : Nat) (x : W32) : (c.setK r x).core = c.core := by unfold Crew.setK; split <;> rfl
@[simp] theorem Crew.setK_partn (r : Nat) (x : W32) : (c.setK r x).partn = c.partn := by unfold Crew.setK; split <;> rfl
@[simp] theorem Crew.setK_slot (r : Nat) (x : W32) : (c.setK r x).slot = c.slot := by unfold Crew.setK; split <;> rfl
@[simp] theorem Crew.setK_active (r : Nat) (x : W32) : (c.setK r x).active = c.active := by unfold Crew.setK; split <;> rfl
@[simp] theorem Crew.setK_readySince (r : Nat) (x : W32) : (c.setK r x).readySince = c.readySince := by unfold Crew.setK; split <;> rfl
@[simp] theorem Crew.setK_activeSince (r : Nat) (x : W32) : (c.setK r x).activeSince = c.activeSince := by unfold Crew.setK; split <;> rfl
@[simp] theorem Crew.setK_lanes (r : Nat) (x : W32) : (c.setK r x).lanes = c.lanes := by unfold Crew.setK; split <;> rfl
@[simp] theorem Crew.setK_v (r : Nat) (x : W32) : (c.setK r x).v = c.v := by unfold Crew.setK; split <;> rfl
@[simp] theorem Crew.setK_m (r : Nat) (x : W32) : (c.setK r x).m = c.m := by unfold Crew.setK; split <;> rfl
@[simp] theorem Crew.setK_fpmode (r : Nat) (x : W32) : (c.setK r x).fpmode = c.fpmode := by unfold Crew.setK; split <;> rfl
@[simp] theorem Crew.setK_fpflags (r : Nat) (x : W32) : (c.setK r x).fpflags = c.fpflags := by unfold Crew.setK; split <;> rfl
@[simp] theorem Crew.setK_theta (r : Nat) (x : W32) : (c.setK r x).theta = c.theta := by unfold Crew.setK; split <;> rfl
@[simp] theorem Crew.setK_walkMode (r : Nat) (x : W32) : (c.setK r x).walkMode = c.walkMode := by unfold Crew.setK; split <;> rfl
@[simp] theorem Crew.setK_mincount (r : Nat) (x : W32) : (c.setK r x).mincount = c.mincount := by unfold Crew.setK; split <;> rfl
@[simp] theorem Crew.setK_rgx (r : Nat) (x : W32) : (c.setK r x).rgx = c.rgx := by unfold Crew.setK; split <;> rfl
@[simp] theorem Crew.setK_winBase (r : Nat) (x : W32) : (c.setK r x).winBase = c.winBase := by unfold Crew.setK; split <;> rfl
@[simp] theorem Crew.setK_winLimit (r : Nat) (x : W32) : (c.setK r x).winLimit = c.winLimit := by unfold Crew.setK; split <;> rfl
@[simp] theorem Crew.setK_unseen (r : Nat) (x : W32) : (c.setK r x).unseen = c.unseen := by unfold Crew.setK; split <;> rfl
@[simp] theorem Crew.setK_tblidx (r : Nat) (x : W32) : (c.setK r x).tblidx = c.tblidx := by unfold Crew.setK; split <;> rfl
@[simp] theorem Crew.setK_rot (r : Nat) (x : W32) : (c.setK r x).rot = c.rot := by unfold Crew.setK; split <;> rfl
@[simp] theorem Crew.setK_streak (r : Nat) (x : W32) : (c.setK r x).streak = c.streak := by unfold Crew.setK; split <;> rfl
@[simp] theorem Crew.setK_pos (r : Nat) (x : W32) : (c.setK r x).pos = c.pos := by unfold Crew.setK; split <;> rfl
@[simp] theorem Crew.setK_last (r : Nat) (x : W32) : (c.setK r x).last = c.last := by unfold Crew.setK; split <;> rfl
@[simp] theorem Crew.setK_stall (r : Nat) (x : W32) : (c.setK r x).stall = c.stall := by unfold Crew.setK; split <;> rfl
@[simp] theorem Crew.setK_holds (r : Nat) (x : W32) : (c.setK r x).holds = c.holds := by unfold Crew.setK; split <;> rfl
@[simp] theorem Crew.setK_episode (r : Nat) (x : W32) : (c.setK r x).episode = c.episode := by unfold Crew.setK; split <;> rfl
@[simp] theorem Crew.setK_queue (r : Nat) (x : W32) : (c.setK r x).queue = c.queue := by unfold Crew.setK; split <;> rfl
@[simp] theorem Crew.setK_atMaelner (r : Nat) (x : W32) : (c.setK r x).atMaelner = c.atMaelner := by unfold Crew.setK; split <;> rfl
@[simp] theorem Crew.setK_parkNo (r : Nat) (x : W32) : (c.setK r x).parkNo = c.parkNo := by unfold Crew.setK; split <;> rfl
@[simp] theorem Crew.setK_busy (r : Nat) (x : W32) : (c.setK r x).busy = c.busy := by unfold Crew.setK; split <;> rfl
@[simp] theorem Crew.setK_mxCmds (r : Nat) (x : W32) : (c.setK r x).mxCmds = c.mxCmds := by unfold Crew.setK; split <;> rfl
@[simp] theorem Crew.setK_mxFailed (r : Nat) (x : W32) : (c.setK r x).mxFailed = c.mxFailed := by unfold Crew.setK; split <;> rfl
@[simp] theorem Crew.setK_mxPhases (r : Nat) (x : W32) : (c.setK r x).mxPhases = c.mxPhases := by unfold Crew.setK; split <;> rfl
@[simp] theorem Crew.setK_chain (r : Nat) (x : W32) : (c.setK r x).chain = c.chain := by unfold Crew.setK; split <;> rfl
@[simp] theorem Crew.setK_arrivals (r : Nat) (x : W32) : (c.setK r x).arrivals = c.arrivals := by unfold Crew.setK; split <;> rfl
@[simp] theorem Crew.setK_retired (r : Nat) (x : W32) : (c.setK r x).retired = c.retired := by unfold Crew.setK; split <;> rfl
@[simp] theorem Crew.setK_units (r : Nat) (x : W32) : (c.setK r x).units = c.units := by unfold Crew.setK; split <;> rfl

/-! ## Crew.setM -/

@[simp] theorem Crew.setM_idx (n : Nat) (x : W32) : (c.setM n x).idx = c.idx := by unfold Crew.setM; split <;> rfl
@[simp] theorem Crew.setM_core (n : Nat) (x : W32) : (c.setM n x).core = c.core := by unfold Crew.setM; split <;> rfl
@[simp] theorem Crew.setM_partn (n : Nat) (x : W32) : (c.setM n x).partn = c.partn := by unfold Crew.setM; split <;> rfl
@[simp] theorem Crew.setM_slot (n : Nat) (x : W32) : (c.setM n x).slot = c.slot := by unfold Crew.setM; split <;> rfl
@[simp] theorem Crew.setM_active (n : Nat) (x : W32) : (c.setM n x).active = c.active := by unfold Crew.setM; split <;> rfl
@[simp] theorem Crew.setM_readySince (n : Nat) (x : W32) : (c.setM n x).readySince = c.readySince := by unfold Crew.setM; split <;> rfl
@[simp] theorem Crew.setM_activeSince (n : Nat) (x : W32) : (c.setM n x).activeSince = c.activeSince := by unfold Crew.setM; split <;> rfl
@[simp] theorem Crew.setM_lanes (n : Nat) (x : W32) : (c.setM n x).lanes = c.lanes := by unfold Crew.setM; split <;> rfl
@[simp] theorem Crew.setM_v (n : Nat) (x : W32) : (c.setM n x).v = c.v := by unfold Crew.setM; split <;> rfl
@[simp] theorem Crew.setM_k (n : Nat) (x : W32) : (c.setM n x).k = c.k := by unfold Crew.setM; split <;> rfl
@[simp] theorem Crew.setM_fpmode (n : Nat) (x : W32) : (c.setM n x).fpmode = c.fpmode := by unfold Crew.setM; split <;> rfl
@[simp] theorem Crew.setM_fpflags (n : Nat) (x : W32) : (c.setM n x).fpflags = c.fpflags := by unfold Crew.setM; split <;> rfl
@[simp] theorem Crew.setM_theta (n : Nat) (x : W32) : (c.setM n x).theta = c.theta := by unfold Crew.setM; split <;> rfl
@[simp] theorem Crew.setM_walkMode (n : Nat) (x : W32) : (c.setM n x).walkMode = c.walkMode := by unfold Crew.setM; split <;> rfl
@[simp] theorem Crew.setM_mincount (n : Nat) (x : W32) : (c.setM n x).mincount = c.mincount := by unfold Crew.setM; split <;> rfl
@[simp] theorem Crew.setM_rgx (n : Nat) (x : W32) : (c.setM n x).rgx = c.rgx := by unfold Crew.setM; split <;> rfl
@[simp] theorem Crew.setM_winBase (n : Nat) (x : W32) : (c.setM n x).winBase = c.winBase := by unfold Crew.setM; split <;> rfl
@[simp] theorem Crew.setM_winLimit (n : Nat) (x : W32) : (c.setM n x).winLimit = c.winLimit := by unfold Crew.setM; split <;> rfl
@[simp] theorem Crew.setM_unseen (n : Nat) (x : W32) : (c.setM n x).unseen = c.unseen := by unfold Crew.setM; split <;> rfl
@[simp] theorem Crew.setM_tblidx (n : Nat) (x : W32) : (c.setM n x).tblidx = c.tblidx := by unfold Crew.setM; split <;> rfl
@[simp] theorem Crew.setM_rot (n : Nat) (x : W32) : (c.setM n x).rot = c.rot := by unfold Crew.setM; split <;> rfl
@[simp] theorem Crew.setM_streak (n : Nat) (x : W32) : (c.setM n x).streak = c.streak := by unfold Crew.setM; split <;> rfl
@[simp] theorem Crew.setM_pos (n : Nat) (x : W32) : (c.setM n x).pos = c.pos := by unfold Crew.setM; split <;> rfl
@[simp] theorem Crew.setM_last (n : Nat) (x : W32) : (c.setM n x).last = c.last := by unfold Crew.setM; split <;> rfl
@[simp] theorem Crew.setM_stall (n : Nat) (x : W32) : (c.setM n x).stall = c.stall := by unfold Crew.setM; split <;> rfl
@[simp] theorem Crew.setM_holds (n : Nat) (x : W32) : (c.setM n x).holds = c.holds := by unfold Crew.setM; split <;> rfl
@[simp] theorem Crew.setM_episode (n : Nat) (x : W32) : (c.setM n x).episode = c.episode := by unfold Crew.setM; split <;> rfl
@[simp] theorem Crew.setM_queue (n : Nat) (x : W32) : (c.setM n x).queue = c.queue := by unfold Crew.setM; split <;> rfl
@[simp] theorem Crew.setM_atMaelner (n : Nat) (x : W32) : (c.setM n x).atMaelner = c.atMaelner := by unfold Crew.setM; split <;> rfl
@[simp] theorem Crew.setM_parkNo (n : Nat) (x : W32) : (c.setM n x).parkNo = c.parkNo := by unfold Crew.setM; split <;> rfl
@[simp] theorem Crew.setM_busy (n : Nat) (x : W32) : (c.setM n x).busy = c.busy := by unfold Crew.setM; split <;> rfl
@[simp] theorem Crew.setM_mxCmds (n : Nat) (x : W32) : (c.setM n x).mxCmds = c.mxCmds := by unfold Crew.setM; split <;> rfl
@[simp] theorem Crew.setM_mxFailed (n : Nat) (x : W32) : (c.setM n x).mxFailed = c.mxFailed := by unfold Crew.setM; split <;> rfl
@[simp] theorem Crew.setM_mxPhases (n : Nat) (x : W32) : (c.setM n x).mxPhases = c.mxPhases := by unfold Crew.setM; split <;> rfl
@[simp] theorem Crew.setM_chain (n : Nat) (x : W32) : (c.setM n x).chain = c.chain := by unfold Crew.setM; split <;> rfl
@[simp] theorem Crew.setM_arrivals (n : Nat) (x : W32) : (c.setM n x).arrivals = c.arrivals := by unfold Crew.setM; split <;> rfl
@[simp] theorem Crew.setM_retired (n : Nat) (x : W32) : (c.setM n x).retired = c.retired := by unfold Crew.setM; split <;> rfl
@[simp] theorem Crew.setM_units (n : Nat) (x : W32) : (c.setM n x).units = c.units := by unfold Crew.setM; split <;> rfl

/-! ## Crew.updLanes -/

@[simp] theorem Crew.updLanes_idx (m : W32) (f : Nat → Lane → Lane) : (c.updLanes m f).idx = c.idx := rfl
@[simp] theorem Crew.updLanes_core (m : W32) (f : Nat → Lane → Lane) : (c.updLanes m f).core = c.core := rfl
@[simp] theorem Crew.updLanes_partn (m : W32) (f : Nat → Lane → Lane) : (c.updLanes m f).partn = c.partn := rfl
@[simp] theorem Crew.updLanes_slot (m : W32) (f : Nat → Lane → Lane) : (c.updLanes m f).slot = c.slot := rfl
@[simp] theorem Crew.updLanes_active (m : W32) (f : Nat → Lane → Lane) : (c.updLanes m f).active = c.active := rfl
@[simp] theorem Crew.updLanes_readySince (m : W32) (f : Nat → Lane → Lane) : (c.updLanes m f).readySince = c.readySince := rfl
@[simp] theorem Crew.updLanes_activeSince (m : W32) (f : Nat → Lane → Lane) : (c.updLanes m f).activeSince = c.activeSince := rfl
@[simp] theorem Crew.updLanes_v (m : W32) (f : Nat → Lane → Lane) : (c.updLanes m f).v = c.v := rfl
@[simp] theorem Crew.updLanes_k (m : W32) (f : Nat → Lane → Lane) : (c.updLanes m f).k = c.k := rfl
@[simp] theorem Crew.updLanes_m (m : W32) (f : Nat → Lane → Lane) : (c.updLanes m f).m = c.m := rfl
@[simp] theorem Crew.updLanes_fpmode (m : W32) (f : Nat → Lane → Lane) : (c.updLanes m f).fpmode = c.fpmode := rfl
@[simp] theorem Crew.updLanes_fpflags (m : W32) (f : Nat → Lane → Lane) : (c.updLanes m f).fpflags = c.fpflags := rfl
@[simp] theorem Crew.updLanes_theta (m : W32) (f : Nat → Lane → Lane) : (c.updLanes m f).theta = c.theta := rfl
@[simp] theorem Crew.updLanes_walkMode (m : W32) (f : Nat → Lane → Lane) : (c.updLanes m f).walkMode = c.walkMode := rfl
@[simp] theorem Crew.updLanes_mincount (m : W32) (f : Nat → Lane → Lane) : (c.updLanes m f).mincount = c.mincount := rfl
@[simp] theorem Crew.updLanes_rgx (m : W32) (f : Nat → Lane → Lane) : (c.updLanes m f).rgx = c.rgx := rfl
@[simp] theorem Crew.updLanes_winBase (m : W32) (f : Nat → Lane → Lane) : (c.updLanes m f).winBase = c.winBase := rfl
@[simp] theorem Crew.updLanes_winLimit (m : W32) (f : Nat → Lane → Lane) : (c.updLanes m f).winLimit = c.winLimit := rfl
@[simp] theorem Crew.updLanes_unseen (m : W32) (f : Nat → Lane → Lane) : (c.updLanes m f).unseen = c.unseen := rfl
@[simp] theorem Crew.updLanes_tblidx (m : W32) (f : Nat → Lane → Lane) : (c.updLanes m f).tblidx = c.tblidx := rfl
@[simp] theorem Crew.updLanes_rot (m : W32) (f : Nat → Lane → Lane) : (c.updLanes m f).rot = c.rot := rfl
@[simp] theorem Crew.updLanes_streak (m : W32) (f : Nat → Lane → Lane) : (c.updLanes m f).streak = c.streak := rfl
@[simp] theorem Crew.updLanes_pos (m : W32) (f : Nat → Lane → Lane) : (c.updLanes m f).pos = c.pos := rfl
@[simp] theorem Crew.updLanes_last (m : W32) (f : Nat → Lane → Lane) : (c.updLanes m f).last = c.last := rfl
@[simp] theorem Crew.updLanes_stall (m : W32) (f : Nat → Lane → Lane) : (c.updLanes m f).stall = c.stall := rfl
@[simp] theorem Crew.updLanes_holds (m : W32) (f : Nat → Lane → Lane) : (c.updLanes m f).holds = c.holds := rfl
@[simp] theorem Crew.updLanes_episode (m : W32) (f : Nat → Lane → Lane) : (c.updLanes m f).episode = c.episode := rfl
@[simp] theorem Crew.updLanes_queue (m : W32) (f : Nat → Lane → Lane) : (c.updLanes m f).queue = c.queue := rfl
@[simp] theorem Crew.updLanes_atMaelner (m : W32) (f : Nat → Lane → Lane) : (c.updLanes m f).atMaelner = c.atMaelner := rfl
@[simp] theorem Crew.updLanes_parkNo (m : W32) (f : Nat → Lane → Lane) : (c.updLanes m f).parkNo = c.parkNo := rfl
@[simp] theorem Crew.updLanes_busy (m : W32) (f : Nat → Lane → Lane) : (c.updLanes m f).busy = c.busy := rfl
@[simp] theorem Crew.updLanes_mxCmds (m : W32) (f : Nat → Lane → Lane) : (c.updLanes m f).mxCmds = c.mxCmds := rfl
@[simp] theorem Crew.updLanes_mxFailed (m : W32) (f : Nat → Lane → Lane) : (c.updLanes m f).mxFailed = c.mxFailed := rfl
@[simp] theorem Crew.updLanes_mxPhases (m : W32) (f : Nat → Lane → Lane) : (c.updLanes m f).mxPhases = c.mxPhases := rfl
@[simp] theorem Crew.updLanes_chain (m : W32) (f : Nat → Lane → Lane) : (c.updLanes m f).chain = c.chain := rfl
@[simp] theorem Crew.updLanes_arrivals (m : W32) (f : Nat → Lane → Lane) : (c.updLanes m f).arrivals = c.arrivals := rfl
@[simp] theorem Crew.updLanes_retired (m : W32) (f : Nat → Lane → Lane) : (c.updLanes m f).retired = c.retired := rfl
@[simp] theorem Crew.updLanes_units (m : W32) (f : Nat → Lane → Lane) : (c.updLanes m f).units = c.units := rfl

/-! ## Crew.advance -/

@[simp] theorem Crew.advance_idx (m : W32) (pc : Addr) (n : Nat) : (c.advance m pc n).idx = c.idx := rfl
@[simp] theorem Crew.advance_core (m : W32) (pc : Addr) (n : Nat) : (c.advance m pc n).core = c.core := rfl
@[simp] theorem Crew.advance_partn (m : W32) (pc : Addr) (n : Nat) : (c.advance m pc n).partn = c.partn := rfl
@[simp] theorem Crew.advance_slot (m : W32) (pc : Addr) (n : Nat) : (c.advance m pc n).slot = c.slot := rfl
@[simp] theorem Crew.advance_active (m : W32) (pc : Addr) (n : Nat) : (c.advance m pc n).active = c.active := rfl
@[simp] theorem Crew.advance_readySince (m : W32) (pc : Addr) (n : Nat) : (c.advance m pc n).readySince = c.readySince := rfl
@[simp] theorem Crew.advance_activeSince (m : W32) (pc : Addr) (n : Nat) : (c.advance m pc n).activeSince = c.activeSince := rfl
@[simp] theorem Crew.advance_v (m : W32) (pc : Addr) (n : Nat) : (c.advance m pc n).v = c.v := rfl
@[simp] theorem Crew.advance_k (m : W32) (pc : Addr) (n : Nat) : (c.advance m pc n).k = c.k := rfl
@[simp] theorem Crew.advance_m (m : W32) (pc : Addr) (n : Nat) : (c.advance m pc n).m = c.m := rfl
@[simp] theorem Crew.advance_fpmode (m : W32) (pc : Addr) (n : Nat) : (c.advance m pc n).fpmode = c.fpmode := rfl
@[simp] theorem Crew.advance_fpflags (m : W32) (pc : Addr) (n : Nat) : (c.advance m pc n).fpflags = c.fpflags := rfl
@[simp] theorem Crew.advance_theta (m : W32) (pc : Addr) (n : Nat) : (c.advance m pc n).theta = c.theta := rfl
@[simp] theorem Crew.advance_walkMode (m : W32) (pc : Addr) (n : Nat) : (c.advance m pc n).walkMode = c.walkMode := rfl
@[simp] theorem Crew.advance_mincount (m : W32) (pc : Addr) (n : Nat) : (c.advance m pc n).mincount = c.mincount := rfl
@[simp] theorem Crew.advance_rgx (m : W32) (pc : Addr) (n : Nat) : (c.advance m pc n).rgx = c.rgx := rfl
@[simp] theorem Crew.advance_winBase (m : W32) (pc : Addr) (n : Nat) : (c.advance m pc n).winBase = c.winBase := rfl
@[simp] theorem Crew.advance_winLimit (m : W32) (pc : Addr) (n : Nat) : (c.advance m pc n).winLimit = c.winLimit := rfl
@[simp] theorem Crew.advance_unseen (m : W32) (pc : Addr) (n : Nat) : (c.advance m pc n).unseen = c.unseen := rfl
@[simp] theorem Crew.advance_tblidx (m : W32) (pc : Addr) (n : Nat) : (c.advance m pc n).tblidx = c.tblidx := rfl
@[simp] theorem Crew.advance_rot (m : W32) (pc : Addr) (n : Nat) : (c.advance m pc n).rot = c.rot := rfl
@[simp] theorem Crew.advance_streak (m : W32) (pc : Addr) (n : Nat) : (c.advance m pc n).streak = c.streak := rfl
@[simp] theorem Crew.advance_pos (m : W32) (pc : Addr) (n : Nat) : (c.advance m pc n).pos = c.pos := rfl
@[simp] theorem Crew.advance_last (m : W32) (pc : Addr) (n : Nat) : (c.advance m pc n).last = c.last := rfl
@[simp] theorem Crew.advance_stall (m : W32) (pc : Addr) (n : Nat) : (c.advance m pc n).stall = c.stall := rfl
@[simp] theorem Crew.advance_holds (m : W32) (pc : Addr) (n : Nat) : (c.advance m pc n).holds = c.holds := rfl
@[simp] theorem Crew.advance_episode (m : W32) (pc : Addr) (n : Nat) : (c.advance m pc n).episode = c.episode := rfl
@[simp] theorem Crew.advance_queue (m : W32) (pc : Addr) (n : Nat) : (c.advance m pc n).queue = c.queue := rfl
@[simp] theorem Crew.advance_atMaelner (m : W32) (pc : Addr) (n : Nat) : (c.advance m pc n).atMaelner = c.atMaelner := rfl
@[simp] theorem Crew.advance_parkNo (m : W32) (pc : Addr) (n : Nat) : (c.advance m pc n).parkNo = c.parkNo := rfl
@[simp] theorem Crew.advance_busy (m : W32) (pc : Addr) (n : Nat) : (c.advance m pc n).busy = c.busy := rfl
@[simp] theorem Crew.advance_mxCmds (m : W32) (pc : Addr) (n : Nat) : (c.advance m pc n).mxCmds = c.mxCmds := rfl
@[simp] theorem Crew.advance_mxFailed (m : W32) (pc : Addr) (n : Nat) : (c.advance m pc n).mxFailed = c.mxFailed := rfl
@[simp] theorem Crew.advance_mxPhases (m : W32) (pc : Addr) (n : Nat) : (c.advance m pc n).mxPhases = c.mxPhases := rfl
@[simp] theorem Crew.advance_chain (m : W32) (pc : Addr) (n : Nat) : (c.advance m pc n).chain = c.chain := rfl
@[simp] theorem Crew.advance_arrivals (m : W32) (pc : Addr) (n : Nat) : (c.advance m pc n).arrivals = c.arrivals := rfl
@[simp] theorem Crew.advance_retired (m : W32) (pc : Addr) (n : Nat) : (c.advance m pc n).retired = c.retired := rfl
@[simp] theorem Crew.advance_units (m : W32) (pc : Addr) (n : Nat) : (c.advance m pc n).units = c.units := rfl

/-! ## Crew.park -/

@[simp] theorem Crew.park_idx (m : W32) (x : Cause) (pc : Addr) (f : Nat → W64) : (c.park m x pc f).idx = c.idx := rfl
@[simp] theorem Crew.park_core (m : W32) (x : Cause) (pc : Addr) (f : Nat → W64) : (c.park m x pc f).core = c.core := rfl
@[simp] theorem Crew.park_partn (m : W32) (x : Cause) (pc : Addr) (f : Nat → W64) : (c.park m x pc f).partn = c.partn := rfl
@[simp] theorem Crew.park_slot (m : W32) (x : Cause) (pc : Addr) (f : Nat → W64) : (c.park m x pc f).slot = c.slot := rfl
@[simp] theorem Crew.park_active (m : W32) (x : Cause) (pc : Addr) (f : Nat → W64) : (c.park m x pc f).active = c.active := rfl
@[simp] theorem Crew.park_readySince (m : W32) (x : Cause) (pc : Addr) (f : Nat → W64) : (c.park m x pc f).readySince = c.readySince := rfl
@[simp] theorem Crew.park_activeSince (m : W32) (x : Cause) (pc : Addr) (f : Nat → W64) : (c.park m x pc f).activeSince = c.activeSince := rfl
@[simp] theorem Crew.park_v (m : W32) (x : Cause) (pc : Addr) (f : Nat → W64) : (c.park m x pc f).v = c.v := rfl
@[simp] theorem Crew.park_k (m : W32) (x : Cause) (pc : Addr) (f : Nat → W64) : (c.park m x pc f).k = c.k := rfl
@[simp] theorem Crew.park_m (m : W32) (x : Cause) (pc : Addr) (f : Nat → W64) : (c.park m x pc f).m = c.m := rfl
@[simp] theorem Crew.park_fpmode (m : W32) (x : Cause) (pc : Addr) (f : Nat → W64) : (c.park m x pc f).fpmode = c.fpmode := rfl
@[simp] theorem Crew.park_fpflags (m : W32) (x : Cause) (pc : Addr) (f : Nat → W64) : (c.park m x pc f).fpflags = c.fpflags := rfl
@[simp] theorem Crew.park_theta (m : W32) (x : Cause) (pc : Addr) (f : Nat → W64) : (c.park m x pc f).theta = c.theta := rfl
@[simp] theorem Crew.park_walkMode (m : W32) (x : Cause) (pc : Addr) (f : Nat → W64) : (c.park m x pc f).walkMode = c.walkMode := rfl
@[simp] theorem Crew.park_mincount (m : W32) (x : Cause) (pc : Addr) (f : Nat → W64) : (c.park m x pc f).mincount = c.mincount := rfl
@[simp] theorem Crew.park_rgx (m : W32) (x : Cause) (pc : Addr) (f : Nat → W64) : (c.park m x pc f).rgx = c.rgx := rfl
@[simp] theorem Crew.park_winBase (m : W32) (x : Cause) (pc : Addr) (f : Nat → W64) : (c.park m x pc f).winBase = c.winBase := rfl
@[simp] theorem Crew.park_winLimit (m : W32) (x : Cause) (pc : Addr) (f : Nat → W64) : (c.park m x pc f).winLimit = c.winLimit := rfl
@[simp] theorem Crew.park_unseen (m : W32) (x : Cause) (pc : Addr) (f : Nat → W64) : (c.park m x pc f).unseen = c.unseen := rfl
@[simp] theorem Crew.park_tblidx (m : W32) (x : Cause) (pc : Addr) (f : Nat → W64) : (c.park m x pc f).tblidx = c.tblidx := rfl
@[simp] theorem Crew.park_rot (m : W32) (x : Cause) (pc : Addr) (f : Nat → W64) : (c.park m x pc f).rot = c.rot := rfl
@[simp] theorem Crew.park_streak (m : W32) (x : Cause) (pc : Addr) (f : Nat → W64) : (c.park m x pc f).streak = c.streak := rfl
@[simp] theorem Crew.park_pos (m : W32) (x : Cause) (pc : Addr) (f : Nat → W64) : (c.park m x pc f).pos = c.pos := rfl
@[simp] theorem Crew.park_last (m : W32) (x : Cause) (pc : Addr) (f : Nat → W64) : (c.park m x pc f).last = c.last := rfl
@[simp] theorem Crew.park_stall (m : W32) (x : Cause) (pc : Addr) (f : Nat → W64) : (c.park m x pc f).stall = c.stall := rfl
@[simp] theorem Crew.park_holds (m : W32) (x : Cause) (pc : Addr) (f : Nat → W64) : (c.park m x pc f).holds = c.holds := rfl
@[simp] theorem Crew.park_episode (m : W32) (x : Cause) (pc : Addr) (f : Nat → W64) : (c.park m x pc f).episode = c.episode := rfl
@[simp] theorem Crew.park_queue (m : W32) (x : Cause) (pc : Addr) (f : Nat → W64) : (c.park m x pc f).queue = c.queue := rfl
@[simp] theorem Crew.park_atMaelner (m : W32) (x : Cause) (pc : Addr) (f : Nat → W64) : (c.park m x pc f).atMaelner = c.atMaelner := rfl
@[simp] theorem Crew.park_parkNo (m : W32) (x : Cause) (pc : Addr) (f : Nat → W64) : (c.park m x pc f).parkNo = c.parkNo := rfl
@[simp] theorem Crew.park_busy (m : W32) (x : Cause) (pc : Addr) (f : Nat → W64) : (c.park m x pc f).busy = c.busy := rfl
@[simp] theorem Crew.park_mxCmds (m : W32) (x : Cause) (pc : Addr) (f : Nat → W64) : (c.park m x pc f).mxCmds = c.mxCmds := rfl
@[simp] theorem Crew.park_mxFailed (m : W32) (x : Cause) (pc : Addr) (f : Nat → W64) : (c.park m x pc f).mxFailed = c.mxFailed := rfl
@[simp] theorem Crew.park_mxPhases (m : W32) (x : Cause) (pc : Addr) (f : Nat → W64) : (c.park m x pc f).mxPhases = c.mxPhases := rfl
@[simp] theorem Crew.park_chain (m : W32) (x : Cause) (pc : Addr) (f : Nat → W64) : (c.park m x pc f).chain = c.chain := rfl
@[simp] theorem Crew.park_arrivals (m : W32) (x : Cause) (pc : Addr) (f : Nat → W64) : (c.park m x pc f).arrivals = c.arrivals := rfl
@[simp] theorem Crew.park_retired (m : W32) (x : Cause) (pc : Addr) (f : Nat → W64) : (c.park m x pc f).retired = c.retired := rfl
@[simp] theorem Crew.park_units (m : W32) (x : Cause) (pc : Addr) (f : Nat → W64) : (c.park m x pc f).units = c.units := rfl

/-! ## Crew.wait -/

@[simp] theorem Crew.wait_idx (m : W32) (w : Wait) : (c.wait m w).idx = c.idx := rfl
@[simp] theorem Crew.wait_core (m : W32) (w : Wait) : (c.wait m w).core = c.core := rfl
@[simp] theorem Crew.wait_partn (m : W32) (w : Wait) : (c.wait m w).partn = c.partn := rfl
@[simp] theorem Crew.wait_slot (m : W32) (w : Wait) : (c.wait m w).slot = c.slot := rfl
@[simp] theorem Crew.wait_active (m : W32) (w : Wait) : (c.wait m w).active = c.active := rfl
@[simp] theorem Crew.wait_readySince (m : W32) (w : Wait) : (c.wait m w).readySince = c.readySince := rfl
@[simp] theorem Crew.wait_activeSince (m : W32) (w : Wait) : (c.wait m w).activeSince = c.activeSince := rfl
@[simp] theorem Crew.wait_v (m : W32) (w : Wait) : (c.wait m w).v = c.v := rfl
@[simp] theorem Crew.wait_k (m : W32) (w : Wait) : (c.wait m w).k = c.k := rfl
@[simp] theorem Crew.wait_m (m : W32) (w : Wait) : (c.wait m w).m = c.m := rfl
@[simp] theorem Crew.wait_fpmode (m : W32) (w : Wait) : (c.wait m w).fpmode = c.fpmode := rfl
@[simp] theorem Crew.wait_fpflags (m : W32) (w : Wait) : (c.wait m w).fpflags = c.fpflags := rfl
@[simp] theorem Crew.wait_theta (m : W32) (w : Wait) : (c.wait m w).theta = c.theta := rfl
@[simp] theorem Crew.wait_walkMode (m : W32) (w : Wait) : (c.wait m w).walkMode = c.walkMode := rfl
@[simp] theorem Crew.wait_mincount (m : W32) (w : Wait) : (c.wait m w).mincount = c.mincount := rfl
@[simp] theorem Crew.wait_rgx (m : W32) (w : Wait) : (c.wait m w).rgx = c.rgx := rfl
@[simp] theorem Crew.wait_winBase (m : W32) (w : Wait) : (c.wait m w).winBase = c.winBase := rfl
@[simp] theorem Crew.wait_winLimit (m : W32) (w : Wait) : (c.wait m w).winLimit = c.winLimit := rfl
@[simp] theorem Crew.wait_unseen (m : W32) (w : Wait) : (c.wait m w).unseen = c.unseen := rfl
@[simp] theorem Crew.wait_tblidx (m : W32) (w : Wait) : (c.wait m w).tblidx = c.tblidx := rfl
@[simp] theorem Crew.wait_rot (m : W32) (w : Wait) : (c.wait m w).rot = c.rot := rfl
@[simp] theorem Crew.wait_streak (m : W32) (w : Wait) : (c.wait m w).streak = c.streak := rfl
@[simp] theorem Crew.wait_pos (m : W32) (w : Wait) : (c.wait m w).pos = c.pos := rfl
@[simp] theorem Crew.wait_last (m : W32) (w : Wait) : (c.wait m w).last = c.last := rfl
@[simp] theorem Crew.wait_stall (m : W32) (w : Wait) : (c.wait m w).stall = c.stall := rfl
@[simp] theorem Crew.wait_holds (m : W32) (w : Wait) : (c.wait m w).holds = c.holds := rfl
@[simp] theorem Crew.wait_episode (m : W32) (w : Wait) : (c.wait m w).episode = c.episode := rfl
@[simp] theorem Crew.wait_queue (m : W32) (w : Wait) : (c.wait m w).queue = c.queue := rfl
@[simp] theorem Crew.wait_atMaelner (m : W32) (w : Wait) : (c.wait m w).atMaelner = c.atMaelner := rfl
@[simp] theorem Crew.wait_parkNo (m : W32) (w : Wait) : (c.wait m w).parkNo = c.parkNo := rfl
@[simp] theorem Crew.wait_busy (m : W32) (w : Wait) : (c.wait m w).busy = c.busy := rfl
@[simp] theorem Crew.wait_mxCmds (m : W32) (w : Wait) : (c.wait m w).mxCmds = c.mxCmds := rfl
@[simp] theorem Crew.wait_mxFailed (m : W32) (w : Wait) : (c.wait m w).mxFailed = c.mxFailed := rfl
@[simp] theorem Crew.wait_mxPhases (m : W32) (w : Wait) : (c.wait m w).mxPhases = c.mxPhases := rfl
@[simp] theorem Crew.wait_chain (m : W32) (w : Wait) : (c.wait m w).chain = c.chain := rfl
@[simp] theorem Crew.wait_arrivals (m : W32) (w : Wait) : (c.wait m w).arrivals = c.arrivals := rfl
@[simp] theorem Crew.wait_retired (m : W32) (w : Wait) : (c.wait m w).retired = c.retired := rfl
@[simp] theorem Crew.wait_units (m : W32) (w : Wait) : (c.wait m w).units = c.units := rfl

/-! ## Crew.queueParked -/

@[simp] theorem Crew.queueParked_idx (m : W32) (n : Nat) (u : Bool) : (c.queueParked m n u).idx = c.idx := rfl
@[simp] theorem Crew.queueParked_core (m : W32) (n : Nat) (u : Bool) : (c.queueParked m n u).core = c.core := rfl
@[simp] theorem Crew.queueParked_partn (m : W32) (n : Nat) (u : Bool) : (c.queueParked m n u).partn = c.partn := rfl
@[simp] theorem Crew.queueParked_slot (m : W32) (n : Nat) (u : Bool) : (c.queueParked m n u).slot = c.slot := rfl
@[simp] theorem Crew.queueParked_active (m : W32) (n : Nat) (u : Bool) : (c.queueParked m n u).active = c.active := rfl
@[simp] theorem Crew.queueParked_readySince (m : W32) (n : Nat) (u : Bool) : (c.queueParked m n u).readySince = c.readySince := rfl
@[simp] theorem Crew.queueParked_activeSince (m : W32) (n : Nat) (u : Bool) : (c.queueParked m n u).activeSince = c.activeSince := rfl
@[simp] theorem Crew.queueParked_lanes (m : W32) (n : Nat) (u : Bool) : (c.queueParked m n u).lanes = c.lanes := rfl
@[simp] theorem Crew.queueParked_v (m : W32) (n : Nat) (u : Bool) : (c.queueParked m n u).v = c.v := rfl
@[simp] theorem Crew.queueParked_k (m : W32) (n : Nat) (u : Bool) : (c.queueParked m n u).k = c.k := rfl
@[simp] theorem Crew.queueParked_m (m : W32) (n : Nat) (u : Bool) : (c.queueParked m n u).m = c.m := rfl
@[simp] theorem Crew.queueParked_fpmode (m : W32) (n : Nat) (u : Bool) : (c.queueParked m n u).fpmode = c.fpmode := rfl
@[simp] theorem Crew.queueParked_fpflags (m : W32) (n : Nat) (u : Bool) : (c.queueParked m n u).fpflags = c.fpflags := rfl
@[simp] theorem Crew.queueParked_theta (m : W32) (n : Nat) (u : Bool) : (c.queueParked m n u).theta = c.theta := rfl
@[simp] theorem Crew.queueParked_walkMode (m : W32) (n : Nat) (u : Bool) : (c.queueParked m n u).walkMode = c.walkMode := rfl
@[simp] theorem Crew.queueParked_mincount (m : W32) (n : Nat) (u : Bool) : (c.queueParked m n u).mincount = c.mincount := rfl
@[simp] theorem Crew.queueParked_rgx (m : W32) (n : Nat) (u : Bool) : (c.queueParked m n u).rgx = c.rgx := rfl
@[simp] theorem Crew.queueParked_winBase (m : W32) (n : Nat) (u : Bool) : (c.queueParked m n u).winBase = c.winBase := rfl
@[simp] theorem Crew.queueParked_winLimit (m : W32) (n : Nat) (u : Bool) : (c.queueParked m n u).winLimit = c.winLimit := rfl
@[simp] theorem Crew.queueParked_unseen (m : W32) (n : Nat) (u : Bool) : (c.queueParked m n u).unseen = c.unseen := rfl
@[simp] theorem Crew.queueParked_tblidx (m : W32) (n : Nat) (u : Bool) : (c.queueParked m n u).tblidx = c.tblidx := rfl
@[simp] theorem Crew.queueParked_rot (m : W32) (n : Nat) (u : Bool) : (c.queueParked m n u).rot = c.rot := rfl
@[simp] theorem Crew.queueParked_streak (m : W32) (n : Nat) (u : Bool) : (c.queueParked m n u).streak = c.streak := rfl
@[simp] theorem Crew.queueParked_pos (m : W32) (n : Nat) (u : Bool) : (c.queueParked m n u).pos = c.pos := rfl
@[simp] theorem Crew.queueParked_last (m : W32) (n : Nat) (u : Bool) : (c.queueParked m n u).last = c.last := rfl
@[simp] theorem Crew.queueParked_stall (m : W32) (n : Nat) (u : Bool) : (c.queueParked m n u).stall = c.stall := rfl
@[simp] theorem Crew.queueParked_holds (m : W32) (n : Nat) (u : Bool) : (c.queueParked m n u).holds = c.holds := rfl
@[simp] theorem Crew.queueParked_episode (m : W32) (n : Nat) (u : Bool) : (c.queueParked m n u).episode = c.episode := rfl
@[simp] theorem Crew.queueParked_busy (m : W32) (n : Nat) (u : Bool) : (c.queueParked m n u).busy = c.busy := rfl
@[simp] theorem Crew.queueParked_mxCmds (m : W32) (n : Nat) (u : Bool) : (c.queueParked m n u).mxCmds = c.mxCmds := rfl
@[simp] theorem Crew.queueParked_mxFailed (m : W32) (n : Nat) (u : Bool) : (c.queueParked m n u).mxFailed = c.mxFailed := rfl
@[simp] theorem Crew.queueParked_mxPhases (m : W32) (n : Nat) (u : Bool) : (c.queueParked m n u).mxPhases = c.mxPhases := rfl
@[simp] theorem Crew.queueParked_chain (m : W32) (n : Nat) (u : Bool) : (c.queueParked m n u).chain = c.chain := rfl
@[simp] theorem Crew.queueParked_arrivals (m : W32) (n : Nat) (u : Bool) : (c.queueParked m n u).arrivals = c.arrivals := rfl
@[simp] theorem Crew.queueParked_retired (m : W32) (n : Nat) (u : Bool) : (c.queueParked m n u).retired = c.retired := rfl
@[simp] theorem Crew.queueParked_units (m : W32) (n : Nat) (u : Bool) : (c.queueParked m n u).units = c.units := rfl

end Sys2Proof.Machine
end

