-- ==== Sys2Proof/Laws/Memory.lean ====
section
/-!
SUPPORT. Memory's operations: each keeps the canonical form, a write leaves every byte outside it as it was, and a
translation changes nothing but what the device keeps of the page tables.
-/

namespace Sys2Proof.Machine

/-! ## The canonical form -/

/-- The second state's memory is in canonical form when the first one's is. -/
structure KeepsForm (s t : State) : Prop where
  form : Memory.wf s.mem = true → Memory.wf t.mem = true

theorem KeepsForm.refl (s : State) : KeepsForm s s := ⟨id⟩

theorem KeepsForm.trans {s t u : State} (h1 : KeepsForm s t) (h2 : KeepsForm t u) : KeepsForm s u :=
  ⟨fun h => h2.form (h1.form h)⟩

/-- An operation that leaves memory alone. -/
theorem KeepsForm.of_mem {s t : State} (h : t.mem = s.mem) : KeepsForm s t := ⟨fun hw => h ▸ hw⟩

/-- A fold of steps that each keep the form keeps it. -/
theorem KeepsForm.foldl {α : Type} (f : State → α → State) (hf : ∀ s x, KeepsForm s (f s x)) (xs : List α) (s : State) :
    KeepsForm s (xs.foldl f s) := by
  induction xs generalizing s with
  | nil => exact .refl s
  | cons x xs ih => exact (hf s x).trans (ih _)

/-- A fold whose accumulator carries a state. -/
theorem KeepsForm.foldl_fst {α β : Type} (f : State × β → α → State × β) (hf : ∀ p x, KeepsForm p.1 (f p x).1) (xs : List α)
    (p : State × β) : KeepsForm p.1 (xs.foldl f p).1 := by
  induction xs generalizing p with
  | nil => exact .refl p.1
  | cons x xs ih => exact (hf p x).trans (ih _)

@[simp] theorem noteCode_mem (s : State) (views : List Bool) (pa n : Nat) : (s.noteCode views pa n).mem = s.mem := rfl

@[simp] theorem noteRemap_mem (s : State) (pa : Nat) (ys : List Byte) : (s.noteRemap pa ys).mem = s.mem := rfl

@[simp] theorem noteBack_mem (s : State) (core : Nat) (x : Line) : (s.noteBack core x).mem = s.mem := by
  unfold State.noteBack; dsimp only; split <;> rfl

@[simp] theorem supersede_mem (s : State) (pa n : Nat) : (s.supersede pa n).mem = s.mem := by
  unfold State.supersede; split <;> rfl

@[simp] theorem tellOthers_mem (s : State) (pa n : Nat) : (s.tellOthers pa n).mem = s.mem := by
  unfold State.tellOthers; split <;> rfl

@[simp] theorem seenAtHome_mem (s : State) (line : Nat) (seen : List (Nat × Nat × Nat)) : (s.seenAtHome line seen).mem = s.mem := by
  unfold State.seenAtHome; split <;> rfl

@[simp] theorem dropClean_mem (s : State) (core line : Nat) : (s.dropClean core line).mem = s.mem := by
  unfold State.dropClean; split <;> rfl

@[simp] theorem noteSeen_mem (s : State) (core pa n : Nat) (who : List (Nat × Nat)) : (s.noteSeen core pa n who).mem = s.mem := by
  unfold State.noteSeen; split <;> rfl

@[simp] theorem updRegion_mem (s : State) (n : Nat) (f : Region → Region) : (s.updRegion n f).mem = s.mem := rfl

@[simp] theorem updCore_mem (s : State) (n : Nat) (f : CoreSt → CoreSt) : (s.updCore n f).mem = s.mem := rfl

theorem memWrite_mem (s : State) (pa : Nat) (ys : List Byte) : (s.memWrite pa ys).mem = writeBytes s.mem pa ys := rfl

theorem rawWrite_mem (s : State) (pa : Nat) (ys : List Byte) : (s.rawWrite pa ys).mem = writeBytes s.mem pa ys := rfl

theorem keepsForm_memWrite (s : State) (pa : Nat) (ys : List Byte) : KeepsForm s (s.memWrite pa ys) :=
  ⟨fun h => by rw [memWrite_mem]; exact Memory.wf_writeBytes _ _ _ h⟩

theorem keepsForm_rawWrite (s : State) (pa : Nat) (ys : List Byte) : KeepsForm s (s.rawWrite pa ys) :=
  ⟨fun h => by rw [rawWrite_mem]; exact Memory.wf_writeBytes _ _ _ h⟩

/-- A byte after bytes are written at home, but for an S host line, which stands at its home slice. -/
theorem homeWrite_mem (s : State) (t : Treat) (pa : Nat) (ys : List Byte) (h : ¬(t = .s ∧ rangeOf s.part pa = some .host)) :
    (s.homeWrite t pa ys).mem = writeBytes s.mem pa ys := by
  unfold State.homeWrite
  rw [if_neg h]
  dsimp only
  split
  · rw [updRegion_mem, tellOthers_mem, supersede_mem, rawWrite_mem]
  · rw [tellOthers_mem, supersede_mem, rawWrite_mem]

theorem keepsForm_homeWrite (s : State) (t : Treat) (pa : Nat) (ys : List Byte) : KeepsForm s (s.homeWrite t pa ys) := by
  by_cases h : t = .s ∧ rangeOf s.part pa = some .host
  · exact .of_mem (by unfold State.homeWrite; rw [if_pos h]; rfl)
  · exact ⟨fun hw => by rw [homeWrite_mem s t pa ys h]; exact Memory.wf_writeBytes _ _ _ hw⟩

theorem keepsForm_writeDirty (s : State) (x : Line) : KeepsForm s (s.writeDirty x) :=
  .foldl _ (fun s _ => keepsForm_homeWrite s _ _ _) _ s

theorem keepsForm_flushLine (s : State) (x : Line) : KeepsForm s (s.flushLine x) :=
  (KeepsForm.foldl (fun (s : State) (e : Nat × Nat) =>
    (s.noteCode [false] (64 * x.line + e.1) e.2).memWrite (64 * x.line + e.1) (sliceBytes x.data e.1 e.2))
    (fun s _ => (KeepsForm.of_mem (s := s) (noteCode_mem s _ _ _)).trans (keepsForm_memWrite _ _ _)) (runsOf (maskBits x.dirty)) s).trans
      (.of_mem rfl)

theorem keepsForm_flushHost (s : State) : KeepsForm s s.flushHost :=
  (KeepsForm.of_mem (s := s) (t := { s with ctx := { s.ctx with l2host := [] } }) rfl).trans
    (.foldl _ (fun s x => keepsForm_flushLine s x) _ _)

theorem keepsForm_cleanLine (s : State) (core line : Nat) : KeepsForm s (s.cleanLine core line) := by
  unfold State.cleanLine
  split
  · exact .refl s
  · exact ((KeepsForm.of_mem (noteBack_mem ..)).trans ((keepsForm_writeDirty ..).trans
      (.of_mem (seenAtHome_mem ..)))).trans (.of_mem (updCore_mem ..))

@[simp] theorem dropLine_mem (s : State) (core line : Nat) : (s.dropLine core line).mem = s.mem := rfl

@[simp] theorem dropCopies_mem (s : State) (line : Nat) : (s.dropCopies line).mem = s.mem := rfl

@[simp] theorem signLine_mem (s : State) (core line : Nat) (w : Nat × Nat × Nat) : (s.signLine core line w).mem = s.mem := rfl

theorem keepsForm_flushHostLine (s : State) (line : Nat) : KeepsForm s (s.flushHostLine line) := by
  unfold State.flushHostLine
  split
  · exact .refl s
  · exact ⟨(keepsForm_flushLine { s with ctx := { s.ctx with l2host := s.ctx.l2host.filter fun y => y.line != line } } _).form⟩

@[simp] theorem acquireS_mem (s : State) (core : Nat) : (s.acquireS core).mem = s.mem := rfl

theorem keepsForm_releaseS (s : State) (core : Nat) (sys : Bool) : KeepsForm s (s.releaseS core sys) := by
  have h1 := KeepsForm.foldl (fun (s : State) (x : Line) => s.cleanLine core x.line)
    (fun s x => keepsForm_cleanLine s core x.line)
    ((s.coreSt core).l1.filter fun x => (s.coreSt core).sig.contains x.line) s
  unfold State.releaseS
  dsimp only
  split
  · exact h1.trans ((KeepsForm.of_mem (updCore_mem ..)).trans (keepsForm_flushHost _))
  · exact h1.trans (.of_mem (updCore_mem ..))

theorem keepsForm_promote (s : State) (core : Nat) (scope : Scope) (line : Option Nat) :
    KeepsForm s (s.promote core scope line) := by
  refine .foldl _ (fun s c => ?_) _ s
  dsimp only
  split
  · exact (keepsForm_releaseS s c _).trans (.of_mem (dropLine_mem ..))
  · exact keepsForm_releaseS s c _

theorem l1Read_mem (s : State) (core pa n : Nat) : (s.l1Read core pa n).1.mem = s.mem := by
  unfold State.l1Read; dsimp only; split <;> rfl

theorem l1Write_mem (s : State) (core pa : Nat) (ys : List Byte) : (s.l1Write core pa ys).mem = s.mem := rfl

theorem keepsForm_coreRead (s : State) (core : Nat) (who : List (Nat × Nat)) (t : Treat) (pa n : Nat) (direct : Bool) :
    KeepsForm s (s.coreRead core who t pa n direct).1 := by
  unfold State.coreRead
  split
  · exact .of_mem rfl
  · split
    · exact keepsForm_cleanLine ..
    · split
      · exact (keepsForm_cleanLine s core (pa / 64)).trans (.of_mem (dropLine_mem ..))
      · split
        · exact .of_mem (l1Read_mem ..)
        · exact .of_mem (dropClean_mem ..)

theorem keepsForm_coreWrite (s : State) (core : Nat) (t : Treat) (pa : Nat) (ys : List Byte) (direct : Bool) :
    KeepsForm s (s.coreWrite core t pa ys direct) := by
  unfold State.coreWrite
  split
  · exact .of_mem (l1Write_mem ..)
  · exact ((keepsForm_cleanLine ..).trans (.of_mem (dropLine_mem ..))).trans (keepsForm_homeWrite ..)

theorem keepsForm_atomWrite (s : State) (t : Treat) (pa code operand : Nat) (ys : List Byte) :
    KeepsForm s (s.atomWrite t pa code operand ys) := by
  unfold State.atomWrite
  split
  · split
    · split
      · exact ((keepsForm_rawWrite s pa ys).trans (.of_mem (tellOthers_mem ..))).trans (.of_mem (updRegion_mem ..))
      · exact keepsForm_homeWrite ..
    · exact keepsForm_homeWrite ..
  · exact keepsForm_homeWrite ..

theorem keepsForm_atomAt (s : State) (core : Nat) (who : List (Nat × Nat)) (t : Treat) (scope : Scope) (direct : Bool)
    (pa size code operand : Nat) (f : Nat → Option Nat) : KeepsForm s (s.atomAt core who t scope direct pa size code operand f).1 := by
  unfold State.atomAt
  split
  · have h2 : KeepsForm s (s.l1Read core pa size).1 := .of_mem (l1Read_mem s core pa size)
    dsimp only
    split
    · exact h2.trans (.of_mem (l1Write_mem ..))
    · exact h2
  · have h1 : KeepsForm s ((s.cleanLine core (pa / 64)).dropLine core (pa / 64)) :=
      (keepsForm_cleanLine s core (pa / 64)).trans (.of_mem (dropLine_mem ..))
    generalize (s.cleanLine core (pa / 64)).dropLine core (pa / 64) = v at h1
    refine h1.trans ?_
    dsimp only
    have h3 : ∀ t', KeepsForm v (if (v.shadowRegion pa).isSome = true then v.shadowRead size else (v, v.viewRead who t' pa size)).1 := by
      intro t'
      split
      · exact .of_mem rfl
      · exact .refl v
    split
    · exact (h3 _).trans (keepsForm_atomWrite ..)
    · exact h3 _

theorem keepsForm_hostWrite (s : State) (pa : Nat) (ys : List Byte) : KeepsForm s (s.hostWrite pa ys) :=
  .foldl _ (fun s _ => keepsForm_homeWrite s _ _ _) _ s

theorem keepsForm_spanWrite (s : State) (x : Span) (ys : List Byte) : KeepsForm s (s.spanWrite x ys) :=
  .foldl _ (fun s _ => keepsForm_rawWrite s _ _) _ s

theorem keepsForm_engPoke (s : State) (core : Nat) (t : Treat) (pa : Nat) (ys : List Byte) :
    KeepsForm s (s.engPoke core t pa ys) :=
  ((keepsForm_cleanLine s core _).trans (keepsForm_homeWrite ..)).trans (.of_mem (dropLine_mem ..))

/-! ## Translation -/


/-- A translation leaves everything as it was but the kept translations, the reported pages and the free-value counter. -/
theorem translate_outside (s : State) (va : Nat) (a : Option Access) :
    (s.translate va a).1 = { s with
      fresh := (s.translate va a).1.fresh
      ctx := { s.ctx with tlb := (s.translate va a).1.ctx.tlb, reported := (s.translate va a).1.ctx.reported } } := by
  have he : (s.entryFor va).1 = { s with fresh := (s.entryFor va).1.fresh } := by
    unfold State.entryFor; dsimp only
    split <;> rfl
  have hk : ∀ (u : State) w, (u.keep va w) = { u with ctx := { u.ctx with tlb := (u.keep va w).ctx.tlb } } := by
    intro u w; unfold State.keep
    cases w with
    | leaf e l => dsimp only; split <;> rfl
    | xlate => rfl
    | prot => rfl
  have hr : ∀ u : State, u.reportPage va = { u with ctx := { u.ctx with reported := (u.reportPage va).ctx.reported } } := by
    intro u; unfold State.reportPage; dsimp only; split <;> rfl
  unfold State.translate
  generalize s.entryFor va = p at he
  obtain ⟨u, w⟩ := p
  dsimp only at he ⊢
  have h2 := hk u w
  split
  · rw [hr, h2, he]
  · rw [h2, he]

@[simp] theorem translate_mem (s : State) (va : Nat) (a : Option Access) : (s.translate va a).1.mem = s.mem := by
  rw [translate_outside]

/-- With one translation on offer, that translation is the answer. -/
theorem translate_of_translates {s : State} {va : Nat} {a : Option Access} {pa : Nat} {t : Treat} (h : s.Translates va a pa t) :
    (s.translate va a).2 = .ok pa t := by
  have hw : (s.entryFor va).2 = s.walk va := by
    unfold State.entryFor
    dsimp only
    set kept := (s.ctx.tlb.filter fun k => k.page == va / 65536).map fun k => Walked.leaf k.entry k.level with hkept
    have hall : ∀ w ∈ kept, w = s.walk va := by
      intro w hw
      rw [hkept, List.mem_map] at hw
      obtain ⟨k, hk, rfl⟩ := hw
      obtain ⟨hk1, hk2⟩ := List.mem_filter.1 hk
      exact h.kept k hk1 (by simpa using hk2)
    have hopt : ∀ w ∈ (if kept.contains (s.walk va) then kept else kept ++ [s.walk va]), w = s.walk va := by
      intro w hw
      split at hw
      · exact hall w hw
      · rcases List.mem_append.1 hw with hw | hw
        · exact hall w hw
        · simpa using hw
    generalize (if kept.contains (s.walk va) then kept else kept ++ [s.walk va]) = all at hopt
    replace hopt : ∀ w ∈ all.eraseDups, w = s.walk va := fun w hw => hopt w (List.mem_eraseDups.1 hw)
    generalize all.eraseDups = opts at hopt
    split
    · exact hopt _ (by simp)
    · dsimp only
      rw [List.getD_eq_getElem?_getD]
      cases hg : opts[(Config.freeWord s.fresh).toNat % opts.length]? with
      | none => rfl
      | some w => exact hopt w (List.mem_of_getElem? hg)
  unfold State.translate
  generalize s.entryFor va = p at hw
  obtain ⟨u, w⟩ := p
  dsimp only at hw ⊢
  subst hw
  have ha := h.walk
  split
  · rename_i hx; rw [hx] at ha; simp [Walked.apply] at ha
  · exact ha

theorem keepsForm_sysWrite (s : State) (va : Nat) (ys : List Byte) : KeepsForm s (s.sysWrite va ys) := by
  unfold State.sysWrite
  have hm := translate_mem s (va % 2 ^ 52) none
  split
  · rename_i u pa t heq
    rw [heq] at hm
    exact (KeepsForm.of_mem hm).trans (keepsForm_homeWrite ..)
  · rename_i u c heq
    rw [heq] at hm
    exact .of_mem hm

theorem keepsForm_sysWriteAll (s : State) (n va : Nat) (ys : List Byte) : KeepsForm s (s.sysWriteAll n va ys) := by
  induction n generalizing s va ys with
  | zero => exact .refl s
  | succ n ih =>
    unfold State.sysWriteAll
    split
    · exact .refl s
    · exact (keepsForm_sysWrite s va _).trans (ih _ _ _)

theorem engCheck_mem (s : State) (x : W64) (a : Access) : (s.engCheck x a).1.mem = s.mem := by
  unfold State.engCheck
  split
  · rfl
  · have hm := translate_mem s (x.toNat % 2 ^ 52) (some a)
    generalize s.translate (x.toNat % 2 ^ 52) (some a) = p at hm
    obtain ⟨u, r⟩ := p
    cases r with
    | fail c => cases c <;> exact hm
    | ok pa t =>
      dsimp only
      split
      · split <;> exact hm
      · exact hm

theorem keepsForm_engWriteAll (s : State) (core : Nat) (x : W64) (ys : List Byte) :
    KeepsForm s (s.engWriteAll core x ys).1 := by
  refine .foldl_fst (β := Option EngFail) _ (fun p e => ?_) _ (s, none)
  split
  · exact .refl p.1
  · have hm := engCheck_mem p.1 (BitVec.ofNat 64 e.1) .store
    split
    · rename_i heq; rw [heq] at hm; exact .of_mem hm
    · rename_i heq; rw [heq] at hm; exact (KeepsForm.of_mem hm).trans (keepsForm_engPoke ..)

end Sys2Proof.Machine
end

