-- ==== Sys2Proof/Laws/Ops.lean ====
section
/-!
SUPPORT. What the shared operations over lanes, crews and teams do: masks, registers, crews by place, the active set,
the end of a unit.
-/

namespace Sys2Proof.Machine

/-! ## Masks -/

theorem maskBelow_lt (p : Nat → Bool) (n : Nat) : maskBelow p n < 2 ^ n := by
  induction n with
  | zero => simp [maskBelow]
  | succ n ih => simp only [maskBelow, Nat.pow_succ]; split <;> omega

theorem maskBelow_testBit (p : Nat → Bool) (n l : Nat) : (maskBelow p n).testBit l = (decide (l < n) && p l) := by
  induction n with
  | zero => simp [maskBelow]
  | succ n ih =>
    simp only [maskBelow]
    by_cases hp : p n = true
    · rw [if_pos hp, Nat.add_comm]
      by_cases hl : l = n
      · subst hl
        rw [Nat.testBit_two_pow_add_eq, Nat.testBit_lt_two_pow (maskBelow_lt p l)]
        simp [hp]
      · by_cases hlt : l < n
        · rw [Nat.testBit_two_pow_add_gt hlt, ih]
          simp [hlt, Nat.lt_succ_of_lt hlt]
        · have hgt : n < l := by omega
          have hb : 2 ^ n + maskBelow p n < 2 ^ l := by
            have h1 := maskBelow_lt p n
            have h2 : 2 ^ (n + 1) ≤ 2 ^ l := Nat.pow_le_pow_right (by omega) hgt
            rw [Nat.pow_succ] at h2; omega
          rw [Nat.testBit_lt_two_pow hb]
          simp; omega
    · rw [if_neg hp, Nat.add_zero, ih]
      by_cases hl : l = n
      · subst hl; simp [hp]
      · have : (l < n) = (l < n + 1) := by apply propext; omega
        simp [this]

/-- Bit l of the mask of a predicate. -/
@[simp] theorem maskOf_getLsbD (p : Nat → Bool) (l : Nat) : (maskOf p).getLsbD l = (decide (l < 32) && p l) := by
  unfold maskOf
  rw [BitVec.getLsbD_ofNat, maskBelow_testBit]
  by_cases h : l < 32 <;> simp [h]

theorem mem_lanesOf (m : W32) (l : Nat) : l ∈ lanesOf m ↔ m.getLsbD l = true := by
  unfold lanesOf
  simp only [List.mem_filter, List.mem_range, and_iff_right_iff_imp]
  intro h
  by_cases hl : l < 32
  · exact hl
  · rw [BitVec.getLsbD_of_ge m l (by omega)] at h; cases h

theorem lt_of_mem_lanesOf {m : W32} {l : Nat} (h : l ∈ lanesOf m) : l < 32 := by
  unfold lanesOf at h
  exact List.mem_range.1 (List.mem_of_mem_filter h)

theorem lanesOf_nodup (m : W32) : (lanesOf m).Nodup := List.nodup_range.filter _

@[simp] theorem lanesWhere_getLsbD (c : Crew) (p : Lane → Bool) (l : Nat) :
    (c.lanesWhere p).getLsbD l = (decide (l < 32) && p (c.lane l)) := maskOf_getLsbD _ l

theorem lanesOf_ne_nil {m : W32} (h : m ≠ 0#32) : lanesOf m ≠ [] := by
  intro h0
  apply h
  apply BitVec.eq_of_getLsbD_eq
  intro i hi
  cases hm : m.getLsbD i with
  | false => simp
  | true =>
    have := (mem_lanesOf m i).2 hm
    rw [h0] at this; cases this

/-! ## Lanes -/

/-- A lane after the lanes of a mask are changed. -/
theorem updLanes_lane (c : Crew) (m : W32) (f : Nat → Lane → Lane) (l : Nat) :
    (c.updLanes m f).lane l =
      if m.getLsbD l = true ∧ l < c.lanes.length then f l (c.lane l) else c.lane l := by
  unfold Crew.lane Crew.updLanes
  simp only [List.getD_eq_getElem?_getD, mapFrom_getElem?, Nat.zero_add]
  by_cases h : l < c.lanes.length
  · simp only [List.getElem?_eq_getElem h, Option.map_some, Option.getD_some]
    by_cases hm : m.getLsbD l = true <;> simp [hm, h]
  · simp [h]

theorem lane_of_runnable {c : Crew} {l : Nat} (h : (c.lane l).st = .runnable) : l < c.lanes.length := by
  by_cases hl : l < c.lanes.length
  · exact hl
  · have : c.lane l = Lane.dead := by
      unfold Crew.lane
      rw [List.getD_eq_getElem?_getD, List.getElem?_eq_none (by omega)]; rfl
    rw [this] at h; cases h

/-! ## Registers -/

/-- A v register after one is written. -/
theorem vreg_setV (c : Crew) (r l q k : Nat) (x : W32) (hl : l < 32) (hk : k < 32) :
    (c.setV r l x).vreg q k = if q = r ∧ k = l then x else c.vreg q k := by
  unfold Crew.vreg Crew.setV
  simp only [readKey_writeKey]
  have : (32 * q + k = 32 * r + l) ↔ (q = r ∧ k = l) := by omega
  simp only [this]

/-- A k register after one is written: k0 reads 0 and discards (R136). -/
theorem kreg_setK (c : Crew) (r q : Nat) (x : W32) :
    (c.setK r x).kreg q = if q = 0 then 0#32 else if q = r then x else c.kreg q := by
  unfold Crew.kreg Crew.setK
  by_cases hq : q = 0
  · simp [hq]
  · by_cases hr : r = 0
    · have : ¬(q = r) := by omega
      simp [hq, hr]
    · simp [hq, hr, readKey_writeKey]

@[simp] theorem kreg_zero (c : Crew) : c.kreg 0 = 0#32 := rfl

/-- A mask register after one is written: m0 reads the live lanes and discards (R136). -/
theorem mreg_setM (c : Crew) (r q : Nat) (x : W32) :
    (c.setM r x).mreg q = if q = 0 then c.live else if q = r then x else c.mreg q := by
  unfold Crew.mreg Crew.setM
  by_cases hr : r = 0
  · by_cases hq : q = 0
    · simp [hq, hr]
    · have : ¬(q = r) := by omega
      simp [hq, hr]
  · by_cases hq : q = 0
    · simp only [hq, hr, if_true, if_false]; rfl
    · simp [hq, hr, readKey_writeKey]

@[simp] theorem setVLanes_nil (c : Crew) (r : Nat) (f : Nat → W32) : c.setVLanes r f [] = c := rfl
@[simp] theorem setVLanes_cons (c : Crew) (r : Nat) (f : Nat → W32) (l : Nat) (ls : List Nat) :
    c.setVLanes r f (l :: ls) = (c.setV r l (f l)).setVLanes r f ls := rfl

/-- Writing a register of several lanes changes only the v registers. -/
theorem setVLanes_only (c : Crew) (r : Nat) (f : Nat → W32) (ls : List Nat) :
    c.setVLanes r f ls = { c with v := (c.setVLanes r f ls).v } := by
  induction ls generalizing c with
  | nil => rfl
  | cons l ls ih => rw [setVLanes_cons, ih]; rfl

/-- A v register after a register of several lanes is written. -/
theorem vreg_setVLanes (c : Crew) (r : Nat) (f : Nat → W32) (ls : List Nat) (hls : ∀ l ∈ ls, l < 32) (q k : Nat)
    (hk : k < 32) : (c.setVLanes r f ls).vreg q k = if q = r ∧ k ∈ ls then f k else c.vreg q k := by
  induction ls generalizing c with
  | nil => simp
  | cons l ls ih =>
    rw [setVLanes_cons, ih _ fun x hx => hls x (List.mem_cons_of_mem _ hx), vreg_setV _ _ _ _ _ _ (hls l (by simp)) hk]
    by_cases hq : q = r
    · by_cases h1 : k ∈ ls
      · simp [hq, h1]
      · by_cases h2 : k = l
        · subst h2; simp [hq, h1]
        · simp [hq, h1, h2]
    · simp [hq]

/-! ## Crews by place -/

theorem State.crew_eq (s : State) : s.crew = s.crewOf s.cur.team s.cur.crew := rfl

theorem team?_updTeamId (s : State) (id : Nat) (f : Team → Team) (hf : ∀ t, (f t).id = t.id) (j : Nat) :
    (s.updTeamId id f).team? j = (s.team? j).map fun t => if t.id = id then f t else t := by
  have := find?_updateFirst (fun t : Team => t.id == id) (fun t : Team => t.id == j) f (fun t => by simp [hf])
    s.ctx.teams (fun t ht => by
      by_cases h : id = j
      · left; simp at ht ⊢; omega
      · right; intro y hy; simp at hy ⊢; omega)
  simpa [State.team?, State.updTeamId, State.withTeams] using this

/-- A crew after a crew is changed. -/
theorem crewOf_updCrewOf (s : State) (id i : Nat) (f : Crew → Crew) (j k : Nat) :
    (s.updCrewOf id i f).crewOf j k =
      if j = id ∧ k = i ∧ (∃ t, s.team? id = some t ∧ i < t.crews.length) then f (s.crewOf id i) else s.crewOf j k := by
  unfold State.crewOf State.updCrewOf
  rw [team?_updTeamId s id (fun t => t.updCrew i f) (fun t => rfl)]
  cases ht : s.team? j with
  | none =>
    by_cases hj : j = id
    · subst hj; simp [ht]
    · simp [hj]
  | some t =>
    have hid : t.id = j := by
      have := List.find?_some ht; simpa using this
    simp only [Option.map_some, Option.getD_some, hid]
    by_cases hj : j = id
    · subst hj
      simp only [ht, Option.getD_some, if_true, true_and]
      simp only [Team.updCrew, List.getD_eq_getElem?_getD, updateAt_getElem?]
      by_cases hk : k = i
      · subst hk
        by_cases hl : k < t.crews.length
        · simp [hl]
        · simp [hl]
      · simp [hk]
    · simp [hj]

theorem crewOf_updCrewOf_self {s : State} {id i : Nat} (h : s.hasCrew id i) (f : Crew → Crew) :
    (s.updCrewOf id i f).crewOf id i = f (s.crewOf id i) := by
  rw [crewOf_updCrewOf, if_pos ⟨rfl, rfl, h⟩]

theorem crewOf_updCrewOf_ne (s : State) {id i j k : Nat} (h : ¬(j = id ∧ k = i)) (f : Crew → Crew) :
    (s.updCrewOf id i f).crewOf j k = s.crewOf j k := by
  rw [crewOf_updCrewOf, if_neg fun h' => h ⟨h'.1, h'.2.1⟩]

/-- A view of crews that a change keeps is kept of every crew. -/
theorem crewOf_view {β : Type} (g : Crew → β) {f : Crew → Crew} (hg : ∀ c, g (f c) = g c) (s : State) (id i j k : Nat) :
    g ((s.updCrewOf id i f).crewOf j k) = g (s.crewOf j k) := by
  rw [crewOf_updCrewOf]
  split
  · rename_i h; obtain ⟨rfl, rfl, -⟩ := h; exact hg _
  · rfl

theorem hasCrew_updTeamId {s : State} {id : Nat} {f : Team → Team} (hf : ∀ t, (f t).id = t.id)
    (hl : ∀ t, (f t).crews.length = t.crews.length) (j k : Nat) :
    (s.updTeamId id f).hasCrew j k ↔ s.hasCrew j k := by
  unfold State.hasCrew
  rw [team?_updTeamId _ _ _ hf]
  cases s.team? j with
  | none => simp
  | some t =>
    simp only [Option.map_some, Option.some.injEq, exists_eq_left']
    split <;> simp [hl]

@[simp] theorem hasCrew_updCrewOf (s : State) (id i : Nat) (f : Crew → Crew) (j k : Nat) :
    (s.updCrewOf id i f).hasCrew j k ↔ s.hasCrew j k :=
  hasCrew_updTeamId (f := fun t => t.updCrew i f) (fun _ => rfl) (fun t => by simp [Team.updCrew]) j k

theorem bare_updCrewOf (s : State) (id i : Nat) (f : Crew → Crew) :
    (s.updCrewOf id i f).ctx.teams.map Team.bare = s.ctx.teams.map Team.bare :=
  map_updateFirst _ (fun t : Team => t.updCrew i f) _ (fun _ => rfl) _

theorem updCrewOf_outside (s : State) (id i : Nat) (f : Crew → Crew) :
    s.updCrewOf id i f = { s with ctx := { s.ctx with teams := (s.updCrewOf id i f).ctx.teams } } := rfl

/-- The crew of the cursor after it is changed. -/
theorem crew_updCrew {s : State} (h : s.hasCrew s.cur.team s.cur.crew) (f : Crew → Crew) :
    (s.updCrew f).crew = f s.crew := crewOf_updCrewOf_self h f

/-! ## Frames compose -/

theorem State.Keeps.refl (s : State) : s.Keeps s := ⟨rfl, rfl, fun _ _ _ => rfl⟩

theorem State.Keeps.cur {s t : State} (h : s.Keeps t) : t.cur = s.cur := by rw [h.outside]

theorem State.Keeps.trans {s t u : State} (h1 : s.Keeps t) (h2 : t.Keeps u) : s.Keeps u := by
  refine ⟨?_, h2.teams.trans h1.teams, fun id i h => ?_⟩
  · rw [h2.outside, h1.outside]
  · have hc := h1.cur
    rw [h2.others id i (by rw [hc]; exact h), h1.others id i h]

/-- A change of the unit's own crew keeps the frame. -/
theorem State.Keeps.updCrew (s : State) (f : Crew → Crew) : s.Keeps (s.updCrew f) :=
  ⟨rfl, bare_updCrewOf _ _ _ _, fun _ _ h => by
    unfold State.updCrew; rw [crewOf_updCrewOf_ne s h]⟩

/-! ## The active set -/

/-- Only the slots of crews have changed. -/
structure State.SlotsOnly (s t : State) : Prop where
  outside : t = { s with ctx := { s.ctx with teams := t.ctx.teams } }
  teams : t.ctx.teams.map Team.bare = s.ctx.teams.map Team.bare
  crews : ∀ id i, (t.crewOf id i).placeless = (s.crewOf id i).placeless
  has : ∀ id i, t.hasCrew id i ↔ s.hasCrew id i

theorem State.SlotsOnly.refl (s : State) : s.SlotsOnly s := ⟨rfl, rfl, fun _ _ => rfl, fun _ _ => Iff.rfl⟩

theorem slotsOnly_exchange (s : State) (a b c d e f : Nat) : s.SlotsOnly (s.exchange a b c d e f) := by
  refine ⟨rfl, ?_, fun id i => ?_, fun id i => ?_⟩
  · unfold State.exchange; rw [bare_updCrewOf, bare_updCrewOf]
  · unfold State.exchange
    exact (crewOf_view Crew.placeless (f := fun x => { x with active := true, slot := e, activeSince := s.ctx.clock, readySince := none }) (fun _ => rfl) _ c d id i).trans
      (crewOf_view Crew.placeless (f := fun x => { x with active := false, slot := f, activeSince := s.ctx.clock, readySince := none }) (fun _ => rfl) s a b id i)
  · unfold State.exchange; simp

theorem slotsOnly_swapOutOf (s : State) (a b : Nat) : s.SlotsOnly (s.swapOutOf a b) := by
  unfold State.swapOutOf
  split
  · exact .refl s
  · dsimp only
    split
    · split
      · exact slotsOnly_exchange ..
      · exact .refl s
    · exact .refl s

/-- Leaving the active set changes nothing but slots (R121). -/
theorem slotsOnly_swapOut (s : State) : s.SlotsOnly s.swapOut := slotsOnly_swapOutOf ..

theorem State.SlotsOnly.keeps {s t : State} (h : s.SlotsOnly t) : s.Keeps t :=
  ⟨h.outside, h.teams, fun id i _ => h.crews id i⟩

theorem State.SlotsOnly.crew {s t : State} (h : s.SlotsOnly t) : t.crew.placeless = s.crew.placeless := by
  have hc : t.cur = s.cur := h.keeps.cur
  rw [State.crew_eq, State.crew_eq, hc]; exact h.crews _ _

theorem placeless_lane {a b : Crew} (h : a.placeless = b.placeless) (l : Nat) : a.lane l = b.lane l := by
  have : a.placeless.lanes = b.placeless.lanes := by rw [h]
  have : a.lanes = b.lanes := this
  unfold Crew.lane; rw [this]

theorem placeless_regs {a b : Crew} (h : a.placeless = b.placeless) : a.regs = b.regs := by
  have : a.placeless.regs = b.placeless.regs := by rw [h]
  exact this

/-! ## Releases -/

theorem releaseJoin_regs (c : Crew) (h : Hold) : (c.releaseJoin h).regs = c.regs := by
  unfold Crew.releaseJoin; split <;> rfl

theorem evalJoins_regs (n : Nat) (c : Crew) : (c.evalJoins n).regs = c.regs := by
  induction n generalizing c with
  | zero => rfl
  | succ n ih =>
    unfold Crew.evalJoins
    dsimp only
    split
    · rw [ih, releaseJoin_regs]; rfl
    · rfl

theorem settle_regs (c : Crew) : c.settle.regs = c.regs := by
  unfold Crew.settle
  dsimp only
  split
  · exact (show _ = _ from rfl : (Crew.convdead _).regs = (Crew.evalJoins _ c).regs).trans (evalJoins_regs _ _)
  · exact evalJoins_regs _ _

/-- A release moves held lanes only (R124). -/
theorem releaseJoin_lane (c : Crew) (h : Hold) (l : Nat) (hl : (c.lane l).st ≠ .held) :
    (c.releaseJoin h).lane l = c.lane l := by
  unfold Crew.releaseJoin
  split
  · show (c.updLanes _ _).lane l = _
    rw [updLanes_lane, if_neg]
    rintro ⟨h1, -⟩
    simp [Crew.heldAt] at h1
    exact hl h1.2.1
  · rfl

theorem evalJoins_lane (n : Nat) (c : Crew) (l : Nat) (hl : (c.lane l).st ≠ .held) :
    (c.evalJoins n).lane l = c.lane l := by
  induction n generalizing c with
  | zero => rfl
  | succ n ih =>
    unfold Crew.evalJoins
    dsimp only
    split
    · rw [ih]
      · rw [releaseJoin_lane]
        · rfl
        · exact hl
      · rw [releaseJoin_lane]
        · exact hl
        · exact hl
    · rfl

/-- Releases and CONVDEAD leave every lane that is not held as it is (R124, R128). -/
theorem settle_lane (c : Crew) (l : Nat) (hl : (c.lane l).st ≠ .held) : c.settle.lane l = c.lane l := by
  unfold Crew.settle
  dsimp only
  have he := evalJoins_lane (c.holds.length + 1) c l hl
  split
  · show (Crew.updLanes _ _ _).lane l = _
    rw [updLanes_lane, if_neg]
    · exact he
    · rintro ⟨h1, -⟩
      rw [lanesWhere_getLsbD, he] at h1
      simp at h1
      exact hl h1.2
  · exact he

/-! ## The end of a unit -/

@[simp] theorem updLanes_length (c : Crew) (m : W32) (f : Nat → Lane → Lane) :
    (c.updLanes m f).lanes.length = c.lanes.length := by unfold Crew.updLanes; simp

theorem evalJoins_length (n : Nat) (c : Crew) : (c.evalJoins n).lanes.length = c.lanes.length := by
  induction n generalizing c with
  | zero => rfl
  | succ n ih =>
    unfold Crew.evalJoins
    dsimp only
    split
    · rw [ih]
      unfold Crew.releaseJoin
      split
      · exact updLanes_length ..
      · rfl
    · rfl

/-- Releases and CONVDEAD add and take away no lane. -/
theorem settle_length (c : Crew) : c.settle.lanes.length = c.lanes.length := by
  unfold Crew.settle
  dsimp only
  split
  · exact (updLanes_length ..).trans (evalJoins_length ..)
  · exact evalJoins_length ..

theorem track_regs (c : Crew) (u : Cursor) : (c.track u).regs = c.regs := by
  unfold Crew.track
  dsimp only
  split
  · rfl
  · split
    · rfl
    · split <;> rfl

theorem track_lane (c : Crew) (u : Cursor) (l : Nat) (h : u.run.getLsbD l = true)
    (hl : l < c.lanes.length) : (c.track u).lane l = { c.lane l with age := 0 } := by
  have key : ∀ d : Crew, d.lanes = mapFrom (fun l (x : Lane) =>
      { x with age := if u.run.getLsbD l || x.st != LaneSt.runnable then 0 else x.age + 1 }) 0 c.lanes →
      d.lane l = { c.lane l with age := 0 } := by
    intro d hd
    unfold Crew.lane
    rw [hd]
    simp only [List.getD_eq_getElem?_getD, mapFrom_getElem?, Nat.zero_add, List.getElem?_eq_getElem hl,
      Option.map_some, Option.getD_some, h, Bool.true_or, if_true]
  unfold Crew.track
  dsimp only
  split
  · exact key _ rfl
  · split
    · exact key _ rfl
    · split <;> exact key _ rfl

theorem queueParked_lane (c : Crew) (m : W32) (n : Nat) (u : Bool) (l : Nat) : (c.queueParked m n u).lane l = c.lane l := rfl

/-- Lanes that have not parked end no team (R374). -/
theorem handlerTrap_none (c : Crew) (run : W32) (h : ∀ l ∈ lanesOf run, (c.lane l).st ≠ .parked) :
    c.handlerTrap run = none := by
  unfold Crew.handlerTrap
  have : ∀ ls : List Lane, (∀ x ∈ ls, x.st ≠ .parked) → ∀ acc : Option Cause, ls.foldl (fun acc x =>
      if x.st = .parked ∧ x.inHandler ∧ x.cause ≠ .xlate then
        match acc with
        | some d => if x.cause.code < d.code then some x.cause else some d
        | none => some x.cause
      else acc) acc = acc := by
    intro ls
    induction ls with
    | nil => intros; rfl
    | cons x xs ih =>
      intro hx acc
      have h0 : ¬(x.st = .parked ∧ x.inHandler ∧ x.cause ≠ .xlate) := fun h => hx x (by simp) h.1
      simp only [List.foldl_cons, h0, if_false]
      exact ih (fun y hy => hx y (List.mem_cons_of_mem _ hy)) acc
  exact this _ (by simpa using h) none

/-- What a lane of the run is after the unit's end, when it has stayed runnable. -/
theorem finish_spec (s : State) (u : Bool) (hc : s.hasCrew s.cur.team s.cur.crew)
    (hp : ∀ l ∈ lanesOf s.cur.run, (s.crew.lane l).st ≠ .parked) :
    s.Keeps (s.finish u) ∧ (s.finish u).crew.regs = s.crew.regs ∧
      ∀ l ∈ lanesOf s.cur.run, l < s.crew.lanes.length → (s.crew.lane l).st ≠ .held →
        (s.finish u).crew.lane l = { s.crew.lane l with age := 0 } := by
  have hbad := handlerTrap_none s.crew s.cur.run hp
  let s1 := s.updCrew fun c => ((c.queueParked s.cur.run s.cur.words u).settle).track s.cur
  have hf : s.finish u = if s1.crew.lanes.any fun x => x.st = .runnable then s1 else s1.swapOut := by
    unfold State.finish State.settleUnit
    simp only [hbad]
    rfl
  have h1k : s.Keeps s1 := .updCrew s _
  have h1c : s1.crew = ((s.crew.queueParked s.cur.run s.cur.words u).settle).track s.cur := crew_updCrew hc _
  have h1r : s1.crew.regs = s.crew.regs := by rw [h1c, track_regs, settle_regs]; rfl
  have h1l : ∀ l ∈ lanesOf s.cur.run, l < s.crew.lanes.length → (s.crew.lane l).st ≠ .held →
      s1.crew.lane l = { s.crew.lane l with age := 0 } := by
    intro l hl hlen hst
    have hs := settle_lane (s.crew.queueParked s.cur.run s.cur.words u) l hst
    rw [h1c, track_lane _ _ l ((mem_lanesOf _ _).1 hl) (by rw [settle_length]; exact hlen), hs]
    rfl
  have h2 : s1.SlotsOnly (s.finish u) := by
    rw [hf]; split
    · exact .refl _
    · exact slotsOnly_swapOut _
  refine ⟨h1k.trans h2.keeps, (placeless_regs h2.crew).trans h1r, fun l hl hlen hst => ?_⟩
  rw [placeless_lane h2.crew]; exact h1l l hl hlen hst

/-- The run is past the unit: what the end of a completed unit does (R115, R125). -/
theorem done_spec (s : State) (u : Bool) (h : s.AtUnit) :
    s.Keeps (s.done u) ∧ (s.done u).crew.regs = s.crew.regs ∧ s.MovesPast (s.done u) := by
  let s1 := s.updCrew fun c => c.advance s.cur.run s.cur.pc s.cur.words
  have h1c : s1.crew = s.crew.advance s.cur.run s.cur.pc s.cur.words := crew_updCrew h.crew _
  have hl : ∀ l ∈ lanesOf s.cur.run, s1.crew.lane l = { s.crew.lane l with pc := pcAfter s.cur.pc s.cur.words } := by
    intro l hl
    obtain ⟨hst, -⟩ := h.lanes l hl
    rw [h1c]
    unfold Crew.advance
    rw [updLanes_lane, if_pos ⟨(mem_lanesOf _ _).1 hl, lane_of_runnable hst⟩, if_pos hst]
  have hcur : s1.cur = s.cur := rfl
  have hlen : s1.crew.lanes.length = s.crew.lanes.length := by
    rw [h1c]; unfold Crew.advance Crew.updLanes; simp
  obtain ⟨hk, hr, hp⟩ := finish_spec s1 u (by simpa [s1, State.updCrew] using h.crew) (by
    intro l hm
    rw [hl l hm]
    show (s.crew.lane l).st ≠ _
    rw [(h.lanes l hm).1]; decide)
  refine ⟨(State.Keeps.updCrew s _).trans hk, hr.trans (by rw [h1c]; rfl), fun l hm => ?_⟩
  have hst := (h.lanes l hm).1
  show (s1.finish u).crew.lane l = _
  rw [hp l hm (by rw [hlen]; exact lane_of_runnable hst) (by
    rw [hl l hm]; show (s.crew.lane l).st ≠ _; rw [hst]; decide), hl l hm]

/-- A change of the unit's crew that leaves its lanes as they are, and the end of the unit. -/
theorem updCrew_done_spec (s : State) (f : Crew → Crew) (u : Bool) (h : s.AtUnit)
    (hf : (f s.crew).lanes = s.crew.lanes) : s.Completed ((s.updCrew f).done u) (f s.crew) := by
  have hc : (s.updCrew f).crew = f s.crew := crew_updCrew h.crew f
  have hlane : ∀ l, (s.updCrew f).crew.lane l = s.crew.lane l := by
    intro l; rw [hc]; unfold Crew.lane; rw [hf]
  have h' : (s.updCrew f).AtUnit := by
    refine ⟨?_, h.some, fun l hl => ?_⟩
    · simpa [State.updCrew] using h.crew
    · rw [hlane]; exact h.lanes l hl
  obtain ⟨hk, hr, hp⟩ := done_spec _ u h'
  refine ⟨(State.Keeps.updCrew s f).trans hk, by rw [hr, hc], fun l hl => ?_⟩
  rw [hp l hl, hlane]; rfl

end Sys2Proof.Machine
end

