-- ==== Sys2Proof/Laws/Units.lean ====
section
/-!
SUPPORT. The course of a unit: what a lane-set unit and a uniform-set unit do when they are ready, and when they are not.
-/

namespace Sys2Proof.Machine

/-! ## Zeroing -/

/-- The crew once the destinations of its inactive lanes are cleared (R41). -/
def Crew.cleared (c : Crew) (zeroing : Bool) (lanes : W32) (zero : Crew → Nat → Crew) : Crew :=
  if zeroing then (lanesOf lanes).foldl zero c else c

theorem foldl_keeps {α β γ : Type} (g : β → γ) (f : β → α → β) (h : ∀ b a, g (f b a) = g b) (xs : List α) (b : β) :
    g (xs.foldl f b) = g b := by
  induction xs generalizing b with
  | nil => rfl
  | cons x xs ih => rw [List.foldl_cons, ih, h]

theorem zeroV_lanes (d : BitVec 7) (n : Nat) (c : Crew) (l : Nat) : (zeroV d n c l).lanes = c.lanes :=
  foldl_keeps Crew.lanes (fun c i => c.setV (d.toNat + i) l 0#32) (fun _ _ => rfl) _ _

theorem zeroV_only (d : BitVec 7) (n : Nat) (c : Crew) (l : Nat) : zeroV d n c l = { c with v := (zeroV d n c l).v } := by
  unfold zeroV
  induction List.range n generalizing c with
  | nil => rfl
  | cons x xs ih => rw [List.foldl_cons, ih]; rfl

/-- Clearing v registers changes only v registers. -/
theorem cleared_zeroV_only (c : Crew) (z : Bool) (m : W32) (d : BitVec 7) (n : Nat) :
    c.cleared z m (zeroV d n) = { c with v := (c.cleared z m (zeroV d n)).v } := by
  unfold Crew.cleared
  cases z with
  | false => rfl
  | true =>
    simp only [if_true]
    induction lanesOf m generalizing c with
    | nil => rfl
    | cons x xs ih =>
      rw [List.foldl_cons, ih, zeroV_only d n c x]

/-- A v register of a crew once one v register of some lanes is cleared. -/
theorem vreg_cleared (c : Crew) (z : Bool) (m : W32) (d : BitVec 7) (q k : Nat) (hk : k < 32) :
    (c.cleared z m (zeroV d 1)).vreg q k = if z = true ∧ q = d.toNat ∧ m.getLsbD k = true then 0#32 else c.vreg q k := by
  have key : ∀ ls : List Nat, (∀ l ∈ ls, l < 32) → ∀ c : Crew,
      (ls.foldl (zeroV d 1) c).vreg q k = if q = d.toNat ∧ k ∈ ls then 0#32 else c.vreg q k := by
    intro ls
    induction ls with
    | nil => intro _ c; simp
    | cons x xs ih =>
      intro hx c
      rw [List.foldl_cons, ih fun l hl => hx l (List.mem_cons_of_mem _ hl)]
      have : (zeroV d 1 c x) = c.setV d.toNat x 0#32 := by simp [zeroV, List.range_succ]
      rw [this, vreg_setV _ _ _ _ _ _ (hx x (by simp)) hk]
      by_cases hq : q = d.toNat
      · by_cases h1 : k ∈ xs
        · simp [hq, h1]
        · by_cases h2 : k = x <;> simp [hq, h1, h2]
      · simp [hq]
  unfold Crew.cleared
  cases z with
  | false => simp
  | true =>
    simp only [if_true, true_and]
    rw [key _ (fun l hl => lt_of_mem_lanesOf hl)]
    simp only [mem_lanesOf]

/-! ## Lane-set units -/

/-- The state once the destinations of the inactive lanes are cleared. -/
def State.clearedFor (s : State) (act : W32) (zeroing : Bool) (zero : Crew → Nat → Crew) : State :=
  if zeroing then s.updCrew fun c => (lanesOf (s.cur.run &&& ~~~act)).foldl zero c else s

/-- A lane-set unit that is ready has its effect on the active lanes. -/
theorem laneIssue_ready {s : State} {act : W32} {zeroing : Bool} {n : Names} (zero : Crew → Nat → Crew)
    (body : State → W32 → Out) (h : s.LaneReady act zeroing n) :
    s.laneIssue act zeroing n zero body = body (s.clearedFor act zeroing zero) act := by
  unfold State.laneIssue State.laneCourse State.clearedFor
  simp only [h.budget, h.loads, h.kloads, h.tokens, h.active, Bool.not_true, Bool.and_false, Bool.or_false,
    Bool.false_eq_true, if_false, ne_eq, not_true_eq_false]

/-- A lane-set unit with a register outside the budgets parks its active lanes with BUDGET (R33). -/
theorem laneIssue_budget {s : State} {act : W32} {zeroing : Bool} {n : Names} (zero : Crew → Nat → Crew)
    (body : State → W32 → Out) (h : s.team.budgetOk n = false) (ha : act ≠ 0#32) :
    s.laneIssue act zeroing n zero body = .next (s.parkLanes act .budget 0#64) := by
  unfold State.laneIssue State.laneCourse
  simp only [h, ha, Bool.not_false, if_true, if_false]

/-- A lane-set unit with no active lane has no effect but zeroing, and its run moves past it (R53, R55). -/
theorem laneIssue_idle {s : State} {zeroing : Bool} {n : Names} (zero : Crew → Nat → Crew)
    (body : State → W32 → Out) (hb : s.team.budgetOk n = true)
    (hl : s.pendingV n.v (if zeroing then s.cur.run else 0#32) = false) :
    s.laneIssue 0#32 zeroing n zero body = .next ((s.clearedFor 0#32 zeroing zero).done false) := by
  unfold State.laneIssue State.laneCourse State.clearedFor
  simp only [hb, hl, Bool.not_true, Bool.false_eq_true, if_false, if_true, bne_self_eq_false, Bool.false_and,
    Bool.or_false, id_eq]

/-- A lane-set unit whose registers include a busy token waits for it (R142). -/
theorem laneIssue_tokens {s : State} {act : W32} {zeroing : Bool} {n : Names} (zero : Crew → Nat → Crew)
    (body : State → W32 → Out) (hb : s.team.budgetOk n = true) (ha : act ≠ 0#32)
    (hl : s.pendingV n.v (if zeroing then s.cur.run else act) = false) (hk : s.pendingK n.k = false)
    (ht : s.busyAmong n.k ≠ []) :
    s.laneIssue act zeroing n zero body = .next (s.waitRun (.tokens (s.busyAmong n.k))) := by
  unfold State.laneIssue State.laneCourse
  simp only [hb, hl, hk, ha, ht, Bool.not_true, Bool.and_false, Bool.or_false, Bool.false_eq_true, if_false, ne_eq,
    not_false_eq_true, if_true]

/-- A lane-set unit that changes only registers of its crew, and leaves the lanes of the crew as they are. -/
theorem laneCrew_ready {s : State} {p : Prefix} {n : Names} {zero : Crew → Nat → Crew} {f : Crew → W32 → Crew}
    (h : s.LaneReady (s.activeLanes p) p.zeroing n) (hz : ∀ c l, (zero c l).lanes = c.lanes)
    (hf : ∀ c m, (f c m).lanes = c.lanes) :
    ∃ t, s.laneCrew p n zero f = .next t ∧
      s.Completed t (f (s.crew.cleared p.zeroing (s.cur.run &&& ~~~(s.activeLanes p)) zero) (s.activeLanes p)) := by
  unfold State.laneCrew State.laneUnit
  rw [laneIssue_ready zero _ h]
  refine ⟨_, rfl, ?_⟩
  unfold State.clearedFor Crew.cleared
  cases hp : p.zeroing with
  | false =>
    simp only [Bool.false_eq_true, if_false]
    exact updCrew_done_spec s (fun c => f c (s.activeLanes p)) false h.unit (hf _ _)
  | true =>
    simp only [if_true]
    let g : Crew → Crew := fun c => (lanesOf (s.cur.run &&& ~~~(s.activeLanes p))).foldl zero c
    have hg : (g s.crew).lanes = s.crew.lanes := foldl_keeps Crew.lanes zero hz _ _
    have hc : (s.updCrew g).crew = g s.crew := crew_updCrew h.unit.crew g
    have hlane : ∀ l, (s.updCrew g).crew.lane l = s.crew.lane l := by
      intro l; rw [hc]; unfold Crew.lane; rw [hg]
    have hu : (s.updCrew g).AtUnit :=
      ⟨by simpa [State.updCrew] using h.unit.crew, h.unit.some, fun l hl => by rw [hlane]; exact h.unit.lanes l hl⟩
    have := updCrew_done_spec (s.updCrew g) (fun c => f c (s.activeLanes p)) false hu (hf _ _)
    refine ⟨(State.Keeps.updCrew s g).trans this.keeps, by rw [this.regs, hc], fun l hl => ?_⟩
    have := this.past l hl
    rw [hlane] at this
    exact this

/-! ## Uniform-set units -/

/-- A uniform-set unit that is ready has its effect. -/
theorem uniformUnit_ready {s : State} {n : Names} (body : State → Out) (h : s.UniformReady n) :
    s.uniformUnit none n body = body s := by
  unfold State.uniformUnit
  simp only [h.budget, h.tokens, h.loads, Bool.not_true, Bool.false_eq_true, if_false, ne_eq, not_true_eq_false]

/-- A uniform-set unit with an earlier cause parks its run and has no other effect (R54). -/
theorem uniformUnit_cause (s : State) (cause : Cause) (n : Names) (body : State → Out) :
    s.uniformUnit (some cause) n body = .next (s.parkRun cause 0#64 true) := rfl

/-- A uniform-set unit with a register outside the budgets parks its run with BUDGET (R33). -/
theorem uniformUnit_budget {s : State} {n : Names} (body : State → Out) (h : s.team.budgetOk n = false) :
    s.uniformUnit none n body = .next (s.parkRun .budget 0#64 true) := by
  unfold State.uniformUnit; simp only [h, Bool.not_false, if_true]

/-- A uniform-set unit whose registers include a busy token waits for it (R142). -/
theorem uniformUnit_tokens {s : State} {n : Names} (body : State → Out) (h : s.team.budgetOk n = true)
    (ht : s.busyAmong n.k ≠ []) : s.uniformUnit none n body = .next (s.waitRun (.tokens (s.busyAmong n.k))) := by
  unfold State.uniformUnit
  simp only [h, ht, Bool.not_true, Bool.false_eq_true, if_false, ne_eq, not_false_eq_true, if_true]

/-- A uniform-set unit that changes only registers of its crew. -/
theorem uniformCrew_ready {s : State} {n : Names} {f : Crew → Crew} (h : s.UniformReady n)
    (hf : (f s.crew).lanes = s.crew.lanes) : ∃ t, s.uniformCrew n f = .next t ∧ s.Completed t (f s.crew) := by
  unfold State.uniformCrew
  rw [uniformUnit_ready _ h]
  exact ⟨_, rfl, updCrew_done_spec s f true h.unit hf⟩

/-! ## Units that write one value a lane -/

/-- A lane-set unit that writes v(d) with a value of each active lane, when that value reads only the lane's own registers and the
uniform ones: zeroing and the write leave what State.laneWritten says. -/
theorem laneValue_ready {s : State} {p : Prefix} {d : BitVec 7} {n : Names} (f : Crew → Nat → W32)
  (h : s.LaneReady (s.activeLanes p) p.zeroing (n.add (destNames d 1)))
  (hf : ∀ c l, (s.activeLanes p).getLsbD l = true → (∀ q, c.vreg q l = s.crew.vreg q l) → c.k = s.crew.k → f c l = f s.crew l) :
  ∃ t, s.laneValue p d n f = .next t ∧ s.Completed t { s.crew with v := t.crew.v } ∧
    ∀ r l, l < 32 → t.crew.vreg r l = s.laneWritten (s.activeLanes p) p.zeroing d.toNat (f s.crew) r l := by
  obtain ⟨t, ht, hc⟩ := laneCrew_ready (zero := zeroV d 1) (f := fun c act => c.setVLanes d.toNat (f c) (lanesOf act)) h (zeroV_lanes d 1)
    (fun c m => by rw [setVLanes_only])
  refine ⟨t, ht, ?_⟩
  have hreg := hc.regs
  let c1 := s.crew.cleared p.zeroing (s.cur.run &&& ~~~s.activeLanes p) (zeroV d 1)
  have hv : t.crew.v = (c1.setVLanes d.toNat (f c1) (lanesOf (s.activeLanes p))).v :=
    show t.crew.regs.v = (Crew.regs (c1.setVLanes d.toNat (f c1) (lanesOf (s.activeLanes p)))).v from congrArg Crew.v hreg
  have hr2 : t.crew.regs = ({ s.crew with v := t.crew.v } : Crew).regs := by
    rw [hreg, hv, setVLanes_only, cleared_zeroV_only]
  refine ⟨⟨hc.keeps, hr2, hc.past⟩, ?_⟩
  intro r l hl
  have h1 : t.crew.vreg r l = (c1.setVLanes d.toNat (f c1) (lanesOf (s.activeLanes p))).vreg r l := by
    unfold Crew.vreg; rw [hv]
  rw [h1, vreg_setVLanes _ _ _ _ (fun l hl => lt_of_mem_lanesOf hl) _ _ hl]
  unfold State.laneWritten
  simp only [mem_lanesOf]
  by_cases ha : (s.activeLanes p).getLsbD l = true
  · by_cases hr : r = d.toNat
    · simp only [hr, ha, and_self, if_true]
      refine hf c1 l ha (fun q => ?_) (by show (Crew.cleared _ _ _ _).k = _; rw [cleared_zeroV_only])
      show (Crew.cleared _ _ _ _).vreg q l = _
      rw [vreg_cleared _ _ _ _ _ _ hl]
      simp [ha, hl]
    · simp only [hr, false_and, if_false]
      show (Crew.cleared _ _ _ _).vreg r l = _
      rw [vreg_cleared _ _ _ _ _ _ hl]; simp [hr]
  · have ha' : (s.activeLanes p).getLsbD l = false := by simpa using ha
    simp only [ha', Bool.false_eq_true, and_false, if_false]
    show (Crew.cleared _ _ _ _).vreg r l = _
    rw [vreg_cleared _ _ _ _ _ _ hl]
    simp only [BitVec.getLsbD_and, BitVec.getLsbD_not, hl, ha', decide_true, Bool.not_false, Bool.and_true]
    by_cases hz : p.zeroing = true <;> by_cases hr : r = d.toNat <;> simp [hz, hr]

/-- A source operand reads the lane's own registers and the uniform ones. -/
theorem src_eq {c c' : Crew} {l : Nat} (hv : ∀ q, c.vreg q l = c'.vreg q l) (hk : c.k = c'.k) (x : Src) : c.src x l = c'.src x l := by
  cases x with
  | v r => exact hv _
  | k r => show c.kreg _ = c'.kreg _; unfold Crew.kreg; rw [hk]

end Sys2Proof.Machine
end

