-- ==== Sys2Proof/Tests/Witness.lean ====
section
/-!
SUPPORT. Witnesses: for each statement with hypotheses, a concrete state and operands that meet them, clause by clause, at
the edges of their ranges.
-/

namespace Sys2Proof.Tests

set_option Elab.async false

open Sys2Proof Sys2Proof.Machine

/-! ## A base state, and what makes it ready, as Booleans the kernel evaluates -/

/-- One crew of one team at 0x30000, its 32 lanes in the run, in a context whose first GiB is mapped onto itself. -/
def base : State :=
  { State.reset.probe [] with cur := { team := 2, crew := 0, run := 0xFFFFFFFF#32, pc := 0x30000#52, words := 1 } }

/-- The team exists and has the crew. -/
def hasCrewB (s : State) (id i : Nat) : Bool :=
  match s.team? id with
  | some t => decide (i < t.crews.length)
  | none => false

theorem hasCrew_of {s : State} {id i : Nat} (h : hasCrewB s id i = true) : s.hasCrew id i := by
  unfold hasCrewB at h
  split at h
  · exact ⟨_, ‹_›, of_decide_eq_true h⟩
  · cases h

/-- The run's lanes are runnable at the unit. -/
def atUnitB (s : State) : Bool :=
  hasCrewB s s.cur.team s.cur.crew && (s.cur.run != 0#32 &&
    (lanesOf s.cur.run).all fun l => decide ((s.crew.lane l).st = .runnable ∧ (s.crew.lane l).pc = s.cur.pc))

theorem atUnit_of {s : State} (h : atUnitB s = true) : s.AtUnit := by
  simp only [atUnitB, Bool.and_eq_true, List.all_eq_true, decide_eq_true_eq, bne_iff_ne] at h
  exact ⟨hasCrew_of h.1, h.2.1, h.2.2⟩

/-- A lane-set unit has nothing to wait for. -/
def laneReadyB (s : State) (act : W32) (z : Bool) (n : Names) : Bool :=
  atUnitB s && decide (act ≠ 0#32 ∧ s.team.budgetOk n = true ∧ s.pendingV n.v (if z then s.cur.run else act) = false ∧
    s.pendingK n.k = false ∧ s.busyAmong n.k = [])

theorem laneReady_of {s : State} {act : W32} {z : Bool} {n : Names} (h : laneReadyB s act z n = true) :
    s.LaneReady act z n := by
  simp only [laneReadyB, Bool.and_eq_true, decide_eq_true_eq] at h
  obtain ⟨u, a, b, c, d, e⟩ := h
  exact ⟨atUnit_of u, a, b, c, d, e⟩

/-- A uniform unit has nothing to wait for. -/
def uniformReadyB (s : State) (n : Names) : Bool :=
  atUnitB s && decide (s.team.budgetOk n = true ∧ s.busyAmong n.k = [] ∧ s.pendingK (n.k ++ n.quiet) = false)

theorem uniformReady_of {s : State} {n : Names} (h : uniformReadyB s n = true) : s.UniformReady n := by
  simp only [uniformReadyB, Bool.and_eq_true, decide_eq_true_eq] at h
  obtain ⟨u, a, b, c⟩ := h
  exact ⟨atUnit_of u, a, b, c⟩

/-- The core has room for requests, and exposure left. -/
def mayIssueB (s : State) : Bool :=
  decide (s.entriesHeld s.crew.core + engineEntries + 32 ≤ 1024 ∧ s.expoSpent s.crew.core s.team.cls 4 = false ∧
    s.expoSpent s.crew.core s.team.cls 3 = false)

theorem mayIssue_of {s : State} (h : mayIssueB s = true) : s.MayIssue := by
  obtain ⟨a, b, c⟩ := of_decide_eq_true h
  exact ⟨a, b, c⟩

/-- A page maps the address, and what is kept of it is what a walk finds. -/
def translatesB (s : State) (va : Nat) (a : Option Access) (pa : Nat) (t : Treat) : Bool :=
  decide ((s.walk va).apply va a = .ok pa t) && s.ctx.tlb.all fun k => k.page != va / 65536 || decide (Walked.leaf k.entry k.level = s.walk va)

theorem translates_of {s : State} {va : Nat} {a : Option Access} {pa : Nat} {t : Treat}
    (h : translatesB s va a pa t = true) : s.Translates va a pa t := by
  simp only [translatesB, Bool.and_eq_true, decide_eq_true_eq, List.all_eq_true, Bool.or_eq_true, bne_iff_ne] at h
  exact ⟨h.1, fun k hk e => (h.2 k hk).resolve_left (fun n => n e)⟩

theorem reachable_of {s : State} {pa : Nat} (h : rangeOf s.part pa = some .device) : s.reachable pa := by
  intro p hp; rw [h] at hp; cases hp


/-- A request of lane 0 of the base crew for the word at 0x40000, and the state in which it alone is outstanding. -/
def request (kind : ReqKind) : Req :=
  { id := 9, unit := 8, team := 2, crew := 0, core := 0, lane := 0, thread := some 0, kind := kind, pa := 0x40000,
    size := 4, data := [1#8, 2#8, 3#8, 4#8], compare := [0#8, 0#8, 0#8, 0#8], regs := 1, pc := 0x30000#52, run := 1#32 }
def outstanding (rs : List Req) : State := { base with ctx := { base.ctx with reqs := rs }, nextId := 20 }

/-! ## Lane-set and uniform units -/

/-- A PREFIX that names mask 1, zeroes, and takes v127 as its fourth operand. -/
def masked : Prefix := { Prefix.zero with c := 127#8, cValid := true, mask := 1#3, zeroing := true }

/-- The base state with lane 31 alone in m1 and numbers in a few registers. -/
def ready : State := base.updCrew fun c =>
  ((((c.setM 1 0x80000000#32).setV 1 0 5#32).setV 1 31 7#32).setK 5 9#32).setK 511 0xFFFFFFFF#32

/-- Lane-set forms: the lowest and the highest registers, all lanes and one lane, with and without zeroing. -/
theorem witness_LaneUnitsWriteTheirResults :
    (∃ (i : Instr) (x : LaneForm) (s : State), laneForm i = some x ∧ s.LaneReady (s.activeLanes x.p) x.p.zeroing x.names ∧ x.p.zeroing = false ∧ x.d = 0#7) ∧
    ∃ (i : Instr) (x : LaneForm) (s : State), laneForm i = some x ∧ s.LaneReady (s.activeLanes x.p) x.p.zeroing x.names ∧ x.p.zeroing = true ∧ x.d = 127#7 :=
  ⟨⟨.iadd .zero false 0#7 (.v 1#7) (.k 5#7), _, ready, rfl, laneReady_of (by decide +kernel), rfl, rfl⟩,
    ⟨.imad masked true 127#7 (.v 126#7) (.k 127#7), _, ready, rfl, laneReady_of (by decide +kernel), rfl, rfl⟩⟩

theorem witness_FloatUnitsWriteResultsAndFlags :
    (∃ (i : Instr) (x : FloatForm) (s : State), floatForm i = some x ∧ s.LaneReady (s.activeLanes x.p) x.p.zeroing x.names ∧ x.p.zeroing = false) ∧
    ∃ (i : Instr) (x : FloatForm) (s : State), floatForm i = some x ∧ s.LaneReady (s.activeLanes x.p) x.p.zeroing x.names ∧ x.p.zeroing = true :=
  ⟨⟨.frcp .zero 0#7 (.v 1#7), _, ready, rfl, laneReady_of (by decide +kernel), rfl⟩,
    ⟨.ffma masked true 127#7 (.v 126#7) (.k 127#7), _, ready, rfl, laneReady_of (by decide +kernel), rfl⟩⟩

theorem witness_ComparesWriteOneMask : ∃ (p : Prefix) (md : BitVec 3) (a b : Src) (s : State), md ≠ 0#3 ∧
    s.LaneReady (s.activeLanes p) p.zeroing ((srcNames a 1).add (srcNames b 1)) :=
  ⟨masked, 7#3, .v 127#7, .k 0#7, ready, by decide, laneReady_of (by decide +kernel)⟩

theorem witness_SelectElectAndTableReads : ∃ (p : Prefix) (d : BitVec 7) (a b : Src) (s : State),
    s.LaneReady s.cur.run false (((srcNames a 1).add (srcNames b 1)).add (destNames d 1)) ∧
    s.LaneReady (s.activeLanes p) p.zeroing (destNames d 1) ∧
    s.LaneReady (s.activeLanes p) p.zeroing ((srcNames a 1).add (destNames d 1)) :=
  ⟨masked, 127#7, .v 127#7, .k 0#7, ready, laneReady_of (by decide +kernel), laneReady_of (by decide +kernel),
    laneReady_of (by decide +kernel)⟩

theorem witness_TranspositionsWriteFourRegisters : ∃ (d r : BitVec 7) (s : State),
    s.LaneReady s.cur.run false ((srcNames (.v r) 4).add (destNames d 4)) ∧
    ∀ j, j < 4 →
      let lanes := maskOf fun l => (List.range 4).any fun k => k == j && s.cur.run.getLsbD (4 * (l / 4) + k)
      s.pendingV [r.toNat + j] lanes = false ∧ s.crew.heldWrites [r.toNat + j] lanes s.cur.run = false :=
  ⟨124#7, 0#7, ready, laneReady_of (by decide +kernel), by decide +kernel⟩

theorem witness_BlockQuantizationWritesBytes : ∃ (p : Prefix) (d : BitVec 7) (a : Src) (s : State),
    s.LaneReady (s.activeLanes p) p.zeroing ((srcNames a 1).add (destNames d 1)) ∧ p.zeroing = false ∧
    (blockActive (s.activeLanes p) 0 = false ∧ blockActive (s.activeLanes p) 1 = true) ∧
    ∀ (pick : Bool) (j : BitVec 3), ∀ h, h < 2 → blockActive (s.activeLanes p) h = true →
      let lane := 1#32 <<< (2 * j.toNat + h + (if pick then 16 else 0))
      s.pendingV [d.toNat] lane = false ∧ s.crew.heldWrites [d.toNat] lane s.cur.run = false :=
  ⟨{ Prefix.zero with mask := 1#3 }, 127#7, .v 1#7, ready, laneReady_of (by decide +kernel), rfl, by decide +kernel,
    by decide +kernel⟩

/-- The base state with a smaller register budget: a unit that names v8 or k16 is outside it. -/
def tight : State := base.updTeam fun t => { t with vBudget := 8, kBudget := 16 }

/-- The base state on an LX940. -/
def small : State := { base with part := .lx940 }

/-- The base state with k5 a busy token of a command 77; with loads of v1 of lane 0 and of k5 outstanding. -/
def tokenBusy : State := base.updCrew fun c => { c with busy := [(5, 77)] }
def loading : State := outstanding [{ request (.load false) with dest := 1 }, { request (.load false) with id := 10, lane := 32, thread := none, dest := 5 }]

theorem witness_UnitsThatDoNotTakeEffect :
    (∃ (i : Instr) (x : GatedForm) (s : State), gatedForm i = some x ∧ s.AtUnit ∧ (x.walker = true → s.part = .lx960) ∧
      s.activeLanes x.p = 0#32 ∧ s.team.budgetOk x.names = true ∧
      s.pendingV x.names.v (if x.p.zeroing then s.cur.run else s.activeLanes x.p) = false) ∧
    (∃ (i : Instr) (x : GatedForm) (s : State), gatedForm i = some x ∧ s.AtUnit ∧ (x.walker = true → s.part = .lx960) ∧
      s.activeLanes x.p ≠ 0#32 ∧ (∀ l ∈ lanesOf s.cur.run, (s.crew.lane l).inHandler = false) ∧ s.team.budgetOk x.names = false) ∧
    (∃ (i : Instr) (x : GatedForm) (s : State), gatedForm i = some x ∧ s.AtUnit ∧ (x.walker = true → s.part = .lx960) ∧
      s.activeLanes x.p ≠ 0#32 ∧ s.team.budgetOk x.names = true ∧
      s.pendingV x.names.v (if x.p.zeroing then s.cur.run else s.activeLanes x.p) = true) ∧
    (∃ (i : Instr) (x : GatedForm) (s : State), gatedForm i = some x ∧ s.AtUnit ∧ (x.walker = true → s.part = .lx960) ∧
      s.activeLanes x.p ≠ 0#32 ∧ s.team.budgetOk x.names = true ∧
      s.pendingV x.names.v (if x.p.zeroing then s.cur.run else s.activeLanes x.p) = false ∧ s.pendingK x.names.k = false ∧
      s.busyAmong x.names.k ≠ []) ∧
    (∃ (i : Instr) (x : NamedForm) (s : State), namedForm i = some x ∧ s.AtUnit ∧ (x.walker = true → s.part = .lx960) ∧
      (x.privileged = true → s.ctx.privileged = true) ∧ (∀ l ∈ lanesOf s.cur.run, (s.crew.lane l).inHandler = false) ∧
      s.team.budgetOk x.names = false) ∧
    (∃ (i : Instr) (x : NamedForm) (s : State), namedForm i = some x ∧ s.AtUnit ∧ (x.walker = true → s.part = .lx960) ∧
      (x.privileged = true → s.ctx.privileged = true) ∧ s.team.budgetOk x.names = true ∧ s.busyAmong x.names.k ≠ []) ∧
    (∃ (i : Instr) (x : NamedForm) (s : State), namedForm i = some x ∧ s.AtUnit ∧ (x.walker = true → s.part = .lx960) ∧
      (x.privileged = true → s.ctx.privileged = true) ∧ s.team.budgetOk x.names = true ∧ s.busyAmong x.names.k = [] ∧
      s.pendingK (x.names.k ++ x.names.quiet) = true) ∧
    ∃ s : State, s.part = .lx940 ∧ s.AtUnit ∧ (∀ l ∈ lanesOf s.cur.run, (s.crew.lane l).inHandler = false) ∧
      s.activeLanes .zero ≠ 0#32 :=
  ⟨⟨.ldQ { Prefix.zero with mask := 2#3, zeroing := true } 124#7 (.v 1#7) 0#6, _, ready, rfl, atUnit_of (by decide +kernel),
      by decide +kernel, by decide +kernel, by decide +kernel, by decide +kernel⟩,
    ⟨.sts .zero 8#7 (.v 7#7) .b32 0#6, _, tight, rfl, atUnit_of (by decide +kernel), by decide +kernel, by decide +kernel,
      by decide +kernel, by decide +kernel⟩,
    ⟨.fadd .zero false 3#7 (.v 1#7) (.v 2#7), _, loading, rfl, atUnit_of (by decide +kernel), by decide +kernel, by decide +kernel,
      by decide +kernel, by decide +kernel⟩,
    ⟨.cluNode .zero false 3#7 (.k 5#7) 255#8, _, tokenBusy, rfl, atUnit_of (by decide +kernel), by decide +kernel, by decide +kernel,
      by decide +kernel, by decide +kernel, by decide +kernel, by decide +kernel⟩,
    ⟨.kld 14#8 15#8 0#8, _, tight, rfl, atUnit_of (by decide +kernel), by decide +kernel, by decide +kernel, by decide +kernel,
      by decide +kernel⟩,
    ⟨.csrw 5#8 0x020#12, _, tokenBusy, rfl, atUnit_of (by decide +kernel), by decide +kernel, by decide +kernel, by decide +kernel,
      by decide +kernel⟩,
    ⟨.walk 5#8 0#8, _, loading, rfl, atUnit_of (by decide +kernel), by decide +kernel, by decide +kernel, by decide +kernel,
      by decide +kernel, by decide +kernel⟩,
    ⟨small, rfl, atUnit_of (by decide +kernel), by decide +kernel, by decide +kernel⟩⟩

theorem witness_UniformUnitsWriteTheirResult :
    (∃ (i : Instr) (x : UniformForm) (s : State), uniformForm i = some x ∧ s.UniformReady x.names ∧ x.d = 0#8) ∧
    ∃ (i : Instr) (x : UniformForm) (s : State), uniformForm i = some x ∧ s.UniformReady x.names ∧ x.d = 255#8 :=
  ⟨⟨.kmad 0#8 5#8 1#8, _, ready, rfl, uniformReady_of (by decide +kernel), rfl⟩,
    ⟨.ksel 255#8 254#8 0#8, _, ready, rfl, uniformReady_of (by decide +kernel), rfl⟩⟩

theorem witness_MovesBetweenRegisterClasses : ∃ (d q a : BitVec 8) (r : BitVec 7) (m : BitVec 3) (s : State),
    s.UniformReady { k := [d.toNat, 256 + q.toNat] } ∧ s.UniformReady { k := [d.toNat], v := [r.toNat] } ∧
    s.pendingV [r.toNat] (1#32 <<< 31) = false ∧ s.crew.heldWrites [r.toNat] (1#32 <<< 31) s.cur.run = false ∧ m ≠ 0#3 ∧
    s.UniformReady { k := [a.toNat] } ∧ s.UniformReady {} :=
  ⟨255#8, 255#8, 5#8, 127#7, 7#3, ready, uniformReady_of (by decide +kernel), uniformReady_of (by decide +kernel),
    by decide +kernel, by decide +kernel, by decide, uniformReady_of (by decide +kernel), uniformReady_of (by decide +kernel)⟩

/-! ## Control -/

theorem witness_BranchesMoveTheirLanes : ∃ (a : BitVec 8) (s : State), s.LaneReady s.cur.run false {} ∧
    s.UniformReady {} ∧ s.LaneReady s.cur.run false (destNames 0#7 2) ∧ s.UniformReady { k := [a.toNat] } ∧
    s.cur.words = 1 :=
  ⟨5#8, ready, laneReady_of (by decide +kernel), uniformReady_of (by decide +kernel), laneReady_of (by decide +kernel),
    uniformReady_of (by decide +kernel), rfl⟩

/-- Lanes with an aligned canonical, a misaligned, and an aligned address that is not canonical. -/
def targets : State := base.updCrew fun c =>
  ((((c.setV 2 0 0x40000#32).setV 3 0 0#32).setV 2 1 0x40002#32).setV 2 2 0x40000#32).setV 3 2 0x00080000#32

theorem witness_IndirectBranchesCheckTheirTargets : ∃ (a : Src) (s : State),
    s.LaneReady s.cur.run false (srcNames a 2) ∧ (∀ l ∈ lanesOf s.cur.run, (s.crew.lane l).inHandler = false) ∧
    ((s.crew.srcPair a 0).toNat % 4 = 0 ∧ canonical (s.crew.srcPair a 0) = true) ∧ (s.crew.srcPair a 1).toNat % 4 ≠ 0 ∧
    ((s.crew.srcPair a 2).toNat % 4 = 0 ∧ canonical (s.crew.srcPair a 2) = false) :=
  ⟨.v 2#7, targets, laneReady_of (by decide +kernel), by decide +kernel, by decide +kernel, by decide +kernel,
    by decide +kernel⟩

/-- Two lanes: lane 0 calls a function whose budget word fits, lane 1 one whose word before it is no budget word. -/
def callers : State :=
  let s := base.updCrew fun c => (c.setV 2 0 0x40004#32).setV 2 1 0x40008#32
  { s with cur := { s.cur with run := 3#32 }, mem := writeBytes s.mem 0x40000 (w32Bytes 0x0000FFC0#32) }

theorem witness_CallxChecksTheBudgetWord : ∃ (d : BitVec 7) (a : Src) (pa : Nat → Nat) (tr : Nat → Treat) (w : Nat → W32)
    (s : State), s.LaneReady s.cur.run false ((srcNames a 2).add (destNames d 2)) ∧ (s.coreSt s.crew.core).oldCode = [] ∧
    (∀ l ∈ lanesOf s.cur.run, (s.crew.lane l).inHandler = false ∧ (s.crew.srcPair a l).toNat % 4 = 0 ∧
      canonical (s.crew.srcPair a l) = true ∧
      s.Translates (((s.crew.srcPair a l).setWidth 52 : Addr) - 4#52).toNat (some .fetch) (pa l) (tr l) ∧
      s.homeRead (tr l) (pa l) 4 = w32Bytes (w l)) ∧
    (∃ v k, budgetWord? (w 0) = some (v, k) ∧ v ≤ s.team.vBudget ∧ k ≤ s.team.kBudget) ∧ budgetWord? (w 1) = none := by
  have runs : lanesOf callers.cur.run = [0, 1] := by decide +kernel
  refine ⟨8#7, .v 2#7, fun l => if l = 0 then 0x40000 else 0x40004, fun _ => .u,
    fun l => if l = 0 then 0x0000FFC0#32 else 0#32, callers, laneReady_of (by decide +kernel), by decide +kernel, ?_,
    ⟨128, 512, by decide +kernel⟩, by decide +kernel⟩
  rw [runs]
  intro l hl
  rcases List.mem_cons.mp hl with rfl | hl
  · exact ⟨by decide +kernel, by decide +kernel, by decide +kernel, translates_of (by decide +kernel), by decide +kernel⟩
  · obtain rfl := List.mem_singleton.mp hl
    exact ⟨by decide +kernel, by decide +kernel, by decide +kernel, translates_of (by decide +kernel), by decide +kernel⟩

/-- Two lanes run; the others stand 4 bytes lower. -/
def ahead : State :=
  let s := base.updCrew fun c => c.updLanes 0xFFFFFFFC#32 fun _ x => { x with pc := 0x2FFFC#52 }
  { s with cur := { s.cur with run := 3#32 } }

theorem witness_JoinHoldsUntilNoLaneIsBehind :
    (∃ s : State, s.LaneReady s.cur.run false {} ∧ s.crew.holds = [] ∧
      (∀ l, l < 32 → (s.crew.lane l).counts = true → ¬((s.crew.lane l).place < s.cur.pc)) ∧
      ∃ l ∈ lanesOf s.cur.run, (s.crew.lane l).counts = true) ∧
    ∃ s : State, s.LaneReady s.cur.run false {} ∧ s.crew.holds = [] ∧
      ∃ l, l < 32 ∧ l ∉ lanesOf s.cur.run ∧ (s.crew.lane l).counts = true ∧ (s.crew.lane l).st ≠ .held ∧
        (s.crew.lane l).place < s.cur.pc :=
  ⟨⟨base, laneReady_of (by decide +kernel), by decide +kernel, by decide +kernel, 0, by decide +kernel⟩,
    ⟨ahead, laneReady_of (by decide +kernel), by decide +kernel, 31, by decide +kernel⟩⟩

theorem witness_ExitEndsTheLanesOfTheRun : ∃ s : State, s.LaneReady s.cur.run false {} ∧ s.crew.holds = [] ∧
    s.crew.episode = none ∧ (∀ x ∈ s.team.crews, x.regroupHold = none) ∧
    ∃ l, l < 32 ∧ l ∉ lanesOf s.cur.run ∧ (s.crew.lane l).st ≠ .held :=
  ⟨ahead, laneReady_of (by decide +kernel), by decide +kernel, by decide +kernel, by decide +kernel, 31, by decide +kernel⟩

theorem witness_ConvergentUnitsActOnTheMemberSet : ∃ (i : Instr) (x : ConvForm) (s : State), convForm i = some x ∧
    (let members := s.crew.lanesWhere Lane.counts &&& (s.crew.mreg x.p.mask.toNat ^^^ (if x.p.inv then 0xFFFFFFFF#32 else 0#32))
     s.LaneReady (s.cur.run &&& members) x.p.zeroing (x.reads.add (destNames x.d 1)) ∧ s.cur.run &&& members = members) ∧
    s.crew.holds = [] ∧ (∀ l, l < 32 → (s.crew.lane l).inHandler = false) ∧ ∀ x ∈ s.team.crews, x.regroupHold = none :=
  ⟨.shflDn { Prefix.zero with mask := 1#3, inv := true, zeroing := true } 127#7 (.v 0#7) (.k 5#7), _, ready, rfl,
    ⟨laneReady_of (by decide +kernel), by decide +kernel⟩, by decide +kernel, by decide +kernel, by decide +kernel⟩

/-- One crew of two keys: odd and even lanes; lanes 30 and 31 have exited. -/
def keyed : State :=
  let s := base.updCrew fun c => ((((c.setV 1 0 1#32).setV 1 2 17#32).setV 1 29 15#32).updLanes 0xC0000000#32
    fun _ x => { x with st := .exited })
  { s with cur := { s.cur with run := 0x3FFFFFFF#32 } }

/-- Five crews, of which crews 0 and 4 share a partition and name each other in their regroup masks; crew 4 as `f` makes it. -/
def grouped (f : Crew → Crew) : State := base.updTeam fun t =>
  let crew (i : Nat) : Crew := { (t.crews.getD 0 Crew.missing) with idx := i, partn := i % 4, slot := i / 4, rgx := 3#8 }
  { t with ncrews := 5, crews := [crew 0, crew 1, crew 2, crew 3, f (crew 4)] }

/-- A crew that stands at a REGROUP with key v1 and destination v3. -/
def atRegroup (c : Crew) : Crew := { c.updLanes 0xFFFFFFFF#32 (fun _ x => { x with st := .held }) with
  holds := [{ pc := 0x30000#52, kind := .regroup 3#7 (.v 1#7) true }] }

/-- What REGROUP asks for, but for the crews its mask names: as a proposition the kernel evaluates, and as the statement has it. -/
def regroupNamed (s : State) : List Crew := ((s.team.group s.cur.crew).filter fun e => s.crew.rgx.getLsbD e.1).map Prod.snd
def mayRegroup (s : State) : Prop := s.cur.run = s.crew.lanesWhere Lane.counts ∧ (∀ l ∈ lanesOf s.cur.run, (s.crew.lane l).inHandler = false) ∧
  s.loadsOut s.cur.run = false ∧ s.crew.holds = [] ∧ s.team.crews.map Crew.idx = List.range s.team.crews.length ∧
  s.crew.rgx.getLsbD (s.team.position s.cur.crew % 8) = true ∧
  ∀ x ∈ s.team.crews, x.regroupHold ≠ none → x ∈ regroupNamed s ∧ x.rgx = s.crew.rgx

/-- The crews of a list stand in the order of their numbers. -/
theorem indexed_of {cs : List Crew} (h : cs.map Crew.idx = List.range cs.length) (j : Nat) (x : Crew) (hx : cs[j]? = some x) : x.idx = j := by
  have e := congrArg (fun l : List Nat => l[j]?) h
  obtain ⟨hj, -⟩ := List.getElem?_eq_some_iff.mp hx
  simpa [hx, List.getElem?_range hj] using e

/-- The key registers of the named crews that stand at a REGROUP may be read. -/
def keysReady (s : State) : Bool := (regroupNamed s).all fun x =>
  match x.regroupHold with | some h => s.kReady s.cur.team x (srcNames h.2.2 1).k | none => true

theorem keysReady_of {s : State} (h : keysReady s = true) (x : Crew) (hx : x ∈ regroupNamed s) (y : Hold × BitVec 7 × Src)
    (e : x.regroupHold = some y) : s.kReady s.cur.team x (srcNames y.2.2 1).k = true := by
  have := List.all_eq_true.mp h x hx
  rw [e] at this
  exact this

theorem witness_RegroupDealsThreadsByKey :
    (∀ s ∈ [keyed, grouped id, grouped atRegroup], ∃ (d : BitVec 7) (a : Src),
      s.LaneReady s.cur.run false ((srcNames a 1).add (destNames d 1)) ∧ mayRegroup s ∧
      (∀ x ∈ regroupNamed s, ∀ h, x.regroupHold = some h → s.kReady s.cur.team x (srcNames h.2.2 1).k = true) ∧
      ∀ (j : Nat) (x : Crew), s.team.crews[j]? = some x → x.idx = j) ∧
    (∃ x : Crew, x ∈ regroupNamed (grouped id) ∧ x.idx ≠ (grouped id).cur.crew ∧ x.retired = false ∧ x.regroupHold = none) ∧
    ∀ s ∈ [keyed, grouped atRegroup], ∀ x : Crew, x ∈ regroupNamed s → x.idx = s.cur.crew ∨ x.retired = true ∨ x.regroupHold ≠ none := by
  refine ⟨?_, ⟨(grouped id).team.crews.getD 4 Crew.missing, by decide +kernel⟩, ?_⟩
  · intro s hs
    simp only [List.mem_cons, List.not_mem_nil, or_false] at hs
    rcases hs with rfl | rfl | rfl <;>
      exact ⟨127#7, .v 1#7, laneReady_of (by decide +kernel), by unfold mayRegroup; decide +kernel, keysReady_of (s := _) (by decide +kernel),
        indexed_of (by decide +kernel)⟩
  · intro s hs
    simp only [List.mem_cons, List.not_mem_nil, or_false] at hs
    rcases hs with rfl | rfl <;> decide +kernel

/-- A team of two crews, the second a copy of the first; the same on a twin. -/
def pair : State := base.updTeam fun t =>
  { t with ncrews := 2, crews := t.crews ++ t.crews.map fun c => { c with idx := 1, slot := 1 } }
def twinned (s : State) : State := s.updTeam fun t => { t with follower := some 1 }

/-- k6 holds 2, more than the crews of the base team. -/
def counting (s : State) : State := s.updCrew fun c => c.setK 6 2#32

/-- A team whose barrier 15 has completed a phase after the crew's arrival on it. -/
def passed : State :=
  (base.updTeam fun t => { t with bars := updateAt (fun b => { b with phase := 1 }) 15 t.bars }).updCrew fun c =>
    { c with arrivals := [(15, 0)] }

theorem witness_BarriersCountArrivals :
    (∃ (b : BitVec 8) (s : State), s.UniformReady { k := [b.toNat] } ∧ s.team.ncrews < (s.crew.kreg b.toNat).toNat ∧
      ∀ l ∈ lanesOf s.cur.run, (s.crew.lane l).inHandler = false) ∧
    (∃ (b : BitVec 8) (s : State), s.UniformReady { k := [b.toNat] } ∧ (s.crew.kreg b.toNat).toNat ≤ s.team.ncrews ∧ s.settledReqs true s.runReqs = false) ∧
    (∀ f ∈ [id, twinned], ∃ (bar : BitVec 4) (b : BitVec 8), (f base).UniformReady { k := [b.toNat] } ∧
      ((f base).crew.kreg b.toNat).toNat ≤ (f base).team.ncrews ∧ (f base).settledReqs true (f base).runReqs = true ∧ bar.toNat < (f base).team.bars.length ∧
      (arrived ((f base).team.bars.getD bar.toNat {}) ((f base).crew.kreg b.toNat).toNat (f base).team.staying).phase ≠
        ((f base).team.bars.getD bar.toNat {}).phase) ∧
    (∀ f ∈ [id, twinned], ∃ (bar : BitVec 4) (b : BitVec 8), (f pair).UniformReady { k := [b.toNat] } ∧
      ((f pair).crew.kreg b.toNat).toNat ≤ (f pair).team.ncrews ∧ (f pair).settledReqs true (f pair).runReqs = true ∧ bar.toNat < (f pair).team.bars.length ∧
      (arrived ((f pair).team.bars.getD bar.toNat {}) ((f pair).crew.kreg b.toNat).toNat (f pair).team.staying).phase =
        ((f pair).team.bars.getD bar.toNat {}).phase) ∧
    ∀ f ∈ [id, twinned], (∃ bar : BitVec 4, (f passed).UniformReady {} ∧
      ((f passed).crew.arrival bar.toNat).getD ((f passed).team.bars.getD bar.toNat {}).phase < ((f passed).team.bars.getD bar.toNat {}).phase) ∧
    ∃ bar : BitVec 4, (f passed).UniformReady {} ∧
      ¬(((f passed).crew.arrival bar.toNat).getD ((f passed).team.bars.getD bar.toNat {}).phase < ((f passed).team.bars.getD bar.toNat {}).phase) := by
  refine ⟨⟨6#8, counting base, uniformReady_of (by decide +kernel), by decide +kernel, by decide +kernel⟩,
    ⟨0#8, outstanding [request .store], uniformReady_of (by decide +kernel), by decide +kernel, by decide +kernel⟩, ?_, ?_, ?_⟩ <;>
  (intro f hf; simp only [List.mem_cons, List.not_mem_nil, or_false] at hf; rcases hf with rfl | rfl)
  · exact ⟨15#4, 0#8, uniformReady_of (by decide +kernel), by decide +kernel⟩
  · exact ⟨15#4, 0#8, uniformReady_of (by decide +kernel), by decide +kernel⟩
  · exact ⟨15#4, 0#8, uniformReady_of (by decide +kernel), by decide +kernel⟩
  · exact ⟨15#4, 0#8, uniformReady_of (by decide +kernel), by decide +kernel⟩
  · exact ⟨⟨15#4, uniformReady_of (by decide +kernel), by decide +kernel⟩, ⟨0#4, uniformReady_of (by decide +kernel), by decide +kernel⟩⟩
  · exact ⟨⟨15#4, uniformReady_of (by decide +kernel), by decide +kernel⟩, ⟨0#4, uniformReady_of (by decide +kernel), by decide +kernel⟩⟩

theorem witness_SpecialRegistersAreRead : ∃ (p : Prefix) (d : BitVec 7) (q : BitVec 8) (s : State),
    (∀ x, s.launch? s.team.launch = some x → x.recording = false ∧ x.replaying = false) ∧
    s.LaneReady (s.activeLanes p) p.zeroing (destNames d 1) ∧ s.UniformReady { k := [q.toNat] } := by
  refine ⟨masked, 127#7, 255#8, ready, ?_, laneReady_of (by decide +kernel), uniformReady_of (by decide +kernel)⟩
  have one : ready.launch? ready.team.launch = some probeLaunch := by decide +kernel
  intro x h
  rw [one] at h
  cases h
  exact ⟨rfl, rfl⟩

/-- k6 names the crew itself, and k7 has a bit above bit 7. -/
def regroupMasks : State := base.updCrew fun c => (c.setK 6 1#32).setK 7 0x101#32

/-- RGX.SET's mask is accepted, or not. -/
def rgxOk (s : State) (x : W32) : Prop := x.toNat < 256 ∧ x.getLsbD (s.team.position s.cur.crew % 8) = true ∧
  ∀ i, i < 8 → x.getLsbD i = true → ∃ e ∈ s.team.group s.cur.crew, e.1 = i

theorem witness_YieldRegroupMaskAndSleep : ∃ (a b : BitVec 8) (s : State), s.UniformReady {} ∧
    (s.UniformReady { k := [a.toNat] } ∧ rgxOk s (s.crew.kreg a.toNat)) ∧
    (s.UniformReady { k := [b.toNat] } ∧ ¬rgxOk s (s.crew.kreg b.toNat)) ∧
    ∀ l ∈ lanesOf s.cur.run, (s.crew.lane l).inHandler = false :=
  ⟨6#8, 7#8, regroupMasks, uniformReady_of (by decide +kernel),
    ⟨uniformReady_of (by decide +kernel), by unfold rgxOk; decide +kernel⟩,
    ⟨uniformReady_of (by decide +kernel), by unfold rgxOk; decide +kernel⟩, by decide +kernel⟩

/-! ## Scratchpad, accumulators, plates -/

/-- Lane l holds 8 l in v1 and l in v2; lanes 0 and 1 run. -/
def spread : State :=
  let s := base.updCrew fun c => (lanesOf 0xFFFFFFFF#32).foldl
    (fun c l => (c.setV 1 l (BitVec.ofNat 32 (8 * l))).setV 2 l (BitVec.ofNat 32 l)) c
  { s with cur := { s.cur with run := 3#32 } }

theorem near_of {s : State} {r : Req} (h : (hasCrewB s r.team r.crew &&
    decide (s.req? r.id = some r ∧ s.reqReady r = true ∧ ∀ g ∈ (s.teamOf r).rings, g.spoilt = [])) = true) :
    NearRequest s r := by
  simp only [Bool.and_eq_true, decide_eq_true_eq] at h
  exact ⟨h.2.1, h.2.2.1, hasCrew_of h.1, h.2.2.2⟩

/-- A scratchpad access of lane 31 at the allocation's last word, and an accumulator access to the last entry of row 63. -/
def spadAccess (kind : ReqKind) : Req := { request kind with lane := 31, thread := some 31, pa := 65532 }
def accAccess (kind : ReqKind) : Req := { request kind with lane := 31, thread := some 31, pa := 512 * 63 + 511, size := 1 }

/-- The lane of an access is still that of the thread that made it. -/
def sameLane (s : State) (r : Req) : Prop := r.lane < 32 ∧ ((s.crewOf r.team r.crew).lane r.lane).live = true ∧
  r.thread = some ((s.crewOf r.team r.crew).lane r.lane).tid

theorem witness_ScratchpadLoadsReadTheAllocation :
    (∀ i ∈ [Instr.lds masked true 127#7 (.v 127#7) .b8 63#6, .ldsQ .zero 124#7 (.k 0#7) 0#6], ∃ (x : SpadForm) (s : State),
      spadForm i = some x ∧ (∃ sx, x.kind = .spadLoad sx) ∧
      s.LaneReady (s.activeLanes x.p) x.p.zeroing ((srcNames x.a 1).add (destNames x.d x.named))) ∧
    ∃ (r : Req) (s : State), NearRequest s r ∧ r.kind = .spadLoad true ∧ sameLane s r ∧ r.size ≤ 4 ∧ r.regs = 1 := by
  refine ⟨?_, ⟨spadAccess (.spadLoad true), outstanding [spadAccess (.spadLoad true)], near_of (by decide +kernel), rfl,
    by unfold sameLane; decide +kernel, by decide, rfl⟩⟩
  intro i hi
  simp only [List.mem_cons, List.not_mem_nil, or_false] at hi
  rcases hi with rfl | rfl <;> exact ⟨_, ready, rfl, ⟨_, rfl⟩, laneReady_of (by decide +kernel)⟩

theorem witness_ScratchpadStoresWriteTheAllocation :
    (∀ i ∈ [Instr.sts masked 126#7 (.v 127#7) .b64 63#6, .stsQ .zero 124#7 (.k 0#7) 0#6], ∃ (x : SpadForm) (s : State),
      spadForm i = some x ∧ x.kind = .spadStore ∧
      s.LaneReady (s.activeLanes x.p) x.p.zeroing ((srcNames x.a 1).add (destNames x.d x.named))) ∧
    ∃ (r : Req) (s : State), NearRequest s r ∧ r.kind = .spadStore ∧ r.pa + r.data.length = s.team.spadBytes := by
  refine ⟨?_, ⟨spadAccess .spadStore, outstanding [spadAccess .spadStore], near_of (by decide +kernel), rfl, by decide +kernel⟩⟩
  intro i hi
  simp only [List.mem_cons, List.not_mem_nil, or_false] at hi
  rcases hi with rfl | rfl <;> exact ⟨_, ready, rfl, rfl, laneReady_of (by decide +kernel)⟩

theorem witness_ScratchpadAtomicsReadModifyWrite :
    (∀ i ∈ [Instr.atoms { masked with c := 11#8 } 127#7 (.v 127#7) .b32 63#6, .atomsCas .zero 124#7 (.k 0#7) .b64 0#6],
      ∃ (x : SpadForm) (s : State), spadForm i = some x ∧ ((∃ code, x.kind = .spadAtom code) ∨ x.kind = .spadCas) ∧
      s.LaneReady (s.activeLanes x.p) x.p.zeroing ((srcNames x.a 1).add (destNames x.d x.named))) ∧
    ∀ kind ∈ [ReqKind.spadAtom 0#8, .spadAtom 11#8, .spadCas], let r := spadAccess kind
      NearRequest (outstanding [r]) r ∧ sameLane (outstanding [r]) r ∧ r.size = 4 * r.regs ∧ r.size = 4 ∧ r.data.length = r.size := by
  constructor
  · intro i hi
    simp only [List.mem_cons, List.not_mem_nil, or_false] at hi
    rcases hi with rfl | rfl
    · exact ⟨_, ready, rfl, .inl ⟨_, rfl⟩, laneReady_of (by decide +kernel)⟩
    · exact ⟨_, ready, rfl, .inr rfl, laneReady_of (by decide +kernel)⟩
  · intro kind hk
    simp only [List.mem_cons, List.not_mem_nil, or_false] at hk
    rcases hk with rfl | rfl | rfl <;>
      exact ⟨near_of (by decide +kernel), by unfold sameLane; decide +kernel, rfl, rfl, rfl⟩

/-- Lane 1 names row 64, the first past its crew's window; lane 0 row 0. -/
def straying : State := spread.updCrew fun c => c.setV 1 1 0x8000#32

theorem witness_DirectAccumulatorUnits :
    (∀ s ∈ [spread, straying], ∀ i ∈ [Instr.accRd .zero true 3#7 (.v 1#7), .accWr .zero 127#7 (.v 1#7), .accAdd .zero 0#7 (.v 1#7)],
      ∃ x : AccForm, accForm i = some x ∧ s.LaneReady (s.activeLanes x.p) x.p.zeroing ((srcNames x.a 1).add (destNames x.d 1)) ∧
        ∀ q ∈ lanesOf s.cur.run, (s.crew.lane q).inHandler = false) ∧
    (∀ kind ∈ [ReqKind.accRd false, .accRd true, .accWr, .accAdd], let r := accAccess kind
      NearRequest (outstanding [r]) r ∧ r.owned = [] ∧ (∀ row, (outstanding [r]).owners r.team r.core row = []) ∧
      sameLane (outstanding [r]) r ∧ r.size = 1 ∧ r.regs = 1 ∧ r.data.length = 4) ∧
    ∃ (r : Req) (s : State), NearRequest s r ∧ r.owned = [] ∧ (∀ row, s.owners r.team r.core row = []) ∧ r.kind = .accClr ∧
      r.pa % 512 = 0 ∧ r.size = 1024 := by
  have free (rs : List Req) (a b row : Nat) : (outstanding rs).owners a b row = [] := by
    have : (outstanding rs).ctx.cmds = [] := rfl
    simp [State.owners, this]
  refine ⟨?_, ?_, ⟨{ request .accClr with pa := 512 * 62, size := 1024 }, outstanding [{ request .accClr with pa := 512 * 62, size := 1024 }],
    near_of (by decide +kernel), rfl, free _ _ _, rfl, by decide, rfl⟩⟩
  · intro s hs i hi
    simp only [List.mem_cons, List.not_mem_nil, or_false] at hs hi
    rcases hs with rfl | rfl <;> rcases hi with rfl | rfl | rfl <;> exact ⟨_, rfl, laneReady_of (by decide +kernel), by decide +kernel⟩
  · intro kind hk
    simp only [List.mem_cons, List.not_mem_nil, or_false] at hk
    rcases hk with rfl | rfl | rfl | rfl <;>
      exact ⟨near_of (by decide +kernel), rfl, free _ _ _, by unfold sameLane; decide +kernel, rfl, rfl, rfl⟩

/-- k6 holds 64, the team's row count, and k7 holds 65. -/
def rowNumbers : State := base.updCrew fun c => (c.setK 6 64#32).setK 7 65#32

theorem witness_AccumulatorWindowsAndClears : ∃ (d a b bad : BitVec 8) (s : State),
    (∀ l ∈ lanesOf s.cur.run, (s.crew.lane l).inHandler = false) ∧
    s.UniformReady { k := [d.toNat, a.toNat, b.toNat] } ∧ s.UniformReady { k := [d.toNat, a.toNat, bad.toNat] } ∧
    (s.cur.crew = 0 ∧ (s.crew.kreg d.toNat).toNat < s.team.ncrews ∧
      (s.crew.kreg a.toNat).toNat ≤ (s.crew.kreg b.toNat).toNat ∧ (s.crew.kreg b.toNat).toNat ≤ s.team.accRows) ∧
    s.hasCrew s.cur.team (s.crew.kreg d.toNat).toNat ∧ (∀ (j : Nat) (x : Crew), s.team.crews[j]? = some x → x.idx = j) ∧
    ¬((s.crew.kreg bad.toNat).toNat ≤ s.team.accRows) ∧
    s.UniformReady { k := [a.toNat, b.toNat] } ∧ s.UniformReady { k := [a.toNat, bad.toNat] } ∧ (s.crew.kreg b.toNat).toNat ≠ 0 ∧
    (s.crew.window.1 ≤ (s.crew.kreg a.toNat).toNat ∧
      (s.crew.kreg a.toNat).toNat + (s.crew.kreg b.toNat).toNat ≤ s.crew.window.2) ∧
    ¬((s.crew.kreg bad.toNat).toNat = 0 ∨ s.crew.window.1 ≤ (s.crew.kreg a.toNat).toNat ∧
      (s.crew.kreg a.toNat).toNat + (s.crew.kreg bad.toNat).toNat ≤ s.crew.window.2) :=
  ⟨0#8, 0#8, 6#8, 7#8, rowNumbers, by decide +kernel, uniformReady_of (by decide +kernel), uniformReady_of (by decide +kernel),
    by decide +kernel, hasCrew_of (by decide +kernel), indexed_of (by decide +kernel), by decide +kernel, uniformReady_of (by decide +kernel),
    uniformReady_of (by decide +kernel), by decide +kernel, by decide +kernel, by decide +kernel⟩

theorem witness_PlatesAreMappedAndUnmapped : ∃ (d b : BitVec 8) (pl : BitVec 3) (s : State),
    s.UniformReady { k := [d.toNat, b.toNat] } ∧ pl.toNat < s.team.plates.length ∧
    (∀ (j : Nat) (x : Crew), s.team.crews[j]? = some x → x.idx = j) ∧ s.UniformReady {} ∧
    s.waitDone s.team s.crew (.plate pl.toNat) = true ∧ s.UniformReady { k := [d.toNat] } :=
  ⟨255#8, 0#8, 7#3, base, uniformReady_of (by decide +kernel), by decide +kernel, indexed_of (by decide +kernel),
    uniformReady_of (by decide +kernel), by decide +kernel, uniformReady_of (by decide +kernel)⟩

/-! ## Global memory -/

/-- Lanes 0 and 1 run; v2 and v3 of them hold 0x40000 and 0x40040. -/
def addressed : State :=
  let s := base.updCrew fun c => (c.setV 2 0 0x40000#32).setV 2 1 0x40040#32
  { s with cur := { s.cur with run := 3#32 } }

theorem witness_GlobalUnitsIssueTheirRequests : ∃ (i : Instr) (x : GlobalForm) (pa : Nat → Nat) (tr : Nat → Treat)
    (s : State), globalForm i = some x ∧
    s.LaneReady (s.activeLanes x.p) x.p.zeroing ((srcNames x.a 2).add (destNames x.d x.named)) ∧ s.MayIssue ∧
    ∀ l ∈ lanesOf (s.activeLanes x.p), canonical (x.addr s.crew l) = true ∧ (x.addr s.crew l).toNat % x.size = 0 ∧
      s.Translates ((x.addr s.crew l).toNat % 2 ^ 52) (some x.acc) (pa l) (tr l) ∧ s.reachable (pa l) := by
  have runs : lanesOf (addressed.activeLanes .zero) = [0, 1] := by decide +kernel
  refine ⟨.atomCas .zero 124#7 (.v 2#7) .b64 63#6, _, fun l => 0x401F8 + 64 * l, fun _ => .u, addressed, rfl,
    laneReady_of (by decide +kernel), mayIssue_of (by decide +kernel), ?_⟩
  simp only
  rw [runs]
  intro l hl
  rcases List.mem_cons.mp hl with rfl | hl
  · exact ⟨by decide +kernel, by decide +kernel, translates_of (by decide +kernel), reachable_of (by decide +kernel)⟩
  · obtain rfl := List.mem_singleton.mp hl
    exact ⟨by decide +kernel, by decide +kernel, translates_of (by decide +kernel), reachable_of (by decide +kernel)⟩

/-- Lane 0 runs with the first address past the page table's; of the lanes `run` of `astray`, lane 0 has a mapped address, lane 1 a misaligned
one, and lane 2 one that is not canonical. -/
def unmapped : State :=
  let s := base.updCrew fun c => c.setV 2 0 0x40000000#32
  { s with cur := { s.cur with run := 1#32 } }
def astray (run : W32) : State :=
  let s := base.updCrew fun c => (((c.setV 2 0 0x40000#32).setV 2 1 0x40004#32).setV 2 2 0x40000#32).setV 3 2 0x00080000#32
  { s with cur := { s.cur with run := run } }

theorem witness_GlobalAccessesParkWithTheirCause :
    (∃ (i : Instr) (x : GlobalForm) (s : State), globalForm i = some x ∧
      s.LaneReady (s.activeLanes x.p) x.p.zeroing ((srcNames x.a 2).add (destNames x.d x.named)) ∧ s.MayIssue ∧
      (∀ l ∈ lanesOf s.cur.run, (s.crew.lane l).inHandler = false) ∧ lanesOf (s.activeLanes x.p) = [1, 2] ∧
      (canonical (x.addr s.crew 1) = true ∧ (x.addr s.crew 1).toNat % x.size ≠ 0) ∧ canonical (x.addr s.crew 2) = false) ∧
    (∃ (i : Instr) (x : GlobalForm) (q pa : Nat) (tr : Treat) (s : State), globalForm i = some x ∧
      s.LaneReady (s.activeLanes x.p) x.p.zeroing ((srcNames x.a 2).add (destNames x.d x.named)) ∧ s.MayIssue ∧
      (∀ l ∈ lanesOf s.cur.run, (s.crew.lane l).inHandler = false) ∧ lanesOf (s.activeLanes x.p) = [0, 1, 2] ∧
      q ∈ lanesOf (s.activeLanes x.p) ∧ (canonical (x.addr s.crew q) = true ∧ (x.addr s.crew q).toNat % x.size = 0) ∧
      s.Translates ((x.addr s.crew q).toNat % 2 ^ 52) (some x.acc) pa tr ∧ s.reachable pa ∧
      (canonical (x.addr s.crew 1) = true ∧ (x.addr s.crew 1).toNat % x.size ≠ 0) ∧ canonical (x.addr s.crew 2) = false) ∧
    ∃ (i : Instr) (x : GlobalForm) (l : Nat) (c : Cause) (s : State), globalForm i = some x ∧
      s.LaneReady (s.activeLanes x.p) x.p.zeroing ((srcNames x.a 2).add (destNames x.d x.named)) ∧ s.MayIssue ∧
      (∀ l ∈ lanesOf s.cur.run, (s.crew.lane l).inHandler = false) ∧ lanesOf (s.activeLanes x.p) = [l] ∧
      canonical (x.addr s.crew l) = true ∧ (x.addr s.crew l).toNat % x.size = 0 ∧
      (∀ k ∈ s.ctx.tlb, k.page ≠ (x.addr s.crew l).toNat % 2 ^ 52 / 65536) ∧
      (s.walk ((x.addr s.crew l).toNat % 2 ^ 52)).apply ((x.addr s.crew l).toNat % 2 ^ 52) (some x.acc) = .fail c :=
  ⟨⟨.ldQ .zero 4#7 (.v 2#7) 0#6, _, astray 6#32, rfl, laneReady_of (by decide +kernel), mayIssue_of (by decide +kernel),
      by decide +kernel, by decide +kernel, by decide +kernel, by decide +kernel⟩,
    ⟨.ldQ .zero 4#7 (.v 2#7) 0#6, _, 0, 0x40000, .u, astray 7#32, rfl, laneReady_of (by decide +kernel), mayIssue_of (by decide +kernel),
      by decide +kernel, by decide +kernel, by decide +kernel, by decide +kernel, translates_of (by decide +kernel),
      reachable_of (by decide +kernel), by decide +kernel, by decide +kernel⟩,
    ⟨.st .zero 4#7 (.v 2#7) .b8 0#6, _, 0, .xlate, unmapped, rfl, laneReady_of (by decide +kernel),
      mayIssue_of (by decide +kernel), by decide +kernel, by decide +kernel, by decide +kernel, by decide +kernel,
      by decide +kernel, by decide +kernel⟩⟩

/-- k6 and k7 hold 0x40000, k8 and k9 0x40002, k10 and k11 an address that is not canonical. -/
def uniformAddresses : State := base.updCrew fun c =>
  (((c.setK 6 0x40000#32).setK 8 0x40002#32).setK 10 0x40000#32).setK 11 0x00080000#32

theorem witness_UniformLoadsAndPrefetch :
    (∃ (d a b : BitVec 8) (pa : Nat) (tr : Treat) (s : State), s.UniformReady { k := [d.toNat, a.toNat, a.toNat + 1] } ∧
      s.MayIssue ∧
      let x := (s.crew.kreg (a.toNat + 1) ++ s.crew.kreg a.toNat) + BitVec.ofNat 64 (4 * b.toNat)
      canonical x = true ∧ x.toNat % 4 = 0 ∧ s.Translates (x.toNat % 2 ^ 52) (some .load) pa tr ∧ s.reachable pa) ∧
    (∃ (d a b : BitVec 8) (s : State), s.UniformReady { k := [d.toNat, a.toNat, a.toNat + 1] } ∧ s.MayIssue ∧
      (∀ l ∈ lanesOf s.cur.run, (s.crew.lane l).inHandler = false) ∧
      let x := (s.crew.kreg (a.toNat + 1) ++ s.crew.kreg a.toNat) + BitVec.ofNat 64 (4 * b.toNat)
      canonical x = true ∧ x.toNat % 4 ≠ 0) ∧
    (∃ (d a b : BitVec 8) (s : State), s.UniformReady { k := [d.toNat, a.toNat, a.toNat + 1] } ∧ s.MayIssue ∧
      (∀ l ∈ lanesOf s.cur.run, (s.crew.lane l).inHandler = false) ∧
      let x := (s.crew.kreg (a.toNat + 1) ++ s.crew.kreg a.toNat) + BitVec.ofNat 64 (4 * b.toNat)
      canonical x = false) ∧
    ∃ (p : Prefix) (a : Src) (s : State), s.LaneReady (s.activeLanes p) p.zeroing (srcNames a 2) :=
  ⟨⟨255#8, 6#8, 255#8, 0x403FC, .u, uniformAddresses, uniformReady_of (by decide +kernel), mayIssue_of (by decide +kernel),
      by decide +kernel, by decide +kernel, translates_of (by decide +kernel), reachable_of (by decide +kernel)⟩,
    ⟨255#8, 8#8, 255#8, uniformAddresses, uniformReady_of (by decide +kernel), mayIssue_of (by decide +kernel),
      by decide +kernel, by decide +kernel⟩,
    ⟨255#8, 10#8, 0#8, uniformAddresses, uniformReady_of (by decide +kernel), mayIssue_of (by decide +kernel),
      by decide +kernel, by decide +kernel⟩,
    ⟨.zero, .v 126#7, ready, laneReady_of (by decide +kernel)⟩⟩

theorem plain_of {s : State} {r : Req} (h : (hasCrewB s r.team r.crew && decide (s.req? r.id = some r ∧ s.reqReady r = true ∧
    s.leafRegion r.pa = none ∧ r.leaf = false ∧ s.shadowRegion r.pa = none ∧ r.remote = false ∧ r.rel = false ∧ s.ctx.l2host = [] ∧
    ∀ x ∈ s.ctx.launches, x.recording = false ∧ x.replaying = false)) = true) : PlainRequest s r := by
  simp only [Bool.and_eq_true, decide_eq_true_eq] at h
  obtain ⟨c, a1, a2, a3, a4, a5, a6, a7, a8, a9⟩ := h
  exact ⟨a1, a2, a3, a4, a5, a6, a7, a8, hasCrew_of c, a9⟩

/-- The two halves of a 16-byte load of the last lane, the second as `f` makes it; and a load of a bad line. -/
def firstHalf : Req :=
  { request (.load false) with lane := 31, thread := some 31, size := 8, dest := 124, regs := 2 }
def secondHalf (bound : Option (List Byte)) : Req :=
  { firstHalf with id := 10, pa := 0x40008, dest := 126, bound := bound }
def halves (bound : Option (List Byte)) : State := outstanding [firstHalf, secondHalf bound]
def spoilt : State :=
  { outstanding [request (.load true)] with dev := { (outstanding [request (.load true)]).dev with badLines := [0x1000] } }

theorem witness_RequestsArePerformedAtHome_loads :
    (∃ (r : Req) (s : State), PlainRequest s r ∧ r.treat ≠ .s ∧ lineIn (s.coreSt r.core).l1 (r.pa / 64) = none ∧
      r.kind = .load true ∧ s.badAt r.pa = true) ∧
    (∀ bound ∈ [none, some (List.replicate 8 7#8)], ∃ (r q : Req) (s : State), PlainRequest s r ∧ r.treat ≠ .s ∧
      lineIn (s.coreSt r.core).l1 (r.pa / 64) = none ∧ r.kind = .load false ∧ s.badAt r.pa = false ∧ s.half r = some q ∧
      r.size = 8 ∧ r.size = 4 * r.regs ∧ q.bound = bound ∧ q.failed = none ∧ q.team = r.team ∧ q.crew = r.crew ∧
      q.thread = r.thread ∧ r.lane < 32 ∧ r.dest + r.regs ≤ q.dest) := by
  refine ⟨⟨request (.load true), spoilt, plain_of (by decide +kernel), by decide, by decide +kernel, rfl, by decide +kernel⟩, ?_⟩
  intro bound hb
  simp only [List.mem_cons, List.not_mem_nil, or_false] at hb
  rcases hb with rfl | rfl
  · exact ⟨firstHalf, secondHalf none, halves none, plain_of (by decide +kernel), by decide, by decide +kernel, by decide +kernel⟩
  · exact ⟨firstHalf, secondHalf (some (List.replicate 8 7#8)), halves (some (List.replicate 8 7#8)), plain_of (by decide +kernel),
      by decide, by decide +kernel, by decide +kernel⟩

/-- Each kind of request that may be performed, the first and the last lane, and a uniform one. -/
theorem witness_RequestsArePerformedAtHome : ∀ (kind : ReqKind) (lane : Nat),
    kind ∈ [.load true, .store, .red 11#8, .atom 0#8, .cas, .bitmapOr] → lane ∈ [0, 31, 32] →
    let r : Req := { request kind with lane := lane, thread := if lane = 32 then none else some lane }
    let s := outstanding [r]
    PlainRequest s r ∧ r.treat ≠ .s ∧ lineIn (s.coreSt r.core).l1 (r.pa / 64) = none ∧ s.badAt r.pa = false ∧ s.half r = none ∧
      (((s.crewOf r.team r.crew).lane r.lane).live = true ∧ r.thread = some ((s.crewOf r.team r.crew).lane r.lane).tid ∨ r.lane = 32) ∧
      r.size = 4 * r.regs ∧ r.size = 4 := by
  intro kind lane hk hl
  simp only [List.mem_cons, List.not_mem_nil, or_false] at hk hl
  rcases hk with rfl | rfl | rfl | rfl | rfl | rfl <;> rcases hl with rfl | rfl | rfl <;>
    exact ⟨plain_of (by decide +kernel), by decide, by decide +kernel, by decide +kernel, by decide +kernel, by decide +kernel, rfl, rfl⟩

/-- Core 0's L1 holds the line of address 0x40000 with its first byte dirty. -/
def dirtyLine : Line := { line := 0x1000, data := List.replicate 64 7#8, valid := 1#64, dirty := 1#64 }
def cached (rs : List Req) : State :=
  { outstanding rs with ctx := { (outstanding rs).ctx with coreSts := [{ core := 0, l1 := [dirtyLine], sig := [0x1000] }] } }

theorem witness_SLinesStayUntilWrittenBack :
    (∃ (r : Req) (s : State), PlainRequest s r ∧ r.treat = .s ∧ r.kind = .store ∧ r.data ≠ [] ∧
      r.pa % 64 + r.data.length ≤ 64 ∧ ∀ x ∈ (s.coreSt r.core).l1, x.data.length = 64) ∧
    (∃ (core line : Nat) (s : State), s.noSheet ∧ rangeOf s.part (64 * line) = some .device ∧
      lineIn (s.coreSt core).l1 line = some dirtyLine) ∧
    ∃ (core line : Nat) (s : State), s.noSheet ∧ rangeOf s.part (64 * line) = some .device ∧ lineIn (s.coreSt core).l1 line = none :=
  ⟨⟨{ request .store with treat := .s, pa := 0x4003C }, cached [{ request .store with treat := .s, pa := 0x4003C }],
      plain_of (by decide +kernel), rfl, rfl, by decide, by decide, by decide +kernel⟩,
    ⟨0, 0x1000, cached [], by unfold State.noSheet; decide +kernel, by decide +kernel, by decide +kernel⟩,
    ⟨1, 0x1000, cached [], by unfold State.noSheet; decide +kernel, by decide +kernel, by decide +kernel⟩⟩

/-- A response to command 7 of peer 1 is kept. -/
def answered : State := { base with dev := { base.dev with kept := [{ source := 1, number := 7#32, data := [] }] } }

theorem witness_HostsAndPeersAccessDeviceMemory : ∃ (pa : Nat) (s : State), s.dev.boot = .running ∧ pa < 2 ^ 52 ∧
    pa + 1 ≤ deviceBytes s.part ∧ deviceBytes s.part < (pa + 1) + 1 ∧
    pa + max 1 [1#8].length ≤ deviceBytes s.part ∧ deviceBytes s.part < pa + max 1 [1#8, 2#8].length ∧ 0x100000 ≤ s.dev.window ∧
    (∃ k ∈ s.dev.kept, k.source = 1 ∧ k.number = 7#32) ∧ (∀ k ∈ s.dev.kept, k.source = 1 → k.number ≠ 8#32) :=
  ⟨384 * 2 ^ 30 - 1, answered, by decide +kernel, by decide, by decide +kernel, by decide +kernel, by decide +kernel, by decide +kernel,
    by decide +kernel, by decide +kernel, by decide +kernel⟩

/-- No lane of the context runs a handler. -/
theorem noHandler_of {s : State} (h : (s.ctx.teams.all fun t => t.crews.all fun c => c.lanes.all fun x => !x.inHandler) = true)
    (id i l : Nat) : ((s.crewOf id i).lane l).inHandler = false := by
  simp only [List.all_eq_true, Bool.not_eq_true'] at h
  have lane (c : Crew) (hc : ∀ x ∈ c.lanes, x.inHandler = false) : (c.lane l).inHandler = false := by
    unfold Crew.lane
    rcases Nat.lt_or_ge l c.lanes.length with hl | hl
    · rw [List.getD_eq_getElem?_getD, List.getElem?_eq_getElem hl]; exact hc _ (List.getElem_mem hl)
    · rw [List.getD_eq_getElem?_getD, List.getElem?_eq_none hl]; rfl
  unfold State.crewOf
  cases ht : s.team? id with
  | none => exact lane _ (by simp [Team.missing, Crew.missing])
  | some t =>
    have ht := List.mem_of_find?_eq_some ht
    simp only [Option.getD_some]
    rcases Nat.lt_or_ge i t.crews.length with hi | hi
    · rw [List.getD_eq_getElem?_getD, List.getElem?_eq_getElem hi]; exact lane _ (h t ht _ (List.getElem_mem hi))
    · rw [List.getD_eq_getElem?_getD, List.getElem?_eq_none hi]; exact lane _ (by simp [Crew.missing])

/-- Lane 31 waits at Maelner for the page of address 0x40000000, which is reported. -/
def reported : State :=
  let s := base.updCrew fun c => { c.updLanes 0x80000000#32 (fun _ x =>
    { x with st := .parked, cause := .xlate, saved := 0x30000#52, trapAddr := 0x40000000#64 }) with
      atMaelner := [{ lanes := 0x80000000#32, ulen := 1, uniform := false, stamp := 2 }]
      queue := [{ lanes := 1#32, ulen := 1, uniform := false, stamp := 1 }, { lanes := 2#32, ulen := 1, uniform := true, stamp := 3 }] }
  { s with ctx := { s.ctx with reported := [0x4000] } }

/-- An invalidation asked for, a translation of page 3 kept, and a request outstanding. -/
def invalidating (cmd : Nat) (rs : List Req) : State := { outstanding rs with ctx := { (outstanding rs).ctx with
  xinvCmd := cmd, xinvAt := 0x3FFFF, tlb := [{ page := 3, entry := 0x3E9#64, level := 2 }] } }

theorem witness_TranslationsAreKeptDroppedAndServiced :
    (∃ (va e : W64) (level : Nat) (s : State), s.walk (va.toNat % 2 ^ 52) = .leaf e level ∧
      ∀ k ∈ s.ctx.tlb, k.page ≠ va.toNat % 2 ^ 52 / 65536) ∧
    (∃ s : State, s.ctx.xinvCmd = 1 ∧ s.ctx.tlb ≠ [] ∧
      ∀ r ∈ s.ctx.reqs, (r.kind.near = true ∨ r.size = 0) ∨ r.va.toNat % 2 ^ 52 / 2 ^ 30 ≠ s.ctx.xinvAt / 2 ^ 30) ∧
    (∃ s : State, s.ctx.xinvCmd = 1 ∧
      ∃ r ∈ s.ctx.reqs, ¬(r.kind.near = true ∨ r.size = 0) ∧ r.va.toNat % 2 ^ 52 / 2 ^ 30 = s.ctx.xinvAt / 2 ^ 30) ∧
    (∃ s : State, s.ctx.xinvCmd = 2 ∧ s.ctx.tlb ≠ [] ∧ ∀ r ∈ s.ctx.reqs, r.kind.near = true ∨ r.size = 0) ∧
    ∃ (page : Nat) (s : State), page ∈ s.ctx.reported ∧ (∀ x ∈ s.ctx.launches, s.launchOver x = false) ∧
      (∀ t ∈ s.ctx.teams, t.phase = .running) ∧ (∀ id i l, ((s.crewOf id i).lane l).inHandler = false) ∧
      (∀ x ∈ s.ctx.saved, ∀ c ∈ x.team.crews, ∀ l, (c.lane l).inHandler = false) ∧
      ∃ id i r l, r ∈ (s.crewOf id i).atMaelner ∧ r.lanes.getLsbD l = true ∧ l < 32 ∧
        l < (s.crewOf id i).lanes.length ∧ ((s.crewOf id i).lane l).faultPage = page ∧
        (s.crewOf id i).onPage r page ≠ 0#32 ∧ (s.crewOf id i).queue.Pairwise fun a b => a.stamp ≤ b.stamp :=
  ⟨⟨0x3FFFFFFF#64, 0x3E9#64, 2, base, by decide +kernel, by decide +kernel⟩,
    ⟨invalidating 1 [{ request .store with va := 0x40000000#64 }], by decide +kernel, by decide +kernel, by decide +kernel⟩,
    ⟨invalidating 1 [{ request .store with va := 0x3FFFFFFC#64 }], by decide +kernel, by decide +kernel⟩,
    ⟨invalidating 2 [spadAccess .spadStore], by decide +kernel, by decide +kernel, by decide +kernel⟩,
    ⟨0x4000, reported, by decide +kernel, by decide +kernel, by decide +kernel, noHandler_of (by decide +kernel),
      by intro x hx; exact absurd hx (List.not_mem_nil),
      2, 0, { lanes := 0x80000000#32, ulen := 1, uniform := false, stamp := 2 }, 31, by decide +kernel⟩⟩

/-- Lane 31 waits at a FENCE for request 9; request 12 follows it. -/
def fencing : State := (outstanding [request .store, { request (.load false) with id := 12, lane := 1, thread := some 1, pa := 0x40004 }]).updCrew
  fun c => c.updLanes 0x80000000#32 fun _ x => { x with st := .waiting (.fence [9] 10 .dev true true false) }

/-- An acquire of lane 0 on the scratchpad, and a later access of lane 31 there. -/
def acquiring : State := outstanding [{ request .spadCas with acq := true, scope := .twin }, { spadAccess .spadStore with id := 12 }]

/-- k6 and k7 hold an address of core 0's dirty line, k8 the length of a range that ends with the page. -/
def ranged : State := (cached []).updCrew fun c => (c.setK 6 0x40000#32).setK 8 0x10000#32

theorem witness_EarlierRequestsFencesAndCacheMaintenance :
    (∃ (r : Req) (s : State), s.req? r.id = some r ∧
      ∃ q ∈ earlier r s.ctx.reqs, q.failed = none ∧ q.bound = none ∧ sameThread q r = true ∧ overlap q r = true) ∧
    (∃ (r : Req) (s : State), s.req? r.id = some r ∧ ∃ q ∈ earlier r s.ctx.reqs, q.failed = none ∧ q.bound = none ∧
      sameThread q r = true ∧ overlap q r = false ∧ q.acq = true ∧ q.kind.near = false ∧ q.unit ≠ r.unit) ∧
    (∃ (r : Req) (s : State), s.req? r.id = some r ∧ ∃ q ∈ earlier r s.ctx.reqs, q.failed = none ∧ q.bound = none ∧ q.team = r.team ∧
      q.crew = r.crew ∧ q.kind.spad = true ∧ r.kind.spad = true ∧ q.acq = true ∧ q.scope ≠ .crew ∧ s.coreOnly q = false) ∧
    (∃ (r : Req) (s : State), s.req? r.id = some r ∧ r.kind.near = false ∧ s.hasCrew r.team r.crew ∧ ∃ l, l < 32 ∧
      ∃ ids upto sc a b c, ((s.crewOf r.team r.crew).lane l).st = .waiting (.fence ids upto sc a b c) ∧ upto ≤ r.id) ∧
    (∃ (scope : Scope) (remote : Bool) (order : Order) (s : State), s.ctx.l2host = [] ∧ s.UniformReady {} ∧
      ∀ r ∈ s.ctx.reqs, r.passed = false ∧ (r.id ∈ s.fenceReqs s.cur.team s.cur.crew scope (releases order) →
        releases order = true ∧ scopeNarrow scope = true ∧ r.passable = true)) ∧
    (∃ (scope : Scope) (remote : Bool) (order : Order) (s : State), s.ctx.l2host = [] ∧ s.UniformReady {} ∧
      (s.fenceReqs s.cur.team s.cur.crew scope (releases order) ≠ [] ∧ ∀ r ∈ s.ctx.reqs, r.passed = false ∧
        (r.id ∈ s.fenceReqs s.cur.team s.cur.crew scope (releases order) →
          releases order = true ∧ scopeNarrow scope = true ∧ r.passable = true))) ∧
    (∃ (scope : Scope) (remote : Bool) (order : Order) (s : State), s.ctx.l2host = [] ∧ s.UniformReady {} ∧
      ∃ r ∈ s.ctx.reqs, r.id ∈ s.fenceReqs s.cur.team s.cur.crew scope (releases order) ∧
        ¬(releases order = true ∧ scopeNarrow scope = true ∧ r.passable = true)) ∧
    ∃ (a b : BitVec 8) (s : State), s.ctx.l2host = [] ∧ s.UniformReady {} ∧ s.UniformReady { k := [a.toNat, a.toNat + 1, b.toNat] } ∧
      (∀ r ∈ s.ctx.reqs, ¬(r.team = s.cur.team ∧ r.crew = s.cur.crew ∧ r.kind.writes = true)) ∧
      ((s.coreSt s.crew.core).l1.map Line.line).Nodup ∧ b ≠ 0#8 ∧
      s.Translates ((s.crew.kreg (a.toNat + 1) ++ s.crew.kreg a.toNat).toNat % 2 ^ 52) none 0x40000 .u ∧
      (s.crew.kreg (a.toNat + 1) ++ s.crew.kreg a.toNat).toNat % 65536 + (s.crew.kreg b.toNat).toNat ≤ 65536 :=
  ⟨⟨{ request (.load false) with id := 10, pa := 0x40003 },
      outstanding [request .store, { request (.load false) with id := 10, pa := 0x40003 }], by decide +kernel, request .store,
      by decide +kernel⟩,
    ⟨{ request (.load false) with id := 10, unit := 9, pa := 0x40004 },
      outstanding [{ request (.load false) with acq := true }, { request (.load false) with id := 10, unit := 9, pa := 0x40004 }],
      by decide +kernel, { request (.load false) with acq := true }, by decide +kernel⟩,
    ⟨{ spadAccess .spadStore with id := 12 }, acquiring, by decide +kernel, { request .spadCas with acq := true, scope := .twin },
      by decide +kernel⟩,
    ⟨{ request (.load false) with id := 12, lane := 1, thread := some 1, pa := 0x40004 }, fencing, by decide +kernel, rfl,
      hasCrew_of (by decide +kernel), 31, by decide, [9], 10, .dev, true, true, false, by decide +kernel, by decide⟩,
    ⟨.sys, true, .acqRel, cached [], by decide +kernel, uniformReady_of (by decide +kernel), by decide +kernel⟩,
    ⟨.twin, true, .acqRel, outstanding [{ request .store with onWay := true }], by decide +kernel, uniformReady_of (by decide +kernel),
      by decide +kernel⟩,
    ⟨.crew, false, .rel, outstanding [request .store], by decide +kernel, uniformReady_of (by decide +kernel), by decide +kernel⟩,
    ⟨6#8, 8#8, ranged, by decide +kernel, uniformReady_of (by decide +kernel), uniformReady_of (by decide +kernel), by decide +kernel,
      by decide +kernel, by decide, translates_of (by decide +kernel), by decide +kernel⟩⟩

/-! ## Engines, regions and rings -/

/-- Crew 0 has the streaming right, k6 is the busy token of command 50, which is also the crew's chain, and the word k(256 + 19)
names k6 as a dependence. Plate 0 is mapped: one macro from macro 0. -/
def engines : State := (base.updTeam fun t => { t with producer := some 0, plates := updateAt (fun _ => 0x80002040#32) 0 t.plates }).updCrew
  fun c => { c.setK 275 0x06000000#32 with chain := some (.inl 50), busy := [(6, 50)] }

theorem witness_EngineCommandsAreQueued :
    (∃ (i : Instr) (x : CommandForm) (s : State), commandForm i = some x ∧
      s.UniformReady { k := [x.t.toNat], quiet := [256 + x.q.toNat + (x.n - 1)] } ∧
      s.commandAllowed x ∧ x.streams = true ∧ x.chains = true ∧
      x.depends = true ∧ s.depkOf x ≠ 0 ∧ s.crew.busy = [(s.depkOf x, 50)] ∧ s.crew.chain = some (.inl 50)) ∧
    (∃ (i : Instr) (x : CommandForm) (s : State), commandForm i = some x ∧
      s.UniformReady { k := [x.t.toNat], quiet := [256 + x.q.toNat + (x.n - 1)] } ∧
      s.commandAllowed x ∧ x.streams = true ∧ x.depends = false) ∧
    (∃ (i : Instr) (x : CommandForm) (s : State), commandForm i = some x ∧
      s.UniformReady { k := [x.t.toNat], quiet := [256 + x.q.toNat + (x.n - 1)] } ∧
      s.commandAllowed x ∧ x.kind = .mxr ∧
      (s.team.plateFor s.cur.crew (x.imm.toNat % 8)).getLsbD 31 = true) ∧
    (∃ (i : Instr) (x : CommandForm) (s : State), commandForm i = some x ∧
      s.UniformReady { k := [x.t.toNat], quiet := [256 + x.q.toNat + (x.n - 1)] } ∧
      s.commandAllowed x ∧ x.kind = .walk) ∧
    (∃ (i : Instr) (x : CommandForm) (s : State), commandForm i = some x ∧
      s.UniformReady { k := [x.t.toNat], quiet := [256 + x.q.toNat + (x.n - 1)] } ∧
      s.commandAllowed x ∧ x.kind = .launch) ∧
    ∃ (i : Instr) (x : CommandForm) (s : State), commandForm i = some x ∧
      s.UniformReady { k := [x.t.toNat], quiet := [256 + x.q.toNat + (x.n - 1)] } ∧
      s.commandAllowed x ∧ x.kind = .accSt :=
  ⟨⟨.copy 5#8 0#8 true true, _, engines, rfl, uniformReady_of (by decide +kernel),
      ⟨by decide +kernel, by decide +kernel, by decide +kernel⟩, rfl, rfl, rfl, by decide +kernel, by decide +kernel, by decide +kernel⟩,
    ⟨.copyFill 255#8 251#8 false false, _, engines, rfl, uniformReady_of (by decide +kernel),
      ⟨by decide +kernel, by decide +kernel, by decide +kernel⟩, rfl, rfl⟩,
    ⟨.mxr 5#8 254#8 true 7#3 0#3, _, engines, rfl, uniformReady_of (by decide +kernel),
      ⟨by decide +kernel, by decide +kernel, by decide +kernel, by decide +kernel, by decide +kernel⟩, rfl, by decide +kernel⟩,
    ⟨.walk 5#8 253#8, _, engines, rfl, uniformReady_of (by decide +kernel),
      ⟨by decide +kernel, by decide +kernel⟩, rfl⟩,
    ⟨.launch 5#8 253#8, _, engines, rfl, uniformReady_of (by decide +kernel), trivial, rfl⟩,
    ⟨.accSt 5#8 252#8 true, _, engines, rfl, uniformReady_of (by decide +kernel),
      ⟨by decide +kernel, by decide +kernel⟩, rfl⟩⟩

/-- Region 0: the sum of four words at 0x40000, its shadow at 0x50000. Region 255: 64 rows of 16 words at 0x60000, two of them
counted, its shadow at 0x70000. -/
def sums (kind : Nat) : Region :=
  { num := 0, kind := .agg kind 4, pinned := true, leaf := ⟨0x40000, 16, [0x40000]⟩, value := ⟨0, 0, []⟩,
    shadow := ⟨0x50000, aggShadow kind 4, [0x50000]⟩ }
def rows : Region :=
  { num := 255, kind := .clu 16 0 64 2, pinned := true, leaf := ⟨0x60000, 4096, [0x60000]⟩, value := ⟨0, 0, []⟩,
    shadow := ⟨0x70000, cluShadow 16 0 64, [0x70000]⟩ }
def regioned (kind : Nat) (rs : List Req) : State :=
  let s := outstanding rs
  { s with ctx := { s.ctx with regions := [sums kind, rows] } }

theorem witness_RegionReadsAreSent :
    (∃ (i : Instr) (x : RegionForm) (s : State), regionForm i = some x ∧
      s.LaneReady (s.activeLanes x.p) x.p.zeroing ((srcNames x.a 2).add (destNames x.d x.dest)) ∧ s.MayIssue ∧ x.cluster = false) ∧
    (∃ (i : Instr) (x : RegionForm) (s : State), regionForm i = some x ∧
      s.LaneReady (s.activeLanes x.p) x.p.zeroing ((srcNames x.a 2).add (destNames x.d x.dest)) ∧ s.MayIssue ∧
      x.cluster = true ∧ s.part = .lx960) ∧
    (∃ (i : Instr) (x : RegionForm) (s : State), regionForm i = some x ∧
      s.LaneReady (s.activeLanes x.p) x.p.zeroing ((srcNames x.a 2).add (destNames x.d x.dest)) ∧ s.MayIssue ∧
      x.cluster = false ∧ x.needs ≠ 1 ∧ (s.region x.rg.toNat).map Region.agg = some (1, 4)) ∧
    ∃ (i : Instr) (x : RegionForm) (s : State), regionForm i = some x ∧
      s.LaneReady (s.activeLanes x.p) x.p.zeroing ((srcNames x.a 2).add (destNames x.d x.dest)) ∧ s.MayIssue ∧
      x.cluster = true ∧ s.part = .lx940 ∧ ∀ l ∈ lanesOf s.cur.run, (s.crew.lane l).inHandler = false :=
  ⟨⟨.ldaSum .zero false 127#7 (.v 126#7) 0#8, _, regioned 0 [], rfl, laneReady_of (by decide +kernel),
      mayIssue_of (by decide +kernel), rfl⟩,
    ⟨.cluNode .zero true 124#7 (.v 126#7) 255#8, _, regioned 0 [], rfl, laneReady_of (by decide +kernel),
      mayIssue_of (by decide +kernel), rfl, rfl⟩,
    ⟨.ldaMax .zero true 126#7 (.v 126#7) 0#8, _, regioned 1 [], rfl, laneReady_of (by decide +kernel),
      mayIssue_of (by decide +kernel), rfl, by decide, by decide +kernel⟩,
    ⟨.cluNode .zero false 127#7 (.v 126#7) 255#8, _, { regioned 0 [] with part := .lx940 }, rfl,
      laneReady_of (by decide +kernel), mayIssue_of (by decide +kernel), rfl, rfl, by decide +kernel⟩⟩

theorem witness_RegionControlsAreSent : ∃ (d rg other b : BitVec 8) (s : State), s.MayIssue ∧
    s.UniformReady { k := [d.toNat] } ∧ s.UniformReady {} ∧ (s.aggRegion rg.toNat).isSome = true ∧
    (s.aggRegion other.toNat).isSome = false ∧ s.part = .lx960 ∧ (s.cluRegion other.toNat).isSome = true ∧
    (s.cluRegion rg.toNat).isSome = false ∧ s.UniformReady { k := [d.toNat, b.toNat] } ∧
    (∀ l ∈ lanesOf s.cur.run, (s.crew.lane l).inHandler = false) ∧
    (∃ r ∈ s.ctx.reqs, r.team = s.cur.team ∧ r.crew = s.cur.crew ∧ r.kind = .aggRefresh ∧ s.reqRegion r = some rg.toNat) ∧
    ∀ r ∈ s.ctx.reqs, s.reqRegion r ≠ some other.toNat :=
  ⟨255#8, 0#8, 255#8, 254#8, regioned 0 [request .aggRefresh], mayIssue_of (by decide +kernel),
    uniformReady_of (by decide +kernel), uniformReady_of (by decide +kernel), by decide +kernel, by decide +kernel, rfl,
    by decide +kernel, by decide +kernel, uniformReady_of (by decide +kernel), by decide +kernel, by decide +kernel,
    by decide +kernel⟩

/-- k5 the busy token of command 77; k9 holds Poisoned; the three words from k(256) are 1.0, 1 and 4, and those from k(259) reserved. -/
def tokens : State := base.updCrew fun c =>
  { (((((c.setK 9 0x80000002#32).setK 256 0x3F800000#32).setK 257 1#32).setK 258 4#32).setK 260 2#32) with busy := [(5, 77)] }

theorem witness_TokensConditionsAndWalkParameters : ∃ (a idle d t8 q : BitVec 8) (s : State),
    s.UniformReady { quiet := [a.toNat] } ∧ s.crew.busy = [(a.toNat, 77)] ∧ s.UniformReady { quiet := [idle.toNat] } ∧
    s.crew.isBusy idle.toNat = false ∧ s.part = .lx960 ∧ s.UniformReady { k := [t8.toNat], quiet := [256 + q.toNat + 2] } ∧
    s.UniformReady { k := [idle.toNat, d.toNat] } ∧ s.UniformReady { k := [d.toNat], quiet := [a.toNat] } :=
  ⟨5#8, 9#8, 0#8, 255#8, 0#8, tokens, uniformReady_of (by decide +kernel), by decide +kernel,
    uniformReady_of (by decide +kernel), by decide +kernel, rfl, uniformReady_of (by decide +kernel),
    uniformReady_of (by decide +kernel), uniformReady_of (by decide +kernel)⟩

theorem regionRequest_of {s : State} {r : Req} (h : (hasCrewB s r.team r.crew && decide (s.req? r.id = some r ∧
    s.reqReady r = true ∧ r.remote = false ∧
    ∀ x ∈ s.ctx.launches, x.recording = false ∧ x.replaying = false)) = true) : RegionRequest s r := by
  simp only [Bool.and_eq_true, decide_eq_true_eq] at h
  obtain ⟨c, a1, a2, a3, a4⟩ := h
  exact ⟨a1, a2, a3, hasCrew_of c, a4⟩

/-- A request about a region. -/
def about (kind : ReqKind) (lane region regs : Nat) : Req :=
  { request kind with lane := lane, region := region, regs := regs, pa := 0, size := 0 }

/-- The state with a line that holds bad data. -/
def damaged (line : Nat) (s : State) : State := { s with dev := { s.dev with badLines := [line] } }

/-- A range load of the whole region, and one of its first leaf; a node read of the last record. -/
def whole : ReqKind := .range 0 true 0#32 0#32 0#64
def firstLeaf : ReqKind := .range 0 false 0#32 1#32 0#64
def lastNode : ReqKind := .node true 4#32 16#32

theorem noBad_of {s : State} (h : s.dev.badLines = []) (l : Nat) : s.badAt (64 * l) = false := by simp [State.badAt, h]

theorem witness_RegionRequestsArePerformed :
    (∃ r s g, RegionRequest s r ∧ r.kind = whole ∧ s.aggRegion r.region = some g ∧ g.agg.1 = rangeKind 0 true ∧ r.lane < 32 ∧
      ((s.crewOf r.team r.crew).lane r.lane).live = true ∧ r.thread = some ((s.crewOf r.team r.crew).lane r.lane).tid ∧ r.regs ≤ 2 ∧
      ∀ l, s.badAt (64 * l) = false) ∧
    (∃ r s g, RegionRequest s r ∧ r.kind = firstLeaf ∧ s.aggRegion r.region = some g ∧ g.agg.1 = rangeKind 0 false ∧
      ∃ e ∈ g.rangeReads s.mem 0 false 0#32 1#32 0#64, s.badAt (g.entryPa e.1 e.2) = true) ∧
    (∃ r s g, RegionRequest s r ∧ r.kind = whole ∧ s.aggRegion r.region = some g ∧ g.agg.1 ≠ rangeKind 0 true) ∧
    (∀ kind ∈ [whole, .aggInfo 6#3, .cluGrow 62#32, lastNode], ∃ r s, RegionRequest s r ∧ r.kind = kind ∧ r.lane = 32 ∧
      s.aggRegion r.region = none ∧ s.cluRegion r.region = none) ∧
    (∃ r s g, RegionRequest s r ∧ r.kind = .aggInfo 6#3 ∧ r.lane = 32 ∧ s.aggRegion r.region = some g ∧ r.regs = 1) ∧
    (∃ r s g, RegionRequest s r ∧ r.kind = .aggRefresh ∧ s.aggRegion r.region = some g) ∧
    (∃ r s g, RegionRequest s r ∧ r.kind = .aggClose ∧ s.aggRegion r.region = some g ∧
      ∀ o, o < g.bytes.length → ∀ u, u < g.bytes.length → g.shadow.pa o = g.shadow.pa u → o = u) ∧
    (∃ r s g, RegionRequest s r ∧ r.kind = .cluGrow 62#32 ∧ r.lane = 32 ∧ s.cluRegion r.region = some g ∧
      g.kind = .clu 16 0 64 2 ∧ r.regs = 1) ∧
    (∃ r s g, RegionRequest s r ∧ r.kind = lastNode ∧ r.lane < 32 ∧ ((s.crewOf r.team r.crew).lane r.lane).live = true ∧
      r.thread = some ((s.crewOf r.team r.crew).lane r.lane).tid ∧ r.regs = 4 ∧ s.cluRegion r.region = some g ∧
      ∀ l, s.badAt (64 * l) = false) ∧
    (∃ r s g, RegionRequest s r ∧ r.kind = lastNode ∧ s.cluRegion r.region = some g ∧ 16 < cluStride g.clu.1 g.clu.2.1 ∧
      4 < cluNodes g.clu.2.2.1 ∧ s.badAt (g.shadow.pa (4 * (4 * cluStride g.clu.1 g.clu.2.1 + 16))) = true) ∧
    ∃ (r : Req) (s : State) (cause : Cause), s.failedUnit = some r ∧ r.failed = some cause ∧
      (∀ q ∈ s.ctx.reqs, q.unit = r.unit → q = r) ∧ s.hasCrew r.team r.crew ∧ r.lane < 32 ∧ r.run = 1#32 <<< r.lane ∧
      r.handler = false ∧ r.thread = some ((s.crewOf r.team r.crew).lane r.lane).tid ∧
      ((s.crewOf r.team r.crew).lane r.lane).st ≠ .parked ∧ ((s.crewOf r.team r.crew).lane r.lane).st ≠ .exited ∧
      ((s.crewOf r.team r.crew).lane r.lane).inHandler = false := by
  refine ⟨⟨{ about whole 31 0 2 with thread := some 31 }, regioned 3 [{ about whole 31 0 2 with thread := some 31 }], sums 3,
      regionRequest_of (by decide +kernel), rfl, by decide +kernel, rfl, by decide, by decide +kernel, by decide +kernel, by decide,
      noBad_of (by decide +kernel)⟩,
    ⟨about firstLeaf 0 0 1, damaged 0x1000 (regioned 0 [about firstLeaf 0 0 1]), sums 0, regionRequest_of (by decide +kernel), rfl,
      by decide +kernel, rfl, (0, 0), by decide +kernel⟩,
    ⟨about whole 0 0 1, regioned 1 [about whole 0 0 1], sums 1, regionRequest_of (by decide +kernel), rfl, by decide +kernel, by decide⟩, ?_,
    ⟨about (.aggInfo 6#3) 32 0 1, regioned 0 [about (.aggInfo 6#3) 32 0 1], sums 0, regionRequest_of (by decide +kernel), rfl, rfl,
      by decide +kernel, rfl⟩,
    ⟨about .aggRefresh 32 0 0, regioned 0 [about .aggRefresh 32 0 0], sums 0, regionRequest_of (by decide +kernel), rfl, by decide +kernel⟩,
    ⟨about .aggClose 32 0 0, regioned 0 [about .aggClose 32 0 0], sums 0, regionRequest_of (by decide +kernel), rfl,
      by decide +kernel, by decide +kernel⟩,
    ⟨about (.cluGrow 62#32) 32 255 1, regioned 0 [about (.cluGrow 62#32) 32 255 1], rows, regionRequest_of (by decide +kernel), rfl, rfl,
      by decide +kernel, rfl, rfl⟩,
    ⟨{ about lastNode 31 255 4 with thread := some 31 }, regioned 0 [{ about lastNode 31 255 4 with thread := some 31 }], rows,
      regionRequest_of (by decide +kernel), rfl, by decide, by decide +kernel, by decide +kernel, rfl, by decide +kernel,
      noBad_of (by decide +kernel)⟩,
    ⟨about lastNode 0 255 4, damaged ((0x70000 + 4 * (4 * cluStride 16 0 + 16)) / 64) (regioned 0 [about lastNode 0 255 4]), rows,
      regionRequest_of (by decide +kernel), rfl, by decide +kernel, by decide +kernel, by decide +kernel, by decide +kernel⟩,
    ⟨{ request (.load true) with failed := some .ecc }, outstanding [{ request (.load true) with failed := some .ecc }], .ecc,
      by decide +kernel, rfl, by decide +kernel, hasCrew_of (by decide +kernel), by decide, by decide, rfl, by decide +kernel,
      by decide +kernel, by decide +kernel, by decide +kernel⟩⟩
  intro kind hk
  simp only [List.mem_cons, List.not_mem_nil, or_false] at hk
  rcases hk with rfl | rfl | rfl | rfl
  · exact ⟨about whole 32 7 1, regioned 0 [about whole 32 7 1], regionRequest_of (by decide +kernel), rfl, rfl, by decide +kernel, by decide +kernel⟩
  · exact ⟨about (.aggInfo 6#3) 32 7 1, regioned 0 [about (.aggInfo 6#3) 32 7 1], regionRequest_of (by decide +kernel), rfl, rfl, by decide +kernel, by decide +kernel⟩
  · exact ⟨about (.cluGrow 62#32) 32 7 1, regioned 0 [about (.cluGrow 62#32) 32 7 1], regionRequest_of (by decide +kernel), rfl, rfl, by decide +kernel, by decide +kernel⟩
  · exact ⟨about lastNode 32 7 4, regioned 0 [about lastNode 32 7 4], regionRequest_of (by decide +kernel), rfl, rfl, by decide +kernel, by decide +kernel⟩

/-- What a statement about an update of a leaf or a row asks for. -/
def updates (r : Req) (g : Region) (s : State) : Prop :=
  r.rel = false ∧ s.ctx.l2host = [] ∧ s.shadowRegion r.pa = none ∧ r.treat ≠ .s ∧ s.leafRegion r.pa = some g ∧ s.region g.num = some g ∧
    lineIn (s.coreSt r.core).l1 (r.pa / 64) = none

/-- A region of rows with value rows of 16 words at 0x80000. -/
def valued : Region :=
  { rows with kind := .clu 16 16 64 2, value := ⟨0x80000, 4096, [0x80000]⟩, shadow := ⟨0x70000, cluShadow 16 16 64, [0x70000]⟩ }
def valueStore : Req := { request .store with pa := 0x800FC }

theorem witness_LeafAndRowUpdatesKeepTheTree :
    (∃ r g s o k n, RegionRequest s r ∧ updates r g s ∧ g.kind = .agg k n ∧ g.leaf.offset? r.pa = some o ∧ o % 4 = 0 ∧ o / 4 < n ∧
      r.data.length = 4 ∧ r.kind = .store) ∧
    (∀ e ∈ [(0, ReqKind.red 9#8), (0, .atom 9#8), (3, .red 1#8), (3, .atom 1#8), (0, .atom 11#8)], ∃ r g s o n, RegionRequest s r ∧
      updates r g s ∧ g.kind = .agg e.1 n ∧ g.leaf.offset? r.pa = some o ∧ o % 4 = 0 ∧ o / 4 < n ∧ r.data.length = 4 ∧
      r.kind = e.2 ∧ r.size = 4 ∧ r.regs = 1 ∧ sameLane s r) ∧
    (∃ r g s d dv cap m o, RegionRequest s r ∧ updates r g s ∧ g.kind = .clu d dv cap m ∧ o % 4 = 0 ∧ r.kind = .store ∧
      r.data.length = 4 ∧ 0 < d ∧ g.leaf.offset? r.pa = some o ∧ g.value.offset? r.pa = none ∧ o / (4 * d) < m) ∧
    ∃ r g s d dv cap m o, RegionRequest s r ∧ updates r g s ∧ g.kind = .clu d dv cap m ∧ o % 4 = 0 ∧ r.kind = .store ∧
      r.data.length = 4 ∧ 0 < dv ∧ g.value.offset? r.pa = some o ∧ g.leaf.offset? r.pa = none ∧ m ≤ o / (4 * dv) := by
  refine ⟨⟨{ request .store with pa := 0x4000C }, sums 0, regioned 0 [{ request .store with pa := 0x4000C }], 12, 0, 4,
      regionRequest_of (by decide +kernel), by unfold updates; decide +kernel, by decide +kernel⟩, ?_,
    ⟨{ request .store with pa := 0x6007C }, rows, regioned 0 [{ request .store with pa := 0x6007C }], 16, 0, 64, 2, 124,
      regionRequest_of (by decide +kernel), by unfold updates; decide +kernel, by decide +kernel⟩,
    ⟨valueStore, valued, { outstanding [valueStore] with ctx := { (outstanding [valueStore]).ctx with regions := [valued] } },
      16, 16, 64, 2, 252, regionRequest_of (by decide +kernel), by unfold updates; decide +kernel, by decide +kernel⟩⟩
  intro e he
  simp only [List.mem_cons, List.not_mem_nil, or_false] at he
  rcases he with rfl | rfl | rfl | rfl | rfl
  · exact ⟨{ request (.red 9#8) with pa := 0x4000C }, sums 0, regioned 0 [{ request (.red 9#8) with pa := 0x4000C }], 12, 4,
      regionRequest_of (by decide +kernel), by unfold updates; decide +kernel, by unfold sameLane; decide +kernel⟩
  · exact ⟨{ request (.atom 9#8) with pa := 0x4000C }, sums 0, regioned 0 [{ request (.atom 9#8) with pa := 0x4000C }], 12, 4,
      regionRequest_of (by decide +kernel), by unfold updates; decide +kernel, by unfold sameLane; decide +kernel⟩
  · exact ⟨{ request (.red 1#8) with pa := 0x40000 }, sums 3, regioned 3 [{ request (.red 1#8) with pa := 0x40000 }], 0, 4,
      regionRequest_of (by decide +kernel), by unfold updates; decide +kernel, by unfold sameLane; decide +kernel⟩
  · exact ⟨{ request (.atom 1#8) with pa := 0x40000 }, sums 3, regioned 3 [{ request (.atom 1#8) with pa := 0x40000 }], 0, 4,
      regionRequest_of (by decide +kernel), by unfold updates; decide +kernel, by unfold sameLane; decide +kernel⟩
  · exact ⟨{ request (.atom 11#8) with pa := 0x40000 }, sums 0, regioned 0 [{ request (.atom 11#8) with pa := 0x40000 }], 0, 4,
      regionRequest_of (by decide +kernel), by unfold updates; decide +kernel, by unfold sameLane; decide +kernel⟩

/-- A command of crew 0 with token 5, and the state in which it and a busy token stand. -/
def command (kind : CmdKind) (desc : List W32) : Cmd :=
  { id := 9, kind := kind, team := 2, crew := 0, core := 0, token := 5, desc := desc }
def commanded (x : Cmd) : State :=
  let s := (regioned 0 []).updCrew fun c => { c with busy := [(5, 9)] }
  { s with ctx := { s.ctx with cmds := [x] } }

/-- An open of region 1: four sums at 0x80000 with their shadow at 0x90000; and of region 2: 16 rows at 0x80000, shadow at 0x90000. -/
def openAgg (w5 : W32) : Cmd := command .aggOpen [0x80000#32, 0#32, 0x90000#32, 0#32, 3#32, w5]
def openClu (w8 : W32) : Cmd :=
  command .cluOpen [0x80000#32, 0#32, 0#32, 0#32, 0x90000#32, 0#32, 15#32, 1#32, w8]

/-- A pair whose second part is known. -/
theorem second_of {α β : Type} {x : α × β} {b : β} (h : x.2 = b) : ∃ a, x = (a, b) := ⟨x.1, by rw [← h]⟩

/-- The same with something that holds of the first part. -/
theorem first_such {α β : Type} {x : α × β} {b : β} {p : α → Prop} (h : x.2 = b ∧ p x.1) : ∃ a, x = (a, b) ∧ p a :=
  ⟨x.1, by rw [← h.1], h.2⟩

theorem witness_RegionsOpenWithTheirTree :
    (∀ x ∈ [openAgg 0#32, openAgg 0x501#32, openAgg 1#32, openClu 0#32, openClu 0x110002#32, openClu 2#32,
        { openAgg 1#32 with started := true }],
      (commanded x).cmd? x.id = some x ∧ (commanded x).openAfter x = true ∧ x.stuck = none ∧
      (commanded x).hasCrew x.team x.crew) ∧
    (((commanded (openAgg 0#32)).region (fieldOf ((openAgg 0#32).word 5) 0 8)).isSome = true ∧
      ((commanded (openClu 0#32)).region (fieldOf ((openClu 0#32).word 8) 0 8)).isSome = true) ∧
    (5 ≤ fieldOf ((openAgg 0x501#32).word 5) 8 3 ∧ 16 < fieldOf ((openClu 0x110002#32).word 8) 16 5) ∧
    ((commanded (openAgg 1#32)).region 1).isSome = false ∧ ((commanded (openClu 2#32)).region 2).isSome = false ∧
    ¬(5 ≤ fieldOf ((openAgg 1#32).word 5) 8 3 ∨ fieldOf ((openAgg 1#32).word 5) 11 21 ≠ 0) ∧
    ¬(2 ^ 31 < 16 ∨ 16 < ((openClu 2#32).word 7).toNat ∨ 16 < fieldOf ((openClu 2#32).word 8) 16 5 ∨
      fieldOf ((openClu 2#32).word 8) 12 4 ≠ 0 ∨ fieldOf ((openClu 2#32).word 8) 21 11 ≠ 0) ∧
    (∃ s2, ((commanded (openAgg 1#32)).releaseS 0 false).spansAt false [(0x80000#64, 16), (0x90000#64, aggShadow 0 4)] =
        (s2, .inr [⟨0x80000, 16, [0x80000]⟩, ⟨0x90000, aggShadow 0 4, [0x90000]⟩]) ∧
      let r := { sums 0 with num := 1, leaf := ⟨0x80000, 16, [0x80000]⟩, shadow := ⟨0x90000, aggShadow 0 4, [0x90000]⟩ }
      s2.spansClash r = false ∧ s2.spanBad r.leaf = false ∧ s2.spanBad r.value = false ∧ r.lost = false ∧
        s2.pinnedAt 1 + r.shadowBytes ≤ 393216) ∧
    ∃ s2, ((commanded (openClu 2#32)).releaseS 0 false).spansAt false
        [(0x80000#64, 1024), (0#64, 0), (0x90000#64, cluShadow 16 0 16)] =
        (s2, .inr [⟨0x80000, 1024, [0x80000]⟩, ⟨0, 0, []⟩, ⟨0x90000, cluShadow 16 0 16, [0x90000]⟩]) ∧
      let r := { rows with num := 2, kind := .clu 16 0 16 1, leaf := ⟨0x80000, 1024, [0x80000]⟩,
                           shadow := ⟨0x90000, cluShadow 16 0 16, [0x90000]⟩ }
      s2.spansClash r = false ∧ s2.spanBad r.leaf = false ∧ s2.spanBad r.value = false ∧ r.lost = false ∧
        s2.pinnedAt 2 + r.shadowBytes ≤ 393216 := by
  refine ⟨?_, by decide +kernel, by decide +kernel, by decide +kernel, by decide +kernel, by decide +kernel, by decide +kernel,
    first_such (by decide +kernel), first_such (by decide +kernel)⟩
  intro x hx
  simp only [List.mem_cons, List.not_mem_nil, or_false] at hx
  rcases hx with rfl | rfl | rfl | rfl | rfl | rfl | rfl <;>
    exact ⟨by decide +kernel, by decide +kernel, rfl, hasCrew_of (by decide +kernel)⟩

/-- Ring 15 of the team as a function gives it; k6 is a good geometry, k7 a bad one, k8 the number of stage 0. -/
def ringed (g : Ring) : State :=
  (base.updTeam fun t => { t with rings := updateAt (fun _ => g) 15 t.rings }).updCrew fun c =>
    { (c.setK 6 0x01030010#32).setK 7 0x01030011#32 with busy := [(9, 77)] }

/-- A ring of four stages: as INIT leaves it, with all acquired, with one acquired, and with one committed. -/
def quietRing : Ring := { init := true, ssize := 16, scount := 4, ncons := 1 }

theorem witness_RingsMoveTheirStages :
    (∀ g ∈ [({} : Ring), quietRing, { quietRing with a := 4 }, { quietRing with a := 1 },
        { quietRing with a := 1, c := 1, stages := [(0#32, 0)] }, { quietRing with a := 1, commits := [{}] },
        { quietRing with a := 2, c := 1, f := 1, stages := [] }],
      (15 < (ringed g).team.rings.length ∧ (ringed g).team.twin = false ∧ (∀ x ∈ (ringed g).ctx.cmds, x.kind ≠ .walk) ∧
        (∀ l ∈ lanesOf (ringed g).cur.run, ((ringed g).crew.lane l).inHandler = false) ∧
        (ringed g).team.rings.getD 15 {} = g ∧ (ringed g).settledReqs true (ringed g).runReqs = true ∧ (ringed g).team.id = (ringed g).cur.team ∧
        hasCrewB (ringed g) (ringed g).cur.team (ringed g).cur.crew = true) ∧
      (ringed g).UniformReady { k := [8, 6] } ∧ (ringed g).UniformReady { k := [8, 7] } ∧
      (ringed g).UniformReady { k := [254, 255, 8] } ∧ (ringed g).UniformReady { k := [8] } ∧
      (ringed g).UniformReady { quiet := [0] } ∧ (ringed g).UniformReady { quiet := [9] }) ∧
    (fieldOf ((ringed quietRing).crew.kreg 6) 0 16 ≠ 0 ∧ fieldOf ((ringed quietRing).crew.kreg 6) 0 16 % 4 = 0 ∧
      fieldOf ((ringed quietRing).crew.kreg 6) 24 8 ≠ 0) ∧ fieldOf ((ringed quietRing).crew.kreg 7) 0 16 % 4 ≠ 0 ∧
    (ringed quietRing).crew.busy = [(9, 77)] ∧ (ringed quietRing).crew.isBusy 8 = false ∧
    BitVec.ofNat 32 0 = (ringed quietRing).crew.kreg 8 ∧
    (∃ s : State, (s.team.rings.getD 15 {}).init = true ∧ s.settledReqs true s.runReqs = false ∧ s.UniformReady { k := [8] }) ∧
    (∃ s : State, s.runReqs ≠ [] ∧ (s.team.rings.getD 15 {}).init = true ∧ s.settledReqs true s.runReqs = true ∧ s.UniformReady { k := [8] }) ∧
    (∃ s : State, s.team.twin = true ∧ (s.team.rings.getD 15 {}).init = true ∧ s.UniformReady { k := [8] } ∧
      s.settledReqs true s.runReqs = true) ∧
    ∃ s : State, (∃ x ∈ s.ctx.cmds, x.kind = .walk ∧ x.team = s.cur.team ∧ fieldOf (x.word 1) 8 4 = 15) ∧
      (s.team.rings.getD 15 {}).init = true ∧ s.team.id = s.cur.team ∧ s.UniformReady { k := [8, 6] } := by
  refine ⟨?_, by decide +kernel, by decide +kernel, by decide +kernel, by decide +kernel, by decide +kernel,
    ⟨{ ringed quietRing with ctx := { (ringed quietRing).ctx with reqs := [request .store] } }, by decide +kernel, by decide +kernel,
      uniformReady_of (by decide +kernel)⟩,
    ⟨{ ringed quietRing with ctx := { (ringed quietRing).ctx with reqs := [{ request .store with onWay := true }] } }, by decide +kernel,
      by decide +kernel, by decide +kernel, uniformReady_of (by decide +kernel)⟩,
    ⟨twinned (ringed quietRing), by decide +kernel, by decide +kernel, uniformReady_of (by decide +kernel), by decide +kernel⟩,
    ⟨{ ringed quietRing with ctx := { (ringed quietRing).ctx with cmds := [command .walk [0#32, 0xF00#32, 0#32]] } }, by decide +kernel,
      by decide +kernel, by decide +kernel, uniformReady_of (by decide +kernel)⟩⟩
  intro g hg
  simp only [List.mem_cons, List.not_mem_nil, or_false] at hg
  rcases hg with rfl | rfl | rfl | rfl | rfl | rfl | rfl <;>
    exact ⟨by decide +kernel, uniformReady_of (by decide +kernel), uniformReady_of (by decide +kernel),
      uniformReady_of (by decide +kernel), uniformReady_of (by decide +kernel), uniformReady_of (by decide +kernel),
      uniformReady_of (by decide +kernel)⟩

/-! ## Streamer, images, matrix path, walker -/

/-- Crew 0 has a command alone, its token k5; no region is open; the allowance of the streamer is 0 in `spent`. -/
def engined (x : Cmd) : State :=
  let s := (base.updTeam fun t => { t with plates := updateAt (fun _ => 0x80002040#32) 0 t.plates }).updCrew
    fun c => { c with busy := [(5, 9)] }
  { s with ctx := { s.ctx with cmds := [x] }, nextId := 20 }
def spent (x : Cmd) : State := { engined x with ctx := { (engined x).ctx with allow := [(0, 0xFFFFFFFF#32)] } }

/-- A fill of the whole scratchpad; a copy of four words from 0 to 256 of the scratchpad. -/
def fillAll : Cmd := command .copyS [] |> fun x => { x with kind := .fill, desc := [0#32, 0#32, 65536#32, 0x04030201#32, 16#32] }
def fillSome : Cmd := { fillAll with desc := [65532#32, 0#32, 4#32, 0x04030201#32, 16#32], started := true }
def strided (desc19 : W32) : Cmd :=
  { command .copy ([0#32, 0#32, 256#32, 0#32, 3#32, 0#32, 0#32, 1#32, 0#32, 0#32, 0#32, 0#32, 0#32] ++
    [1#32, 0#32, 0#32, 0#32, 0#32, 0#32, desc19]) with started := true }
def fourWords : Cmd := strided 28#32

/-- A copy of four elements of four bits; a gather of two rows of two 16-bit elements, the first one skipped, from 0x80000 by a list at
0x90000; a scatter of the same rows to 0x80000 by a list in the scratchpad. -/
def nibbles : Cmd := strided 25#32
def gather : Cmd := { command .copyG [0x80000#32, 0#32, 64#32, 0#32, 0x90000#32, 0#32, 2#32, 2#32, 1#32, 19#32] with started := true }
def scatter : Cmd := { command .copyS [0x80000#32, 0#32, 64#32, 0#32, 128#32, 0#32, 2#32, 2#32, 1#32, 51#32] with started := true }

/-- The index lists name no row, and then row 1. -/
def moving (x : Cmd) : State :=
  let s := (engined x).updTeam fun t => { t with spad := writeBytes t.spad 128 [255#8, 255#8, 255#8, 255#8, 1#8] }
  { s with mem := writeBytes s.mem 0x90000 [255#8, 255#8, 255#8, 255#8, 1#8] }

/-- What the statement asks of the elements of a copy or fill. -/
def listed (x : Cmd) (s : State) (pa : Nat → Nat) (alloc e : Nat) : W32 :=
  BitVec.ofNat 32 ((x.listAt alloc e).value pa ((s.team? x.team).getD Team.missing).spad s.mem)
def clearMoves (x : Cmd) (s : State) (pa : Nat → Nat) : Prop :=
  let alloc := ((s.team? x.team).getD Team.missing).spadBytes
  let indexed : Prop := x.kind = .copyG ∨ x.kind = .copyS
  let moves (n : Nat) (from_ : Place ⊕ Nat) (dst : Place) : Prop :=
    n < x.moveCount ∧ x.move alloc (listed x s pa alloc) n = some (from_, dst)
  let written (a : Nat) : Prop := ∃ n from_ dst, moves n from_ dst ∧ dst.takes pa false a
  (indexed → ∀ n, n < x.moveCount → s.reaches x pa .load written (x.listAt alloc (n / x.rowLength))) ∧
  (∀ n from_ dst, moves n from_ dst → s.reaches x pa .store written dst ∧ ∀ p, from_ = .inl p → s.reaches x pa .load written p) ∧
  (indexed → ∀ e m from_ dst, m < e * x.rowLength → e * x.rowLength < x.moveCount → moves m from_ dst → ∀ a,
    ¬(dst.takes pa dst.spad a ∧ (x.listAt alloc e).takes pa dst.spad a)) ∧
  ∀ n m p from_ dst dest, m < n → moves n (.inl p) dest → moves m from_ dst → ∀ a, ¬(dst.takes pa dst.spad a ∧ p.takes pa dst.spad a)

/-- The same as computations. -/
def apartB (p q : Place) (pa : Nat → Nat) : Bool :=
  p.spad != q.spad || decide (p.start pa + p.bytes ≤ q.start pa) || decide (q.start pa + q.bytes ≤ p.start pa)
def writtenB (x : Cmd) (s : State) (pa : Nat → Nat) (a : Nat) : Bool :=
  let alloc := ((s.team? x.team).getD Team.missing).spadBytes
  (List.range x.moveCount).any fun n => match x.move alloc (listed x s pa alloc) n with
    | some (_, dst) => !dst.spad && decide (dst.start pa ≤ a) && decide (a < dst.start pa + dst.bytes)
    | none => false
def reachesB (s : State) (x : Cmd) (pa : Nat → Nat) (a : Access) (p : Place) : Bool :=
  p.spad || (decide ((0 ≤ p.whole ∧ p.whole < 2 ^ 51) ∨ (2 ^ 64 - 2 ^ 51 ≤ p.whole ∧ p.whole < 2 ^ 64)) &&
    translatesB s p.first (some a) (pa p.first) .u && decide (rangeOf s.part (pa p.first) = some .device) &&
    ((List.range p.bytes).all fun o => decide (s.leafRegion (pa p.first + o) = none ∧ s.shadowRegion (pa p.first + o) = none)) &&
    decide (s.badAt (pa p.first) = false ∧ s.unmetered x = true ∧ s.ctx.l2host = [] ∧ ∀ y ∈ (s.coreSt x.core).l1, y.dirty = 0#64) &&
    (s.walkSlots p.first 3 s.ctx.ptRoot).all fun slot => (List.range 8).all fun i => !writtenB x s pa (slot + i))
def clearMovesB (x : Cmd) (s : State) (pa : Nat → Nat) : Bool :=
  let alloc := ((s.team? x.team).getD Team.missing).spadBytes
  let indexed := x.kind == .copyG || x.kind == .copyS
  let move (n : Nat) := x.move alloc (listed x s pa alloc) n
  (List.range x.moveCount).all fun n =>
    (!indexed || (reachesB s x pa .load (x.listAt alloc (n / x.rowLength)) && (List.range (n / x.rowLength * x.rowLength)).all fun m =>
      (move m).all fun e => apartB e.2 (x.listAt alloc (n / x.rowLength)) pa)) &&
    (move n).all fun e => reachesB s x pa .store e.2 && match e.1 with
      | .inl p => reachesB s x pa .load p && (List.range n).all fun m => (move m).all fun e => apartB e.2 p pa
      | .inr _ => true

theorem apart_of {p q : Place} {pa : Nat → Nat} (h : apartB p q pa = true) (a : Nat) : ¬(p.takes pa p.spad a ∧ q.takes pa p.spad a) := by
  rintro ⟨⟨-, h1, h2⟩, h3, h4, h5⟩
  simp only [apartB, h3, bne_self_eq_false, Bool.false_or, Bool.or_eq_true, decide_eq_true_eq] at h
  omega

theorem reaches_of {x : Cmd} {s : State} {pa : Nat → Nat} {a : Access} {p : Place} (h : reachesB s x pa a p = true) (written : Nat → Prop)
    (hw : ∀ a, written a → writtenB x s pa a = true) : s.reaches x pa a written p := by
  intro hp
  simp only [reachesB, hp, Bool.false_or, Bool.and_eq_true, decide_eq_true_eq, List.all_eq_true, List.mem_range, Bool.not_eq_true'] at h
  obtain ⟨⟨⟨⟨⟨h1, h2⟩, h3⟩, h4⟩, h5, h6, h7, h8⟩, h9⟩ := h
  exact ⟨h1, ⟨.u, by decide, translates_of h2⟩, h3, h4, h5, h6, h7, h8, fun slot hs i hi k => by
    have := hw _ k; rw [h9 slot hs i hi] at this; cases this⟩

theorem clearMoves_of {x : Cmd} {s : State} {pa : Nat → Nat} (h : clearMovesB x s pa = true) (hl : 0 < x.rowLength) : clearMoves x s pa := by
  simp only [clearMovesB, List.all_eq_true, List.mem_range, Bool.and_eq_true, Bool.or_eq_true, Bool.not_eq_true',
    Option.all_eq_true] at h
  have wr : ∀ a, (∃ n from_ dst, (n < x.moveCount ∧ x.move ((s.team? x.team).getD Team.missing).spadBytes
      (listed x s pa ((s.team? x.team).getD Team.missing).spadBytes) n = some (from_, dst)) ∧ dst.takes pa false a) → writtenB x s pa a = true := by
    rintro a ⟨n, f, dst, ⟨hn, e⟩, ht1, ht2, ht3⟩
    simp only [writtenB, List.any_eq_true, List.mem_range]
    exact ⟨n, hn, by rw [e]; simp [ht1, ht2, ht3]⟩
  have ix : (x.kind = .copyG ∨ x.kind = .copyS) → (x.kind == .copyG || x.kind == .copyS) = true := by
    rintro (e | e) <;> simp [e]
  refine ⟨fun hi n hn => ?_, fun n f dst hm => ⟨?_, fun p hp => ?_⟩, fun hi e m f dst hme he hm => ?_, fun n m p f dst d hmn hn hm => ?_⟩
  · rcases (h n hn).1 with k | k
    · rw [ix hi] at k; cases k
    · exact reaches_of k.1 _ wr
  · exact reaches_of ((h n hm.1).2 _ hm.2).1 _ wr
  · subst hp
    have := ((h n hm.1).2 _ hm.2).2
    simp only [Bool.and_eq_true] at this
    exact reaches_of this.1 _ wr
  · have de : e * x.rowLength / x.rowLength = e := Nat.mul_div_cancel _ hl
    rcases (h _ he).1 with k | k
    · rw [ix hi] at k; cases k
    · have := k.2 m (by rw [de]; exact hme) _ hm.2
      rw [de] at this
      exact apart_of this
  · have := ((h n hn.1).2 _ hn.2).2
    simp only [Bool.and_eq_true, List.all_eq_true, List.mem_range, Option.all_eq_true] at this
    exact apart_of (this.2 m hmn _ hm.2)

/-- What the statements about an engine's commands ask for. -/
def inFlight (x : Cmd) (s : State) : Prop :=
  s.cmd? x.id = some x ∧ s.hasCrew x.team x.crew ∧ s.noSheet ∧ x.stuck = none ∧ x.untouched ∧ x.spoiled = []

theorem inFlight_of {x : Cmd} {s : State} (h : (s.cmd? x.id == some x && hasCrewB s x.team x.crew &&
    decide (∀ y ∈ s.ctx.launches, y.recording = false ∧ y.replaying = false) && x.stuck.isNone &&
    decide (x.log = [] ∧ x.got = [] ∧ x.rows = [] ∧ x.put = []) && x.spoiled.isEmpty) = true) : inFlight x s := by
  simp only [Bool.and_eq_true, beq_iff_eq, decide_eq_true_eq, Option.isNone_iff_eq_none, List.isEmpty_iff] at h
  exact ⟨h.1.1.1.1.1, hasCrew_of h.1.1.1.1.2, h.1.1.1.2, h.1.1.2, h.1.2, h.2⟩

theorem witness_moves : ∀ x ∈ [fillSome, fourWords, nibbles, gather, scatter], inFlight x (moving x) ∧ x.started = true ∧ x.copies = true ∧
    x.startOk = true ∧ x.pos = 0 ∧ (moving x).allowance (((moving x).team? x.team).getD Team.missing).cls 0 = 0xFFFFFFFF#32 ∧
    (∀ g ∈ (((moving x).team? x.team).getD Team.missing).rings, g.spoilt = []) ∧ clearMoves x (moving x) id := by
  intro x hx
  simp only [List.mem_cons, List.not_mem_nil, or_false] at hx
  rcases hx with rfl | rfl | rfl | rfl | rfl <;>
    exact ⟨inFlight_of (by decide +kernel), by decide +kernel, by decide +kernel, by decide +kernel, by decide +kernel, by decide +kernel,
      by decide +kernel, clearMoves_of (by decide +kernel) (by unfold Cmd.rowLength; omega)⟩

theorem witness_StreamerCommandsMoveTheirElements :
    (∃ x : Cmd, inFlight x (engined x) ∧
      Cmd.engine x.kind = 0 ∧ x.started = false ∧ (engined x).depsSettled x = true ∧ (engined x).cmdAfter x = true ∧ x.poisoned = true) ∧
    (∃ x : Cmd, inFlight x (engined x) ∧
      Cmd.engine x.kind = 0 ∧ x.started = false ∧ (engined x).depsSettled x = true ∧ (engined x).cmdAfter x = true ∧
      x.poisoned = false ∧ x.startOk = false) ∧
    (∃ x : Cmd, inFlight x (engined x) ∧
      Cmd.engine x.kind = 0 ∧ x.started = false ∧ (engined x).depsSettled x = true ∧ (engined x).cmdAfter x = true ∧
      x.poisoned = false ∧ x.startOk = true) ∧
    (∀ x ∈ [fillSome, fourWords, nibbles, gather, scatter], inFlight x (moving x) ∧ x.started = true ∧ x.copies = true ∧ x.startOk = true ∧
      x.pos = 0 ∧ (moving x).allowance (((moving x).team? x.team).getD Team.missing).cls 0 = 0xFFFFFFFF#32 ∧
      (∀ g ∈ (((moving x).team? x.team).getD Team.missing).rings, g.spoilt = []) ∧ clearMoves x (moving x) id) ∧
    (gather.move 65536 (listed gather (moving gather) id 65536) 0 = some (.inr 0, ⟨true, 64, 0, 16, 64⟩) ∧
      gather.move 65536 (listed gather (moving gather) id 65536) 3 = some (.inl ⟨false, 0x80006, 0, 16, 0x80006⟩, ⟨true, 70, 0, 16, 70⟩) ∧
      scatter.move 65536 (listed scatter (moving scatter) id 65536) 0 = none ∧
      scatter.move 65536 (listed scatter (moving scatter) id 65536) 2 = some (.inl ⟨true, 68, 0, 16, 68⟩, ⟨false, 0x80004, 0, 16, 0x80004⟩)) ∧
    ∃ x : Cmd, inFlight x (spent x) ∧ x.started = true ∧ x.copies = true ∧ x.pos < x.elements ∧
      (spent x).expoSpent x.core (((spent x).team? x.team).getD Team.missing).cls 0 = true ∧
      (((spent x).team? x.team).getD Team.missing).replay = false :=
  ⟨⟨{ fillAll with deps := [.failed] }, inFlight_of (by decide +kernel), by decide +kernel⟩,
    ⟨{ fillAll with desc := [0#32, 0#32, 65536#32, 0#32, 17#32] }, inFlight_of (by decide +kernel), by decide +kernel⟩,
    ⟨fillAll, inFlight_of (by decide +kernel), by decide +kernel⟩,
    witness_moves, by decide +kernel,
    ⟨{ fillAll with started := true }, inFlight_of (by decide +kernel), by decide +kernel⟩⟩

/-- A result that is a value. -/
theorem inr_of {α β γ : Type} {x : α × (β ⊕ γ)} (h : x.2.isRight = true) : ∃ a c, x = (a, .inr c) := by
  obtain ⟨a, b | c⟩ := x
  · cases h
  · exact ⟨a, c, rfl⟩

/-- A plate load of one macro from 0x100000, and a table load from 0x40000 into table 3. -/
def plateImage : Cmd := { command .plateLoad [0x100000#32, 0#32, 0#32] with started := true, regs := [0x80202040#32] }
def tableImage (lo table : W32) : Cmd := command .tblLoad [lo, 0#32, table]

theorem witness_ImagesFillPlatesAndTables :
    (∃ (x : Cmd) (s' : State) (img : List Byte), inFlight x (engined x) ∧ (engined x).unmetered x = true ∧ x.kind = .plateLoad ∧ x.started = true ∧
      (engined x).allowance (((engined x).team? x.team).getD Team.missing).cls 0 = 0xFFFFFFFF#32 ∧
      x.bytes ≤ imageBytes (x.regs.headD 0#32) ∧ 0 < imageBytes (x.regs.headD 0#32) ∧
      (engined x).engReadAll x (x.word 1 ++ x.word 0) (imageBytes (x.regs.headD 0#32)) = (s', .inr img)) ∧
    (∃ (x : Cmd) (s' : State) (img : List Byte), inFlight x (engined x) ∧ (engined x).unmetered x = true ∧ x.kind = .tblLoad ∧ (engined x).cmdAfter x = true ∧
      (∀ y ∈ (engined x).ctx.cmds, x.id ≤ y.id) ∧
      (x.word 1 ++ x.word 0).toNat % 64 = 0 ∧ canonical (x.word 1 ++ x.word 0) = true ∧ (x.word 2).toNat < 4 ∧
      (engined x).engReadAll x (x.word 1 ++ x.word 0) 2048 = (s', .inr img)) ∧
    ∃ x : Cmd, inFlight x (engined x) ∧ (engined x).unmetered x = true ∧
      x.kind = .tblLoad ∧ (engined x).cmdAfter x = true ∧
      (∀ y ∈ (engined x).ctx.cmds, x.id ≤ y.id) ∧ (x.word 2).toNat = 4 := by
  refine ⟨?_, ?_, ⟨tableImage 0x40000#32 4#32, inFlight_of (by decide +kernel), by decide +kernel⟩⟩
  · obtain ⟨s', img, h⟩ := inr_of (x := (engined plateImage).engReadAll plateImage 0x100000#64 (imageBytes 0x80202040#32)) (by decide +kernel)
    exact ⟨plateImage, s', img, inFlight_of (by decide +kernel), by decide +kernel, rfl, rfl, by decide +kernel, by decide +kernel, by decide +kernel, h⟩
  · obtain ⟨s', img, h⟩ := inr_of (x := (engined (tableImage 0x40000#32 3#32)).engReadAll (tableImage 0x40000#32 3#32) 0x40000#64 2048) (by decide +kernel)
    exact ⟨tableImage 0x40000#32 3#32, s', img, inFlight_of (by decide +kernel), by decide +kernel, rfl, by decide +kernel, by decide +kernel,
      by decide +kernel, by decide +kernel, by decide +kernel, h⟩

/-- A matrix operation on plate 0, and a store of row 63 at 0x80000. -/
def multiply : Cmd := { command .mxr [0#32, 0#32] with imm := 0x38#8, nm := 1024, ownCount := 2 }
def storeRow : Cmd := { command .accSt [0x80000#32, 0#32, 0x43F#32, 0#32] with imm := 1#8 }

/-- A store of rows 62 and 63 at 0x80000 and 0x81000, in each format; and one of the last row, with no PITCH. -/
def storeRows (fmt : Nat) : Cmd := { storeRow with desc := [0x80000#32, 0#32, BitVec.ofNat 32 (0x83E + fmt * 2 ^ 21), 0x1000#32] }

/-- What the statement asks of the rows of such a store. -/
def rowClear (x : Cmd) (s : State) (pa : Nat → Nat) (tr : Nat → Treat) (width i : Nat) : Prop :=
  let count := fieldOf (x.word 2) 10 11
  let addr (i : Nat) : W64 := (x.word 1 ++ x.word 0) + BitVec.ofNat 64 (i * (x.word 3).toNat)
  canonical (addr i) = true ∧ (addr i).toNat % 65536 + 512 * width ≤ 65536 ∧
    s.Translates ((addr i).toNat % 2 ^ 52) (some .store) (pa i) (tr i) ∧ tr i ≠ .s ∧
    (∀ o, o < 512 * width → s.leafRegion (pa i + o) = none) ∧ rangeOf s.part (pa i) = some .device ∧
    (∀ j, j < count → i ≠ j → pa i + 512 * width ≤ pa j ∨ pa j + 512 * width ≤ pa i) ∧
    ∀ slot ∈ s.walkSlots ((addr i).toNat % 2 ^ 52) 3 s.ctx.ptRoot, ∀ j, j < count →
      slot + 8 ≤ pa j ∨ pa j + 512 * width ≤ slot

theorem rowClear_of {x : Cmd} {s : State} {pa : Nat → Nat} {width i : Nat}
    (h : (let addr : W64 := (x.word 1 ++ x.word 0) + BitVec.ofNat 64 (i * (x.word 3).toNat)
      decide (canonical addr = true ∧ addr.toNat % 65536 + 512 * width ≤ 65536) &&
      translatesB s (addr.toNat % 2 ^ 52) (some .store) (pa i) .u && decide (s.ctx.regions = [] ∧ rangeOf s.part (pa i) = some .device ∧
        (∀ j, j < fieldOf (x.word 2) 10 11 → i ≠ j → pa i + 512 * width ≤ pa j ∨ pa j + 512 * width ≤ pa i) ∧
        ∀ slot ∈ s.walkSlots (addr.toNat % 2 ^ 52) 3 s.ctx.ptRoot, ∀ j, j < fieldOf (x.word 2) 10 11 →
          slot + 8 ≤ pa j ∨ pa j + 512 * width ≤ slot)) = true) : rowClear x s pa (fun _ => .u) width i := by
  simp only [Bool.and_eq_true, decide_eq_true_eq] at h
  obtain ⟨⟨⟨h1, h2⟩, h3⟩, h4, h5, h6, h7⟩ := h
  exact ⟨h1, h2, translates_of h3, by simp, fun o _ => by simp [State.leafRegion, h4], h5, h6, h7⟩

theorem witness_MatrixOperationsUpdateTheirRows :
    (∀ x ∈ [{ multiply with deps := [.failed] }, { multiply with nm := 256 }, multiply, { multiply with started := true },
        storeRow, { storeRow with desc := [0x80001#32, 0#32, 0x43F#32, 0#32] }],
      (engined x).cmd? x.id = some x ∧ (engined x).hasCrew x.team x.crew) ∧
    (∀ x ∈ [{ multiply with deps := [.failed] }, { multiply with nm := 256 }, multiply], x.isMatrix = true ∧
      (engined x).mxReady x = true) ∧
    ({ multiply with deps := [.failed] } : Cmd).poisoned = true ∧
    (multiply.poisoned = false ∧ ({ multiply with nm := 256 } : Cmd).poisoned = false) ∧
    ((engined multiply).team? 2 |>.getD Team.missing).mxFaults { multiply with nm := 256 } = true ∧
    ((engined multiply).team? 2 |>.getD Team.missing).mxFaults multiply = false ∧
    (multiply.isMatrix = true ∧ multiply.tainted = false ∧ multiply.spoiled = []) ∧
    ((engined storeRow).cmdAfter storeRow = true ∧ storeRow.stuck = none ∧ storeRow.spoiled = [] ∧ storeRow.accFaults = false ∧
      ({ storeRow with desc := [0x80001#32, 0#32, 0x43F#32, 0#32] } : Cmd).accFaults = true ∧ storeRow.accCount = 1 ∧
      storeRow.accFmt = 0 ∧ storeRow.spoiledAtIssue = [] ∧ storeRow.pos = 0 ∧ (engined storeRow).unmetered storeRow = true) ∧
    (∀ fmt ∈ [0, 1, 2], let x := storeRows fmt
      inFlight x (engined x) ∧ ((engined x).cmdAfter x = true ∧ x.accFaults = false ∧ x.spoiledAtIssue = [] ∧ x.pos = 0 ∧
        (engined x).unmetered x = true ∧ fieldOf (x.word 2) 10 11 = 2 ∧ fieldOf (x.word 2) 21 3 = fmt) ∧
      (∀ i, i < 2 → rowClear x (engined x) (fun i => 0x80000 + 0x1000 * i) (fun _ => .u) (if fmt = 0 then 4 else 2) i) ∧
      ∀ y ∈ ((engined x).coreSt x.core).l1, y.dirty = 0#64) := by
  refine ⟨?_, by decide +kernel, by decide +kernel, by decide +kernel, by decide +kernel, by decide +kernel, by decide +kernel,
    by decide +kernel, ?_⟩
  · intro x hx
    simp only [List.mem_cons, List.not_mem_nil, or_false] at hx
    rcases hx with rfl | rfl | rfl | rfl | rfl | rfl <;> exact ⟨by decide +kernel, hasCrew_of (by decide +kernel)⟩
  · intro fmt hf
    simp only [List.mem_cons, List.not_mem_nil, or_false] at hf
    rcases hf with rfl | rfl | rfl <;>
      refine ⟨inFlight_of (by decide +kernel), by decide +kernel, fun i hi => ?_, by decide +kernel⟩ <;>
      (have : i = 0 ∨ i = 1 := by omega
       rcases this with rfl | rfl <;> exact rowClear_of (by decide +kernel))

/-- A walk of cluster region 255 into ring 15, the records of its nodes and the ring as given. -/
def walking (x : Cmd) (recs : Sparse 32) (g : Ring) : State :=
  let s := (base.updTeam fun t => { t with rings := updateAt (fun _ => g) 15 t.rings }).updCrew fun c => { c with busy := [(5, 9)] }
  { s with ctx := { s.ctx with cmds := [x], regions := [{ rows with recs := recs }] } }
def walker (k : Walk) : Cmd := { command .walk [0#32, 0xFFF#32, 0#32] with started := true, walk := k }

/-- One node is still to be tested at each level: block 0 of level 0, and the root above it. -/
def atBlock : Walk := { stack := [(0, 0), (0, 1)] }
def atRoot : Walk := { stack := [(1, 0), (0, 1)] }
def oneCounted (node : Nat) : Sparse 32 := [(node * cluStride 16 0, 2#32)]

theorem witness_WalksTestNodesAndFillStages :
    (∃ (x : Cmd) (s : State), s.cmd? x.id = some x ∧ s.hasCrew x.team x.crew ∧ s.noSheet ∧ x.kind = .walk ∧
      s.walkTurn x = true ∧ x.walk.out = [] ∧ x.walk.ended = none ∧ x.started = false ∧
      (((s.team? x.team).getD Team.missing).rings.getD (fieldOf (x.word 1) 8 4) {}).init = false) ∧
    (∀ e ∈ [(atBlock, ([] : Sparse 32)), (atBlock, oneCounted 0), (atRoot, []), (atRoot, oneCounted 4)],
      let x := walker e.1
      let s := walking x e.2 { quietRing with a := 4 }
      (s.cmd? x.id = some x ∧ s.walkTurn x = true ∧ x.walk.out = [] ∧ x.walk.ended = none ∧ x.started = true ∧
        (s.cluRegion (fieldOf (x.word 1) 0 8)).isSome = true ∧ s.allowance ((s.team? x.team).getD Team.missing).cls 1 = 0xFFFFFFFF#32 ∧
        x.walk.stage = none ∧ x.word 2 = 0#32 ∧ { rows with recs := e.2 }.opening = x.walk.opening ∧ x.walk.stack.length = 2 ∧
        s.cluRegion (fieldOf (x.word 1) 0 8) = some { rows with recs := e.2 } ∧ { rows with recs := e.2 }.remapped = false ∧
        s.pathBusy x.core 255 = false ∧
        (let g := ((s.team? x.team).getD Team.missing).rings.getD (fieldOf (x.word 1) 8 4) {}; g.a = g.f + g.scount) ∧
        s.recordBad { rows with recs := e.2 } (rows.nodeNumber (x.walk.stack.headD (0, 0)).1 0) 0 (cluStride 16 0) = false) ∧
      s.hasCrew x.team x.crew ∧ s.noSheet) ∧
    (({ rows with recs := oneCounted 0 }).nodeNumber 0 0 = 0 ∧ ({ rows with recs := oneCounted 0 }).nodeNumber 1 0 = 4 ∧
      ({ rows with recs := oneCounted 0 }).recWord 0 0 = 2#32) ∧
    (({ rows with recs := oneCounted 0 }).passes 0 0#32 false 0#32 [] (normOf []) = true ∧
      ({ rows with recs := oneCounted 0 }).passes 0 0#32 false 3#32 [] (normOf []) = false) ∧
    (∃ (x : Cmd) (s : State), s.cmd? x.id = some x ∧ s.hasCrew x.team x.crew ∧ s.noSheet ∧ x.kind = .walk ∧ s.walkTurn x = true ∧
      x.walk.out = [] ∧ x.walk.ended = none ∧ x.started = true ∧ x.walk.stack ≠ [] ∧
      s.cluRegion (fieldOf (x.word 1) 0 8) = some rows ∧ rows.opening ≠ x.walk.opening ∧
      (let g := ((s.team? x.team).getD Team.missing).rings.getD (fieldOf (x.word 1) 8 4) {}; g.a = g.f + g.scount) ∧
      s.allowance ((s.team? x.team).getD Team.missing).cls 1 = 0xFFFFFFFF#32 ∧ x.walk.stage = none) ∧
    ∃ (x : Cmd) (e : W64) (s : State), s.cmd? x.id = some x ∧ s.hasCrew x.team x.crew ∧ s.noSheet ∧ x.kind = .walk ∧
      x.walk.out = [e] ∧ x.walk.ended = none ∧ x.walk.stage = none ∧ x.walk.spoilt = false ∧
      let g := ((s.team? x.team).getD Team.missing).rings.getD (fieldOf (x.word 1) 8 4) {}
      g.a ≠ g.f + g.scount ∧ 16 ≤ g.ssize ∧ 4096 ≤ ((s.team? x.team).getD Team.missing).spadBytes ∧
      fieldOf (x.word 1) 8 4 < ((s.team? x.team).getD Team.missing).rings.length ∧
      ((s.team? x.team).getD Team.missing).twin = false ∧ (∀ g ∈ ((s.team? x.team).getD Team.missing).rings, g.spoilt = []) ∧
      ∀ y ∈ s.ctx.cmds, y.walksOn x.team (fieldOf (x.word 1) 8 4) = true → y.id = x.id := by
  refine ⟨⟨{ walker {} with started := false }, walking { walker {} with started := false } [] {}, by decide +kernel,
      hasCrew_of (by decide +kernel), by unfold State.noSheet; decide +kernel, by decide +kernel⟩, ?_, by decide +kernel, by decide +kernel,
    ⟨walker { atBlock with opening := 7 }, walking (walker { atBlock with opening := 7 }) [] { quietRing with a := 4 }, by decide +kernel,
      hasCrew_of (by decide +kernel), by unfold State.noSheet; decide +kernel, by decide +kernel⟩,
    ⟨walker { out := [7#64] }, 7#64, walking (walker { out := [7#64] }) [] quietRing, by decide +kernel,
      hasCrew_of (by decide +kernel), by unfold State.noSheet; decide +kernel, by decide +kernel⟩⟩
  intro e he
  simp only [List.mem_cons, List.not_mem_nil, or_false] at he
  rcases he with rfl | rfl | rfl | rfl <;>
    exact ⟨by decide +kernel, hasCrew_of (by decide +kernel), by unfold State.noSheet; decide +kernel⟩

/-! ## Launches, crews, teams and contexts -/

/-- A record of one team of 32 threads at 0x30000, in memory at 0x40000, and waiting at die 0; or at a misaligned address. -/
def launchRecord (done teams : Nat) : List Byte :=
  natBytes 0x30000 8 ++ List.replicate 32 0#8 ++ natBytes done 8 ++ natBytes teams 4 ++ natBytes 32 2 ++ [0#8, 0#8] ++
    natBytes 4096 4 ++ [0#8, 0#8, 255#8, 0#8, 0#8, 1#8] ++ List.replicate 30 0#8 ++ [0#8, 1#8] ++ List.replicate 30 0#8
def offered (place : W64) (done teams : Nat) : State :=
  { base with
    mem := writeBytes base.mem 0x40000 (launchRecord done teams)
    ctx := { base.ctx with incoming := [{ record := place, die := 0, cmd := none }] } }

/-- How a record's check ends, as data. -/
def checkEnd : Checked → Option (Nat × Bool) ⊕ (List Nat × Option LaunchDep)
  | .page _ _ => .inl none
  | .reject c d => .inl (some (c, d))
  | .pass p d => .inr (p, d)

theorem reject_of {α : Type} {x : α × Checked} {c : Nat} {d : Bool} (h : checkEnd x.2 = .inl (some (c, d))) :
    ∃ a, x = (a, .reject c d) := by
  obtain ⟨a, y⟩ := x
  cases y <;> simp_all [checkEnd]

theorem pass_of {α : Type} {x : α × Checked} {p : List Nat} {d : Option LaunchDep} (h : checkEnd x.2 = .inr (p, d)) :
    ∃ a, x = (a, .pass p d) := by
  obtain ⟨a, y⟩ := x
  cases y <;> simp_all [checkEnd]

/-- A context with one launch of one team still to dispatch. -/
def waitingLaunch : State :=
  { base with ctx := { base.ctx with teams := [], launches := [{ probeLaunch with next := 0, accRows := 0, vBudget := 8 }] } }

theorem first_of {α β : Type} {x : Option (α × β)} {a : α} (h : x.map Prod.fst = some a) : ∃ b, x = some (a, b) := by
  cases x with
  | none => cases h
  | some y => obtain ⟨c, b⟩ := y; cases h; exact ⟨b, rfl⟩

/-- A LAUNCH of crew 0 has come to die 0 with its release; the two reserved bits of its word 2 are clear or one is set. -/
def byCommand (s : State) (w2 : W32) : State :=
  let s := s.updCrew fun c => { c with busy := [(5, 9)] }
  { s with ctx := { s.ctx with
      cmds := [{ command .launch [0x40000#32, 0#32, w2] with started := true }]
      incoming := [{ record := 0x40000#64, die := 0, cmd := some 9 }] } }

/-- The same with the release of step 1 still to be made. -/
def unreleased (s : State) : State := { s with ctx := { s.ctx with cmds := s.ctx.cmds.map fun x => { x with started := false } } }
def fromCommand : Incoming := { record := 0x40000#64, die := 0, cmd := some 9 }
def fromHost : Incoming := { record := 0x40000#64, die := 0, cmd := none }

/-- A record that an engine takes. -/
def offers (i : Incoming) (s : State) : Prop := s.ctx.live = true ∧ s.ctx.ended = false ∧
  s.ctx.incoming.find? (fun j => j.die == i.die && s.incomingReady j) = some i ∧
  ∀ y, i.cmd.bind s.cmd? = some y → s.hasCrew y.team y.crew

theorem offers_of {i : Incoming} {s : State} (h : (s.ctx.live && !s.ctx.ended &&
    (s.ctx.incoming.find? (fun j => j.die == i.die && s.incomingReady j) == some i) &&
    ((i.cmd.bind s.cmd?).all fun y => hasCrewB s y.team y.crew)) = true) : offers i s := by
  simp only [Bool.and_eq_true, beq_iff_eq, Bool.not_eq_true'] at h
  refine ⟨h.1.1.1, h.1.1.2, h.1.2, fun y e => ?_⟩
  rw [e] at h
  exact hasCrew_of h.2

/-- The state in which a record is looked at: after the release of the LAUNCH that brought it. -/
def afterRelease (i : Incoming) (s : State) : State :=
  match i.cmd.bind s.cmd? with
  | some y => if y.started then s else s.releaseS y.core false
  | none => s

theorem witness_LaunchesAreAcceptedAndTeamsStart :
    (∀ e ∈ [({ record := 0x40004#64, die := 0, cmd := none }, offered 0x40004#64 0 1),
        (fromCommand, byCommand (offered 0x40000#64 0 1) 0x80000000#32)],
      offers e.1 e.2 ∧ (e.1.record.toNat % 64 ≠ 0 ∨ ∃ y, e.1.cmd.bind e.2.cmd? = some y ∧ fieldOf (y.word 2) 3 29 ≠ 0)) ∧
    (∀ e ∈ [(fromHost, offered 0x40000#64 0x80000 0), (fromCommand, byCommand (offered 0x40000#64 0x80000 0) 0#32),
        (fromCommand, unreleased (byCommand (offered 0x40000#64 0x80000 0) 0#32))],
      ∃ (s1 : State) (r : List Byte) (s2 : State), offers e.1 e.2 ∧
        (afterRelease e.1 e.2).recordAddrOk e.1 = true ∧ (afterRelease e.1 e.2).readOnce e.1 0 e.1.record 128 = (s1, .inr r) ∧
        s1.recordPlace e.1.record = true ∧ s1.recordCheck e.1 r = (s2, .reject 1 true) ∧ field r 40 8 ≠ 0 ∧
        (∀ y ∈ e.2.ctx.launches, e.2.launchOver y = false ∧ y.id < e.2.nextId) ∧ (∀ u ∈ e.2.ctx.teams, u.launch < e.2.nextId) ∧
        (∀ y ∈ e.2.ctx.saved, y.team.launch < e.2.nextId) ∧
        s2.Translates (field r 40 8 % 2 ^ 52) (some .store) 0x80000 .u) ∧
    (∀ e ∈ [(fromHost, offered 0x40000#64 0 1), (fromCommand, byCommand (offered 0x40000#64 0 1) 0#32)],
      ∃ (s1 : State) (r : List Byte) (s2 : State), offers e.1 e.2 ∧
        (afterRelease e.1 e.2).recordAddrOk e.1 = true ∧ (afterRelease e.1 e.2).readOnce e.1 0 e.1.record 128 = (s1, .inr r) ∧
        s1.recordPlace e.1.record = true ∧ s1.recordCheck e.1 r = (s2, .pass [] none) ∧
        s2.queueLength e.1.die (field r 63 1 / 8 % 4) < 64 ∧ e.2.dev.csmode = 0#2) ∧
    ∃ (die at0 : Nat) (x : Launch) (s : State), s.ctx.live = true ∧ s.ctx.ended = false ∧ s.serve die = some (x, at0) ∧
      s.launch? x.id = some x := by
  refine ⟨?_, ?_, ?_, ?_⟩
  · intro e he
    simp only [List.mem_cons, List.not_mem_nil, or_false] at he
    rcases he with rfl | rfl
    · exact ⟨offers_of (by decide +kernel), .inl (by decide)⟩
    · exact ⟨offers_of (by decide +kernel), .inr ⟨_, rfl, by decide +kernel⟩⟩
  · have run (i : Incoming) (s : State) (ho : offers i s)
        (hi : (∀ y ∈ s.ctx.launches, s.launchOver y = false ∧ y.id < s.nextId) ∧ (∀ u ∈ s.ctx.teams, u.launch < s.nextId) ∧
          ∀ y ∈ s.ctx.saved, y.team.launch < s.nextId)
        (h : (let a := afterRelease i s
          let x := a.readOnce i 0 i.record 128
          let y := x.1.recordCheck i (launchRecord 0x80000 0)
          a.recordAddrOk i && decide (x.2 = .inr (launchRecord 0x80000 0)) && x.1.recordPlace i.record &&
            decide (checkEnd y.2 = .inl (some (1, true))) && translatesB y.1 0x80000 (some .store) 0x80000 .u) = true) :
        ∃ (s1 : State) (r : List Byte) (s2 : State), offers i s ∧
          (afterRelease i s).recordAddrOk i = true ∧ (afterRelease i s).readOnce i 0 i.record 128 = (s1, .inr r) ∧
          s1.recordPlace i.record = true ∧ s1.recordCheck i r = (s2, .reject 1 true) ∧ field r 40 8 ≠ 0 ∧
          (∀ y ∈ s.ctx.launches, s.launchOver y = false ∧ y.id < s.nextId) ∧ (∀ u ∈ s.ctx.teams, u.launch < s.nextId) ∧
          (∀ y ∈ s.ctx.saved, y.team.launch < s.nextId) ∧
          s2.Translates (field r 40 8 % 2 ^ 52) (some .store) 0x80000 .u := by
      simp only [Bool.and_eq_true, decide_eq_true_eq] at h
      obtain ⟨s2, h2⟩ := reject_of h.1.2
      have h3 := translates_of h.2
      rw [h2] at h3
      exact ⟨_, launchRecord 0x80000 0, s2, ho, h.1.1.1.1, by rw [← h.1.1.1.2], h.1.1.2, h2, by decide +kernel, hi.1, hi.2.1, hi.2.2, h3⟩
    intro e he
    simp only [List.mem_cons, List.not_mem_nil, or_false] at he
    rcases he with rfl | rfl | rfl <;> exact run _ _ (offers_of (by decide +kernel)) (by decide +kernel) (by decide +kernel)
  · have run (i : Incoming) (s : State) (ho : offers i s) (hm : s.dev.csmode = 0#2)
        (h : (let a := afterRelease i s
          let x := a.readOnce i 0 i.record 128
          let y := x.1.recordCheck i (launchRecord 0 1)
          a.recordAddrOk i && decide (x.2 = .inr (launchRecord 0 1)) && x.1.recordPlace i.record &&
            decide (checkEnd y.2 = .inr ([], none)) && decide (y.1.queueLength i.die (field (launchRecord 0 1) 63 1 / 8 % 4) < 64)) = true) :
        ∃ (s1 : State) (r : List Byte) (s2 : State), offers i s ∧
          (afterRelease i s).recordAddrOk i = true ∧ (afterRelease i s).readOnce i 0 i.record 128 = (s1, .inr r) ∧
          s1.recordPlace i.record = true ∧ s1.recordCheck i r = (s2, .pass [] none) ∧
          s2.queueLength i.die (field r 63 1 / 8 % 4) < 64 ∧ s.dev.csmode = 0#2 := by
      simp only [Bool.and_eq_true, decide_eq_true_eq] at h
      obtain ⟨s2, h2⟩ := pass_of h.1.2
      have h3 := h.2
      rw [h2] at h3
      exact ⟨_, launchRecord 0 1, s2, ho, h.1.1.1.1, by rw [← h.1.1.1.2], h.1.1.2, h2, h3, hm⟩
    intro e he
    simp only [List.mem_cons, List.not_mem_nil, or_false] at he
    rcases he with rfl | rfl <;> exact run _ _ (offers_of (by decide +kernel)) (by decide +kernel) (by decide +kernel)
  · obtain ⟨at0, h⟩ := first_of (x := waitingLaunch.serve 0) (a := { probeLaunch with next := 0, accRows := 0, vBudget := 8 })
      (by decide +kernel)
    exact ⟨0, at0, _, waitingLaunch, by decide +kernel, by decide +kernel, h, by decide +kernel⟩

/-- Crew 0 has exited, alone in its team or beside a second crew; its launch has a bitmap or none. -/
def allExited (s : State) : State := s.updCrew fun c => c.updLanes 0xFFFFFFFF#32 fun _ x => { x with st := .exited }
def bitmapped (s : State) : State := { s with ctx := { s.ctx with launches := [{ probeLaunch with bitmap := 0x80000#64 }] } }

/-- Crew 1 is pending and has been ready since clock 0; the clock is at 2,048. -/
def pendingCrew : State :=
  let s := pair.updCrewOf 2 1 fun c => { c with active := false, readySince := some 0 }
  { s with ctx := { s.ctx with clock := 2048 } }

/-- Lane 31 sleeps to clock 100, lane 0 to 200. -/
def sleeper : State := base.updCrew fun c =>
  (c.updLanes 0x80000000#32 fun _ x => { x with st := .waiting (.sleep 100) }).updLanes 1#32 fun _ x => { x with st := .waiting (.sleep 200) }

/-- A store of a team that has ended is still outstanding. -/
def stranger : State := outstanding [{ request .store with team := 7 }]

theorem witness_CrewsRetireAndTimeGoesOn :
    (∃ (id i : Nat) (s : State), s.hasCrew id i ∧ s.mayRetire ((s.team? id).getD Team.missing) (s.crewOf id i) = true ∧
      ((s.team? id).getD Team.missing).phase = .running ∧ 1 < ((s.team? id).getD Team.missing).staying ∧
      ∀ c ∈ ((s.team? id).getD Team.missing).crews, c.regroupHold = none) ∧
    (∃ (id i : Nat) (x : Launch) (s : State), s.hasCrew id i ∧ s.mayRetire ((s.team? id).getD Team.missing) (s.crewOf id i) = true ∧
      ((s.team? id).getD Team.missing).phase = .running ∧ ((s.team? id).getD Team.missing).staying = 1 ∧
      s.noSheet ∧ s.launch? ((s.team? id).getD Team.missing).launch = some x ∧ x.system = false ∧ x.done = 0#64 ∧
      (∀ y ∈ s.ctx.launches, y = x ∨ (y.word = none ∧ y.next < y.teams) ∨ (∃ u ∈ s.ctx.teams, u.id ≠ id ∧ u.launch = y.id) ∨
        ∃ z ∈ s.ctx.saved, z.team.launch = y.id) ∧
      (∀ c ∈ ((s.team? id).getD Team.missing).allCores, ∀ y ∈ (s.coreSt c).l1, y.dirty = 0#64) ∧ x.bitmap ≠ 0#64 ∧
      s.Translates ((x.bitmap.toNat + ((s.team? id).getD Team.missing).idx / 8) % 2 ^ 52) none 0x80000 .u) ∧
    (∃ (id i : Nat) (e : Team × Crew) (s : State), s.hasCrew id i ∧ s.hasCrew e.1.id e.2.idx ∧ s.crewOf e.1.id e.2.idx = e.2 ∧
      ¬(e.1.id = id ∧ e.2.idx = i) ∧ s.swapDue ((s.team? id).getD Team.missing) (s.crewOf id i) = true ∧
      s.longestActive (s.crewOf id i) = some e) ∧
    (∃ (id i n : Nat) (s : State), s.hasCrew id i ∧ ((s.team? id).getD Team.missing).issues = true ∧ s.ctx.live = true ∧
      (s.crewOf id i).nextWake = some n) ∧
    (∀ e ∈ [(stranger, 0#64), (bitmapped stranger, 0x80000#64)], e.1.noSheet ∧ e.1.UniformReady {} ∧
      (∀ sys : Bool, ∀ r ∈ e.1.ctx.reqs, e.1.chained e.1.crew.core (if sys then .sys else .dev) r = false ∧
        r.id ∉ e.1.fenceReqs e.1.cur.team e.1.cur.crew (if sys then .sys else .dev) true) ∧ e.1.ctx.reqs.length = 1 ∧
      (∀ y ∈ (e.1.coreSt e.1.crew.core).l1, y.dirty = 0#64) ∧ e.1.ctx.l2host = [] ∧
      ((e.1.launch? e.1.team.launch).map Launch.bitmap).getD 0#64 = e.2 ∧ e.1.MayIssue ∧
      e.1.Translates ((0x80000 + e.1.team.idx / 8) % 2 ^ 52) none 0x80000 .u) ∧
    ∃ s : State, s.ctx.live = true ∧ (∀ e ∈ s.ctx.expo, ∀ f ∈ s.ctx.expo, e.core = f.core → e.cls = f.cls → e.act = f.act → e = f) ∧
      s.allowance 0 0 ≠ 0xFFFFFFFF#32 :=
  ⟨⟨2, 0, allExited pair, hasCrew_of (by decide +kernel), by decide +kernel⟩,
    ⟨2, 0, { probeLaunch with bitmap := 0x80000#64 }, bitmapped (allExited base), hasCrew_of (by decide +kernel), by decide +kernel,
      by decide +kernel, by decide +kernel, by unfold State.noSheet; decide +kernel, by decide +kernel, by decide +kernel, by decide +kernel,
      by decide +kernel, by decide +kernel, by decide +kernel, translates_of (by decide +kernel)⟩,
    ⟨2, 1, (pendingCrew.team, pendingCrew.crew), pendingCrew, hasCrew_of (by decide +kernel), hasCrew_of (by decide +kernel),
      by decide +kernel⟩,
    ⟨2, 0, 100, sleeper, hasCrew_of (by decide +kernel), by decide +kernel⟩, by
      intro e he
      simp only [List.mem_cons, List.not_mem_nil, or_false] at he
      rcases he with rfl | rfl <;>
        exact ⟨by unfold State.noSheet; decide +kernel, uniformReady_of (by decide +kernel), by decide +kernel, by decide +kernel,
          by decide +kernel, by decide +kernel, by decide +kernel, mayIssue_of (by decide +kernel), translates_of (by decide +kernel)⟩,
    ⟨spent fillAll, by decide +kernel⟩⟩

/-- A small team that stops, and save slots of 64 KiB at 0x100000, one of them or none. -/
def stopping (slots : W32) (sys : Bool) : State :=
  let s := base.updTeam fun t => { t with phase := .stopping sys, vBudget := 8, kBudget := 16, spadBytes := 4096, accRows := 0 }
  { s with ctx := { s.ctx with saveArea := 0x100000#32, saveSlots := slots, saveStride := 0x10000#32 } }

/-- The small team saved in slot 0, with no team placed: the record that stands there is of zeros. -/
def savedTeam : SavedTeam := { team := (stopping 1#32 false).team, cmds := [], slot := 0, bySystem := true }
def savedState : State :=
  { stopping 1#32 false with ctx := { (stopping 1#32 false).ctx with teams := [], saved := [savedTeam] } }

/-- Slot 0 holds a record, and slot 1 is free. -/
def secondSlot : State := { stopping 2#32 true with ctx := { (stopping 2#32 true).ctx with saved := [savedTeam] } }

/-- A save slot in a page that nothing maps. -/
def unmappedSlot : State := { stopping 1#32 false with ctx := { (stopping 1#32 false).ctx with saveAreaH := 1#32 } }

/-- The record has as many bytes as its size says, each in the pages mapped onto themselves, which hold no entry of the page table. -/
theorem identity_translates {s : State} {va : Nat} {a : Option Access} (ha : (match a with | none => true | some a => permits 0x3E9#64 a) = true)
    (hp : s.part = .lx960) (hr : s.ctx.ptRoot = 0x10000) (ht : s.ctx.tlb = []) (h1 : bytesW64 (readBytes s.mem 0x10000 8) = 0x20001#64)
    (h2 : bytesW64 (readBytes s.mem 0x20000 8) = 0x3E9#64) (hv : va < 2 ^ 30) :
    s.Translates va a va .u ∧ s.walkSlots va 3 s.ctx.ptRoot = [0x10000, 0x20000] := by
  have i3 : levelIndex va 3 = 0 := by show va / 2 ^ 39 % 8192 = 0; omega
  have i2 : levelIndex va 2 = 0 := by show va / 2 ^ 30 % 512 = 0; omega
  have d : 2 ^ 30 ≤ deviceBytes .lx960 := by decide
  have rl : rangeOf .lx960 va = some .device := by rw [rangeOf, if_pos (Nat.lt_of_lt_of_le hv d)]
  have e : ptePage 0x3E9#64 + va % leafBytes 2 = va := by
    rw [show ptePage 0x3E9#64 = 0 by decide, show leafBytes 2 = 2 ^ 30 from rfl]; omega
  have ok : leafOk .lx960 0x3E9#64 2 va = true := by
    unfold leafOk
    rw [e, rl]
    decide
  have t1 : ptePage 0x20001#64 = 0x20000 := by decide
  have b1 : pteReserved 0x20001#64 = false := by decide
  have b2 : pteReserved 0x3E9#64 = false := by decide
  have r1 : (rangeOf .lx960 0x10000).isNone = false := by decide
  have r2 : (rangeOf .lx960 0x20000).isNone = false := by decide
  have g1 : (0x20001#64).getLsbD 0 = true ∧ (0x20001#64).getLsbD 3 = false ∧ (0x20001#64).extractLsb' 8 2 = 0#2 := by decide
  have g2 : (0x3E9#64).getLsbD 0 = true ∧ (0x3E9#64).getLsbD 3 = true := by decide
  have s1 : s.walkFrom va 3 0x10000 = s.walkFrom va 2 0x20000 := by
    rw [State.walkFrom.eq_def s va 3 0x10000]
    simp [hp, i3, h1, t1, b1, r1, g1]
  have s2 : s.walkFrom va 2 0x20000 = .leaf 0x3E9#64 2 := by
    rw [State.walkFrom.eq_def]
    simp [hp, i2, h2, b2, r2, g2, ok]
  have wk : s.walk va = .leaf 0x3E9#64 2 := by unfold State.walk; rw [hr, s1, s2]
  refine ⟨⟨?_, fun k hk => by rw [ht] at hk; cases hk⟩, ?_⟩
  · have t : treatOf 0x3E9#64 = some .u := by decide
    rw [wk]
    unfold Walked.apply
    simp only [t, e]
    exact if_pos ha
  · have s1 : s.walkSlots va 3 0x10000 = 0x10000 :: s.walkSlots va 2 0x20000 := by
      rw [State.walkSlots.eq_def s va 3 0x10000]
      simp [i3, h1, t1, g1]
    have s2 : s.walkSlots va 2 0x20000 = [0x20000] := by
      rw [State.walkSlots.eq_def]
      simp [i2, h2, g2]
    rw [hr, s1, s2]

theorem witness_recordTranslates : let s := stopping 1#32 false
    let at0 : W64 := (s.ctx.saveAreaH ++ s.ctx.saveArea) + BitVec.ofNat 64 (0 * s.ctx.saveStride.toNat)
    (s.recordBytes s.team).length = s.team.recordSize ∧ ∀ o, o < s.team.recordSize →
      s.Translates ((at0 + BitVec.ofNat 64 o).toNat % 2 ^ 52) (some .store) (0x100000 + o) .u ∧
      ∀ x ∈ s.walkSlots ((at0 + BitVec.ofNat 64 o).toNat % 2 ^ 52) 3 s.ctx.ptRoot, ∀ j, j < 8 →
        ∀ u, u < s.team.recordSize → 0x100000 + u ≠ x + j := by
  refine ⟨by decide +kernel, fun o ho => ?_⟩
  have n : (stopping 1#32 false).team.recordSize ≤ 65536 := by decide +kernel
  have e : ((stopping 1#32 false).ctx.saveAreaH ++ (stopping 1#32 false).ctx.saveArea) +
      BitVec.ofNat 64 (0 * (stopping 1#32 false).ctx.saveStride.toNat) = 0x100000#64 := by decide +kernel
  have v : (0x100000#64 + BitVec.ofNat 64 o).toNat % 2 ^ 52 = 0x100000 + o := by
    rw [BitVec.toNat_add, BitVec.toNat_ofNat, BitVec.toNat_ofNat]; omega
  have := identity_translates (s := stopping 1#32 false) (va := 0x100000 + o) (a := some .store) (by decide) rfl (by decide +kernel)
    (by decide +kernel) (by decide +kernel) (by decide +kernel) (by omega)
  rw [e, v]
  refine ⟨this.1, ?_⟩
  rw [this.2]
  intro x hx j hj u _
  simp only [List.mem_cons, List.not_mem_nil, or_false] at hx
  rcases hx with rfl | rfl <;> omega

/-- A read of any length gives as many bytes as are asked for. -/
theorem sysReadAll_length (fuel : Nat) : ∀ (s : State) (va n : Nat), n = 0 ∨ va % 64 + n ≤ 64 * fuel →
    (s.sysReadAll fuel va n).2.length = n := by
  induction fuel with
  | zero => intro s va n h; simp only [State.sysReadAll, List.length_nil]; omega
  | succ fuel ih =>
    intro s va n h
    unfold State.sysReadAll
    split
    · next e => simp [e]
    · have one : (s.sysRead va (min n (64 - va % 64))).2.length = min n (64 - va % 64) := by
        unfold State.sysRead
        split <;> simp [State.homeRead]
      have rest := ih (s.sysRead va (min n (64 - va % 64))).1 (va + min n (64 - va % 64)) (n - min n (64 - va % 64)) (by omega)
      simp only [List.length_append, one, rest]
      omega

theorem witness_TeamsAreSavedRestoredAndEnded :
    (∃ (team : Team) (s : State), s.team? team.id = some team ∧ team.phase = .running) ∧
    (∃ (team : Team) (s : State), s.team? team.id = some team ∧ team.phase = .stopping true ∧ s.drained team = true ∧
      (∀ c ∈ team.crews, ∀ x ∈ c.lanes, x.st = .runnable) ∧ s.saveRoom team = none) ∧
    (∃ (team : Team) (s : State), s.team? team.id = some team ∧ team.phase = .stopping true ∧ s.drained team = true ∧
      (∀ c ∈ team.crews, ∀ x ∈ c.lanes, x.st = .runnable) ∧ 1 < (s.ctx.saveSlots.extractLsb' 0 16).toNat ∧ s.ctx.saved ≠ [] ∧
      s.saveRoom team = some 1) ∧
    (∃ (team : Team) (s s' : State) (p : Nat), s.team? team.id = some team ∧ team.phase = .stopping false ∧ s.drained team = true ∧
      (∀ c ∈ team.crews, ∀ x ∈ c.lanes, x.st = .runnable) ∧ s.saveRoom team = some 0 ∧ s.writeRecord team 0 = (s', .page p)) ∧
    (∃ (team : Team) (s s' : State), s.team? team.id = some team ∧ team.phase = .stopping false ∧ s.drained team = true ∧
      (∀ c ∈ team.crews, ∀ x ∈ c.lanes, x.st = .runnable) ∧ s.saveRoom team = some 0 ∧ s.writeRecord team 0 = (s', .ok) ∧
      team.crews.length = team.ncrews ∧ ∀ c ∈ team.crews, c.lanes.length = 32) ∧
    (∃ (x : SavedTeam) (ys : List Byte) (s s' : State), s.ctx.saved.find? (fun y => y.team.id == x.team.id) = some x ∧
      s.mayRestore x = true ∧ x.answers = [] ∧ (∀ u ∈ s.ctx.teams, u.id ≠ x.team.id ∧ u.phase ≠ .blocked) ∧ s.readRecord x = (s', some ys) ∧
      ys.length = x.team.recordSize ∧ x.team.crews.length = x.team.ncrews) ∧
    ∃ (x : Launch) (s : State), s.launch? x.id = some x ∧ (∃ u ∈ s.ctx.teams, u.launch = x.id) ∧
      (∀ u ∈ s.ctx.teams, u.phase ≠ .blocked) ∧ ∀ y ∈ s.ctx.launches, ∃ u ∈ s.ctx.teams, u.launch = y.id := by
  refine ⟨⟨base.team, base, by decide +kernel⟩, ⟨(stopping 0#32 true).team, stopping 0#32 true, by decide +kernel⟩,
    ⟨(stopping 2#32 true).team, secondSlot, by decide +kernel⟩, ?_, ?_, ?_,
    ⟨probeLaunch, base, by decide +kernel⟩⟩
  · obtain ⟨s', h⟩ := second_of (x := unmappedSlot.writeRecord unmappedSlot.team 0) (b := .page 0x10010) (by decide +kernel)
    exact ⟨unmappedSlot.team, unmappedSlot, s', _, by decide +kernel, by decide +kernel, by decide +kernel, by decide +kernel,
      by decide +kernel, h⟩
  · obtain ⟨s', h⟩ := second_of (x := (stopping 1#32 false).writeRecord (stopping 1#32 false).team 0) (b := .ok) (by decide +kernel)
    exact ⟨(stopping 1#32 false).team, stopping 1#32 false, s', by decide +kernel, by decide +kernel, by decide +kernel,
      by decide +kernel, by decide +kernel, h, by decide +kernel, by decide +kernel⟩
  · have scanned : (savedState.engScan (savedState.slotAddr 0) savedTeam.team.recordSize .load).2 = none := by decide +kernel
    have aligned : ((savedState.slotAddr 0).toNat % 2 ^ 52) % 64 = 0 := by decide +kernel
    obtain ⟨s1, h1⟩ := second_of scanned
    refine ⟨savedTeam, (s1.sysReadAll (savedTeam.team.recordSize / 64 + 2) ((savedState.slotAddr 0).toNat % 2 ^ 52)
        savedTeam.team.recordSize).2, savedState, (s1.sysReadAll (savedTeam.team.recordSize / 64 + 2)
        ((savedState.slotAddr 0).toNat % 2 ^ 52) savedTeam.team.recordSize).1, by decide +kernel, by decide +kernel, rfl, by decide +kernel, ?_,
      sysReadAll_length _ _ _ _ (.inr (by omega)), by decide +kernel⟩
    show savedState.readRecord savedTeam = _
    simp only [State.readRecord, show savedTeam.slot = 0 from rfl, h1]

/-- No context is live; or one idle context is; and the doorbell holds one slot for die 0 or for die 255. -/
def unborn : State := { base with ctx := {} }
def idle : State := { base with ctx := { base.ctx with teams := [], launches := [] } }
def idleWith (gs : List Region) (away : List Nat := []) : Context := { idle.ctx with regions := gs, away := away }
def leftBehind (c : Context) : State := { unborn with swapped := [c], dev := { unborn.dev with left := [{ core := 0, tables := [(0, 7#32)], lastLaunch := none }] } }
def rung (die : W32) : State := { idle with dev := { idle.dev with dbHead := 255#8, dbTail := 0#8, dbSlots := [(1022, die)] } }

theorem witness_ContextsAndTheDoorbellQueue :
    (∃ s : State, s.dev.boot = .running ∧ s.ctx.live = false ∧ s.part = .lx960 ∧ s.dev.fences = [] ∧ s.dev.flashFences = []) ∧
    (∀ gs ∈ [[], [sums 0]], ∃ s : State, s.ctx.regions = gs ∧ s.ctx.live = true ∧ s.ctx.teams = [] ∧ s.ctx.reqs = [] ∧
      s.ctx.cmds = [] ∧ s.ctx.l2host = [] ∧ s.ctx.openL2 = [] ∧ (∀ x ∈ s.ctx.coreSts, ∀ y ∈ x.l1, y.dirty = 0#64) ∧
      ∀ g ∈ gs, 0 < g.bytes.length ∧ ∀ o u, o < g.bytes.length → u < g.bytes.length → g.shadow.pa o = g.shadow.pa u → o = u) ∧
    (∃ (n : Nat) (c : Context) (s : State), s.ctx.live = false ∧ s.swapped[n]? = some c ∧ c.live = true ∧ c.ended = false ∧
      c.resident = false ∧ (∀ x ∈ s.swapped, x.live = true → ∀ p ∈ c.cores, x.runs p = false) ∧ s.dev.left ≠ [] ∧
      ∃ g, c.regions[0]? = some g ∧ g.kind = .agg 0 4 ∧ g.shadow.bytes = aggShadow 0 4) ∧
    (∃ (n : Nat) (c : Context) (s : State), s.ctx.live = false ∧ s.swapped[n]? = some c ∧ c.live = true ∧ c.ended = false ∧
      c.resident = false ∧ (∀ x ∈ s.swapped, x.live = true → ∀ p ∈ c.cores, x.runs p = false) ∧
      ∃ g, c.regions[0]? = some g ∧ g.isAgg = false) ∧
    (∃ (i : Incoming) (s : State), s.slotReady = true ∧ s.heldRecord = some i ∧ i.die < dieCount s.part) ∧
    (∃ s : State, s.slotReady = true ∧ s.heldRecord = none ∧ dieCount s.part ≤ (readKey s.dev.dbSlots (4 * s.dev.dbHead.toNat + 2)).toNat) ∧
    ∃ s : State, s.slotReady = true ∧ s.heldRecord = none ∧ (readKey s.dev.dbSlots (4 * s.dev.dbHead.toNat + 2)).toNat < dieCount s.part := by
  refine ⟨⟨unborn, by decide +kernel⟩, ?_,
    ⟨0, idleWith [sums 0] [0, 1], leftBehind (idleWith [sums 0] [0, 1]), by decide +kernel, by decide +kernel, by decide +kernel,
      by decide +kernel, by decide +kernel, by decide +kernel, by decide +kernel, sums 0, by decide +kernel⟩,
    ⟨0, idleWith [rows] [0, 1], leftBehind (idleWith [rows] [0, 1]), by decide +kernel, by decide +kernel, by decide +kernel,
      by decide +kernel, by decide +kernel, by decide +kernel, rows, by decide +kernel⟩,
    ⟨{ fromHost with held := some 3 }, { rung 0#32 with dev := { (rung 0#32).dev with dbHeld := some ((rung 0#32).ctx.id, { fromHost with held := some 3 }) } },
      by decide +kernel⟩,
    ⟨rung (BitVec.ofNat 32 (dieCount .lx960)), by decide +kernel⟩, ⟨rung 0#32, by decide +kernel⟩⟩
  have pa (o : Nat) (h : o < 65536) : (sums 0).shadow.pa o = 0x50000 + o := by
    have e : (0x50000 % 65536 + o) / 65536 = 0 := by omega
    simp only [sums, Span.pa, e, List.getD_cons_zero]
    omega
  intro gs h
  have clean : ∀ x ∈ idle.ctx.coreSts, ∀ y ∈ x.l1, y.dirty = 0#64 := by decide +kernel
  refine ⟨{ idle with ctx := idleWith gs }, rfl, rfl, rfl, rfl, rfl, rfl, rfl, clean, ?_⟩
  simp only [List.mem_cons, List.not_mem_nil, or_false] at h
  rcases h with rfl | rfl
  · intro g hg; cases hg
  · intro g hg
    obtain rfl := List.mem_singleton.mp hg
    have n : (sums 0).bytes.length ≤ 65536 := by decide +kernel
    refine ⟨by decide +kernel, fun o u ho hu e => ?_⟩
    rw [pa o (by omega), pa u (by omega)] at e
    omega

/-! ## System -/

theorem witness_BudgetsTimeAndEndsOfLaunches :
    (∀ e ∈ [(base, true), (spent fillAll, false)], ∃ s : State, s = e.1 ∧
      (s.allowance s.team.cls 0 = 0xFFFFFFFF#32 ↔ e.2 = true) ∧ s.noSheet ∧ s.UniformReady {} ∧ s.ctx.privileged = true ∧
      (∀ d ∈ [0, 254], s.UniformReady { k := [d] } ∧ s.UniformReady { k := [d, d + 1] } ∧ s.UniformReady { k := [d, 0] }) ∧
      ∃ x, s.launch? s.team.launch = some x) ∧
    ∃ s : State, s.noSheet ∧ s.AtUnit ∧ s.ctx.privileged = false ∧ ∀ l ∈ lanesOf s.cur.run, (s.crew.lane l).inHandler = false := by
  refine ⟨?_, ⟨{ base with ctx := { base.ctx with privileged := false } }, by unfold State.noSheet; decide +kernel,
      atUnit_of (by decide +kernel), by decide +kernel, by decide +kernel⟩⟩
  have run (s : State) (b : Bool) (h : (decide ((s.allowance s.team.cls 0 = 0xFFFFFFFF#32 ↔ b = true) ∧
        (∀ y ∈ s.ctx.launches, y.recording = false ∧ y.replaying = false) ∧ s.ctx.privileged = true) && uniformReadyB s {} &&
        ([0, 254].all fun d => uniformReadyB s { k := [d] } && uniformReadyB s { k := [d, d + 1] } && uniformReadyB s { k := [d, 0] }) &&
        (s.launch? s.team.launch).isSome) = true) : ∃ t : State, t = s ∧
      (t.allowance t.team.cls 0 = 0xFFFFFFFF#32 ↔ b = true) ∧ t.noSheet ∧ t.UniformReady {} ∧ t.ctx.privileged = true ∧
      (∀ d ∈ [0, 254], t.UniformReady { k := [d] } ∧ t.UniformReady { k := [d, d + 1] } ∧ t.UniformReady { k := [d, 0] }) ∧
      ∃ x, t.launch? t.team.launch = some x := by
    simp only [Bool.and_eq_true, decide_eq_true_eq, List.all_eq_true] at h
    exact ⟨s, rfl, h.1.1.1.1, h.1.1.1.2.1, uniformReady_of h.1.1.2, h.1.1.1.2.2,
      fun d hd => ⟨uniformReady_of (h.1.2 d hd).1.1, uniformReady_of (h.1.2 d hd).1.2, uniformReady_of (h.1.2 d hd).2⟩,
      Option.isSome_iff_exists.mp h.2⟩
  intro e he
  simp only [List.mem_cons, List.not_mem_nil, or_false] at he
  rcases he with rfl | rfl <;> exact run _ _ (by decide +kernel)

def queuedRun : ParkedRun := { lanes := 0x80000001#32, ulen := 1, uniform := false }
def opened : Episode := { lanes := 0x80000001#32, trapPc := 0#32, trapInfo := 0#32, causes := [], trapAddr := 0#64 }

/-- Lanes 0 and 31 are parked with PROT and ALIGN, in the queue of their crew; the team has a handler or none. -/
def queued (handler : W32) : State :=
  (base.updTeam fun t => { t with handler := handler }).updCrew fun c =>
    { (c.updLanes 0x80000000#32 fun _ x => { x with st := .parked, cause := .align, saved := 0x30000#52 }).updLanes 1#32
        (fun _ x => { x with st := .parked, cause := .prot, saved := 0x30000#52 }) with
      queue := [queuedRun] }

/-- An episode of lanes 0 and 31: all in the run at 0x30000, or lane 31 still at another address of the handler. -/
def episode (lone : Bool) : State :=
  let s := base.updCrew fun c =>
    { c.updLanes 0x80000001#32 (fun l x => { x with inHandler := true, saved := 0x30010#52, pc := if lone && l == 31 then 0x30020#52 else x.pc }) with
      episode := some opened }
  { s with cur := { s.cur with run := if lone then 1#32 else 0x80000001#32 } }

theorem witness_TrapsEnterAndLeaveTheHandler :
    (∃ s : State, s.UniformReady {} ∧ (∀ l ∈ lanesOf s.cur.run, (s.crew.lane l).inHandler = false) ∧
      s.crew.queuedLanes &&& s.cur.run = 0#32 ∧ s.crew.episode = none) ∧
    (∀ h ∈ [0#32, 64#32], ∃ (id i : Nat) (r : ParkedRun) (rest : List ParkedRun) (low : Nat) (s : State), s.hasCrew id i ∧
      ((s.crewOf id i).queue = r :: rest ∧ (s.crewOf id i).episode = none ∧ ((s.team? id).getD Team.missing).issues = true ∧
        (s.crewOf id i).lanes.length = 32 ∧ low ∈ lanesOf r.lanes ∧
        (∀ l ∈ lanesOf r.lanes, ((s.crewOf id i).lane low).cause.code ≤ ((s.crewOf id i).lane l).cause.code ∧
          (((s.crewOf id i).lane l).cause = ((s.crewOf id i).lane low).cause → low ≤ l)) ∧
        ((s.team? id).getD Team.missing).handler = h)) ∧
    (∀ lone : Bool, ∃ (e : Episode) (s : State), s.UniformReady {} ∧ (s.crew.episode = some e ∧
      (∀ l ∈ lanesOf s.cur.run, (s.crew.lane l).inHandler = true) ∧ s.crew.holds = [] ∧
      (∀ l, l < 32 → (s.crew.lane l).st ≠ .held) ∧ (∀ x ∈ s.team.crews, x.regroupHold = none) ∧
      (∀ l ∈ lanesOf e.lanes, l < s.crew.lanes.length) ∧
      ((∀ l ∈ lanesOf e.lanes, (s.crew.lane l).removed = true ∨ s.cur.run.getLsbD l = true ∨
        (s.crew.lane l).st = .waiting .eret) ↔ lone = false))) := by
  refine ⟨⟨base, uniformReady_of (by decide +kernel), by decide +kernel⟩, ?_, ?_⟩
  · intro h hh
    simp only [List.mem_cons, List.not_mem_nil, or_false] at hh
    rcases hh with rfl | rfl
    · exact ⟨2, 0, queuedRun, [], 31, queued 0#32, hasCrew_of (by decide +kernel), by decide +kernel⟩
    · exact ⟨2, 0, queuedRun, [], 31, queued 64#32, hasCrew_of (by decide +kernel), by decide +kernel⟩
  · intro lone
    cases lone
    · exact ⟨opened, episode false, uniformReady_of (by decide +kernel), by decide +kernel⟩
    · exact ⟨opened, episode true, uniformReady_of (by decide +kernel), by decide +kernel⟩

/-- k6 names lane 31, and k7 holds 8; k8 holds 2. -/
def parkers (s : State) : State := s.updCrew fun c => ((c.setK 6 0x80000000#32).setK 7 8#32).setK 8 2#32

/-- Lane 0, the run's, is in the handler beside lane 31, which stands at the ERET. -/
def lastToCome : State := (parkers (episode true)).updCrew fun c =>
  (c.updLanes 0x80000000#32 fun _ x => { x with st := .waiting .eret }).setK 9 1#32

/-- What the statement about a handler's moves asks for of every crew. -/
def unheld (s : State) : Prop := s.crew.holds = [] ∧ (∀ l, l < 32 → (s.crew.lane l).st ≠ .held) ∧
  (∀ x ∈ s.team.crews, x.regroupHold = none) ∧ s.crew.lanes.length = 32

theorem witness_HandlersMoveAndRemoveLanes :
    (∃ (a b bad : BitVec 8) (e : Episode) (s : State), (unheld s ∧ s.crew.episode = some e ∧
      (∀ l ∈ lanesOf s.cur.run, (s.crew.lane l).inHandler = true) ∧ (s.crew.kreg b.toNat).toNat % 4 = 0 ∧
      (s.crew.kreg bad.toNat).toNat % 4 ≠ 0 ∧ (s.launch? s.team.launch).isSome = true ∧
      ∀ l, l < 32 → (s.crew.lane l).st ≠ .waiting .eret) ∧
      s.UniformReady { k := [a.toNat, b.toNat] } ∧ s.UniformReady { k := [a.toNat, bad.toNat] } ∧ s.UniformReady { k := [a.toNat] }) ∧
    (∃ (a : BitVec 8) (e : Episode) (s : State), (unheld s ∧ s.crew.episode = some e ∧
      (∀ l ∈ lanesOf s.cur.run, (s.crew.lane l).inHandler = true) ∧ (∃ l, l < 32 ∧ (s.crew.lane l).st = .waiting .eret) ∧
      ∀ l ∈ lanesOf e.lanes, ((s.crew.kreg a.toNat).getLsbD l = true ∧ e.lanes.getLsbD l = true ∧ (s.crew.lane l).removed = false) ∨
        (s.crew.lane l).st = .waiting .eret) ∧ s.UniformReady { k := [a.toNat] }) ∧
    ∃ (a b : BitVec 8) (s : State), (unheld s ∧
      (∀ l ∈ lanesOf s.cur.run, (s.crew.lane l).inHandler = false)) ∧ s.UniformReady { k := [a.toNat, b.toNat] } ∧
      s.UniformReady { k := [a.toNat] } :=
  ⟨⟨6#8, 7#8, 8#8, opened, parkers (episode true), by unfold unheld; decide +kernel, uniformReady_of (by decide +kernel),
      uniformReady_of (by decide +kernel), uniformReady_of (by decide +kernel)⟩,
    ⟨9#8, opened, lastToCome, by unfold unheld; decide +kernel, uniformReady_of (by decide +kernel)⟩,
    ⟨6#8, 7#8, parkers base, by unfold unheld; decide +kernel, uniformReady_of (by decide +kernel), uniformReady_of (by decide +kernel)⟩⟩

/-- k6 holds 32, the lowest value that FPFLAGS does not take; k7 holds 31; k8 holds 1; k9 a value only TBLIDX takes. -/
def values : State := base.updCrew fun c => (((c.setK 6 32#32).setK 7 31#32).setK 8 1#32).setK 9 0x800#32
def lockstepped : State := values.updTeam fun t => { t with bracket := true }
def tableLoading : State := { values with ctx := { values.ctx with cmds := [command .tblLoad [0#32, 0#32, 0#32]] } }
def unprivileged : State := { values with ctx := { values.ctx with privileged := false } }

/-- What k(r) holds there. -/
def held (r : Nat) : Nat := (values.crew.kreg r).toNat

/-- What the statement about control registers asks for, with register r. -/
def csrReady (s : State) (r : Nat) : Prop := s.UniformReady { k := [r] } ∧ s.ctx.privileged = true ∧ s.ctx.xinvCmd = 0 ∧ s.noSheet ∧
  (∀ l ∈ lanesOf s.cur.run, (s.crew.lane l).inHandler = false) ∧ (∀ q ∈ s.ctx.reqs, ¬(q.team = s.cur.team ∧ q.crew = s.crew.idx)) ∧
  s.team.id = s.cur.team ∧ ∀ u ∈ s.ctx.teams, u.phase ≠ .blocked

theorem witness_ControlRegistersAreReadAndWritten :
    (∀ s ∈ [values, lockstepped], ∀ r ∈ [0, 6, 7, 8, 9, 255], csrReady s r ∧
      ∀ x ∈ s.ctx.cmds, s.fillsTables x s.crew.core = false) ∧
    ((∀ n ∈ [0x000#12, 0x0FF#12, 0x085#12, 0x053#12], (Instr.csrr 255#8 n).wellFormed = true) ∧
      ∀ n ∈ [0x020#12, 0x052#12, 0x097#12, 0x082#12, 0x040#12, 0x083#12], (Instr.csrw 255#8 n).wellFormed = true) ∧
    lockstepped.team.bracket = true ∧
    (csrReady tableLoading 8 ∧ ∃ x ∈ tableLoading.ctx.cmds, tableLoading.fillsTables x tableLoading.crew.core = true) ∧
    (held 8 = 1 ∧ held 7 < 32 ∧ 32 ≤ held 6 ∧ held 6 % 64 ≠ 0 ∧ held 0 % 64 = 0 ∧
      csrAccepts .lx960 0x083 (held 9) ∧ ¬csrAccepts .lx960 0x040 (held 6) ∧ csrAccepts .lx960 0x020 (held 6) ∧
      ¬csrAccepts .lx960 0x020 (held 7) ∧ (held 8 < 2048 ∧ held 8 / 4 % 64 = 0 ∧ held 8 % 4 ≠ 3) ∧ ¬held 9 < 2048) ∧
    ∃ s : State, s.AtUnit ∧ s.ctx.privileged = false ∧ ∀ l ∈ lanesOf s.cur.run, (s.crew.lane l).inHandler = false := by
  have run (s : State) (r : Nat) (h : (uniformReadyB s { k := [r] } && decide (s.ctx.privileged = true ∧ s.ctx.xinvCmd = 0 ∧
      (∀ y ∈ s.ctx.launches, y.recording = false ∧ y.replaying = false) ∧
      (∀ l ∈ lanesOf s.cur.run, (s.crew.lane l).inHandler = false) ∧ (∀ q ∈ s.ctx.reqs, ¬(q.team = s.cur.team ∧ q.crew = s.crew.idx)) ∧
      s.team.id = s.cur.team ∧ ∀ u ∈ s.ctx.teams, u.phase ≠ .blocked)) = true) : csrReady s r := by
    simp only [Bool.and_eq_true, decide_eq_true_eq] at h
    exact ⟨uniformReady_of h.1, h.2⟩
  refine ⟨?_, ⟨by decide +kernel, by decide +kernel⟩, by decide +kernel, ⟨run _ _ (by decide +kernel), by decide +kernel⟩,
    ⟨by decide +kernel, by decide +kernel, by decide +kernel, by decide +kernel, by decide +kernel, by unfold csrAccepts; decide +kernel,
      by unfold csrAccepts; decide +kernel, by unfold csrAccepts; decide +kernel, by unfold csrAccepts; decide +kernel, by decide +kernel,
      by decide +kernel⟩,
    ⟨unprivileged, atUnit_of (by decide +kernel), by decide +kernel, by decide +kernel⟩⟩
  intro s hs r hr
  simp only [List.mem_cons, List.not_mem_nil, or_false] at hs hr
  rcases hs with rfl | rfl <;> rcases hr with rfl | rfl | rfl | rfl | rfl | rfl <;>
    exact ⟨run _ _ (by decide +kernel), by decide +kernel⟩

/-- Four bytes hold a number below 2^32. -/
theorem bytesNat_word (n : Nat) (h : n < 2 ^ 32) : bytesNat (natBytes n 4) = n := by
  simp only [natBytes, bytesNat, BitVec.toNat_ofNat]
  omega

/-- A flit of SEQ 0 and ACK 5 with the CRC it needs; port 0 has two flits not acknowledged, the first of SEQ 5. -/
def flitBody : List Byte := [0#8, 0#8, 0#8, 5#8] ++ List.replicate 248 0#8
def flit : List Byte := flitBody ++ natBytes (Config.crc32 flitBody).toNat 4

theorem flit_split : flit.take 252 = flitBody ∧ flit.drop 252 = natBytes (Config.crc32 flitBody).toNat 4 :=
  ⟨List.take_left' (by decide +kernel), List.drop_left' (by decide +kernel)⟩

theorem flit_head (n m : Nat) (h : n + m ≤ 252) : (flit.drop n).take m = (flitBody.drop n).take m := by
  have l : flitBody.length = 252 := by decide +kernel
  rw [flit, List.drop_append_of_le_length (by omega), List.take_append_of_le_length (by rw [List.length_drop]; omega)]

/-- Port 0 has a NAK to send, or is to send again. -/
def sending (nak resend : Bool) : State :=
  { base with dev := { base.dev with ports := [{ index := 0, nak := nak, resend := resend, unacked := [[5#8, 0#8, 0#8]] }] } }

/-- A store toward a peer whose only route leads over port 0; a launch with a DONE word. -/
def routed (rs : List Req) : State :=
  { outstanding rs with dev := { base.dev with ports := [{ index := 0 }], routes := [(1, 0)] } }
def finishing : State := { base with ctx := { base.ctx with launches := [{ probeLaunch with done := 0x80000#64 }] } }
def linked : State := { base with dev := { base.dev with ports := [{ index := 0, unacked := [[5#8, 0#8, 0#8], [6#8, 0#8, 0#8]] }] } }

theorem witness_ErrorsLinksAndPower :
    (∃ (cls index : BitVec 8) (s : State), s.dev.sercfg.toNat % 256 ≠ 0 ∧
      s.dev.errorCount cls index + 1 < s.dev.sercfg.toNat / 256 % 256) ∧
    (∃ (cls index : BitVec 8) (s : State), s.dev.sercfg.toNat % 256 ≠ 0 ∧
      s.dev.sercfg.toNat / 256 % 256 ≤ s.dev.errorCount cls index + s.dev.sercfg.toNat / 256 % 256 ∧
      s.dev.fenced cls index = false ∧ s.ctx.live = true ∧ s.ctx.uses cls index false = true ∧
      ∃ u ∈ s.ctx.teams, ∃ x ∈ s.ctx.launches, x.id = u.launch) ∧
    (∃ (cls index : BitVec 8) (s : State), s.dev.sercfg.toNat % 256 ≠ 0 ∧
      s.dev.sercfg.toNat / 256 % 256 ≤ s.dev.errorCount cls index + s.dev.sercfg.toNat / 256 % 256 ∧
      s.dev.fenced cls index = false ∧ s.ctx.uses cls index true = false) ∧
    (∃ (f : List Byte) (p : Port) (s : State), f.length = 256 ∧ s.dev.ports[0]? = some p ∧ p.index = 0 ∧ p.up = true ∧
      (Config.crc32 (f.take 252)).toNat = bytesNat ((f.drop 252).take 4) ∧ bytesNat ((f.drop 0).take 3) = p.expect.toNat ∧
      ∃ before g rest, p.unacked = before ++ g :: rest ∧ bytesNat (g.take 3) = bytesNat ((f.drop 3).take 3) ∧
        ∀ h ∈ before, bytesNat (h.take 3) ≠ bytesNat ((f.drop 3).take 3)) ∧
    (∀ nak resend : Bool, ∃ p q : Port, (sending nak resend).dev.ports[0]? = some p ∧
      ((sending nak resend).portSend 0).dev.ports[0]? = some q ∧ p.index = 0 ∧ p.up = true ∧ p.nak = nak ∧ p.resend = resend) ∧
    (∀ kind ∈ [ReqKind.store, .atom 0#8], ∃ (r : Req) (s : State), s.ctx.reqs = [r] ∧ r.kind = kind ∧
      rangeOf s.part r.pa = some (.peer 1) ∧ 0 < r.size ∧ (∀ q ∈ s.ctx.reqs, q.bound = none) ∧
      (∀ c ∈ s.swapped, c.resident = false) ∧ s.dev.cut 1 = false ∧
      ({ s.dev with ports := s.dev.ports.map fun (p : Port) => if p.index = 0 then { p with up := false } else p } : Device).cut 1 = true) ∧
    (∃ (x : Launch) (s : State), s.ctx.launches = [x] ∧ s.swapped = [] ∧ x.done ≠ 0#64 ∧ s.ctx.l2host = [] ∧
      s.Translates (x.done.toNat % 2 ^ 52) (some .store) 0x80000 .u) ∧
    (∃ s : State, ∀ c ∈ s.ctx :: s.swapped, ∀ x ∈ c.launches, x.done = 0#64) ∧
    ∃ s : State, ∀ r ∈ s.ctx.reqs, ∀ p, ¬(rangeOf s.part r.pa = some (.peer p) ∧ 0 < r.size) := by
  refine ⟨⟨0#8, 0#8, base, by decide +kernel⟩, ⟨0#8, 0#8, base, by decide +kernel⟩, ⟨0#8, 255#8, base, by decide +kernel⟩,
    ⟨flit, { index := 0, unacked := [[5#8, 0#8, 0#8], [6#8, 0#8, 0#8]] }, linked, ?_, by decide +kernel, rfl, rfl, ?_, ?_,
      [], [5#8, 0#8, 0#8], [[6#8, 0#8, 0#8]], rfl, ?_, by simp⟩, ?_, ?_,
    ⟨{ probeLaunch with done := 0x80000#64 }, finishing, by decide +kernel, by decide +kernel, by decide +kernel, by decide +kernel,
      translates_of (by decide +kernel)⟩, ⟨base, by decide +kernel⟩,
    ⟨base, by intro r hr; have none : base.ctx.reqs = [] := by decide +kernel
              rw [none] at hr; cases hr⟩⟩
  · have l : flitBody.length = 252 := by decide +kernel
    rw [flit, List.length_append, l]; rfl
  · rw [flit_split.1, flit_split.2, List.take_of_length_le (show (natBytes _ 4).length ≤ 4 from Nat.le_refl _), bytesNat_word _ (Config.crc32 flitBody).isLt]
  · rw [flit_head 0 3 (by decide)]; decide +kernel
  · rw [flit_head 3 3 (by decide)]; decide +kernel
  · intro nak resend
    cases nak <;> cases resend <;> exact ⟨_, _, rfl, rfl, rfl, rfl, rfl, rfl⟩
  · intro kind hk
    simp only [List.mem_cons, List.not_mem_nil, or_false] at hk
    rcases hk with rfl | rfl
    · exact ⟨{ request .store with pa := 0x8000000000000 + 2 ^ 45 }, routed [{ request .store with pa := 0x8000000000000 + 2 ^ 45 }],
        by decide +kernel, rfl, by decide +kernel, by decide, by decide +kernel, by decide +kernel, by decide +kernel, by decide +kernel⟩
    · exact ⟨{ request (.atom 0#8) with pa := 0x8000000000000 + 2 ^ 45 }, routed [{ request (.atom 0#8) with pa := 0x8000000000000 + 2 ^ 45 }],
        by decide +kernel, rfl, by decide +kernel, by decide, by decide +kernel, by decide +kernel, by decide +kernel, by decide +kernel⟩

/-- An image of 256 zero bytes, whose key the fuses name; only the signature check itself is open (R404). -/
theorem witness_ResetImagesAndAttestation :
    (∃ (d : Device) (x : List Byte), 256 + bytesNat ((x.drop 8).take 8) ≤ x.length ∧
      bytesNat ((x.drop 8).take 8) ≤ 2 ^ 29 - 256 ∧ Config.sha384 ((x.drop 160).take 96) = d.fuseHash ∧
      d.fuseRollback.toNat ≤ bytesNat ((x.drop 16).take 4)) ∧
    (∃ s : State, s.dev.boot = .recovery) ∧ (∃ s : State, s.dev.boot = .running ∧ s.dev.mbStatus ≠ 1#32) ∧
    (∃ s : State, s.dev.boot = .running ∧ s.dev.mbStatus = 1#32 ∧ s.dev.mbCmd = 1 ∧ s.dev.mbNonce.length = 48) ∧
    ∃ s : State, s.dev.boot = .running ∧ s.dev.mbStatus = 1#32 ∧ s.dev.mbCmd ≠ 1 :=
  ⟨⟨{ fuseHash := Config.sha384 (((List.replicate 256 0#8).drop 160).take 96) }, List.replicate 256 0#8, by decide +kernel,
      by decide +kernel, rfl, by decide +kernel⟩,
    ⟨{ base with dev := { base.dev with boot := .recovery } }, rfl⟩, ⟨base, by decide +kernel⟩,
    ⟨{ base with dev := { base.dev with mbStatus := 1#32, mbCmd := 1, mbNonce := List.replicate 48 1#8 } }, by decide +kernel⟩,
    ⟨{ base with dev := { base.dev with mbStatus := 1#32, mbCmd := 2 } }, by decide +kernel⟩⟩

/-- A step runs the unit whose word stands at 0x30000: NOP for the zero word, and none for a reserved major. -/
def coded (w : W32) : State := { State.reset.probe (w32Bytes w) with inputs := [] }
def eventFirst : State := { coded 0#32 with inputs := [.powerThrottle] }

/-- A replaying launch whose sheet names an update of crew 1 before one of crew 0 that a write-back has just made. -/
def heldBack : State :=
  let e : SheetEntry := { kind := 2, slice := 0, crew := 1, team := 0, value := 0#64 }
  { base with
    mem := writeBytes base.mem 0x80040 (e.bytes ++ { e with crew := 0 }.bytes)
    dev := { base.dev with cslo := 0x80000#32, cssize := 128#32 }
    ctx := { base.ctx with
      launches := [{ probeLaunch with replaying := true }]
      backs := [{ core := 0, slice := 0, count := 1, launch := 1, cls := 0, team := 0, crew := 0, units := 0 }] } }

theorem some_of {α β : Type} {x : Option α × β} {a : α} (h : x.1 = some a) : ∃ b, x = (some a, b) := ⟨x.2, by rw [← h]⟩

theorem witness_StepRunsTheDecodedUnit :
    (∃ (s s1 : State) (i : Instr), s.dev.boot ≠ .stopped ∧ s.pick = (some (.event i), s1)) ∧
    (∃ s t : State, s.ctx.teams ≠ [] ∧ (∀ u ∈ s.ctx.teams, s.apart u = false) ∧ t.backsHeld = false) ∧
    (∃ t : State, t.backsHeld = true) ∧
    (∃ t : State, t.noSheet ∧ t.ctx.launches ≠ []) ∧
    ∀ w ∈ [0x000098C0#32, 0x12000000#32], ∃ (s s1 s2 : State), s.dev.boot ≠ .stopped ∧ s.pick = (some (.issue 2 0), s1) ∧
      s1.runOf (.issue 2 0) = some s2 ∧
      (decodeUnit (BitVec.ofNat 32 (bytesNat (readBytes s2.mem 0x30000 4))) 0#32 0#32) = decodeUnit w 0#32 0#32 ∧
      (decodeUnit w 0#32 0#32).words = 1 ∧ s2.Translates (pcAfter s2.cur.pc 0).toNat (some .fetch) 0x30000 .u ∧
      (s2.coreSt s2.crew.core).oldCode = [] ∧ s2.AtUnit ∧ ∀ l ∈ lanesOf s2.cur.run, (s2.crew.lane l).inHandler = false := by
  refine ⟨?_, ⟨lockstepped, lockstepped, by decide +kernel, by decide +kernel, by decide +kernel⟩,
    ⟨heldBack, by decide +kernel⟩, ⟨base, by unfold State.noSheet; decide +kernel, by decide +kernel⟩, ?_⟩
  · obtain ⟨s1, h⟩ := some_of (x := eventFirst.pick) (a := .event .powerThrottle) (by decide +kernel)
    exact ⟨eventFirst, s1, .powerThrottle, by decide +kernel, h⟩
  · have run (w : W32) (h : (coded w).pick.1 = some (.issue 2 0)) (h2 : ((coded w).pick.2.runOf (.issue 2 0)).isSome = true)
        (hb : (coded w).dev.boot ≠ .stopped)
        (hc : (let s2 := ((coded w).pick.2.runOf (.issue 2 0)).getD (coded w)
          decide (decodeUnit (BitVec.ofNat 32 (bytesNat (readBytes s2.mem 0x30000 4))) 0#32 0#32 = decodeUnit w 0#32 0#32 ∧
            (decodeUnit w 0#32 0#32).words = 1) && translatesB s2 (pcAfter s2.cur.pc 0).toNat (some .fetch) 0x30000 .u &&
          decide ((s2.coreSt s2.crew.core).oldCode = []) && atUnitB s2 &&
          decide (∀ l ∈ lanesOf s2.cur.run, (s2.crew.lane l).inHandler = false)) = true) :
        ∃ (s s1 s2 : State), s.dev.boot ≠ .stopped ∧ s.pick = (some (.issue 2 0), s1) ∧
          s1.runOf (.issue 2 0) = some s2 ∧
          (decodeUnit (BitVec.ofNat 32 (bytesNat (readBytes s2.mem 0x30000 4))) 0#32 0#32) = decodeUnit w 0#32 0#32 ∧
          (decodeUnit w 0#32 0#32).words = 1 ∧ s2.Translates (pcAfter s2.cur.pc 0).toNat (some .fetch) 0x30000 .u ∧
          (s2.coreSt s2.crew.core).oldCode = [] ∧ s2.AtUnit ∧ ∀ l ∈ lanesOf s2.cur.run, (s2.crew.lane l).inHandler = false := by
      obtain ⟨s1, e⟩ := some_of h
      obtain ⟨s2, e2⟩ := Option.isSome_iff_exists.mp h2
      simp only [e2, Option.getD_some, Bool.and_eq_true, decide_eq_true_eq] at hc
      rw [e] at e2
      exact ⟨coded w, s1, s2, hb, e, e2, hc.1.1.1.1.1, hc.1.1.1.1.2, translates_of hc.1.1.1.2, hc.1.1.2, atUnit_of hc.1.2, hc.2⟩
    intro w hw
    simp only [List.mem_cons, List.not_mem_nil, or_false] at hw
    rcases hw with rfl | rfl <;> exact run _ (by decide +kernel) (by decide +kernel) (by decide +kernel) (by decide +kernel)

theorem witness_EncodedUnitsDecodeBack : (∃ i : Instr, i.wellFormed = true ∧ encodeWord i ≠ none) ∧
    ∃ (w0 w1 w2 : W32) (i : Instr), (decodeUnit w0 w1 w2).instr = some i :=
  ⟨⟨.ldQ { Prefix.zero with order := .acq, remote := true, scope := .sys } 124#7 (.k 126#7) 63#6, by decide, by decide⟩,
    ⟨0x000098C0#32, 0#32, 0#32, .nop 0x98C0#16, by decide⟩⟩

theorem witness_EveryStepKeepsMemoryCanonical : ∃ s t : State, Memory.wf s.mem = true ∧ s.mem ≠ [] ∧ step s = .next t := by
  have next_of {x : Host.Outcome State Fault Refusal} (h : (match x with | .next _ => true | _ => false) = true) : ∃ t, x = .next t := by
    cases x <;> simp_all
  obtain ⟨t, h⟩ := next_of (x := step (coded 0#32)) (by decide +kernel)
  exact ⟨coded 0#32, t, by decide +kernel, by decide +kernel, h⟩

end Sys2Proof.Tests
end

