-- ==== Sys2Proof/Tests/Examples.lean ====
section
/-!
SUPPORT. Tests of single steps. Expected values are the spec's own: its worked examples and the arithmetic its rules write out.
-/

namespace Sys2Proof.Tests

set_option Elab.async false

open Sys2Proof Sys2Proof.Machine

/-- The state a step leaves, or the state before it. -/
def after (i : Instr) (s : State) : State := match exec i s with | .next t => t | _ => s

/-- R23, after Table 1.8: an LX960 with physical core 37 fenced reads IDENT 0x4BF5F8C0; core 36 is logical core 190. -/
theorem test_ident_with_a_fenced_core :
    let t := after (.contextCreate false 0) { unborn with dev := { unborn.dev with fences := [(0#8, 37#8)] } }
    t.ctx.ident = 0x4BF5F8C0#32 ∧ t.ctx.cores[190]? = some 36 ∧ t.ctx.cores[36]? = some 38 ∧ t.ctx.twins = 95 := by decide +kernel

/-- R181: lanes 0 to 15 of v4 hold 0.25 l, and lanes 16 to 31 hold -3.0. -/
def quarters : State := base.updCrew fun c =>
  [0x0#32, 0x3E800000#32, 0x3F000000#32, 0x3F400000#32, 0x3F800000#32, 0x3FA00000#32, 0x3FC00000#32, 0x3FE00000#32, 0x40000000#32,
    0x40100000#32, 0x40200000#32, 0x40300000#32, 0x40400000#32, 0x40500000#32, 0x40600000#32, 0x40700000#32].zipIdx.foldl
    (fun c e => (c.setV 4 e.2 e.1).setV 4 (16 + e.2) 0xC0400000#32) c

/-- R181: bfpq.m8 v12, v4, 2 writes byte 2 with 8 l in lanes 0 to 15 and 0xA0 in lanes 16 to 31, and sets no flag. -/
theorem test_bfpq_mantissas :
    let c := (after (.bfpqM .zero 12#7 (.v 4#7) 2#2 8#4) quarters).crew
    c.vreg 12 1 = 0x00080000#32 ∧ c.vreg 12 15 = 0x00780000#32 ∧ c.vreg 12 31 = 0x00A00000#32 ∧ c.fpflags = 0#32 := by decide +kernel

/-- R181: bfpq.e v13, v4, 3, 2, 1 writes 0x81 into byte 2 of lanes 22 and 23. -/
theorem test_bfpq_exponents :
    let c := (after (.bfpqE .zero 13#7 (.v 4#7) true 2#2 3#3) quarters).crew
    c.vreg 13 22 = 0x00810000#32 ∧ c.vreg 13 23 = 0x00810000#32 ∧ c.vreg 13 21 = 0#32 := by decide +kernel

/-- R207: the control word 0x00104100 gives an image of 294,912 bytes. -/
theorem test_plate_image_size : imageBytes 0x00104100#32 = 294912 := by decide +kernel

/-- R96: 1.5 converted under RNE gives 2 and sets inexact (bit 0 of FPFLAGS). -/
theorem test_cvt_one_and_a_half :
    let c := (after (.cvtFI .zero 1#7 (.v 2#7) .f32 0#2 .i32) (base.updCrew fun c => c.setV 2 0 0x3FC00000#32)).crew
    c.vreg 1 0 = 2#32 ∧ c.fpflags = 1#32 := by decide +kernel

/-- R167: a sum wraps modulo 2^32, and with sat clamps to the signed range. -/
theorem test_iadd_wraps :
    (after (.iadd .zero false 1#7 (.v 2#7) (.v 2#7)) (base.updCrew fun c => c.setV 2 0 0x7FFFFFFF#32)).crew.vreg 1 0 = 0xFFFFFFFE#32 := by
  decide +kernel
theorem test_iadd_clamps :
    (after (.iadd { Prefix.zero with sat := true } false 1#7 (.v 2#7) (.v 2#7))
      (base.updCrew fun c => c.setV 2 0 0x7FFFFFFF#32)).crew.vreg 1 0 = 0x7FFFFFFF#32 := by decide +kernel

/-- R168: shifts take bits 4:0 of b. -/
theorem test_shl_amount :
    (after (.shl .zero 1#7 (.v 2#7) (.v 3#7)) (base.updCrew fun c => (c.setV 2 0 1#32).setV 3 0 33#32)).crew.vreg 1 0 = 2#32 := by
  decide +kernel

/-- R136: a write of k0 is discarded. -/
theorem test_k0_stays :
    let t := after (.kmovi 0#8 5#16) base
    t.crew.kreg 0 = 0#32 ∧ (t.crew.lane 0).pc = 0x30004#52 := by decide +kernel

/-- R41: an inactive lane keeps v(d), and holds 0 when zeroing is 1. -/
theorem test_inactive_lanes :
    (after (.mov { Prefix.zero with mask := 1#3 } 1#7 (.v 2#7)) ready).crew.vreg 1 0 = 5#32 ∧
    (after (.mov { Prefix.zero with mask := 1#3, zeroing := true } 1#7 (.v 2#7)) ready).crew.vreg 1 0 = 0#32 := by decide +kernel

/-- R59: a target that is not a multiple of 4 parks its lane with ALIGN at the branch. -/
theorem test_brx_align :
    let c := (after (.brx (.v 2#7)) targets).crew
    (c.lane 1).st = .parked ∧ (c.lane 1).cause = .align ∧ (c.lane 0).pc = 0x40000#52 := by decide +kernel

/-- R370, R375: TRAP 0x12 parks its run with SWTRAP and the immediate as trap address. -/
theorem test_trap :
    let c := (after (.trap 0x12#16) base).crew
    (c.lane 31).cause = .swtrap ∧ (c.lane 31).trapAddr = 0x12#64 ∧ (c.lane 31).saved = 0x30000#52 := by decide +kernel

/-- R253, R264: a store issues a request, and its bytes stand in memory, little-endian, once it is performed. -/
theorem test_store_is_performed :
    let t := after (.st .zero 2#7 (.v 2#7) .b32 1#6) addressed
    (t.ctx.reqs.map Req.pa = [0x40004, 0x40044] ∧ readKey t.mem 0x40006 = 0#8) ∧
    ((t.ctx.reqs.head?).map fun r => readBytes (after (.requestPerformed r.id) t).mem 0x40004 4) = some [0#8, 0#8, 4#8, 0#8] := by
  decide +kernel

/-- R194: a scratchpad offset wraps in the allocation and drops the bits below its size. -/
theorem test_scratchpad_wraps :
    let s := base.updCrew fun c => (c.setV 2 0 0x10006#32).setV 3 0 0x11223344#32
    let t := after (.sts .zero 3#7 (.v 2#7) .b32 0#6) { s with cur := { s.cur with run := 1#32 } }
    ((t.ctx.reqs.head?).map fun r => readBytes (after (.requestPerformed r.id) t).team.spad 4 4) =
      some [0x44#8, 0x33#8, 0x22#8, 0x11#8] := by decide +kernel

/-- R373: the episode of lanes parked with PROT and ALIGN has ALIGN (5) as primary cause and lane 31 as its lane. -/
theorem test_handler_opens :
    let c := (after (.handlerEpisodeOpen 2 0) (queued 64#32)).crew
    c.episode.map Episode.trapInfo = some 0x40021F05#32 ∧ (c.lane 0).pc = 0x30040#52 ∧ (c.lane 0).saved = 0x30000#52 := by
  decide +kernel

/-- R371: lane 31 has met XLATE on a page while its unit's other lanes wait for data; the page is mapped before they are back, and
the lane issues its unit again. -/
theorem test_page_mapped_before_its_unit_is_back :
    let r := { (request (.load false)).stillborn .xlate 0x40000000#64 with run := 0x80000000#32 }
    let s := (outstanding [r]).updCrew fun c => c.wait 0x80000000#32 .unit
    let t := after (.xlateService 0x4000 (some (0x8000, 0x3E9#64))) { s with ctx := { s.ctx with reported := [0x4000] } }
    (t.crew.lane 31).st = .runnable ∧ (t.crew.lane 31).pc = 0x30000#52 ∧ t.ctx.reqs = [] := by decide +kernel

/-- The worked example of the matrix chapter: column 0 of plate 1 has mantissas 1 and exponent 130 in block 0, row 0 of the
activation mantissas 2 and exponent 134, and the entry of both is 32.0. -/
def workedPlate : Team :=
  { base.team with
    plates := updateAt (fun _ => 0x80102080#32) 1 base.team.plates
    spad := (List.range 16).map fun k => (256 * k, 1#8)
    side := [(0, 130#8)] }
def workedMatrix : Cmd :=
  { command .mxr [0x00000001#32, 0x06304008#32] with
    imm := 0x79#8, nm := 512, regs := List.replicate 16 2#32 ++ List.replicate 240 0#32 ++ [134#32] ++ List.replicate 31 0#32 }
theorem test_matrix_worked_example :
    workedPlate.mxEntry workedMatrix 0x3F800000#32 0 0 = 0x42000000#32 ∧ workedMatrix.row = 8 ∧ workedMatrix.ra = 4 ∧
      workedMatrix.cpr 512 = 2 ∧ workedPlate.mxFaults workedMatrix = false := by decide +kernel

end Sys2Proof.Tests
end

