-- ==== Sys2Proof/Tests/Slice0.lean ====
section
/-!
SUPPORT. Tests of the decoder and of WellFormed. Each word is written from the encoding tables of the spec (Tables 2.3 to
2.14 and the rows of spec/opcode_table.json): the major in bits 31:24, and each operand in its field.
-/

namespace Sys2Proof.Tests

set_option Elab.async false

/-- Every word decodes to the instruction beside it. -/
def decodesAs (xs : List (W32 × Instr)) : Bool := xs.all fun e => (decodeUnit e.1 0#32 0#32).instr == some e.2

/-- Every term is ill formed. -/
def refused (xs : List Instr) : Bool := xs.all fun i => !i.wellFormed

theorem test_decode_control : decodesAs [
    (0x000098C0#32, .nop 0x98C0#16),
    (0x015FFFFB#32, .bra 0x2#3 true 0xFFFFB#20),
    (0x02000800#32, .brx (.v 8#7)),
    (0x030FFFFB#32, .call 0xFFFFB#20),
    (0x04140800#32, .callx 0x14#7 (.v 8#7)),
    (0x05000800#32, .ret (.v 8#7)),
    (0x06000001#32, .join true),
    (0x07000000#32, .exit),
    (0x08140801#32, .vote .zero 0x14#7 (.v 8#7) .all),
    (0x09140883#32, .shflIdx .zero 0x14#7 (.v 8#7) (.k 3#7)),
    (0x0A140883#32, .shflUp .zero 0x14#7 (.v 8#7) (.k 3#7)),
    (0x0B140883#32, .shflDn .zero 0x14#7 (.v 8#7) (.k 3#7)),
    (0x0C140883#32, .shflXor .zero 0x14#7 (.v 8#7) (.k 3#7)),
    (0x0D140800#32, .matchEq .zero 0x14#7 (.v 8#7)),
    (0x0E940800#32, .compact .zero true 0x14#7 (.v 8#7)),
    (0x0F140800#32, .regroup 0x14#7 (.v 8#7)),
    (0x10140000#32, .elect .zero 0x14#7),
    (0x11140009#32, .sreg .zero 0x14#7 0x9#4)] = true := by decide

theorem test_decode_integer : decodesAs [
    (0x14940883#32, .iadd .zero true 0x14#7 (.v 8#7) (.k 3#7)),
    (0x15940883#32, .isub .zero true 0x14#7 (.v 8#7) (.k 3#7)),
    (0x16940883#32, .imul .zero true 0x14#7 (.v 8#7) (.k 3#7)),
    (0x17940883#32, .imulh .zero true 0x14#7 (.v 8#7) (.k 3#7)),
    (0x18940883#32, .imad .zero true 0x14#7 (.v 8#7) (.k 3#7)),
    (0x19940883#32, .imin .zero true 0x14#7 (.v 8#7) (.k 3#7)),
    (0x1A940883#32, .imax .zero true 0x14#7 (.v 8#7) (.k 3#7)),
    (0x1B140800#32, .ineg .zero 0x14#7 (.v 8#7)),
    (0x1B940800#32, .iabs .zero 0x14#7 (.v 8#7)),
    (0x1C140883#32, .vand .zero 0x14#7 (.v 8#7) (.k 3#7)),
    (0x1D140883#32, .vor .zero 0x14#7 (.v 8#7) (.k 3#7)),
    (0x1E140883#32, .vxor .zero 0x14#7 (.v 8#7) (.k 3#7)),
    (0x1F140883#32, .andn .zero 0x14#7 (.v 8#7) (.k 3#7)),
    (0x20140883#32, .shl .zero 0x14#7 (.v 8#7) (.k 3#7))] = true := by decide

theorem test_decode_integer_more : decodesAs [
    (0x21140883#32, .shr .zero 0x14#7 (.v 8#7) (.k 3#7)),
    (0x21940883#32, .sar .zero 0x14#7 (.v 8#7) (.k 3#7)),
    (0x22140883#32, .rotl .zero 0x14#7 (.v 8#7) (.k 3#7)),
    (0x23140883#32, .bfe .zero 0x14#7 (.v 8#7) (.k 3#7)),
    (0x24140883#32, .bfi .zero 0x14#7 (.v 8#7) (.k 3#7)),
    (0x25140800#32, .popc .zero 0x14#7 (.v 8#7)),
    (0x26140800#32, .clz .zero 0x14#7 (.v 8#7)),
    (0x27140800#32, .brev .zero 0x14#7 (.v 8#7)),
    (0x288B0883#32, .icmp .zero true .ne 0x3#3 (.v 8#7) (.k 3#7)),
    (0x29140883#32, .sel .zero 0x14#7 (.v 8#7) (.k 3#7)),
    (0x2A940883#32, .idot4 .zero true 0x14#7 (.v 8#7) (.k 3#7)),
    (0x2B9408A5#32, .iaddi .zero true 0x14#7 (.v 8#7) 0xA5#8),
    (0x2C948421#32, .movi .zero true 0x14#7 0x8421#16),
    (0x2D140800#32, .mov .zero 0x14#7 (.v 8#7))] = true := by decide

theorem test_decode_float : decodesAs [
    (0x30940883#32, .fadd .zero true 0x14#7 (.v 8#7) (.k 3#7)),
    (0x31940883#32, .fsub .zero true 0x14#7 (.v 8#7) (.k 3#7)),
    (0x32940883#32, .fmul .zero true 0x14#7 (.v 8#7) (.k 3#7)),
    (0x33940883#32, .ffma .zero true 0x14#7 (.v 8#7) (.k 3#7)),
    (0x34940883#32, .fmin .zero true 0x14#7 (.v 8#7) (.k 3#7)),
    (0x35940883#32, .fmax .zero true 0x14#7 (.v 8#7) (.k 3#7)),
    (0x36140800#32, .fneg .zero 0x14#7 (.v 8#7)),
    (0x36940800#32, .fabs .zero 0x14#7 (.v 8#7)),
    (0x378B0883#32, .fcmp .zero true .ne 0x3#3 (.v 8#7) (.k 3#7)),
    (0x38140800#32, .fclass .zero 0x14#7 (.v 8#7)),
    (0x39140800#32, .frnd .zero 0x14#7 (.v 8#7)),
    (0x3A140883#32, .fscale .zero 0x14#7 (.v 8#7) (.k 3#7)),
    (0x3B140800#32, .frcp .zero 0x14#7 (.v 8#7)),
    (0x3C140800#32, .frsq .zero 0x14#7 (.v 8#7))] = true := by decide

theorem test_decode_float_more : decodesAs [
    (0x3D140800#32, .fsqrt .zero 0x14#7 (.v 8#7)),
    (0x3E140800#32, .fexp2 .zero 0x14#7 (.v 8#7)),
    (0x3F140800#32, .flog2 .zero 0x14#7 (.v 8#7)),
    (0x40140800#32, .fsin .zero 0x14#7 (.v 8#7)),
    (0x41140800#32, .fcos .zero 0x14#7 (.v 8#7)),
    (0x42140800#32, .ftanh .zero 0x14#7 (.v 8#7)),
    (0x43940883#32, .fdot2 .zero true 0x14#7 (.v 8#7) (.k 3#7)),
    (0x44140829#32, .cvtFF .zero 0x14#7 (.v 8#7) .bf16 .f16 0x1#2),
    (0x4514082A#32, .cvtFI .zero 0x14#7 (.v 8#7) .bf16 0x1#2 .i16),
    (0x4614082A#32, .cvtIF .zero 0x14#7 (.v 8#7) .bf16 0x1#2 .i16),
    (0x47140835#32, .bfpqM .zero 0x14#7 (.v 8#7) 0x3#2 0x5#4),
    (0x4794083B#32, .bfpqE .zero 0x14#7 (.v 8#7) true 0x3#2 0x3#3),
    (0x48140835#32, .bfpx .zero 0x14#7 (.v 8#7) 0x0#2 0x3#2 0x5#4)] = true := by decide

theorem test_decode_permutation : decodesAs [
    (0x50140883#32, .permb .zero 0x14#7 (.v 8#7) (.k 3#7)),
    (0x5114080E#32, .nibx .zero 0x14#7 (.v 8#7) true true 0x2#2),
    (0x52140801#32, .xpose 0x14#7 (.v 8#7) true),
    (0x53140805#32, .lut .zero 0x14#7 (.v 8#7) .linear 0x1#2),
    (0x54940883#32, .pack2 .zero true 0x14#7 (.v 8#7) (.k 3#7))] = true := by decide

theorem test_decode_scratchpad_and_accumulators : decodesAs [
    (0x58940865#32, .lds .zero true 0x14#7 (.v 8#7) .b16 0x25#6),
    (0x591408A5#32, .sts .zero 0x14#7 (.v 8#7) .b32 0x25#6),
    (0x5A1408E5#32, .ldsQ .zero 0x14#7 (.v 8#7) 0x25#6),
    (0x5B1408E5#32, .stsQ .zero 0x14#7 (.v 8#7) 0x25#6),
    (0x5C1408A5#32, .atoms .zero 0x14#7 (.v 8#7) .b32 0x25#6),
    (0x5D1408A5#32, .atomsCas .zero 0x14#7 (.v 8#7) .b32 0x25#6),
    (0x60940800#32, .accRd .zero true 0x14#7 (.v 8#7)),
    (0x61140800#32, .accWr .zero 0x14#7 (.v 8#7)),
    (0x62140800#32, .accAdd .zero 0x14#7 (.v 8#7))] = true := by decide

theorem test_decode_global_and_region_lanes : decodesAs [
    (0x68940865#32, .ld .zero true 0x14#7 (.v 8#7) .b16 0x25#6),
    (0x691408A5#32, .st .zero 0x14#7 (.v 8#7) .b32 0x25#6),
    (0x6A1408E5#32, .ldQ .zero 0x14#7 (.v 8#7) 0x25#6),
    (0x6B1408E5#32, .stQ .zero 0x14#7 (.v 8#7) 0x25#6),
    (0x6C1408A5#32, .atom .zero 0x14#7 (.v 8#7) .b32 0x25#6),
    (0x6D1408A5#32, .atomCas .zero 0x14#7 (.v 8#7) .b32 0x25#6),
    (0x6E1408A5#32, .red .zero 0x14#7 (.v 8#7) .b32 0x25#6),
    (0x6F800825#32, .pref .zero true (.v 8#7) 0x25#6),
    (0x70940809#32, .ldaSum .zero true 0x14#7 (.v 8#7) 0x9#8),
    (0x71940809#32, .ldaMax .zero true 0x14#7 (.v 8#7) 0x9#8),
    (0x72140809#32, .ldaMin .zero 0x14#7 (.v 8#7) 0x9#8),
    (0x73940809#32, .ldaFind .zero true 0x14#7 (.v 8#7) 0x9#8),
    (0x74940809#32, .ldaPick .zero true 0x14#7 (.v 8#7) 0x9#8),
    (0x75940809#32, .cluNode .zero true 0x14#7 (.v 8#7) 0x9#8)] = true := by decide

theorem test_decode_uniform_arithmetic : decodesAs [
    (0x80000000#32, .knop),
    (0x81060A04#32, .kadd 0x6#8 0xA#8 0x4#8),
    (0x82060A04#32, .ksub 0x6#8 0xA#8 0x4#8),
    (0x83060A04#32, .kmul 0x6#8 0xA#8 0x4#8),
    (0x84060A04#32, .kmulh 0x6#8 0xA#8 0x4#8),
    (0x85060A04#32, .kmad 0x6#8 0xA#8 0x4#8),
    (0x86060A04#32, .kmin 0x6#8 0xA#8 0x4#8),
    (0x87060A04#32, .kmax 0x6#8 0xA#8 0x4#8),
    (0x88060A04#32, .kand 0x6#8 0xA#8 0x4#8),
    (0x89060A04#32, .kor 0x6#8 0xA#8 0x4#8),
    (0x8A060A04#32, .kxor 0x6#8 0xA#8 0x4#8),
    (0x8B060A04#32, .kshl 0x6#8 0xA#8 0x4#8),
    (0x8C060A04#32, .kshr 0x6#8 0xA#8 0x4#8),
    (0x8D060A04#32, .ksar 0x6#8 0xA#8 0x4#8),
    (0x8E060A04#32, .kbfe 0x6#8 0xA#8 0x4#8)] = true := by decide

theorem test_decode_uniform_moves : decodesAs [
    (0x8F060A00#32, .kpopc 0x6#8 0xA#8),
    (0x90060A00#32, .kclz 0x6#8 0xA#8),
    (0x91060A04#32, .kcmp 0x6#8 0xA#8 0x4#8),
    (0x92060A04#32, .ksel 0x6#8 0xA#8 0x4#8),
    (0x93060A00#32, .kmov 0x6#8 0xA#8),
    (0x9406FFFE#32, .kmovi 0x6#8 0xFFFE#16),
    (0x96060010#32, .khiRd 0x6#8 0x10#8),
    (0x97070010#32, .khiWr 0x7#8 0x10#8),
    (0x98068421#32, .kaddi 0x6#8 0x8421#16),
    (0x99060B11#32, .vtok 0x6#8 0xB#7 false 0x11#5),
    (0x9A060200#32, .mtok 0x6#8 0x2#3),
    (0x9B020A00#32, .ktom 0x2#3 0xA#8),
    (0x9C0B0201#32, .mlog .or 0x3#3 0x2#3 0x1#3),
    (0x9D060A04#32, .kld 0x6#8 0xA#8 0x4#8),
    (0x99060B80#32, .vtok 0x6#8 0xB#7 true 0x0#5)] = true := by decide

theorem test_decode_uniform_control : decodesAs [
    (0xA042BFFD#32, .kbra .zero 0xA#8 0x3FFD#14),
    (0xA1000904#32, .barArr 0x9#4 0x4#8),
    (0xA2000900#32, .barWait 0x9#4),
    (0xA3000904#32, .barSync 0x9#4 0x4#8),
    (0xA4000000#32, .yieldRun),
    (0xA5000A00#32, .rgxSet 0xA#8),
    (0xA6060900#32, .ksreg 0x6#8 0x9#4),
    (0xA700012C#32, .sleep 0x12C#16),
    (0xA00000FF#32, .kbra .always 0x0#8 0xFF#14)] = true := by decide

theorem test_decode_plates_and_matrix : decodesAs [
    (0xB0060304#32, .plateMap 0x6#8 0x3#3 0x4#8),
    (0xB1000300#32, .plateUnmap 0x3#3),
    (0xB2060300#32, .plateInfo 0x6#8 0x3#3),
    (0xB3051000#32, .plateLoad 0x5#8 0x10#8),
    (0xB8051053#32, .mxr 0x5#8 0x10#8 true 0x2#3 0x3#3),
    (0xB9051053#32, .mxg 0x5#8 0x10#8 true 0x2#3 0x3#3),
    (0xBA000A89#32, .mxfence 0xA#8 true 0x9#4),
    (0xBB060A04#32, .accWin 0x6#8 0xA#8 0x4#8),
    (0xBC000A04#32, .accClr 0xA#8 0x4#8),
    (0xBD051001#32, .accSt 0x5#8 0x10#8 true)] = true := by decide

theorem test_decode_fences_and_regions : decodesAs [
    (0xC0000109#32, .fence .crew true .acq),
    (0xC1000A04#32, .cwb 0xA#8 0x4#8),
    (0xC2000A04#32, .cinv 0xA#8 0x4#8),
    (0xC8051001#32, .aggOpen 0x5#8 0x10#8 true),
    (0xC9000900#32, .aggClose 0x9#8),
    (0xCA060903#32, .aggInfo 0x6#8 0x9#8 0x3#3),
    (0xCB000900#32, .aggRefresh 0x9#8),
    (0xCC000900#32, .aggFence 0x9#8 false),
    (0xD0051001#32, .cluOpen 0x5#8 0x10#8 true),
    (0xD1000900#32, .cluClose 0x9#8),
    (0xD2060904#32, .cluGrow 0x6#8 0x9#8 0x4#8),
    (0xD3051000#32, .walkSet 0x5#8 0x10#8),
    (0xD4051000#32, .walk 0x5#8 0x10#8),
    (0xD5000900#32, .cluFence 0x9#8 false),
    (0xCC000001#32, .aggFence 0x0#8 true),
    (0xD5000001#32, .cluFence 0x0#8 true)] = true := by decide

theorem test_decode_streamer_and_rings : decodesAs [
    (0xD8051003#32, .copy 0x5#8 0x10#8 true true),
    (0xD9051003#32, .copyG 0x5#8 0x10#8 true true),
    (0xDA051003#32, .copyS 0x5#8 0x10#8 true true),
    (0xDB051003#32, .copyFill 0x5#8 0x10#8 true true),
    (0xDC0B0A04#32, .ringInit 0xB#4 0xA#8 0x4#8),
    (0xDD060B00#32, .ringAcq 0x6#8 0xB#4),
    (0xDE000B04#32, .ringCommit 0xB#4 0x4#8),
    (0xDF060B04#32, .ringWait 0x6#8 0xB#4 0x4#8),
    (0xE0000B04#32, .ringRel 0xB#4 0x4#8),
    (0xE1000A04#32, .twait 0xA#8 0x4#8),
    (0xE2060A00#32, .toktest 0x6#8 0xA#8),
    (0xE8051000#32, .launch 0x5#8 0x10#8)] = true := by decide

theorem test_decode_launch_and_system : decodesAs [
    (0xE9000001#32, .depset true),
    (0xEA060302#32, .expoRd 0x6#8 0x3#3 0x2#2),
    (0xF0000012#32, .trap 0x12#16),
    (0xF1000000#32, .eret),
    (0xF2060023#32, .csrr 0x6#8 0x23#12),
    (0xF3070020#32, .csrw 0x7#8 0x20#12),
    (0xF4010A04#32, .parkPc true 0xA#8 0x4#8),
    (0xF5000A00#32, .parkMask 0xA#8),
    (0xF6000003#32, .bkpt 0x3#16),
    (0xF7000000#32, .halt),
    (0xF8060A00#32, .brkt 0x6#8 0xA#8),
    (0xF9051000#32, .tblLoad 0x5#8 0x10#8),
    (0xFA060000#32, .time 0x6#8),
    (0xF2060041#32, .fpflagsRead 0x6#8),
    (0xF3070041#32, .fpflagsWrite 0x7#8),
    (0xF2060084#32, .tbldataRead 0x6#8),
    (0xF3070084#32, .tbldataWrite 0x7#8),
    (0xF3070032#32, .saveAreaWrite 0x2#2 0x7#8)] = true := by decide

/-- A literal word follows LIT and KLIT, and a PREFIX supplies the fourth operand and the modes (R36, R39 to R41). -/
theorem test_decode_longer_units :
    ((decodeUnit 0x2E140000#32 0xDEADBEEF#32 0#32).instr == some (.lit .zero 0x14#7 0xDEADBEEF#32)
      && (decodeUnit 0x2E140000#32 0xDEADBEEF#32 0#32).words == 2
      && (decodeUnit 0x95060000#32 0xDEADBEEF#32 0#32).instr == some (.klit 0x6#8 0xDEADBEEF#32)
      && (decodeUnit 0x7F034101#32 0x330A0102#32 0#32).instr ==
        some (.ffma ⟨3#8, 2#3, false, false, .rtz, false, .dflt, .plain, false, true⟩ false 10#7 (.v 1#7) (.v 2#7))
      && (decodeUnit 0x7F034101#32 0x330A0102#32 0#32).words == 2) = true := by decide

/-- Reserved majors, reserved fields and a PREFIX before a word that takes none are refused (R39, R40, R52). -/
theorem test_decode_reserved :
    ([(0x12000000#32, 0#32), (0x49000000#32, 0#32), (0xAF000000#32, 0#32), (0xFF000000#32, 0#32), (0x07000001#32, 0#32),
      (0x80000001#32, 0#32), (0x7F006600#32, 0x30010102#32), (0x7F006000#32, 0x81070304#32),
      (0x7F000000#32, 0x52040800#32)].all fun e => ((decodeUnit e.1 e.2 0#32).instr).isNone) = true := by decide

/-- A PREFIX with one field that is not zero. -/
def pfx (f : Prefix → Prefix) : Prefix := f .zero

/-- Each check of WellFormed refuses a term: one PREFIX field that the instruction does not accept (R41, Table 2.7). -/
theorem test_wf_prefix : refused [
    .iadd (pfx fun p => { p with c := 1#8 }) false 1#7 (.v 1#7) (.v 1#7),
    .iadd (pfx fun p => { p with cValid := true }) false 1#7 (.v 1#7) (.v 1#7),
    .ffma (pfx fun p => { p with c := 1#8 }) false 1#7 (.v 1#7) (.v 1#7),
    .atom (pfx fun p => { p with cValid := true }) 2#7 (.v 2#7) .b32 0#6,
    .sel (pfx fun p => { p with zeroing := true }) 1#7 (.v 1#7) (.v 1#7),
    .iadd (pfx fun p => { p with round := .rtz }) false 1#7 (.v 1#7) (.v 1#7),
    .fadd (pfx fun p => { p with sat := true }) false 1#7 (.v 1#7) (.v 1#7),
    .lds (pfx fun p => { p with scope := .crew }) false 1#7 (.v 1#7) .b32 0#6,
    .atoms (pfx fun p => { p with scope := .twin }) 2#7 (.v 2#7) .b32 0#6,
    .ld (pfx fun p => { p with order := .rel }) false 1#7 (.v 2#7) .b32 0#6,
    .st (pfx fun p => { p with order := .acq }) 1#7 (.v 2#7) .b32 0#6,
    .lds (pfx fun p => { p with order := .acq }) false 1#7 (.v 1#7) .b32 0#6,
    .ld (pfx fun p => { p with remote := true }) false 1#7 (.v 2#7) .b32 0#6,
    .st (pfx fun p => { p with order := .rel, remote := true }) 1#7 (.v 2#7) .b32 0#6,
    .nibx (pfx fun p => { p with round := .rtz }) 1#7 (.v 1#7) false false 0#2] = true := by decide

/-- Register numbers that Table 2.3 and the entries exclude. -/
theorem test_wf_registers : refused [
    .brx (.v 1#7), .ret (.k 3#7), .callx 1#7 (.v 2#7), .callx 2#7 (.v 1#7),
    .ld .zero false 1#7 (.v 1#7) .b32 0#6, .ld .zero false 1#7 (.v 2#7) .b64 0#6, .ldQ .zero 2#7 (.v 2#7) 0#6,
    .st .zero 1#7 (.v 2#7) .b64 0#6, .stQ .zero 2#7 (.v 2#7) 0#6, .lds .zero false 1#7 (.v 1#7) .b64 0#6,
    .sts .zero 1#7 (.v 1#7) .b64 0#6, .ldsQ .zero 2#7 (.v 1#7) 0#6, .stsQ .zero 2#7 (.v 1#7) 0#6,
    .atomsCas .zero 1#7 (.v 1#7) .b32 0#6, .atomCas .zero 2#7 (.v 2#7) .b64 0#6, .pref .zero false (.v 1#7) 0#6,
    .xpose 2#7 (.v 4#7) false, .xpose 4#7 (.v 2#7) false, .xpose 4#7 (.k 4#7) false,
    .ldaSum .zero false 1#7 (.v 127#7) 0#8, .ldaSum .zero true 1#7 (.v 1#7) 0#8, .ldaMax .zero true 1#7 (.v 1#7) 0#8,
    .ldaMin .zero 1#7 (.k 127#7) 0#8, .ldaFind .zero false 1#7 (.v 1#7) 0#8, .ldaPick .zero false 1#7 (.v 1#7) 0#8,
    .cluNode .zero true 2#7 (.v 1#7) 0#8, .cluNode .zero false 2#7 (.v 127#7) 0#8,
    .kld 1#8 1#8 0#8, .cwb 1#8 1#8, .cinv 3#8 1#8, .ringWait 0#8 1#4 1#8, .ringWait 255#8 1#4 1#8, .time 1#8, .time 0#8,
    .ktom 0#3 1#8, .mlog .and 0#3 1#3 1#3, .icmp .zero false .eq 0#3 (.v 1#7) (.v 1#7),
    .fcmp .zero false .eq 0#3 (.v 1#7) (.v 1#7)] = true := by decide

/-- Field values that the entries exclude (R52). -/
theorem test_wf_fields : refused [
    .nop 0x0001#16, .nop 0x8001#16, .lds .zero true 1#7 (.v 1#7) .b32 0#6, .ld .zero true 2#7 (.v 2#7) .b64 0#6,
    .atoms .zero 2#7 (.v 2#7) .b16 0#6, .atom .zero 2#7 (.v 2#7) .b8 0#6, .red .zero 2#7 (.v 2#7) .b16 0#6,
    .atomsCas .zero 4#7 (.v 2#7) .b8 0#6, .atomCas .zero 4#7 (.v 2#7) .b16 0#6,
    .atom (pfx fun p => { p with c := 12#8 }) 2#7 (.v 2#7) .b32 0#6,
    .red (pfx fun p => { p with c := 9#8 }) 2#7 (.v 2#7) .b64 0#6,
    .bfpqM .zero 1#7 (.v 1#7) 0#2 1#4, .bfpx .zero 1#7 (.v 1#7) 0#2 0#2 9#4,
    .bfpqE (pfx fun p => { p with zeroing := true }) 1#7 (.v 1#7) false 0#2 0#3,
    .cvtFF .zero 1#7 (.v 1#7) .f32 .f32 1#2, .cvtFI .zero 1#7 (.v 1#7) .bf16 2#2 .i32,
    .cvtIF .zero 1#7 (.v 1#7) .f32 2#2 .i16, .nibx .zero 1#7 (.v 1#7) false false 2#2,
    .mlog .not 1#3 1#3 1#3, .vtok 1#8 1#7 true 1#5, .ksreg 1#8 0#4, .ksreg 1#8 1#4, .kbra .always 1#8 0#14,
    .mxfence 1#8 false 1#4, .fence .dflt false .acq, .fence .dev false .plain, .fence .dev true .rel,
    .cwb 2#8 0#8, .cinv 2#8 0#8, .aggInfo 1#8 1#8 7#3, .aggFence 1#8 true, .cluFence 1#8 true,
    .expoRd 1#8 5#3 0#2, .expoRd 1#8 0#3 3#2, .csrr 1#8 0x100#12, .csrr 1#8 0x041#12, .csrw 1#8 0x010#12,
    .csrw 1#8 0x030#12] = true := by decide

/-- Commands: a token of k0, or a descriptor past k511 (R46). -/
theorem test_wf_commands : refused [
    .plateLoad 0#8 0#8, .plateLoad 1#8 254#8, .mxr 0#8 0#8 false 1#3 0#3, .mxr 1#8 255#8 false 1#3 0#3,
    .mxr 1#8 0#8 false 0#3 0#3, .mxg 1#8 252#8 false 1#3 0#3, .mxg 1#8 0#8 false 0#3 0#3, .accSt 0#8 0#8 false,
    .accSt 1#8 253#8 false, .aggOpen 1#8 251#8 false, .cluOpen 1#8 248#8 false, .walkSet 0#8 0#8, .walk 1#8 254#8,
    .copy 1#8 237#8 false false, .copyG 1#8 247#8 false false, .copyS 0#8 0#8 false false,
    .copyFill 1#8 252#8 false false, .launch 1#8 254#8, .tblLoad 0#8 0#8] = true := by decide

end Sys2Proof.Tests
end

/-! Registers by class, and the moves between them (R136, R154 to R157). -/

namespace Sys2Proof.Machine

/-! ## What a completed unit leaves in the registers -/

theorem setK_only (c : Crew) (r : Nat) (x : W32) : c.setK r x = { c with k := (c.setK r x).k } := by
  unfold Crew.setK; split <;> rfl

theorem setM_only (c : Crew) (n : Nat) (x : W32) : c.setM n x = { c with m := (c.setM n x).m } := by
  unfold Crew.setM; split <;> rfl

/-- The uniform registers are among what the issue of a unit keeps. -/
theorem k_eq_of_regs_eq {a b : Crew} (h : a.regs = b.regs) : a.k = b.k :=
  show a.regs.k = b.regs.k from congrArg Crew.k h

/-- The mask registers are among what the issue of a unit keeps. -/
theorem m_eq_of_regs_eq {a b : Crew} (h : a.regs = b.regs) : a.m = b.m :=
  show a.regs.m = b.regs.m from congrArg Crew.m h

/-- A mask register but m0 is what the mask file holds: it does not read the lanes. -/
theorem mreg_eq_of_m_eq {a b : Crew} (h : a.m = b.m) {n : Nat} (hn : n ≠ 0) : a.mreg n = b.mreg n := by
  unfold Crew.mreg; rw [if_neg hn, if_neg hn, h]

/-- A unit that completes with one k register written changes only the uniform registers, and they read as after that write. -/
theorem State.Completed.of_setK {s t : State} {r : Nat} {x : W32} (h : s.Completed t (s.crew.setK r x)) :
    s.Completed t { s.crew with k := t.crew.k } ∧ ∀ q, t.crew.kreg q = (s.crew.setK r x).kreg q := by
  have hk := k_eq_of_regs_eq h.regs
  refine ⟨⟨h.keeps, ?_, h.past⟩, fun q => by unfold Crew.kreg; rw [hk]⟩
  rw [h.regs, setK_only, ← hk]

/-- A unit that completes with one mask register written changes only the mask registers, and each but m0 reads as after that
write. -/
theorem State.Completed.of_setM {s t : State} {n : Nat} {x : W32} (h : s.Completed t (s.crew.setM n x)) :
    s.Completed t { s.crew with m := t.crew.m } ∧ ∀ q, q ≠ 0 → t.crew.mreg q = (s.crew.setM n x).mreg q := by
  have hm := m_eq_of_regs_eq h.regs
  refine ⟨⟨h.keeps, ?_, h.past⟩, fun q => mreg_eq_of_m_eq hm⟩
  rw [h.regs, setM_only, ← hm]

/-- A uniform-set unit that writes one k register, when it is ready. -/
theorem uniformSetK_ready {s : State} {n : Names} (h : s.UniformReady n) (r : Nat) (f : Crew → W32) :
    ∃ t, s.uniformCrew n (fun c => c.setK r (f c)) = .next t ∧ s.Completed t { s.crew with k := t.crew.k } ∧
      ∀ q, t.crew.kreg q = (s.crew.setK r (f s.crew)).kreg q := by
  obtain ⟨t, ht, hc⟩ := uniformCrew_ready (f := fun c => c.setK r (f c)) h (Crew.setK_lanes ..)
  exact ⟨t, ht, hc.of_setK⟩

/-- A uniform-set unit that writes one mask register, when it is ready. -/
theorem uniformSetM_ready {s : State} {n : Names} (h : s.UniformReady n) (r : Nat) (f : Crew → W32) :
    ∃ t, s.uniformCrew n (fun c => c.setM r (f c)) = .next t ∧ s.Completed t { s.crew with m := t.crew.m } ∧
      ∀ q, q ≠ 0 → t.crew.mreg q = (s.crew.setM r (f s.crew)).mreg q := by
  obtain ⟨t, ht, hc⟩ := uniformCrew_ready (f := fun c => c.setM r (f c)) h (Crew.setM_lanes ..)
  exact ⟨t, ht, hc.of_setM⟩

/-! ## Registers read after writes (R136) -/

/-- A k register but k0 holds the last value written to it. -/
theorem kreg_setK_of_ne_zero (c : Crew) {r : Nat} (hr : r ≠ 0) (q : Nat) (x : W32) :
    (c.setK r x).kreg q = if q = r then x else c.kreg q := by
  rw [kreg_setK]
  by_cases hq : q = 0
  · subst hq; simp [hr.symm]
  · rw [if_neg hq]

/-- A mask register but m0 holds the last value written to it. -/
theorem mreg_setM_of_ne_zero (c : Crew) {n : Nat} (hn : n ≠ 0) (q : Nat) (x : W32) :
    (c.setM n x).mreg q = if q = n then x else c.mreg q := by
  rw [mreg_setM]
  by_cases hq : q = 0
  · subst hq; simp [hn.symm, Crew.mreg]
  · rw [if_neg hq]

/-- m0 reads the live lanes. -/
theorem mreg_zero_getLsbD (c : Crew) {l : Nat} (hl : l < 32) :
    (c.mreg 0).getLsbD l = true ↔ (c.lane l).st ≠ .exited := by
  show (c.lanesWhere Lane.live).getLsbD l = true ↔ _
  rw [lanesWhere_getLsbD]
  simp [hl, Lane.live]

/-! ## The lowest lane of a run -/

theorem lowestFrom_eq_headD (x n i : Nat) :
    lowestFrom x i n = ((List.range' i n).filter fun l => x.testBit l).headD (i + n) := by
  induction n generalizing i with
  | zero => rfl
  | succ n ih =>
    rw [lowestFrom, List.range'_succ, List.filter_cons]
    split
    · rfl
    · rw [ih, Nat.add_right_comm, Nat.add_assoc]

/-- The lowest lane of a mask that has one is the first of its lanes. -/
theorem lowestLane_eq_headD {m : W32} (h : m ≠ 0#32) (d : Nat) : lowestLane m = (lanesOf m).headD d := by
  have hl : lowestLane m = (lanesOf m).headD 32 := by
    unfold lowestLane lanesOf
    rw [lowestFrom_eq_headD, List.range_eq_range']
    rfl
  rw [hl]
  cases hm : lanesOf m with
  | nil => exact absurd hm (lanesOf_ne_nil h)
  | cons l ls => rfl

/-! ## The moves -/

/-- A unit that waits for v registers of lanes runs at once when no load and no held unit will still write them (R118). -/
theorem afterWrites_ready {s : State} {v : List Nat} {lanes : W32} (body : State → Out) (hp : s.pendingV v lanes = false)
    (hh : s.crew.heldWrites v lanes s.cur.run = false) : s.afterWrites v lanes body = body s := by
  simp only [State.afterWrites, hp, hh, Bool.false_eq_true, if_false]

/-- KHI.RD, when it is ready (R154). -/
theorem execKhiRd_ready {d q : BitVec 8} {s : State} (h : s.UniformReady { k := [d.toNat, 256 + q.toNat] }) :
    ∃ t, exec (.khiRd d q) s = .next t ∧ s.Completed t { s.crew with k := t.crew.k } ∧
      ∀ r, t.crew.kreg r = if r = 0 then 0#32 else if r = d.toNat then s.crew.kreg (256 + q.toNat) else s.crew.kreg r := by
  obtain ⟨t, ht, hc, hk⟩ := uniformSetK_ready h d.toNat fun c => c.kreg (256 + q.toNat)
  exact ⟨t, ht, hc, fun r => (hk r).trans (kreg_setK ..)⟩

/-- KHI.WR, when it is ready: its destination is never k0 (R154). -/
theorem execKhiWr_ready {d q : BitVec 8} {s : State} (h : s.UniformReady { k := [d.toNat, 256 + q.toNat] }) :
    ∃ t, exec (.khiWr d q) s = .next t ∧ s.Completed t { s.crew with k := t.crew.k } ∧
      ∀ r, t.crew.kreg r = if r = 256 + q.toNat then s.crew.kreg d.toNat else s.crew.kreg r := by
  obtain ⟨t, ht, hc, hk⟩ := uniformSetK_ready h (256 + q.toNat) fun c => c.kreg d.toNat
  exact ⟨t, ht, hc, fun r => (hk r).trans (kreg_setK_of_ne_zero _ (by omega) ..)⟩

/-- VTOK, when it is ready and the register it reads of the lane is written (R155). -/
theorem execVtok_ready {d : BitVec 8} {r : BitVec 7} {first : Bool} {l : BitVec 5} {s : State}
    (h : s.UniformReady { k := [d.toNat], v := [r.toNat] })
    (hp : s.pendingV [r.toNat] (1#32 <<< vtokLane s.cur.run first l) = false)
    (hh : s.crew.heldWrites [r.toNat] (1#32 <<< vtokLane s.cur.run first l) s.cur.run = false) :
    ∃ t, exec (.vtok d r first l) s = .next t ∧ s.Completed t { s.crew with k := t.crew.k } ∧
      ∀ q, t.crew.kreg q = if q = 0 then 0#32 else if q = d.toNat then
          s.crew.vreg r.toNat (vtokLane s.cur.run first l)
        else s.crew.kreg q := by
  have hc := updCrew_done_spec s (fun c => c.setK d.toNat (c.vreg r.toNat (vtokLane s.cur.run first l))) true h.unit
    (Crew.setK_lanes ..)
  obtain ⟨hk, hread⟩ := hc.of_setK
  refine ⟨_, ?_, hk, fun q => (hread q).trans (kreg_setK ..)⟩
  show execVtok d r first l s = _
  unfold execVtok
  rw [uniformUnit_ready _ h, afterWrites_ready _ hp hh]

/-- The lane VTOK reads is the first of the run, or the one it names (R155). -/
theorem vtokLane_eq {run : W32} (h : run ≠ 0#32) (first : Bool) (l : BitVec 5) :
    vtokLane run first l = if first then (lanesOf run).headD 0 else l.toNat := by
  unfold vtokLane; rw [lowestLane_eq_headD h 0]

/-- KTOM, when it is ready (R156). -/
theorem execKtom_ready {m : BitVec 3} {a : BitVec 8} {s : State} (hm : m.toNat ≠ 0) (h : s.UniformReady { k := [a.toNat] }) :
    ∃ t, exec (.ktom m a) s = .next t ∧ s.Completed t { s.crew with m := t.crew.m } ∧
      ∀ n, n ≠ 0 → t.crew.mreg n = if n = m.toNat then s.crew.kreg a.toNat else s.crew.mreg n := by
  obtain ⟨t, ht, hc, hread⟩ := uniformSetM_ready h m.toNat fun c => c.kreg a.toNat
  exact ⟨t, ht, hc, fun n hn => (hread n hn).trans (mreg_setM_of_ne_zero _ hm ..)⟩

/-- MLOG, when it is ready (R157). -/
theorem execMlog_ready (f : MlogOp) {md : BitVec 3} (ma mb : BitVec 3) {s : State} (hd : md.toNat ≠ 0)
    (h : s.UniformReady {}) :
    ∃ t, exec (.mlog f md ma mb) s = .next t ∧ s.Completed t { s.crew with m := t.crew.m } ∧
      ∀ n, n ≠ 0 → t.crew.mreg n =
        if n = md.toNat then maskLogic f (s.crew.mreg ma.toNat) (s.crew.mreg mb.toNat) else s.crew.mreg n := by
  obtain ⟨t, ht, hc, hread⟩ :=
    uniformSetM_ready h md.toNat fun c => maskLogic f (c.mreg ma.toNat) (c.mreg mb.toNat)
  exact ⟨t, ht, hc, fun n hn => (hread n hn).trans (mreg_setM_of_ne_zero _ hd ..)⟩

/-- The operations of Table 6.8 on one bit of each operand. -/
def bitLogic (f : MlogOp) (a b : Bool) : Bool :=
  match f with
  | .and => a && b
  | .or => a || b
  | .xor => a != b
  | .andn => a && !b
  | .not => !a
  | .mov => a

/-- A mask operation works bit by bit. -/
theorem maskLogic_getLsbD (f : MlogOp) (x y : W32) {l : Nat} (hl : l < 32) :
    (maskLogic f x y).getLsbD l = bitLogic f (x.getLsbD l) (y.getLsbD l) := by
  cases f <;> simp [maskLogic, bitLogic, hl]

/-- Settles O9: the reads after writes of each register class, and each move as a unit that writes one register. -/
theorem movesBetweenRegisterClasses : Obligations.MovesBetweenRegisterClasses := by
  unfold Obligations.MovesBetweenRegisterClasses
  refine ⟨fun c x => ?_, fun d q s h => ⟨execKhiRd_ready h, execKhiWr_ready h⟩, fun d r first l s h => ?_,
    fun m a s hm h => execKtom_ready (BitVec.toNat_ne_iff_ne.2 hm) h, fun f md ma mb s hd h => ?_⟩
  case refine_1 =>
    exact ⟨⟨kreg_zero c, rfl⟩, fun l hl => mreg_zero_getLsbD c hl, rfl,
      fun r q hr => kreg_setK_of_ne_zero c hr q x, fun n m hn => mreg_setM_of_ne_zero c hn m x,
      fun r l q j hl hj => vreg_setV c r l q j x hl hj⟩
  case refine_2 =>
    rw [← vtokLane_eq h.unit.some]
    exact fun hp hh => execVtok_ready h hp hh
  case refine_3 =>
    have hd0 : md.toNat ≠ 0 := BitVec.toNat_ne_iff_ne.2 hd
    obtain ⟨t, ht, hc, hread⟩ := execMlog_ready f ma mb hd0 h
    refine ⟨t, ht, hc, fun n hn hne => (hread n hn).trans (if_neg hne), fun l hl => ?_⟩
    rw [hread _ hd0, if_pos rfl]
    exact maskLogic_getLsbD f _ _ hl

end Sys2Proof.Machine

/-! Budgets, device time and the ends of launches (R367, R381, R393). -/

namespace Sys2Proof.Machine

/-! ## Runs that park outside the handler -/

/-- A crew left with no runnable lane gives up its slot, and nothing but slots changes (R121). -/
theorem slotsOnly_leaveIdle (s : State) : s.SlotsOnly s.leaveIdle := by
  unfold State.leaveIdle
  split
  · exact .refl s
  · exact slotsOnly_swapOut s

/-- Lanes that are not in the handler end no team, parked or not (R374). -/
theorem handlerTrap_none_of_not_inHandler (c : Crew) {run : W32} (h : ∀ l ∈ lanesOf run, (c.lane l).inHandler = false) :
    c.handlerTrap run = none := by
  unfold Crew.handlerTrap
  refine List.foldlRecOn (motive := fun acc => acc = none) _ _ rfl fun acc hacc x hx => ?_
  obtain ⟨l, hl, rfl⟩ := List.mem_map.1 hx
  simp [h l hl, hacc]

/-- Without a trap from the handler a unit's end queues, releases and counts in its own crew, and may exchange slots. -/
theorem finish_of_handlerTrap_none {s : State} (u : Bool) (h : s.crew.handlerTrap s.cur.run = none) :
    s.finish u = (s.updCrew fun c => ((c.queueParked s.cur.run s.cur.words u).settle).track s.cur).leaveIdle := by
  unfold State.finish State.settleUnit
  simp only [h]

/-- The end of a unit whose lanes raised no trap in the handler: its frame, and a lane of the run that is not held. -/
theorem finish_spec_of_handlerTrap_none {s : State} (u : Bool) (hc : s.hasCrew s.cur.team s.cur.crew)
    (h : s.crew.handlerTrap s.cur.run = none) :
    s.Keeps (s.finish u) ∧ (s.finish u).crew.regs = s.crew.regs ∧
      ∀ l ∈ lanesOf s.cur.run, l < s.crew.lanes.length → (s.crew.lane l).st ≠ .held →
        (s.finish u).crew.lane l = { s.crew.lane l with age := 0 } := by
  rw [finish_of_handlerTrap_none u h]
  have hslots := slotsOnly_leaveIdle (s.updCrew fun c => ((c.queueParked s.cur.run s.cur.words u).settle).track s.cur)
  refine ⟨(State.Keeps.updCrew s _).trans hslots.keeps, ?_, fun l hl hlen hst => ?_⟩
  · rw [placeless_regs hslots.crew, crew_updCrew hc, track_regs, settle_regs]
    rfl
  · have hq : ((s.crew.queueParked s.cur.run s.cur.words u).lane l).st ≠ .held := hst
    rw [placeless_lane hslots.crew, crew_updCrew hc,
      track_lane _ _ l ((mem_lanesOf _ _).1 hl) (by rw [settle_length]; exact hlen), settle_lane _ l hq, queueParked_lane]

/-- A lane of the mask once the lanes of the mask park. -/
theorem park_lane {c : Crew} {m : W32} {l : Nat} (hl : l ∈ lanesOf m) (hlen : l < c.lanes.length) (cause : Cause)
    (pc : Addr) (addr : Nat → W64) :
    (c.park m cause pc addr).lane l = { c.lane l with
      st := .parked, pc := pc, cause := cause, trapAddr := addr l,
      saved := if (c.lane l).inHandler then (c.lane l).saved else pc } := by
  unfold Crew.park
  rw [updLanes_lane, if_pos ⟨(mem_lanesOf _ _).1 hl, hlen⟩]

/-- The crew of a unit whose whole run parks, with one trap address. -/
def Crew.parkAt (u : Cursor) (cause : Cause) (addr : W64) (c : Crew) : Crew := c.park u.run cause u.pc fun _ => addr

/-- A run parks in its crew, and then its unit ends. -/
theorem parkRun_eq (s : State) (cause : Cause) (addr : W64) (u : Bool) :
    s.parkRun cause addr u = (s.updCrew (Crew.parkAt s.cur cause addr)).finish u := rfl

/-- A run outside the handler parks whole at its unit, which changes no register (R54, R370). -/
theorem parkRun_spec {s : State} (h : s.AtUnit) (hout : ∀ l ∈ lanesOf s.cur.run, (s.crew.lane l).inHandler = false)
    (cause : Cause) (addr : W64) (u : Bool) :
    s.Keeps (s.parkRun cause addr u) ∧ (s.parkRun cause addr u).crew.regs = s.crew.regs ∧
      ∀ l ∈ lanesOf s.cur.run, (s.parkRun cause addr u).crew.lane l = { s.crew.lane l with
        st := .parked, pc := s.cur.pc, cause := cause, trapAddr := addr, saved := s.cur.pc, age := 0 } := by
  have hcrew : (s.updCrew (Crew.parkAt s.cur cause addr)).crew = s.crew.parkAt s.cur cause addr := crew_updCrew h.crew _
  have hlen : ∀ l ∈ lanesOf s.cur.run, l < s.crew.lanes.length := fun l hl => lane_of_runnable (h.lanes l hl).1
  have hlane : ∀ l ∈ lanesOf s.cur.run, (s.crew.parkAt s.cur cause addr).lane l = { s.crew.lane l with
      st := .parked, pc := s.cur.pc, cause := cause, trapAddr := addr, saved := s.cur.pc } := fun l hl => by
    unfold Crew.parkAt
    rw [park_lane hl (hlen l hl), if_neg (by simp [hout l hl])]
  have htrap : (s.updCrew (Crew.parkAt s.cur cause addr)).crew.handlerTrap s.cur.run = none := by
    refine handlerTrap_none_of_not_inHandler _ fun l hl => ?_
    rw [hcrew, hlane l hl]
    exact hout l hl
  have hhas : (s.updCrew (Crew.parkAt s.cur cause addr)).hasCrew s.cur.team s.cur.crew := (hasCrew_updCrewOf ..).2 h.crew
  obtain ⟨hkeeps, hregs, hfin⟩ := finish_spec_of_handlerTrap_none u hhas htrap
  rw [parkRun_eq]
  rw [hcrew] at hregs hfin
  refine ⟨(State.Keeps.updCrew s _).trans hkeeps, hregs, fun l hl => ?_⟩
  have hlen' : l < (s.crew.parkAt s.cur cause addr).lanes.length := (updLanes_length ..).symm ▸ hlen l hl
  rw [hfin l hl hlen' (by simp [hlane l hl]), hlane l hl]

/-! ## Values read from a clock or a budget -/

/-- A launch that neither records nor replays reads such a value as it is, and nothing else happens (R397). -/
theorem timedRead_of_noSheet {s : State} (h : s.noSheet) (v : W64) : s.timedRead v = (s, v) := by
  unfold State.timedRead
  cases hx : s.launch? s.team.launch with
  | none => simp only [hx]
  | some x =>
    obtain ⟨hrec, hrep⟩ := h x (List.mem_of_find?_eq_some hx)
    simp [State.record, hx, hrec, hrep]

/-- EXPO.RD, when it is ready, writes the value it selects. -/
theorem execExpoRd_ready {s : State} (hs : s.noSheet) {d : BitVec 8} (act : BitVec 3) (pick : BitVec 2)
    (h : s.UniformReady { k := [d.toNat] }) :
    ∃ t, exec (.expoRd d act pick) s = .next t ∧ s.Completed t { s.crew with k := t.crew.k } ∧
      ∀ r, t.crew.kreg r = if r = 0 then 0#32 else if r = d.toNat then s.expoValue act.toNat pick.toNat
        else s.crew.kreg r := by
  obtain ⟨hc, hread⟩ := (updCrew_done_spec s (fun c => c.setK d.toNat (s.expoValue act.toNat pick.toNat)) true h.unit
    (Crew.setK_lanes ..)).of_setK
  refine ⟨_, ?_, hc, fun r => (hread r).trans (kreg_setK ..)⟩
  show execExpoRd d act pick s = _
  unfold execExpoRd
  rw [uniformUnit_ready _ h, timedRead_of_noSheet hs]
  dsimp only
  rw [BitVec.setWidth_append_eq_right]

/-- The words of the device time, which a pair of registers takes. -/
theorem timeNs_words (s : State) :
    s.timeNs.setWidth 32 = BitVec.ofNat 32 (s.dev.clocks * 5 / 6) ∧
      s.timeNs.extractLsb' 32 32 = BitVec.ofNat 32 (s.dev.clocks * 5 / 6 / 2 ^ 32) := by
  unfold State.timeNs
  generalize s.dev.clocks * 5 / 6 = ns
  refine ⟨BitVec.setWidth_ofNat_of_le (by decide) ns, BitVec.eq_of_toNat_eq ?_⟩
  rw [BitVec.extractLsb'_toNat, BitVec.toNat_ofNat, BitVec.toNat_ofNat, Nat.shiftRight_eq_div_pow]
  omega

/-- Two writes of k registers change only the uniform registers. -/
theorem setK_setK_only (c : Crew) (r q : Nat) (x y : W32) :
    (c.setK r x).setK q y = { c with k := ((c.setK r x).setK q y).k } := by
  rw [setK_only (c.setK r x), setK_only c]

/-- TIME, when it is ready, writes the device time to its pair, low word first. -/
theorem execTime_ready {s : State} (hs : s.noSheet) {d : BitVec 8}
    (h : s.UniformReady { k := [d.toNat, d.toNat + 1] }) :
    ∃ t, exec (.time d) s = .next t ∧ s.Completed t { s.crew with k := t.crew.k } ∧
      ∀ r, t.crew.kreg r = if r = 0 then 0#32 else if r = d.toNat + 1 then s.timeNs.extractLsb' 32 32
        else if r = d.toNat then s.timeNs.setWidth 32 else s.crew.kreg r := by
  have hc := updCrew_done_spec s
    (fun c => (c.setK d.toNat (s.timeNs.setWidth 32)).setK (d.toNat + 1) (s.timeNs.extractLsb' 32 32)) true h.unit
    ((Crew.setK_lanes ..).trans (Crew.setK_lanes ..))
  have hk := k_eq_of_regs_eq hc.regs
  refine ⟨_, ?_, ⟨hc.keeps, ?_, hc.past⟩, fun r => ?_⟩
  · show execTime d s = _
    unfold execTime
    rw [uniformUnit_ready _ h, timedRead_of_noSheet hs]
  · rw [hc.regs, setK_setK_only, ← hk]
  · rw [Crew.kreg, hk, ← Crew.kreg, kreg_setK, kreg_setK]
    by_cases hr : r = 0 <;> simp [hr]

/-- BRKT, when it is ready, writes whether the team is bracketed. -/
theorem execBrkt_ready {s : State} {d a : BitVec 8} (h : s.UniformReady { k := [d.toNat, a.toNat] }) :
    ∃ t, exec (.brkt d a) s = .next t ∧ s.Completed t { s.crew with k := t.crew.k } ∧
      ∀ r, t.crew.kreg r = if r = 0 then 0#32 else if r = d.toNat then (if s.team.bracket then 1#32 else 0#32)
        else s.crew.kreg r := by
  obtain ⟨hc, hread⟩ := (updCrew_done_spec s (fun c => c.setK d.toNat (if s.team.bracket then 1#32 else 0#32)) true h.unit
    (Crew.setK_lanes ..)).of_setK
  refine ⟨_, ?_, hc, fun r => (hread r).trans (kreg_setK ..)⟩
  show execBrkt d a s = _
  unfold execBrkt
  rw [uniformUnit_ready _ h]
  cases s.team.bracket <;> rfl

/-! ## The end of a launch -/

/-- A team when a launch ends: one of the launch's own ends with it. -/
def Team.endWith (launch : Nat) (t : Team) : Team := if t.launch = launch then { t with phase := .ending } else t

theorem endAllTeams_teams (s : State) (launch : Nat) (w : W32) :
    (s.endAllTeams launch w).ctx.teams = s.ctx.teams.map (Team.endWith launch) := rfl

@[simp] theorem endWith_id (launch : Nat) (t : Team) : (t.endWith launch).id = t.id := by
  unfold Team.endWith; split <;> rfl

@[simp] theorem endWith_crews (launch : Nat) (t : Team) : (t.endWith launch).crews = t.crews := by
  unfold Team.endWith; split <;> rfl

@[simp] theorem endWith_launch (launch : Nat) (t : Team) : (t.endWith launch).launch = t.launch := by
  unfold Team.endWith; split <;> rfl

theorem team?_endAllTeams (s : State) (launch : Nat) (w : W32) (id : Nat) :
    (s.endAllTeams launch w).team? id = (s.team? id).map (Team.endWith launch) := by
  have hid : (fun t : Team => t.id == id) ∘ Team.endWith launch = fun t => t.id == id := by
    funext t; simp
  unfold State.team?
  rw [endAllTeams_teams, List.find?_map, hid]

/-- The end of a launch changes phases only: the crew of the unit stands as it did. -/
theorem endAllTeams_crew (s : State) (launch : Nat) (w : W32) : (s.endAllTeams launch w).crew = s.crew := by
  have hcur : (s.endAllTeams launch w).cur = s.cur := rfl
  unfold State.crew State.team
  rw [hcur, team?_endAllTeams]
  cases s.team? s.cur.team with
  | none => rfl
  | some t => simp

/-- Every team of the launch ends (R381). -/
theorem endAllTeams_ending {s : State} {launch : Nat} {w : W32} {u : Team} (hu : u ∈ (s.endAllTeams launch w).ctx.teams)
    (hl : u.launch = launch) : u.phase = .ending := by
  rw [endAllTeams_teams] at hu
  obtain ⟨t, -, rfl⟩ := List.mem_map.1 hu
  rw [endWith_launch] at hl
  unfold Team.endWith
  rw [if_pos hl]

/-- No saved team of the launch is left (R381). -/
theorem endAllTeams_saved {s : State} {launch : Nat} {w : W32} {y : SavedTeam} (hy : y ∈ (s.endAllTeams launch w).ctx.saved) :
    y.team.launch ≠ launch := by
  have h := (List.mem_filter.1 (show y ∈ s.ctx.saved.filter _ from hy)).2
  simpa using h

/-- A launch after it is changed. -/
theorem launch?_updLaunch (s : State) (id : Nat) {f : Launch → Launch} (hf : ∀ x, (f x).id = x.id) :
    (s.updLaunch id f).launch? id = (s.launch? id).map f := by
  refine (find?_updateFirst _ _ f (fun x => by simp only [hf]) s.ctx.launches fun _ h => .inl h).trans ?_
  show (s.launch? id).map _ = _
  cases hx : s.launch? id with
  | none => rfl
  | some x => exact congrArg some (if_pos (List.find?_some hx))

/-- A launch that ends keeps its first status word (R352, R373). -/
theorem launch?_endLaunch (s : State) (id : Nat) (w : W32) :
    (s.endLaunch id w).launch? id = (s.launch? id).map fun x => { x with word := some (x.word.getD w) } := by
  unfold State.endLaunch
  rw [launch?_updLaunch]
  case hf => exact fun _ => rfl
  congr 1
  funext x
  cases x.word <;> rfl

/-- The launch ends with its teams. -/
theorem launch?_endAllTeams (s : State) (launch : Nat) (w : W32) : (s.endAllTeams launch w).launch? launch =
    (s.launch? launch).map fun x => { x with word := some (x.word.getD w) } :=
  launch?_endLaunch ..

/-- HALT, when it is ready in a privileged context, is the end of its unit and then of its launch with 0x06. -/
theorem execHalt_privileged {s : State} (h : s.UniformReady {}) (hp : s.ctx.privileged = true) :
    exec .halt s = .next ((s.done true).endAllTeams s.team.launch 6#32) := by
  show execHalt s = _
  unfold execHalt State.privCheck
  rw [hp, if_pos rfl, uniformUnit_ready _ h]

/-- HALT in an unprivileged context parks its run with PRIV. -/
theorem execHalt_unprivileged {s : State} (hp : s.ctx.privileged = false) :
    exec .halt s = .next (s.parkRun .priv 0#64 true) := by
  show execHalt s = _
  unfold execHalt State.privCheck
  rw [hp, if_neg Bool.false_ne_true, uniformUnit_cause]

/-- Settles O50: EXPO.RD, TIME and BRKT each as a unit that writes uniform registers, HALT as the end of a unit and of its
launch, or as a run that parks. -/
theorem budgetsTimeAndEndsOfLaunches : Obligations.BudgetsTimeAndEndsOfLaunches := by
  unfold Obligations.BudgetsTimeAndEndsOfLaunches
  intro s hs
  refine ⟨fun d act h => ⟨execExpoRd_ready hs act 0#2 h, execExpoRd_ready hs act 1#2 h, execExpoRd_ready hs act 2#2 h⟩,
    fun d h => ?_, fun d a h => execBrkt_ready h, fun h hp => ?_, fun h hp hout => ?_⟩
  case refine_1 =>
    obtain ⟨hlo, hhi⟩ := timeNs_words s
    obtain ⟨t, ht, hc, hread⟩ := execTime_ready hs h
    rw [hlo, hhi] at hread
    exact ⟨t, ht, hc, hread⟩
  case refine_2 =>
    obtain ⟨hkeeps, hregs, hpast⟩ := done_spec s true h.unit
    have hexec := execHalt_privileged h hp
    generalize s.done true = d at hkeeps hregs hpast hexec
    have hcrew := endAllTeams_crew d s.team.launch 6#32
    have hmem : d.mem = s.mem := by rw [hkeeps.outside]
    have hlaunch : d.launch? s.team.launch = s.launch? s.team.launch := by rw [hkeeps.outside]; rfl
    refine ⟨_, hexec, hmem, fun l hl => ?_, ?_, fun u => endAllTeams_ending, fun y => endAllTeams_saved, fun x hx => ?_⟩
    · rw [hcrew]; exact hpast l hl
    · rw [hcrew]; exact hregs
    · rw [launch?_endAllTeams, hlaunch, hx]; rfl
  case refine_3 =>
    obtain ⟨hkeeps, hregs, hlane⟩ := parkRun_spec h hout .priv 0#64 true
    refine ⟨_, execHalt_unprivileged hp, hkeeps, hregs, fun l hl => ?_⟩
    rw [hlane l hl]
    exact ⟨rfl, rfl⟩

end Sys2Proof.Machine
